-- ==== Sys2Proof/Word.lean ====
section
/-! DEFINITION. Words and bytes of the Bredane 3120 (00_scope, "Words and doubles"). -/

namespace Sys2Proof

/-- A byte: half a word, or one byte of a frame on a line. -/
abbrev Byte := BitVec 8

/-- A word is 16 bits (00_scope). -/
abbrev Word := BitVec 16

/-- A word from a natural number, modulo 65,536. -/
abbrev word (n : Nat) : Word := BitVec.ofNat 16 n

/-- A byte from a natural number, modulo 256. -/
abbrev byte (n : Nat) : Byte := BitVec.ofNat 8 n

/-- The high byte of a word, bits 15 to 8. -/
def Word.high (w : Word) : Byte := w.extractLsb' 8 8

/-- The low byte of a word, bits 7 to 0. -/
def Word.low (w : Word) : Byte := w.extractLsb' 0 8

/-- The word with the given high and low bytes. -/
def Word.ofBytes (hi lo : Byte) : Word := hi ++ lo

/-- Bits `lo` to `lo + len - 1` of a word, as a number. -/
def Word.bits (w : Word) (lo len : Nat) : Nat := w.toNat / 2 ^ lo % 2 ^ len

/-- Bit `k` of a word. -/
def Word.bit (w : Word) (k : Nat) : Bool := w.getLsbD k

end Sys2Proof
end

