-- ==== Sys2Proof/Config.lean ====
section
/-! DEFINITION. The constants the manual fixes for the part: capacities and durations.
The manual leaves no value open that a step produces, so there is no free value here. -/

namespace Sys2Proof.Config

/-- Instruments are numbered from 0 to 2,047 (R21). -/
def instruments : Nat := 2048
/-- The placement table holds up to 1,024 placements (R79). -/
def placements : Nat := 1024
/-- A print queue never holds more than 256 entries (R113). -/
def queueCapacity : Nat := 256
/-- A merged list holds 1 to 8 triples (R113). -/
def mergeCapacity : Nat := 8
/-- The renderer takes an entry when the FIFO holds 15 characters or fewer (R125). -/
def fifoRoom : Nat := 15
/-- The holding queue holds up to 8 items (R185). -/
def holdingCapacity : Nat := 8
/-- The recent print history holds 0 to 4 entries (R29). -/
def historyCapacity : Nat := 4
/-- A terminal holds at most 4 watches (R59, R134). -/
def watchCapacity : Nat := 4
/-- A page stack holds at most 4 entries (R147). -/
def stackCapacity : Nat := 4
/-- The reply window of a board frame, in milliseconds (R98). -/
def boardWindow : Nat := 20
/-- The reply window of a POLL, in milliseconds (R136). -/
def pollWindow : Nat := 30
/-- A DARK or silent module is polled again after this many milliseconds (R105, R106). -/
def modulePollDelay : Nat := 5000
/-- An OFFLINE terminal is polled again after this many milliseconds (R139, R140). -/
def offlinePollDelay : Nat := 4000
/-- An ASLEEP terminal is polled again after this many milliseconds (R141). -/
def asleepPollDelay : Nat := 2000
/-- A night delay is counted in minutes of 60,000 milliseconds (R68). -/
def minuteMs : Nat := 60000
/-- END, the end of a chain of cells (00_scope, Cell indices). -/
def endLink : Word := 0xFFFF

end Sys2Proof.Config
end

