-- ==== Sys2Proof/Syntax.lean ====
section
/-! DEFINITION. The commands of the part: one constructor of `Instr` for each row of spec/opcode_table.json, in the table's
order. The table gives the rows no fields; the operands here are what the environment decides at the step (log 4). -/

namespace Sys2Proof

/-- What the bus does with one attempt of one access (R164, R165). -/
inductive Attempt where
  /-- The bus completes the attempt without fault. -/
  | completes
  /-- The attempt is not completed within 16 microseconds. `reached` says whether the write of a write or of an interlocked
  cycle reached memory all the same (R165, R184). -/
  | timesOut (reached : Bool)
  /-- The read is completed with a parity fault; `seen` is the word as it was read (R41, R164). -/
  | faults (seen : Word)
deriving DecidableEq, Repr

/-- One word the host stores into the common area (00_scope, "How the host reaches the part"). -/
structure HostWrite where
  /-- The word offset in the common area. -/
  offset : Word
  /-- The word stored. -/
  value : Word
deriving DecidableEq, Repr

/-- The two tape units (R112). -/
inductive TapeId where
  | a
  | b
deriving DecidableEq, Repr

/-- The two suppliers of a tape unit whose arrivals may be taken in either order (R193): intake together with the texts of
a session change, and the feed watch with its "QUOTES DELAYED". -/
inductive Supplier where
  | intake
  | feedWatch
deriving DecidableEq, Repr

/-- The commands: one constructor per row of the table. `h` is what the host stored into the common area since the last
command; it is stored before the step begins (log 4). -/
inductive Instr where
  | powerOnReset
  | pinReset
  | softReset
  /-- A write of `w` to the AREA BASE register (R162). -/
  | areaBase (w : Word)
  | start (h : List HostWrite)
  | nudge (h : List HostWrite)
  | quiesce
  | resume (h : List HostWrite)
  | restartIntake (h : List HostWrite)
  /-- A write to CONTROL of a word `w` that names none of the six commands (R177). -/
  | unknownCommand (w : Word)
  /-- A write of `w` to the ERROR register (R177). -/
  | errorFlagClear (w : Word)
  /-- A write to VECTOR of a word `w` with bit 15 set (R191). -/
  | setBase (w : Word)
  /-- A write to VECTOR of a word `w` with bit 15 clear (R191). -/
  | acknowledgeGroup (w : Word)
  /-- The host acknowledges an interrupt at a level, 1 to 7 (R190). -/
  | interruptAcknowledge (level : Fin 8)
  /-- The bus meets the coming attempts of the part's accesses as told, in order (R164, log 5). -/
  | busTimeout (attempts : List Attempt)
  /-- A feed poll tick; `noticeFirst` says which of intake and the notice unit takes it first (R169, R180, log 30). -/
  | feedPollTick (h : List HostWrite) (noticeFirst : Bool)
  | trade (h : List HostWrite)
  | quote (h : List HostWrite)
  | cancel (h : List HostWrite)
  | summary (h : List HostWrite)
  | halt (h : List HostWrite)
  | resumePosting (h : List HostWrite)
  | define (h : List HostWrite)
  | session (h : List HostWrite)
  | tapeText (h : List HostWrite)
  | text (h : List HostWrite)
  | setPage (h : List HostWrite)
  | lock (h : List HostWrite)
  | unlock (h : List HostWrite)
  | clearStack (h : List HostWrite)
  | setWatch (h : List HostWrite)
  | clearWatches (h : List HostWrite)
  | remap (h : List HostWrite)
  | remapLineFinished (h : List HostWrite)
  | snapshot (h : List HostWrite)
  | mark (h : List HostWrite)
  | timeOfDayAdvance
  | nightTimer
  | feedQuiet
  | feedLost
  | changeEvent (h : List HostWrite)
  | sessionEvent (h : List HostWrite)
  | feedStageEvent
  | highlightExpiry (h : List HostWrite)
  | nightSet (line : Fin 4)
  | nightClear (line : Fin 4)
  | chooseNextFrame (line : Fin 4)
  | boardFrameSent (line : Fin 4)
  /-- Bytes 1 and 2 of an ACCEPT that reaches a board line (R98, chapter 11). -/
  | accept (line : Fin 4) (address check : Byte)
  | reject (line : Fin 4) (address check : Byte)
  | statusReply (line : Fin 4) (address width check : Byte)
  | replyWindow (line : Fin 4)
  | pollTimer (line : Fin 4) (m : Fin 32)
  | printArrival (tape : TapeId)
  | cancelArrival (tape : TapeId)
  | noteArrival (tape : TapeId)
  | textArrival (tape : TapeId) (supplier : Supplier)
  | renderEntry (tape : TapeId)
  | ribbonCharacter (tape : TapeId)
  | terminalChangeEvent (t : Fin 16)
  | terminalSessionEvent (t : Fin 16)
  | terminalFeedStageEvent (t : Fin 16)
  | timeEvent (t : Fin 16)
  | terminalNightSet (t : Fin 16)
  | terminalNightClear (t : Fin 16)
  | watchCheck (t : Fin 16)
  | visit (line : Fin 2)
  | terminalFrameSent (line : Fin 2)
  /-- Bytes 1 to 3 of a KEY that reaches a terminal line (R136, chapter 11). -/
  | key (line : Fin 2) (address keyByte check : Byte)
  | idle (line : Fin 2) (address check : Byte)
  | pollReplyWindow (line : Fin 2)
  | terminalPollTimer (t : Fin 16)
  | pageLoadComplete (t : Fin 16) (h : List HostWrite)
  | startDone (h : List HostWrite)
  | notice (h : List HostWrite)
  | keyEntryRead (t : Fin 16) (h : List HostWrite)
deriving DecidableEq, Repr

end Sys2Proof
end

