-- ==== Sys2Proof/WellFormed.lean ====
section
/-! DEFINITION. Which terms of `Instr` spell a command of their row. -/

namespace Sys2Proof

/-- A CONTROL word that names none of the six commands 1 to 6 (R177, chapter 11). -/
def namesNoCommand (w : Word) : Bool := w == 0 || decide (6 < w.toNat)

/-- A term is well formed when its operands are ones its row can have: a VECTOR write with bit 15 as the row says (R191), a
CONTROL word that names no command for UNKNOWN_COMMAND (R177), an interrupt level of 1 to 7 (R190). Every other operand is
right by its type. -/
def Instr.wellFormed : Instr → Bool
  | .unknownCommand w => namesNoCommand w
  | .setBase w => w.bit 15
  | .acknowledgeGroup w => !w.bit 15
  | .interruptAcknowledge level => level != 0
  | _ => true

end Sys2Proof
end

