-- ==== Sys2Proof/Machine/State.lean ====
section
/-! DEFINITION. State of the Bredane 3120 as plain data: every piece of state the spec gives the part, block by block
(INVENTORY.md lists each with its rule), and `State.reset`. -/

namespace Sys2Proof.Machine

/-! ## Values -/

/-- A price is a whole number of ticks from 0 to 16,777,215 (00_scope, R24). -/
abbrev Price := Fin 16777216
/-- A volume is 0 to 4,294,967,295 shares (R27). -/
abbrev Volume := Fin 4294967296
/-- A time of day is 0 to 863,999 deciseconds since midnight (00_scope, R70). -/
abbrev Tod := Fin 864000
/-- An instrument index, 0 to 2,047 (R21). -/
abbrev Ix := Fin 2048

/-- The ten price modes (R2). -/
inductive Mode where
  | fraction2 | fraction4 | fraction8 | fraction16 | fraction32 | fraction64
  | decimal0 | decimal1 | decimal2 | decimal3
deriving DecidableEq, Repr

/-- The state of an instrument record (R22). -/
inductive RecState where
  | undefined | active | halted
deriving DecidableEq, Repr

/-- The halt reasons (R51). -/
inductive HaltReason where
  | news | imbalance | other
deriving DecidableEq, Repr

/-- The tick direction of a record and the highlight of a placement (R26, R89). -/
inductive TickDir where
  | none | up | down
deriving DecidableEq, Repr

/-- One entry of the recent print history (R29). -/
structure PrintEntry where
  id : Word
  price : Price
  volume : Volume
  cancelled : Bool
deriving DecidableEq, Repr

/-- A tape reference: the tens part of the last whole part rendered, and the tape's epoch then (R34). -/
structure TapeRef where
  tens : Nat
  epoch : Word
deriving DecidableEq, Repr

/-- An instrument record (R21). -/
structure Record where
  state : RecState
  symbol : List Byte
  mode : Mode
  tape : Option TapeId
  prevClose : Option Price
  openPx : Option Price
  highPx : Option Price
  lowPx : Option Price
  lastPx : Option Price
  tick : TickDir
  volume : Volume
  bidPx : Option Price
  askPx : Option Price
  bidSize : Word
  askSize : Word
  haltReason : Option HaltReason
  history : List PrintEntry
  printTime : Option Tod
  chainHead : Option Nat
  tapeRef : Option TapeRef
  interest : Vector Bool 16
  watchMask : Vector Bool 16
deriving DecidableEq, Repr

/-- The values a record holds after every reset (R36). -/
def Record.reset : Record where
  state := .undefined
  symbol := []
  mode := .decimal0
  tape := none
  prevClose := none
  openPx := none
  highPx := none
  lowPx := none
  lastPx := none
  tick := .none
  volume := 0
  bidPx := none
  askPx := none
  bidSize := 0
  askSize := 0
  haltReason := none
  history := []
  printTime := none
  chainHead := none
  tapeRef := none
  interest := Vector.replicate 16 false
  watchMask := Vector.replicate 16 false

/-- The names of the changed-field set (R39). -/
inductive ChangedField where
  | state | symbol | mode | tape | previousClose | opening | high | low | last | tick | volume | bid | ask
  | bidSize | askSize | haltReason | history | printTime
deriving DecidableEq, Repr

/-- A change event (R40): instrument, changed-field set, and the trade mark with the tick direction after the trade. -/
structure ChangeEvent where
  instr : Ix
  fields : List ChangedField
  mark : Option TickDir
deriving DecidableEq, Repr

/-! ## Session unit -/

/-- The market session (R63). -/
inductive SessionState where
  | preOpen | opened | marketHalt | closed
deriving DecidableEq, Repr

/-- The feed stage (R63). -/
inductive FeedStage where
  | live | quiet | lost
deriving DecidableEq, Repr

/-- What the session unit holds (R63). A timer is `none` when stopped. -/
structure SessionUnit where
  state : SessionState
  night : Bool
  nightTimer : Option Nat
  tod : Option Tod
  fraction : Nat
  stage : FeedStage
  feedTimer : Option Nat
  delayAnnounced : Bool
deriving DecidableEq, Repr

/-- The session unit after a reset (R63). -/
def SessionUnit.reset : SessionUnit where
  state := .closed
  night := false
  nightTimer := none
  tod := none
  fraction := 0
  stage := .live
  feedTimer := none
  delayAnnounced := false

/-! ## Bus interface, registers and interrupt groups -/

/-- The controller states, but that QUIESCED is RUNNING with intake QUIESCED (R174): see `State.controllerState`. -/
inductive Phase where
  | unset | ready | checking | running
deriving DecidableEq, Repr

/-- The controller states as CONTROL reads them (R177). -/
inductive ControllerState where
  | unset | ready | checking | running | quiesced
deriving DecidableEq, Repr

/-- Which reset came last (R178). -/
inductive ResetSource where
  | power | pin | soft
deriving DecidableEq, Repr

/-- The ten ERROR flags (R177). -/
inductive ErrorFlag where
  | layoutRange | layoutConflict | parameter | startCell | busTimeout | parity | chainBroken | poolExhausted | tableFault
  | commandRefused
deriving DecidableEq, Repr

/-- The state of an interrupt group (R188). -/
inductive GroupState where
  | idle | requesting | inService
deriving DecidableEq, Repr

/-- An interrupt group: level, state and pending mark (R180, R188). -/
structure Group where
  level : Fin 8
  state : GroupState
  marked : Bool
deriving DecidableEq, Repr

/-- The five groups of notices, codes 1 to 5 (R179). -/
inductive GroupId where
  | system | feed | board | tape | terminal
deriving DecidableEq, Repr

/-- The bus interface: the host's memory, what the bus will do with the coming attempts, the four registers, and the
interrupt groups that the ERROR flags and the VECTOR register act on. -/
structure Bus where
  /-- The host's memory, in canonical form (`Memory.wf`): byte addresses rising, no byte of 0 listed (log 6). -/
  mem : List Host.Cell
  /-- The model's own: the outcomes of the coming attempts; every attempt past the list completes (log 5). -/
  script : List Attempt
  phase : Phase
  /-- Area-set flag and base number (R162). -/
  area : Option (BitVec 7)
  /-- Vector-set flag and vector base (R191). -/
  vectorBase : Option (BitVec 4)
  resetSource : ResetSource
  /-- The last command result is REFUSED (R177). -/
  refused : Bool
  /-- The ERROR register (R177, chapter 11). -/
  error : Word
  groups : Vector Group 5
  /-- The model's own output latch: the vector last supplied (R190, log 25). -/
  vectorOut : Option Byte
deriving DecidableEq, Repr

/-- The groups after a reset: SYSTEM at level 7, the others at 0, all IDLE and unmarked (R180). -/
def Group.resetAll : Vector Group 5 :=
  #v[⟨7, .idle, false⟩, ⟨0, .idle, false⟩, ⟨0, .idle, false⟩, ⟨0, .idle, false⟩, ⟨0, .idle, false⟩]

/-- The bus interface after power-on reset (R178). -/
def Bus.reset : Bus where
  mem := []
  script := []
  phase := .unset
  area := none
  vectorBase := none
  resetSource := .power
  refused := false
  error := 0
  groups := Group.resetAll
  vectorOut := none

/-! ## Parameters accepted by START -/

/-- The anchor's host words as START accepted and clamped them (R163, R167), but for those the tapes and lines hold. -/
structure Params where
  poolOffset : Word
  cellCount : Nat
  bitmapOffset : Word
  postingStart : Nat
  noticeStart : Nat
  boardMap : Word
  formatTable : Word
  keyTable : Word
  feedPoll : Nat
  t1 : Nat
  t2 : Nat
  highlight : Nat
  nightDelay : Nat
deriving DecidableEq, Repr

/-- No rule gives the parameters a value before START; nothing reads them then (DESIGN CHOICE, log 7). -/
def Params.reset : Params :=
  ⟨0, 0, 0, 0, 0, 0, 0, 0, 0, 0, 0, 0, 0⟩

/-! ## Feed intake -/

/-- The states of intake (R169). -/
inductive IntakeState where
  | stopped | waiting | taking | applying | quiesced
deriving DecidableEq, Repr

/-- What feed intake holds (R169, R44, R171, R175). -/
structure Intake where
  state : IntakeState
  current : Option Nat
  taken : Bool
  lastSeq : Option Word
  quiescePending : Bool
  nudged : Bool
  /-- A RESTART INTAKE waits for the posting in hand to be written TAKEN (R175). -/
  restartPending : Bool
  /-- The posting in hand has been applied or refused and its TAKEN write is owed (R171). -/
  owed : Bool
  /-- The sequence of the posting in hand, for the feed watch (R74). -/
  seqInHand : Word
  /-- POSTINGS TAKEN (R43). -/
  postingsTaken : Word
  /-- The feed poll tick: stopped, or the next time it is due (R169, R178). -/
  feedTick : Option Nat
deriving DecidableEq, Repr

/-- Intake after a reset (R169, R178). -/
def Intake.reset : Intake :=
  ⟨.stopped, none, false, none, false, false, false, false, 0, 0, none⟩

/-! ## Notices -/

/-- The reasons a posting is refused (R42). -/
inductive Reason where
  | undefinedInstrument | badIndex | halted | wrongSession | badSummary | badKind | badField | duplicate | parity
deriving DecidableEq, Repr

/-- Which chain a CHAIN BROKEN notice is about (R173, R183). -/
inductive ChainSource where
  | posting | notice
deriving DecidableEq, Repr

/-- The reasons of a CHAIN BROKEN notice (R173, R183). -/
inductive BreakReason where
  | badState | parity | linkRange | linkSelf | linkUnallocated | tailFreed
deriving DecidableEq, Repr

/-- ABOVE or BELOW (R59). -/
inductive Direction where
  | above | below
deriving DecidableEq, Repr

/-- The kind of entry an arrival would have made (R120). -/
inductive EntryKind where
  | trade | cancel | haltNote | resumeNote | text
deriving DecidableEq, Repr

/-- The kinds of notice with their bodies (R179; the producing rules name the fields). -/
inductive NoticeBody where
  | startDone (source : ResetSource) (modules terminals : Nat)
  | tableFaultRemap (line : Fin 4) (count : Nat)
  | tableFaultTerminal (t : Fin 16) (offset : Word)
  | chainBroken (source : ChainSource) (cell : Nat) (read : Option Word) (reason : BreakReason)
  | boardMapFull (line : Fin 4) (count : Nat)
  | postingRefused (seq kind : Word) (reason : Reason)
  | sequenceGap (expected received : Word)
  | feedQuiet (t1 : Nat) (last : Option Word)
  | feedLost (t2 : Nat) (last : Option Word)
  | feedResumed (seconds : Nat) (seq : Option Word)
  | markReached (tag seq : Word)
  | snapshotPrices (instr : Ix) (state : RecState) (tick : TickDir) (reason : Option HaltReason)
      (prevClose openPx highPx lowPx lastPx : Option Price) (time : Option Tod)
  | snapshotQuote (instr : Ix) (bidPx askPx : Option Price) (bidSize askSize : Word) (volume : Volume)
  | moduleLost (line : Fin 4) (m : Fin 32)
  | moduleBack (line : Fin 4) (m : Fin 32) (width : Byte)
  /-- The lateness, in whole minutes (R123, R133), stands in the word after the epoch (DESIGN CHOICE, log 34). -/
  | tapeLevel (tape : TapeId) (before after : Fin 4) (backlog : Nat) (epoch : Word) (lateness : Nat)
  | tapeOmission (tape : TapeId) (kind : EntryKind) (instr : Option Ix) (price : Option Price) (id : Option Word)
      (time : Option Tod)
  | terminalKey (t : Fin 16) (key : Fin 64) (page : Option Word)
  | terminalOffline (t : Fin 16)
  | terminalOnline (t : Fin 16)
  | watchTripped (t : Fin 16) (instr : Ix) (level : Price) (dir : Direction) (last : Price)
deriving DecidableEq, Repr

/-- An item of the holding queue: one notice, or the two of one SNAPSHOT (R185, R187), with the time it was handed over
and its repeat count (R179). -/
structure Item where
  parts : List NoticeBody
  time : Option Tod
  repeats : Word
deriving DecidableEq, Repr

/-- The states of the notice unit (R180). -/
inductive UnitState where
  | idle | writing | held
deriving DecidableEq, Repr

/-- The notice in hand: the notices of the item still to be linked, the cells claimed for them in that order, and whether
the first of them has been written whole into its cell (R180, R184, R187). -/
structure InHand where
  item : Item
  cells : List Nat
  written : Bool
deriving DecidableEq, Repr

/-- What the notice unit holds (R180), with its counters (R163) and the items handed to it and not yet taken (log 2). -/
structure NoticeUnit where
  unit : UnitState
  inHand : Option InHand
  holding : List Item
  tail : Option Nat
  search : Option Nat
  startDone : Bool
  count : Word
  lost : Word
  restarts : Word
  inbox : List Item
deriving DecidableEq, Repr

/-- The notice unit after a reset (R180). -/
def NoticeUnit.reset : NoticeUnit :=
  ⟨.idle, none, [], none, none, false, 0, 0, 0, []⟩

/-! ## Board formatter -/

/-- The field kinds of a placement (R77, R83). -/
inductive FieldKind where
  | symbol | last | change | tick | bid | ask | volume | high | low | opening | status
deriving DecidableEq, Repr

/-- One placement of the placement table (R79). -/
structure Placement where
  line : Fin 4
  module : Fin 32
  start : Nat
  width : Nat
  kind : FieldKind
  format : Fin 32
  instr : Ix
  /-- The next placement of the same instrument, or none for END. -/
  next : Option Nat
  highlight : Option TickDir
deriving DecidableEq, Repr

/-- One entry of the highlight timer list (R89). -/
structure TimerEntry where
  placement : Nat
  expiry : Nat
deriving DecidableEq, Repr

/-- What a REMAP was run for (R94). -/
inductive RemapCause where
  | start | posting
deriving DecidableEq, Repr

/-- A REMAP in progress: the line under REMAP and the lines that follow it (R92, R94). -/
structure RemapJob where
  line : Fin 4
  after : List (Fin 4)
  cause : RemapCause
deriving DecidableEq, Repr

/-- What the board formatter holds (R79, R89, R94, R95), with the events handed to it and not yet taken (log 2). The
images stand in the board modules. -/
structure Formatter where
  table : List (Nat × Option Placement)
  timers : List TimerEntry
  remap : Option RemapJob
  held : List NoticeBody
  changes : List ChangeEvent
  sessionEvents : List SessionState
  stageEvents : List FeedStage
deriving DecidableEq, Repr

/-- The board formatter after a reset (R95). -/
def Formatter.reset : Formatter :=
  ⟨[], [], none, [], [], [], []⟩

/-! ## Board lines -/

/-- The colours of a board cell (R82). -/
inductive Colour where
  | white | green | red | amber
deriving DecidableEq, Repr

/-- The attribute of a board cell (R82). -/
structure Attr where
  colour : Colour
  blink : Bool
  dim : Bool
deriving DecidableEq, Repr

/-- A cell of a module image: glyph code and attribute (R82). -/
structure BoardCell where
  glyph : Byte
  attr : Attr
deriving DecidableEq, Repr

/-- A blank cell is a space in WHITE with blink and dim off (R82). -/
def BoardCell.blank : BoardCell := ⟨0x20, ⟨.white, false, false⟩⟩

/-- A range of board cells, first and last (R96). -/
structure Range where
  first : Nat
  last : Nat
deriving DecidableEq, Repr

/-- The widths of a module (R76). -/
inductive Width where
  | w16 | w24 | w32
deriving DecidableEq, Repr

/-- The line states of a module (R96). -/
inductive ModState where
  | unknown | live | dark
deriving DecidableEq, Repr

/-- A poll timer: stopped, running to its due time, or due (R96, R134, log 22). -/
inductive PollTimer where
  | stopped
  | running (due : Nat)
  | due
deriving DecidableEq, Repr

/-- One module address: what its line controller holds of it (R96) and the formatter's image and stale cell (R82, R85). -/
structure Module where
  present : Bool
  width : Option Width
  state : ModState
  dirty : Option Range
  inFlight : Option Range
  attempts : Nat
  poll : PollTimer
  blankDue : Bool
  /-- A STATUS POLL to the module has reached its outcome since START (R111). -/
  polled : Bool
  image : Vector BoardCell 32
  stale : Option (Fin 32)
deriving DecidableEq, Repr

/-- A module address after a reset (R96, R82, R95). -/
def Module.reset : Module :=
  ⟨false, none, .unknown, none, none, 0, .stopped, false, false, Vector.replicate 32 .blank, none⟩

/-- Brightness levels (R96). -/
inductive Intensity where
  | full | dim
deriving DecidableEq, Repr

/-- The frames of a board line (chapter 06, "Frames and replies"). -/
inductive BoardFrameKind where
  | writeCells (m : Fin 32)
  | statusPoll (m : Fin 32)
  | blank (m : Fin 32)
  | broadcastBlank
  | intensity (level : Intensity)
deriving DecidableEq, Repr

/-- A frame in flight is being sent, or waits in its reply window, which ends at a time (R97, R98). -/
inductive FramePhase where
  | sending
  | window (ends : Nat)
deriving DecidableEq, Repr

/-- A board frame in flight (R97). -/
structure BoardFrame where
  kind : BoardFrameKind
  bytes : List Byte
  phase : FramePhase
deriving DecidableEq, Repr

/-- What a board line controller holds (R96, R111), with the night events handed to it and not yet taken (log 2). -/
structure BoardLine where
  frame : Option BoardFrame
  roundRobin : Option (Fin 32)
  night : Bool
  blankDue : Bool
  intensityDue : Option Intensity
  priority : Nat
  underRemap : Bool
  /-- The controller has started work: its line's START REMAP has ended (R96, R111). -/
  working : Bool
  modules : Vector Module 32
  held : List NoticeBody
  nights : List Bool
deriving DecidableEq, Repr

/-- A board line controller after a reset (R96). -/
def BoardLine.reset : BoardLine :=
  ⟨none, none, false, false, none, 0, false, false, Vector.replicate 32 Module.reset, [], []⟩

/-! ## Tape units -/

/-- One trade of a merged list (R113). -/
structure Triple where
  id : Word
  price : Price
  volume : Volume
deriving DecidableEq, Repr

/-- An entry of a print queue (R113). The price and volume of a TRADE are worked out from its merged list. -/
inductive Entry where
  | trade (instr : Ix) (mode : Mode) (time : Option Tod) (opening outOfSeq : Bool) (merged : List Triple)
  | cancel (instr : Ix) (mode : Mode) (price : Option Price)
  | haltNote (instr : Ix)
  | resumeNote (instr : Ix)
  | text (chars : List Byte) (urgent : Bool)
deriving DecidableEq, Repr

/-- What reaches a tape unit: prints (R47), cancels (R50), notes (R51, R52) and texts (R55, R66, R73). -/
inductive Arrival where
  | print (instr : Ix) (mode : Mode) (triple : Triple) (opening outOfSeq : Bool) (time : Option Tod)
  | cancel (instr : Ix) (id : Word) (mode : Mode) (price : Option Price) (time : Option Tod)
  | note (resumed : Bool) (instr : Ix) (mode : Mode) (time : Option Tod)
  | text (chars : List Byte) (urgent : Bool) (time : Option Tod)
deriving DecidableEq, Repr

/-- What a tape unit holds (R112, R132), with the arrivals handed to it and not yet taken (log 2). -/
structure Tape where
  queue : List Entry
  level : Fin 4
  epoch : Word
  announced : Nat
  fifo : List Byte
  rate : Nat
  e1 : Nat
  e2 : Nat
  e3 : Nat
  x1 : Nat
  x2 : Nat
  x3 : Nat
  block : Nat
  /-- When START completed, in the part's milliseconds: character times count from there (R132). -/
  ribbonStart : Option Nat
  /-- The number of the next character to begin (R132). -/
  ribbonNext : Nat
  /-- The model's own output latch: the character last sent (log 25). -/
  ribbonOut : Option Byte
  inbox : List Arrival
  watchInbox : List Arrival
deriving DecidableEq, Repr

/-- A tape unit after a reset (R112). -/
def Tape.reset : Tape :=
  ⟨[], 0, 0, 0, [], 0, 0, 0, 0, 0, 0, 0, 0, none, 0, none, [], []⟩

/-! ## Terminals -/

/-- The line states of a terminal (R134). -/
inductive TermState where
  | offline | online | asleep
deriving DecidableEq, Repr

/-- An attribute mask: any combination of QUIET and INVERSE HEADER (R134). -/
structure PageMask where
  quiet : Bool
  inverse : Bool
deriving DecidableEq, Repr

/-- A watch (R134, R159). -/
structure Watch where
  instr : Ix
  level : Price
  dir : Direction
  tripped : Bool
deriving DecidableEq, Repr

/-- The origin of a page load (R151), with what a SHOW PAGE or BACK load carries (R147, R148). -/
inductive LoadOrigin where
  | directKey
  | showPage (push : Bool) (bits : PageMask)
  | back (mask : PageMask)
  | posting
deriving DecidableEq, Repr

/-- The work in hand of a terminal context (R134). -/
inductive Work where
  | none
  | keyDispatch (key : Fin 64)
  | pageLoad (page : Word) (origin : LoadOrigin)
deriving DecidableEq, Repr

/-- The events the session unit hands a terminal context (R67, R69, R70, R72 to R74). -/
inductive TermEvent where
  | session (state : SessionState)
  | feedStage (stage : FeedStage)
  | time
  | night (flag : Bool)
deriving DecidableEq, Repr

/-- A terminal context (R134), with the events handed to it and not yet taken (log 2). -/
structure Terminal where
  state : TermState
  page : Option Word
  pageList : List (Option Ix)
  title : List Byte
  stack : List (Word × PageMask)
  mask : PageMask
  locked : Bool
  watches : List Watch
  lamp : Bool
  message : Option (List Byte)
  dirty : Vector Bool 18
  miss : Nat
  beep : Bool
  blankDue : Bool
  poll : PollTimer
  night : Bool
  work : Work
  waiting : Option Word
  /-- A POLL to the terminal has reached its outcome since START (R143). -/
  polled : Bool
  /-- Change events (R40): the instruments changed. -/
  changes : List Ix
  /-- Events of the session unit. -/
  events : List TermEvent
  /-- Watch checks (R47): instrument and new last price. -/
  checks : List (Ix × Price)
deriving DecidableEq, Repr

/-- A terminal context after a reset (R134). -/
def Terminal.reset : Terminal where
  state := .offline
  page := none
  pageList := []
  title := []
  stack := []
  mask := ⟨false, false⟩
  locked := false
  watches := []
  lamp := false
  message := none
  dirty := Vector.replicate 18 false
  miss := 0
  beep := false
  blankDue := false
  poll := .stopped
  night := false
  work := .none
  waiting := none
  polled := false
  changes := []
  events := []
  checks := []

/-- The frames the part sends on a terminal line (chapter 08, "The terminal lines"). -/
inductive TermFrameKind where
  | row (r : Fin 18)
  | poll
  | blankScreen
deriving DecidableEq, Repr

/-- A terminal frame in flight (R135), with what its visit found: the line state visited and whether the visit stopped a
poll timer (R137). -/
structure TermFrame where
  kind : TermFrameKind
  terminal : Fin 8
  bytes : List Byte
  phase : FramePhase
  visited : TermState
  stopped : Bool
deriving DecidableEq, Repr

/-- What a terminal line controller holds (R135, R143). -/
structure TermLine where
  frame : Option TermFrame
  roundRobin : Option (Fin 8)
  held : List (Fin 16)
deriving DecidableEq, Repr

/-- A terminal line controller after a reset (R135). -/
def TermLine.reset : TermLine := ⟨none, none, []⟩

/-! ## The whole state -/

/-- The state of the part and the queue of the commands that wait. -/
structure State where
  /-- The part's millisecond count (R89). -/
  now : Nat
  bus : Bus
  params : Params
  intake : Intake
  /-- The price store: the records that differ from `Record.reset`, by rising index (R21). -/
  store : List (Nat × Record)
  session : SessionUnit
  fmt : Formatter
  lines : Vector BoardLine 4
  tapes : Vector Tape 2
  tlines : Vector TermLine 2
  terms : Vector Terminal 16
  notices : NoticeUnit
  /-- The commands waiting, first in, first out. -/
  pending : List Instr
deriving DecidableEq, Repr

/-- The part right after power-on reset, with host memory as nothing has written it (R178 and the reset table of each
chapter). -/
def State.reset : State where
  now := 0
  bus := Bus.reset
  params := Params.reset
  intake := Intake.reset
  store := []
  session := SessionUnit.reset
  fmt := Formatter.reset
  lines := Vector.replicate 4 BoardLine.reset
  tapes := Vector.replicate 2 Tape.reset
  tlines := Vector.replicate 2 TermLine.reset
  terms := Vector.replicate 16 Terminal.reset
  notices := NoticeUnit.reset
  pending := []

/-- Reasons the machine stops with a fault. There are none: every failure the manual describes is a flag, a notice or a
change of state after which the part goes on (R164, R173, R177, R183). -/
inductive Fault where
deriving DecidableEq, Repr

/-- Reasons a command is refused by the model. -/
inductive Refusal where
  /-- `exec` raises it for a row whose meaning is not written; no arm does. Safe: the model stops. -/
  | notModelled (mnemonic : String)
  /-- The meanings of UNKNOWN_COMMAND, SET_BASE, ACKNOWLEDGE_GROUP and INTERRUPT_ACKNOWLEDGE raise it for a term that is not
  well formed (`Instr.wellFormed`): its operand spells no command of the row. Safe: no hardware event is left out. -/
  | illFormed
deriving DecidableEq, Repr

end Sys2Proof.Machine
end

