-- ==== Sys2Proof/Machine/Bank.lean ====
section
/-! DEFINITION. Reading and writing one of a fixed number of like things (a line, a module, a terminal, a cell), and one
entry of a sparse table that reads as a default where nothing is listed. -/

namespace Sys2Proof.Machine

/-- Entry `i` of a bank. -/
def Bank.get {α : Type} {n : Nat} (v : Vector α n) (i : Fin n) : α := v[i.val]

/-- The bank with entry `i` replaced. -/
def Bank.set {α : Type} {n : Nat} (v : Vector α n) (i : Fin n) (a : α) : Vector α n := v.set i.val a i.isLt

/-- The bank with `f` applied to entry `i`. -/
def Bank.modify {α : Type} {n : Nat} (v : Vector α n) (i : Fin n) (f : α → α) : Vector α n :=
  Bank.set v i (f (Bank.get v i))

/-- The bank whose entry `i` is `f i`. -/
def Bank.tabulate {α : Type} {n : Nat} (f : Fin n → α) : Vector α n := Vector.ofFn f

/-- The bank with `f i` applied to every entry `i`. -/
def Bank.mapAll {α : Type} {n : Nat} (v : Vector α n) (f : Fin n → α → α) : Vector α n :=
  Bank.tabulate fun i => f i (Bank.get v i)

/-- Every entry of the bank satisfies `p`. -/
def Bank.all {α : Type} {n : Nat} (v : Vector α n) (p : Fin n → α → Bool) : Bool :=
  (List.finRange n).all fun i => p i (Bank.get v i)

/-- The entry of a sparse table at a key: `d` where the key is not listed. The keys rise. -/
def Sparse.get {α : Type} (d : α) : List (Nat × α) → Nat → α
  | [], _ => d
  | (a, x) :: r, k => if k < a then d else if k = a then x else Sparse.get d r k

/-- The sparse table with the entry at a key replaced. An entry that becomes `d` is no longer listed, so that equal tables
are equal lists. -/
def Sparse.set {α : Type} [DecidableEq α] (d : α) : List (Nat × α) → Nat → α → List (Nat × α)
  | [], k, v => if v = d then [] else [(k, v)]
  | (a, x) :: r, k, v =>
    if k < a then (if v = d then (a, x) :: r else (k, v) :: (a, x) :: r)
    else if k = a then (if v = d then r.dropWhile (fun e => e.1 ≤ k) else (k, v) :: r)
    else (a, x) :: Sparse.set d r k v

/-- The canonical form of a sparse table: keys strictly rising, no entry equal to the default. -/
def Sparse.wf {α : Type} [DecidableEq α] (d : α) : List (Nat × α) → Bool
  | [] => true
  | (a, x) :: r => decide (x ≠ d) && r.all (fun e => decide (a < e.1)) && Sparse.wf d r

/-- The least index from `k` on that a table with rising keys does not list. -/
def Sparse.firstGap {α : Type} (k : Nat) : List (Nat × α) → Nat
  | [] => k
  | (a, _) :: r => if a = k then Sparse.firstGap (k + 1) r else k

/-- The keys listed. -/
def Sparse.keys {α : Type} (m : List (Nat × α)) : List Nat := m.map (·.1)

end Sys2Proof.Machine
end

