-- ==== Sys2Proof/Machine/Flags.lean ====
section
/-! DEFINITION. The ERROR flags, the interrupt groups and their requests, and the registers as the host reads them. -/

namespace Sys2Proof.Machine

/-- The bit of a flag in the ERROR register (chapter 11, Registers). -/
def ErrorFlag.index : ErrorFlag → Nat
  | .layoutRange => 0
  | .layoutConflict => 1
  | .parameter => 2
  | .startCell => 3
  | .busTimeout => 4
  | .parity => 5
  | .chainBroken => 6
  | .poolExhausted => 7
  | .tableFault => 8
  | .commandRefused => 9

/-- The ERROR word with one flag set. -/
def ErrorFlag.mask (f : ErrorFlag) : Word := BitVec.twoPow 16 f.index

/-- A flag is set in the ERROR register. -/
def Bus.hasError (b : Bus) (f : ErrorFlag) : Bool := b.error.getLsbD f.index

/-- The group code of a group, 1 to 5 (R179). -/
def GroupId.code : GroupId → Nat
  | .system => 1
  | .feed => 2
  | .board => 3
  | .tape => 4
  | .terminal => 5

/-- The place of a group among the five. -/
def GroupId.slot : GroupId → Fin 5
  | .system => 0
  | .feed => 1
  | .board => 2
  | .tape => 3
  | .terminal => 4

/-- Groups may request: the vector base is set and the controller state is not UNSET (R188). -/
def Bus.mayRequest (b : Bus) : Bool := b.vectorBase.isSome && b.phase != .unset

/-- A group that is IDLE, marked and at a level other than 0 becomes REQUESTING when groups may request (R188). -/
def Group.settle (may : Bool) (g : Group) : Group :=
  if g.state = .idle ∧ g.marked = true ∧ g.level ≠ 0 ∧ may = true then { g with state := .requesting } else g

/-- R188 applied to every group, at once when its conditions come to hold. -/
def Bus.settle (b : Bus) : Bus :=
  { b with groups := Bank.mapAll b.groups fun _ => Group.settle b.mayRequest }

/-- Sets the pending mark of a group (R181, R188). -/
def Bus.markGroup (g : GroupId) (b : Bus) : Bus :=
  Bus.settle { b with groups := Bank.modify b.groups g.slot fun x => { x with marked := true } }

/-- Each setting of an ERROR flag also sets the mark of SYSTEM while the controller state is not UNSET (R177, R188). -/
def Bus.setError (f : ErrorFlag) (b : Bus) : Bus :=
  let b := { b with error := b.error ||| f.mask }
  if b.phase = .unset then b else b.markGroup .system

/-- Clears each flag whose position holds a one (R177). -/
def Bus.clearErrors (w : Word) (b : Bus) : Bus := { b with error := b.error &&& ~~~w }

/-- A command taken sets the last command result to ACCEPTED (R177). -/
def Bus.acceptCommand (b : Bus) : Bus := { b with refused := false }

/-- A refused command sets the last command result to REFUSED and the COMMAND REFUSED flag (R177). -/
def Bus.refuseCommand (b : Bus) : Bus := Bus.setError .commandRefused { b with refused := true }

/-- The groups REQUESTING at a level, lowest code first (R190). -/
def Bus.requestingAt (b : Bus) (level : Fin 8) : List (Fin 5) :=
  (List.finRange 5).filter fun i => (Bank.get b.groups i).state = .requesting && (Bank.get b.groups i).level = level

/-- The interrupt level requested of the host: the highest level of a REQUESTING group, or 0 for none (R189). -/
def Bus.requestLevel (b : Bus) : Nat :=
  ((List.finRange 5).filter fun i => (Bank.get b.groups i).state = .requesting).foldl
    (fun m i => max m (Bank.get b.groups i).level.val) 0

/-- The vector for a group code: the base in the high four bits, 0 before it has been set (R190, R191). -/
def Bus.vector (b : Bus) (code : Nat) : Byte := byte ((b.vectorBase.getD 0).toNat * 16 + code)

/-! ## Registers as the host reads them (R177, R191, chapter 11) -/

/-- The controller state: QUIESCED while the part is in service with intake QUIESCED (R174). -/
def State.controllerState (s : State) : ControllerState :=
  match s.bus.phase with
  | .unset => .unset
  | .ready => .ready
  | .checking => .checking
  | .running => if s.intake.state = .quiesced then .quiesced else .running

/-- The code of a controller state in CONTROL (chapter 11). -/
def ControllerState.code : ControllerState → Nat
  | .unset => 0
  | .ready => 1
  | .checking => 2
  | .running => 3
  | .quiesced => 4

/-- The code of an intake state in CONTROL (chapter 11). -/
def IntakeState.code : IntakeState → Nat
  | .stopped => 0
  | .waiting => 1
  | .taking => 2
  | .applying => 3
  | .quiesced => 4

/-- The code of a reset source (chapter 11). -/
def ResetSource.code : ResetSource → Nat
  | .power => 1
  | .pin => 2
  | .soft => 3

/-- The code of a group state in VECTOR (chapter 11). -/
def GroupState.code : GroupState → Nat
  | .idle => 0
  | .requesting => 1
  | .inService => 2

/-- AREA BASE reads 0xFFFF until set, then the base number (R162). -/
def State.readAreaBase (s : State) : Word :=
  match s.bus.area with
  | none => 0xFFFF
  | some n => n.setWidth 16

/-- CONTROL reads controller state, intake state, reset source and last command result (R177, chapter 11). -/
def State.readControl (s : State) : Word :=
  word (s.controllerState.code * 8192 + s.intake.state.code * 1024 + s.bus.resetSource.code * 256
    + (if s.bus.refused then 1 else 0))

/-- ERROR reads the ten sticky flags (R177). -/
def State.readError (s : State) : Word := s.bus.error

/-- VECTOR reads the vector base and the five group states (R191, chapter 11). -/
def State.readVector (s : State) : Word :=
  word ((s.bus.vectorBase.getD 0).toNat * 4096
    + (List.finRange 5).foldl (fun n i => n + (Bank.get s.bus.groups i).state.code * 4 ^ i.val) 0)

/-- The part is in service: RUNNING or QUIESCED (R63, R112, R169). -/
def State.inService (s : State) : Bool := s.bus.phase = .running

/-- The board and terminal lines may work: CHECKING, RUNNING or QUIESCED (R96, R135). -/
def State.linesWork (s : State) : Bool := s.bus.phase = .checking || s.bus.phase = .running

end Sys2Proof.Machine
end

