-- ==== Sys2Proof/Machine/Ops.lean ====
section
/-! DEFINITION. The named operations over the state: replacing one block, the common area and its accesses, handing a
notice on. -/

namespace Sys2Proof.Machine

/-! ## One block replaced -/

/-- The state with another bus interface. -/
def State.withBus (s : State) (b : Bus) : State := { s with bus := b }
/-- The state with another intake. -/
def State.withIntake (s : State) (x : Intake) : State := { s with intake := x }
/-- The state with another price store. -/
def State.withStore (s : State) (x : List (Nat × Record)) : State := { s with store := x }
/-- The state with another session unit. -/
def State.withSession (s : State) (x : SessionUnit) : State := { s with session := x }
/-- The state with another board formatter. -/
def State.withFmt (s : State) (x : Formatter) : State := { s with fmt := x }
/-- The state with other board lines. -/
def State.withLines (s : State) (x : Vector BoardLine 4) : State := { s with lines := x }
/-- The state with other tape units. -/
def State.withTapes (s : State) (x : Vector Tape 2) : State := { s with tapes := x }
/-- The state with other terminal lines. -/
def State.withTlines (s : State) (x : Vector TermLine 2) : State := { s with tlines := x }
/-- The state with other terminal contexts. -/
def State.withTerms (s : State) (x : Vector Terminal 16) : State := { s with terms := x }
/-- The state with another notice unit. -/
def State.withNotices (s : State) (x : NoticeUnit) : State := { s with notices := x }
/-- The state with another command queue. -/
def State.withPending (s : State) (x : List Instr) : State := { s with pending := x }

/-- One board line changed. -/
def State.modifyLine (s : State) (n : Fin 4) (f : BoardLine → BoardLine) : State :=
  s.withLines (Bank.modify s.lines n f)

/-- A board line. -/
def State.line (s : State) (n : Fin 4) : BoardLine := Bank.get s.lines n

/-- One module of a line changed. -/
def BoardLine.modifyModule (l : BoardLine) (m : Fin 32) (f : Module → Module) : BoardLine :=
  { l with modules := Bank.modify l.modules m f }

/-- A module of a line. -/
def BoardLine.module (l : BoardLine) (m : Fin 32) : Module := Bank.get l.modules m

/-- One module changed. -/
def State.modifyModule (s : State) (n : Fin 4) (m : Fin 32) (f : Module → Module) : State :=
  s.modifyLine n fun l => l.modifyModule m f

/-- The place of a tape unit among the two. -/
def slotOfTape : TapeId → Fin 2
  | .a => 0
  | .b => 1

/-- A tape unit. -/
def State.tape (s : State) (t : TapeId) : Tape := Bank.get s.tapes (slotOfTape t)

/-- One tape unit changed. -/
def State.modifyTape (s : State) (t : TapeId) (f : Tape → Tape) : State :=
  s.withTapes (Bank.modify s.tapes (slotOfTape t) f)

/-- A terminal context. -/
def State.term (s : State) (t : Fin 16) : Terminal := Bank.get s.terms t

/-- One terminal context changed. -/
def State.modifyTerm (s : State) (t : Fin 16) (f : Terminal → Terminal) : State :=
  s.withTerms (Bank.modify s.terms t f)

/-- A terminal line. -/
def State.tline (s : State) (l : Fin 2) : TermLine := Bank.get s.tlines l

/-- One terminal line changed. -/
def State.modifyTline (s : State) (l : Fin 2) (f : TermLine → TermLine) : State :=
  s.withTlines (Bank.modify s.tlines l f)

/-- The record of an instrument (R21). -/
def State.record (s : State) (i : Ix) : Record := Sparse.get Record.reset s.store i.val

/-- The record of an instrument replaced (R21). -/
def State.setRecord (s : State) (i : Ix) (r : Record) : State :=
  s.withStore (Sparse.set Record.reset s.store i.val r)

/-- An instrument index field: values of 2,048 and above name no instrument (R192). -/
def Ix.ofNat? (n : Nat) : Option Ix := if h : n < 2048 then some ⟨n, h⟩ else none

/-! ## The common area -/

/-- What a byte of host memory reads as where nothing has written it (DESIGN CHOICE, log 6). -/
def unlistedByte : Byte := 0

/-- The canonical form of host memory: addresses strictly rising, no listed byte equal to `unlistedByte`. -/
def Memory.wf (m : List Host.Cell) : Bool := Sparse.wf unlistedByte m

/-- One byte of host memory. -/
def Memory.readByte (m : List Host.Cell) (a : Nat) : Byte := Sparse.get unlistedByte m a

/-- One byte of host memory written. -/
def Memory.writeByte (m : List Host.Cell) (a : Nat) (b : Byte) : List Host.Cell := Sparse.set unlistedByte m a b

/-- The word at a byte address, high byte first (PRESUMED, log 6; every access is of a whole word). -/
def Memory.readWord (m : List Host.Cell) (a : Nat) : Word :=
  Word.ofBytes (Memory.readByte m a) (Memory.readByte m (a + 1))

/-- The word at a byte address written. -/
def Memory.writeWord (m : List Host.Cell) (a : Nat) (w : Word) : List Host.Cell :=
  Memory.writeByte (Memory.writeByte m a w.high) (a + 1) w.low

/-- The host address of a word offset: the area base plus 2 × o, the area base being the base number × 131,072 (R161, R162). -/
def Bus.address (b : Bus) (o : Word) : Nat := (b.area.getD 0).toNat * 131072 + 2 * o.toNat

/-- The word of the common area at an offset, without an access of the part. -/
def Bus.peek (b : Bus) (o : Word) : Word := Memory.readWord b.mem (b.address o)

/-- The common area with the word at an offset replaced, without an access of the part. -/
def Bus.poke (b : Bus) (o w : Word) : Bus := { b with mem := Memory.writeWord b.mem (b.address o) w }

/-- The host stores words into the common area. There is no area until its base is set (R161). -/
def Bus.hostWrites (h : List HostWrite) (b : Bus) : Bus :=
  if b.area.isSome then h.foldl (fun b x => b.poke x.offset x.value) b else b

/-- The host's stores since the last command (log 4). -/
def State.hostWrites (s : State) (h : List HostWrite) : State := s.withBus (s.bus.hostWrites h)

/-! ## Accesses (R164, R165) -/

/-- The outcome of a read. -/
inductive ReadOut where
  | word (w : Word)
  /-- The second attempt timed out as well (R164). -/
  | timedOut
  /-- The second attempt faulted; the word as it was last read (R41, R164). -/
  | faulted (seen : Word)
deriving DecidableEq, Repr

/-- The bus meets the next attempt. -/
def Bus.attempt (b : Bus) : Attempt × Bus :=
  match b.script with
  | [] => (.completes, b)
  | a :: r => (a, { b with script := r })

/-- The end of a read whose first attempt did not succeed (R164). -/
def Bus.readAgain (o : Word) (b : Bus) : Bus × ReadOut :=
  match b.attempt with
  | (.completes, b) => (b, .word (b.peek o))
  | (.timesOut _, b) => (b.setError .busTimeout, .timedOut)
  | (.faults seen, b) => (b.setError .parity, .faulted seen)

/-- A read of a word (R164). -/
def Bus.read (o : Word) (b : Bus) : Bus × ReadOut :=
  match b.attempt with
  | (.completes, b) => (b, .word (b.peek o))
  | (_, b) => b.readAgain o

/-- A read of the state or link word of a posting cell: a faulted read is not made again (R164, R170, R172; log 9 for a
fault on the second attempt after a time-out). -/
def Bus.readChain (o : Word) (b : Bus) : Bus × ReadOut :=
  match b.attempt with
  | (.completes, b) => (b, .word (b.peek o))
  | (.faults seen, b) => (b.setError .parity, .faulted seen)
  | (.timesOut _, b) => b.readAgain o

/-- One attempt of a write that timed out: the word is left as the bus left it (R163, R165). -/
def Bus.pokeIf (reached : Bool) (o w : Word) (b : Bus) : Bus := if reached then b.poke o w else b

/-- A write of a word (R164). A parity fault is of reads only; an attempt of a write told as one completes (log 10). -/
def Bus.write (o w : Word) (b : Bus) : Bus × Bool :=
  match b.attempt with
  | (.timesOut r, b) =>
    match (b.pokeIf r o w).attempt with
    | (.timesOut r, b) => ((b.pokeIf r o w).setError .busTimeout, false)
    | (_, b) => (b.poke o w, true)
  | (_, b) => (b.poke o w, true)

/-- The end of an interlocked cycle whose first attempt did not succeed (R165). -/
def Bus.cycleAgain (o : Word) (f : Word → Word) (b : Bus) : Bus × Option Word :=
  match b.attempt with
  | (.completes, b) => (b.poke o (f (b.peek o)), some (b.peek o))
  | (.timesOut r, b) => ((b.pokeIf r o (f (b.peek o))).setError .busTimeout, none)
  | (.faults _, b) => (b.setError .parity, none)

/-- An interlocked cycle: the word is read and written back as `f` of it; the answer is the word read, or none when the
cycle has failed. A timed-out cycle is made again from its read; a cycle whose read faults writes nothing (R165). -/
def Bus.cycle (o : Word) (f : Word → Word) (b : Bus) : Bus × Option Word :=
  match b.attempt with
  | (.completes, b) => (b.poke o (f (b.peek o)), some (b.peek o))
  | (.timesOut r, b) => (b.pokeIf r o (f (b.peek o))).cycleAgain o f
  | (.faults _, b) => b.cycleAgain o f

/-- The outcome of the reads of several words. -/
inductive Words where
  | words (ws : List Word)
  | timedOut
  | faulted
deriving DecidableEq, Repr

/-- Reads of several words in order, up to the first that fails. -/
def Bus.readAll : List Word → Bus → Bus × Words
  | [], b => (b, .words [])
  | o :: os, b =>
    match b.read o with
    | (b, .word w) =>
      match Bus.readAll os b with
      | (b, .words ws) => (b, .words (w :: ws))
      | r => r
    | (b, .timedOut) => (b, .timedOut)
    | (b, .faulted _) => (b, .faulted)

/-- Writes of several words in order, up to the first that fails. -/
def Bus.writeAll : List (Word × Word) → Bus → Bus × Bool
  | [], b => (b, true)
  | (o, w) :: r, b =>
    match b.write o w with
    | (b, true) => Bus.writeAll r b
    | (b, false) => (b, false)

/-! ## Pool cells and bitmap (R161) -/

/-- The offset of word `k` of pool cell `c`. -/
def Params.cellWord (p : Params) (c k : Nat) : Word := p.poolOffset + word (16 * c + k)

/-- The offset of the bitmap word that covers a cell. -/
def Params.bitmapWord (p : Params) (c : Nat) : Word := p.bitmapOffset + word (c / 16)

/-- The bit of a cell in its bitmap word. -/
def bitmapBit (c : Nat) : Nat := c % 16

/-- The words of the anchor that the part writes (chapter 11, The anchor record). -/
inductive StatusWord where
  | postingsTaken | lastSequence | currentCell | noticeCount | noticesLost | noticeRestart | restartCount
deriving DecidableEq, Repr

/-- The offset of a status word. -/
def StatusWord.offset : StatusWord → Word
  | .postingsTaken => 48
  | .lastSequence => 49
  | .currentCell => 50
  | .noticeCount => 51
  | .noticesLost => 52
  | .noticeRestart => 53
  | .restartCount => 54

/-- A status word is written. A write that fails sets its flag and is not repeated (R163, R164). -/
def Bus.writeStatus (x : StatusWord) (w : Word) (b : Bus) : Bus := (b.write x.offset w).1

/-! ## Notices handed to the notice unit -/

/-- A notice, or the two of a SNAPSHOT, handed to the notice unit, with the time of day then (R179, R187). -/
def State.handParts (s : State) (parts : List NoticeBody) : State :=
  s.withNotices { s.notices with inbox := s.notices.inbox ++ [⟨parts, s.session.tod, 0⟩] }

/-- A notice handed to the notice unit (R179). -/
def State.hand (s : State) (n : NoticeBody) : State := s.handParts [n]

/-- Several notices handed to the notice unit, in order. -/
def State.handAll (s : State) (ns : List NoticeBody) : State := ns.foldl State.hand s

/-- The outcome every command comes to: the part has no fault that stops it. -/
abbrev Result := Host.Outcome State Fault Refusal

end Sys2Proof.Machine
end

