-- ==== Sys2Proof/Machine/Render.lean ====
section
/-! DEFINITION. Price arithmetic (chapter 01): prices, net changes, volumes and symbols turned into rows of glyph codes.
Every function here is of the values handed to it and of nothing else (R1). -/

namespace Sys2Proof.Machine

/-- Characters as glyph codes (chapter 11, Glyph codes). -/
def chars (cs : List Char) : List Byte := cs.map fun c => byte c.toNat

/-- The glyph codes named in words (chapter 11, Glyph codes). -/
def Glyph.space : Byte := 0x20
def Glyph.upArrow : Byte := 0x01
def Glyph.downArrow : Byte := 0x02
def Glyph.overflow : Byte := 0x03
def Glyph.lot : Byte := 0x04
/-- The fraction glyph for `e` eighths, 1 to 7. -/
def Glyph.eighths (e : Nat) : Byte := byte (0x10 + e)
/-- The glyph of a decimal digit. -/
def Glyph.digit (d : Nat) : Byte := byte (0x30 + d)
def Glyph.plus : Byte := 0x2B
def Glyph.minus : Byte := 0x2D
def Glyph.point : Byte := 0x2E
def Glyph.stroke : Byte := 0x2F
def Glyph.colon : Byte := 0x3A

/-- The characters every display shows: space, "+", "-", ",", ".", "/", ":", digits and capital letters (chapter 11). -/
def commonGlyph (c : Byte) : Bool :=
  let n := c.toNat
  n == 0x20 || n == 0x2B || n == 0x2C || n == 0x2D || n == 0x2E || n == 0x2F || n == 0x3A
    || (0x30 ≤ n && n ≤ 0x39) || (0x41 ≤ n && n ≤ 0x5A)

/-- The ribbon has a glyph for the code (chapter 11). -/
def ribbonGlyph (c : Byte) : Bool := commonGlyph c || c == Glyph.lot || (0x11 ≤ c.toNat && c.toNat ≤ 0x17)

/-- A terminal has a glyph for the code (chapter 11). -/
def terminalGlyph (c : Byte) : Bool := commonGlyph c || c == Glyph.overflow

/-- A character with no glyph on the display shows as a space (R131, R156, R158). -/
def showOr (has : Byte → Bool) (c : Byte) : Byte := if has c then c else Glyph.space

/-- Spaces. -/
def spaces (n : Nat) : List Byte := List.replicate n Glyph.space

/-- A text left-justified in `w` cells, cut to them (R13). -/
def leftIn (w : Nat) (t : List Byte) : List Byte := t.take w ++ spaces (w - t.length)

/-- A text of at most `w` cells right-justified in them (R14). -/
def rightIn (w : Nat) (t : List Byte) : List Byte := spaces (w - t.length) ++ t

/-- Decimal digits, at most `fuel` of them, no leading zeros. -/
def digitsUpTo : Nat → Nat → List Byte
  | 0, _ => []
  | f + 1, n => if n < 10 then [Glyph.digit n] else digitsUpTo f (n / 10) ++ [Glyph.digit (n % 10)]

/-- A number below 10^10 in decimal with no leading zeros (R3). -/
def decimal (n : Nat) : List Byte := digitsUpTo 10 n

/-- A number in exactly `p` digits, padded on the left with zeros (R6). -/
def padded : Nat → Nat → List Byte
  | 0, _ => []
  | p + 1, n => padded p (n / 10) ++ [Glyph.digit (n % 10)]

/-! ## Modes and styles -/

/-- D, the number of ticks in one unit (R2). -/
def Mode.ticks : Mode → Nat
  | .fraction2 => 2
  | .fraction4 => 4
  | .fraction8 => 8
  | .fraction16 => 16
  | .fraction32 => 32
  | .fraction64 => 64
  | .decimal0 => 1
  | .decimal1 => 10
  | .decimal2 => 100
  | .decimal3 => 1000

/-- k of a DECIMAL-k mode; none for a FRACTION mode. -/
def Mode.places : Mode → Option Nat
  | .decimal0 => some 0
  | .decimal1 => some 1
  | .decimal2 => some 2
  | .decimal3 => some 3
  | _ => none

/-- The fraction styles; DECIMAL with its places p (R81). -/
inductive Style where
  | glyph
  | digits
  | decimal (p : Nat)
  | none
deriving DecidableEq, Repr

/-- A style that does not suit the mode is replaced before rendering begins (R8). -/
def Style.resolve (m : Mode) : Style → Style
  | .decimal p => .decimal p
  | .none => .none
  | st =>
    match m.places with
    | Option.none => st
    | some 0 => .none
    | some k => .decimal k

/-- The parts of a rendered text: sign cell, whole part, fraction part (chapter 01, "The four fraction styles"). "UNCH" is
held as a fraction part, since it has no sign cell and no whole digits (R10, R17). -/
structure Parts where
  sign : List Byte
  whole : List Byte
  frac : List Byte
deriving DecidableEq, Repr

/-- The whole text. -/
def Parts.text (t : Parts) : List Byte := t.sign ++ t.whole ++ t.frac

/-- The whole part: empty when it is 0 and a fraction part is shown (R3). -/
def wholePart (w : Nat) (frac : List Byte) : List Byte := if w = 0 ∧ frac ≠ [] then [] else decimal w

/-- A fraction reduced by halving for as long as the numerator is even (R4); denominators are at most 64. -/
def halve : Nat → Nat → Nat → Nat × Nat
  | 0, n, d => (n, d)
  | f + 1, n, d => if n % 2 = 0 then halve f (n / 2) (d / 2) else (n, d)

/-- The DIGITS style (R4). -/
def digitsParts (m : Mode) (p : Nat) : Parts :=
  let w := p / m.ticks
  let r := p % m.ticks
  if r = 0 then ⟨[], decimal w, []⟩
  else
    let (n, d) := halve 6 r m.ticks
    let frac := (if w = 0 then [] else [Glyph.space]) ++ decimal n ++ [Glyph.stroke] ++ decimal d
    ⟨[], wholePart w frac, frac⟩

/-- The eighths count of a remainder, half up (R5). -/
def eighths (m : Mode) (p : Nat) : Nat := (16 * (p % m.ticks) + m.ticks) / (2 * m.ticks)

/-- The GLYPH style (R5). -/
def glyphParts (m : Mode) (p : Nat) : Parts :=
  let e := eighths m p
  let w := if e = 8 then p / m.ticks + 1 else p / m.ticks
  let frac := if e = 0 ∨ e = 8 then [] else [Glyph.eighths e]
  ⟨[], wholePart w frac, frac⟩

/-- The p-digit value of a remainder, half up (R6). -/
def decimalValue (m : Mode) (places p : Nat) : Nat :=
  (2 * (p % m.ticks) * 10 ^ places + m.ticks) / (2 * m.ticks)

/-- The DECIMAL style with p places (R6). -/
def decimalParts (m : Mode) (places p : Nat) : Parts :=
  let q := decimalValue m places p
  let w := if q = 10 ^ places then p / m.ticks + 1 else p / m.ticks
  let frac := Glyph.point :: padded places (if q = 10 ^ places then 0 else q)
  ⟨[], wholePart w frac, frac⟩

/-- The NONE style (R7). -/
def noneParts (m : Mode) (p : Nat) : Parts := ⟨[], decimal ((2 * p + m.ticks) / (2 * m.ticks)), []⟩

/-- A price in a style, after the replacement of R8, with no sign cell (R3 to R8). -/
def priceParts (m : Mode) (st : Style) (p : Nat) : Parts :=
  match st.resolve m with
  | .digits => digitsParts m p
  | .glyph => glyphParts m p
  | .decimal places => decimalParts m places p
  | .none => noneParts m p

/-! ## Fitting (R14 to R17) -/

/-- R14, and R16 and R17 for a text that is too wide. -/
def fit (w : Nat) (t : Parts) : List Byte :=
  if t.text.length ≤ w then rightIn w t.text
  else
    let taken := 1 + t.sign.length + t.frac.length
    if taken < w ∧ t.whole ≠ [] then
      [Glyph.overflow] ++ t.sign ++ t.whole.drop (t.whole.length - (w - taken)) ++ t.frac
    else List.replicate w Glyph.overflow

/-- A price on a terminal: no R15 (R19). -/
def fitPrice (m : Mode) (st : Style) (w p : Nat) (sign : List Byte) : List Byte :=
  fit w { priceParts m st p with sign := sign }

/-- A price on a board: a DIGITS text too wide for its field is rendered again in GLYPH (R15). -/
def fitBoardPrice (m : Mode) (st : Style) (w p : Nat) (sign : List Byte) : List Byte :=
  let t := { priceParts m st p with sign := sign }
  if t.text.length ≤ w then fit w t
  else if st.resolve m = .digits then fit w { glyphParts m p with sign := sign }
  else fit w t

/-! ## Formats, net change, volume -/

/-- Sign styles (R10). -/
inductive SignStyle where
  | arrow | sign | none
deriving DecidableEq, Repr

/-- Zero styles (R10). -/
inductive ZeroStyle where
  | unch | zero
deriving DecidableEq, Repr

/-- A format entry as it is rendered, after the substitutions of R18 and R81. -/
structure Format where
  style : Style
  sign : SignStyle
  zero : ZeroStyle
  unit : Nat
  fill : Byte
  base : Colour
deriving DecidableEq, Repr

/-- The format of a placement whose entry cannot be read at a rendering (R81). -/
def Format.default : Format := ⟨.digits, .none, .zero, 1, Glyph.space, .white⟩

/-- Net change: last less previous close (R9). -/
def netChange (last prev : Price) : Int := (last.val : Int) - (prev.val : Int)

/-- The sign cell of a net change that is not 0 (R10). -/
def signCell (st : SignStyle) (c : Int) : List Byte :=
  match st with
  | .arrow => if 0 < c then [Glyph.upArrow] else [Glyph.downArrow]
  | .sign => if 0 < c then [Glyph.plus] else [Glyph.minus]
  | .none => []

/-- The text of a net change of 0 (R10). -/
def zeroParts : ZeroStyle → Parts
  | .unch => ⟨[], [], chars ['U', 'N', 'C', 'H']⟩
  | .zero => ⟨[], [Glyph.digit 0], []⟩

/-- The sign colour handed back (R10). -/
def signColour (c : Int) : Option Colour :=
  if 0 < c then some .green else if c < 0 then some .red else none

/-- A net change on a board (R9, R10, R14 to R17). -/
def fitBoardChange (m : Mode) (f : Format) (w : Nat) (c : Int) : List Byte :=
  if c = 0 then fit w (zeroParts f.zero) else fitBoardPrice m f.style w c.natAbs (signCell f.sign c)

/-- A net change in a terminal's Change column (R19). -/
def fitTerminalChange (m : Mode) (w : Nat) (c : Int) : List Byte :=
  if c = 0 then fit w (zeroParts .unch) else fitPrice m .digits w c.natAbs (signCell .sign c)

/-- A volume in a unit (R11). It stands at the right of its field (DEDUCED from R19, log 21). -/
def volumeField (w unit : Nat) (v : Volume) : List Byte :=
  let t := decimal (v.val / unit)
  if w < t.length then List.replicate w (Glyph.digit 9) else rightIn w t

/-- The absent fill (R12). -/
def absentField (w : Nat) (fill : Byte) : List Byte := List.replicate w fill

/-- An optional price on a board. -/
def boardPriceField (m : Mode) (f : Format) (w : Nat) : Option Price → List Byte
  | none => absentField w f.fill
  | some p => fitBoardPrice m f.style w p.val []

/-- An optional price in a terminal column, DIGITS style, absent as spaces (R19). -/
def terminalPriceField (m : Mode) (w : Nat) : Option Price → List Byte
  | none => spaces w
  | some p => fitPrice m .digits w p.val []

/-! ## Tape prices (R20) -/

/-- The style of a tape price (R20). -/
def tapeStyle (m : Mode) : Style :=
  match m.places with
  | some 0 => .none
  | some k => .decimal k
  | none => if m.ticks ≤ 8 then .glyph else .digits

/-- A tape price: rendered without rounding and without fitting (R20). -/
def tapePrice (m : Mode) (p : Price) : Parts := priceParts m (tapeStyle m) p.val

/-- The tens part of a tape reference: floor(W / 10) (R20, R34). -/
def tensPart (m : Mode) (p : Price) : Nat := p.val / m.ticks / 10

end Sys2Proof.Machine
end

