-- ==== Sys2Proof/Machine/Operands.lean ====
section
/-! DEFINITION. The fields of the records the part reads and of the notices it writes (chapter 11, R192). -/

namespace Sys2Proof.Machine

/-! ## Fields -/

/-- A double: two words, high word first (00_scope). -/
def double (hi lo : Word) : Nat := hi.toNat * 65536 + lo.toNat

/-- A price in a double: every value above 16,777,215 is absent (R192). -/
def priceOfDouble (hi lo : Word) : Option Price :=
  if h : double hi lo < 16777216 then some ⟨double hi lo, h⟩ else none

/-- A price in a 24-bit field: 0xFFFFFF is absent (R192). -/
def priceOf24 (n : Nat) : Option Price :=
  if h : n < 16777215 then some ⟨n, by omega⟩ else none

/-- A volume in a double. -/
def volumeOfDouble (hi lo : Word) : Volume := ⟨double hi lo, by
  have := hi.isLt; have := lo.isLt; unfold double; omega⟩

/-- A time of day field: absent, a time, or out of range (R192). -/
inductive TimeField where
  | absent
  | time (t : Tod)
  | outOfRange
deriving DecidableEq, Repr

/-- A time of day in a double (R192). -/
def timeOfDouble (hi lo : Word) : TimeField :=
  if double hi lo = 0xFFFFFFFF then .absent
  else if h : double hi lo < 864000 then .time ⟨double hi lo, h⟩
  else .outOfRange

/-- The time of a field that is in range. -/
def TimeField.toOption : TimeField → Option Tod
  | .time t => some t
  | _ => none

/-- The first `n` characters of a character field, two to a word, the first in the high byte (R192). -/
def charsOf (ws : List Word) (n : Nat) : List Byte := (ws.flatMap fun w => [w.high, w.low]).take n

/-- How many words hold `n` characters. -/
def wordsFor (n : Nat) : Nat := (n + 1) / 2

/-! ## Codes used in several records -/

/-- session: 0 PRE-OPEN, 1 OPEN, 2 MARKET HALT, 3 CLOSED. -/
def sessionOf (w : Word) : Option SessionState :=
  match w.toNat with
  | 0 => some .preOpen
  | 1 => some .opened
  | 2 => some .marketHalt
  | 3 => some .closed
  | _ => none

/-- price mode: high byte 1 and low byte d, or high byte 2 and low byte k. -/
def modeOf (w : Word) : Option Mode :=
  match w.high.toNat, w.low.toNat with
  | 1, 2 => some .fraction2
  | 1, 4 => some .fraction4
  | 1, 8 => some .fraction8
  | 1, 16 => some .fraction16
  | 1, 32 => some .fraction32
  | 1, 64 => some .fraction64
  | 2, 0 => some .decimal0
  | 2, 1 => some .decimal1
  | 2, 2 => some .decimal2
  | 2, 3 => some .decimal3
  | _, _ => none

/-- tape assignment: 0 NONE, 1 A, 2 B. The outer option is whether the code is one of the three. -/
def assignmentOf (w : Word) : Option (Option TapeId) :=
  match w.toNat with
  | 0 => some none
  | 1 => some (some .a)
  | 2 => some (some .b)
  | _ => none

/-- The tapes a TAPE TEXT names: 1 A, 2 B, 3 BOTH. -/
def textTapesOf (b : Byte) : Option (List TapeId) :=
  match b.toNat with
  | 1 => some [.a]
  | 2 => some [.b]
  | 3 => some [.a, .b]
  | _ => none

/-- halt reason: 1 NEWS, 2 IMBALANCE, 3 OTHER. -/
def haltReasonOf (w : Word) : Option HaltReason :=
  match w.toNat with
  | 1 => some .news
  | 2 => some .imbalance
  | 3 => some .other
  | _ => none

/-- direction: 1 ABOVE, 2 BELOW. -/
def directionOf (w : Word) : Option Direction :=
  match w.toNat with
  | 1 => some .above
  | 2 => some .below
  | _ => none

/-- The symbol characters: capital letters and the point (R23). -/
def symbolChar (c : Byte) : Bool := (0x41 ≤ c.toNat && c.toNat ≤ 0x5A) || c == Glyph.point

/-! ## Posting cells -/

/-- The state words of a posting cell and of a notice cell (chapter 11). -/
def stateEmpty : Word := 0x0000
def stateFilled : Word := 0x5A01
def stateTaken : Word := 0x5A02
def stateNotice : Word := 0x5A04

/-- The rows of the table that are postings. A TERMINAL posting is the row of its subcommand (R56). -/
inductive Row where
  | trade | quote | cancel | summary | halt | resume | define | session | tapeText | text | setPage | lock | unlock
  | clearStack | setWatch | clearWatches | remap | snapshot | mark
deriving DecidableEq, Repr

/-- What a kind word and the first body word name: a row, a kind that is none of the thirteen, or a TERMINAL whose
subcommand is none of the seven. -/
inductive Named where
  | row (r : Row)
  | badKind
  | badSubcommand
deriving DecidableEq, Repr

/-- The row of a TERMINAL subcommand (chapter 11, Posting cells). -/
def subcommandOf (b : Byte) : Named :=
  match b.toNat with
  | 1 => .row .text
  | 2 => .row .setPage
  | 3 => .row .lock
  | 4 => .row .unlock
  | 5 => .row .clearStack
  | 6 => .row .setWatch
  | 7 => .row .clearWatches
  | _ => .badSubcommand

/-- The row of a kind word, given the first body word (chapter 11, Posting cells). -/
def namedBy (kind first : Word) : Named :=
  match kind.toNat with
  | 1 => .row .trade
  | 2 => .row .quote
  | 3 => .row .cancel
  | 4 => .row .summary
  | 5 => .row .halt
  | 6 => .row .resume
  | 7 => .row .define
  | 8 => .row .session
  | 9 => .row .tapeText
  | 10 => subcommandOf first.low
  | 11 => .row .remap
  | 12 => .row .snapshot
  | 13 => .row .mark
  | _ => .badKind

/-- The words of a posting read so far: word number in the cell and value. -/
abbrev Body := List (Nat × Word)

/-- A word of the posting. -/
def Body.at (b : Body) (k : Nat) : Word := ((b.find? fun e => e.1 = k).map (·.2)).getD 0

/-- The characters of a posting from a word on. -/
def Body.chars (b : Body) (k n : Nat) : List Byte :=
  charsOf ((List.range (wordsFor n)).map fun j => b.at (k + j)) n

/-- The words from `k` on that hold `n` characters. -/
def charWords (k n : Nat) : List Nat := (List.range (wordsFor n)).map (k + ·)

/-- The body words intake reads of a kind at once (chapter 11; unused words are not read, R192). -/
def firstWords (kind : Word) : List Nat :=
  match kind.toNat with
  | 1 => [4, 5, 6, 7, 8, 9, 10, 11, 12]
  | 2 => [4, 5, 9, 10]
  | 3 => [4, 5]
  | 4 => [4, 5]
  | 5 => [4, 5]
  | 6 => [4]
  | 7 => [4, 5]
  | 8 => [4, 5, 6]
  | 9 => [4, 5]
  | 10 => [4]
  | 11 => [4]
  | 12 => [4]
  | 13 => [4, 5]
  | _ => []

/-- The body words that the words read so far call for: values whose absence or presence flag says so (R48, R49, R192), the
remaining fields of a DEFINE of length 1 to 5 (R53), the characters up to the length, the fields of a TERMINAL
subcommand. -/
def moreWords (kind : Word) (b : Body) : List Nat :=
  match kind.toNat with
  | 2 => (if (b.at 5).bit 8 then [] else [6]) ++ (if (b.at 5).bit 9 then [] else [7, 8])
  | 4 => (List.range 5).flatMap fun j => if (b.at 5).bit j then [6 + 2 * j, 7 + 2 * j] else []
  | 7 =>
    let n := (b.at 5).toNat
    if n = 0 ∨ 5 < n then [] else charWords 6 n ++ [9, 10, 11, 12]
  | 9 => charWords 6 (min (b.at 5).toNat 20)
  | 10 =>
    match (b.at 4).low.toNat with
    | 1 => [5]
    | 2 => [5]
    | 6 => [5, 6, 7, 8]
    | _ => []
  | _ => []

/-- The characters of a TERMINAL TEXT, once its length has been read. -/
def lastWords (kind : Word) (b : Body) : List Nat :=
  if kind.toNat = 10 ∧ (b.at 4).low.toNat = 1 ∧ (b.at 5).low.toNat ≤ 20 then charWords 6 (b.at 5).low.toNat else []

/-- The outcome of reading a posting (R41, R171). -/
inductive PostingRead where
  /-- A word could not be read because of a second bus timeout: the posting is not taken. -/
  | unread
  /-- A word faulted twice; sequence and kind as last read (R42). -/
  | parity (seq kind : Word)
  | posting (seq kind : Word) (body : Body)
deriving DecidableEq, Repr

/-- Reads words of a cell and adds them to a body. -/
def Bus.readBody (at_ : Nat → Word) (ks : List Nat) (body : Body) (b : Bus) : Bus × Option (Option Body) :=
  match b.readAll (ks.map at_) with
  | (b, .words ws) => (b, some (some (body ++ ks.zip ws)))
  | (b, .faulted) => (b, some none)
  | (b, .timedOut) => (b, none)

/-- Reads the body of a posting, in the three stages its fields call for. -/
def Bus.readBodies (at_ : Nat → Word) (kind : Word) :
    List (Body → List Nat) → Body → Bus → Bus × Option (Option Body)
  | [], body, b => (b, some (some body))
  | f :: fs, body, b =>
    match b.readBody at_ (f body) body with
    | (b, some (some body)) => Bus.readBodies at_ kind fs body b
    | r => r

/-- Reads the header and body words of the posting in a cell (R41 step 1). -/
def Bus.readPosting (at_ : Nat → Word) (b : Bus) : Bus × PostingRead :=
  match b.read (at_ 2) with
  | (b, .timedOut) => (b, .unread)
  | (b, seqOut) =>
    match b.read (at_ 3), seqOut with
    | (b, .timedOut), _ => (b, .unread)
    | (b, .word kind), .word seq =>
      match b.readBodies at_ kind [fun _ => firstWords kind, moreWords kind, lastWords kind] [] with
      | (b, some (some body)) => (b, .posting seq kind body)
      | (b, some none) => (b, .parity seq kind)
      | (b, none) => (b, .unread)
    | (b, .word kind), .faulted seq => (b, .parity seq kind)
    | (b, .faulted kind), .word seq => (b, .parity seq kind)
    | (b, .faulted kind), .faulted seq => (b, .parity seq kind)
    | (b, _), .timedOut => (b, .unread)

/-! ## The anchor record -/

/-- A word of the anchor as it was read, words 0 to 37. -/
def anchorAt (ws : List Word) (k : Nat) : Word := ws.getD k 0

/-- The anchor's offsets of the two host words that are read again at each use (R163, R176). -/
def pageTableWord : Word := 8
def pageCountWord : Word := 9
/-- The offset of POSTING START in the anchor. -/
def postingStartWord : Word := 4

/-! ## Board map, format and page records -/

/-- The offset of a module record (R76). -/
def Params.moduleRecord (p : Params) (n : Fin 4) (m : Fin 32) : Word :=
  p.boardMap + word (1024 * n.val + 32 * m.val)

/-- The offset of a format entry (R77). -/
def Params.formatEntry (p : Params) (f : Nat) : Word := p.formatTable + word (4 * f)

/-- The width a width code names (chapter 11). -/
def widthOf (code : Nat) : Option Width :=
  match code with
  | 1 => some .w16
  | 2 => some .w24
  | 3 => some .w32
  | _ => none

/-- The cells of a width. -/
def Width.cells : Width → Nat
  | .w16 => 16
  | .w24 => 24
  | .w32 => 32

/-- The field kind of a code (chapter 11). -/
def fieldKindOf (code : Nat) : Option FieldKind :=
  match code with
  | 1 => some .symbol
  | 2 => some .last
  | 3 => some .change
  | 4 => some .tick
  | 5 => some .bid
  | 6 => some .ask
  | 7 => some .volume
  | 8 => some .high
  | 9 => some .low
  | 10 => some .opening
  | 11 => some .status
  | _ => none

/-- A used slot of a module record as it was read (chapter 11). -/
structure Slot where
  instr : Nat
  kind : Nat
  start : Nat
  width : Nat
  format : Nat
deriving DecidableEq, Repr

/-- The fields of a used slot's three words. -/
def slotOf (a b c : Word) : Slot :=
  ⟨a.bits 0 15, b.bits 12 4, b.bits 5 5, b.bits 0 5, c.bits 0 6⟩

/-- A format entry with the substitutions of R18 and R81. -/
def formatOf (ws : List Word) : Format where
  style :=
    match (ws.getD 0 0).bits 12 4 with
    | 1 => .glyph
    | 3 =>
      match (ws.getD 0 0).bits 0 4 with
      | 0 => .none
      | 1 => .decimal 1
      | 2 => .decimal 2
      | _ => .decimal 3
    | 4 => .none
    | _ => .digits
  sign :=
    match (ws.getD 1 0).bits 12 4 with
    | 1 => .arrow
    | 2 => .sign
    | _ => .none
  zero := if (ws.getD 1 0).bits 4 4 = 1 then .unch else .zero
  unit :=
    match (ws.getD 2 0).toNat with
    | 2 => 100
    | 3 => 1000
    | _ => 1
  fill := if (ws.getD 1 0).bits 0 4 = 2 then Glyph.minus else Glyph.space
  base :=
    match (ws.getD 3 0).toNat with
    | 1 => .green
    | 2 => .red
    | 3 => .amber
    | _ => .white

/-- The code of a colour in an attribute byte (chapter 11). -/
def Colour.code : Colour → Nat
  | .white => 0
  | .green => 1
  | .red => 2
  | .amber => 3

/-- The attribute byte of a cell (chapter 11). -/
def Attr.byte (a : Attr) : Byte :=
  Sys2Proof.byte (a.colour.code + (if a.blink then 4 else 0) + (if a.dim then 8 else 0))

/-- The check byte of a frame: the sum modulo 256 of its other bytes (R97, R135). -/
def checkByte (bs : List Byte) : Byte := bs.foldl (· + ·) 0

/-- A frame with its check byte (R97, R135). -/
def withCheck (bs : List Byte) : List Byte := bs ++ [checkByte bs]

/-! ## Notice cells (chapter 11) -/

/-- The high and low words of a double. -/
def doubleWords (n : Nat) : List Word := [word (n / 65536), word n]

/-- A price in a double, absent as 0xFFFFFFFF (R192). -/
def priceWords : Option Price → List Word
  | none => [0xFFFF, 0xFFFF]
  | some p => doubleWords p.val

/-- A time of day in a double, absent as 0xFFFFFFFF (R192). -/
def timeWords : Option Tod → List Word
  | none => [0xFFFF, 0xFFFF]
  | some t => doubleWords t.val

/-- A number as three bytes, high byte first. -/
def bytes24 (n : Nat) : List Byte := [byte (n / 65536), byte (n / 256), byte n]

/-- A price in a 24-bit snapshot field: 16,777,215 is given as 16,777,214 (R61). -/
def snapshotPrice : Option Price → List Byte
  | none => bytes24 0xFFFFFF
  | some p => bytes24 (min p.val 0xFFFFFE)

/-- Bytes packed into words, high byte first. -/
def packWords : List Byte → List Word
  | a :: b :: r => Word.ofBytes a b :: packWords r
  | [a] => [Word.ofBytes a 0]
  | [] => []

/-- A word that may be absent, followed by the word whose bit 0 says that it is present. A field that is absent is written
as 0 (log 27). -/
def optionWords : Option Word → List Word
  | none => [0, 0]
  | some w => [w, 1]

/-- The code of a tape in a notice (chapter 11). -/
def tapeCode : TapeId → Nat
  | .a => 1
  | .b => 2

def Reason.code : Reason → Nat
  | .undefinedInstrument => 1
  | .badIndex => 2
  | .halted => 3
  | .wrongSession => 4
  | .badSummary => 5
  | .badKind => 6
  | .badField => 7
  | .duplicate => 8
  | .parity => 9

def BreakReason.code : BreakReason → Nat
  | .badState => 1
  | .parity => 2
  | .linkRange => 3
  | .linkSelf => 4
  | .linkUnallocated => 5
  | .tailFreed => 6

def ChainSource.code : ChainSource → Nat
  | .posting => 1
  | .notice => 2

def EntryKind.code : EntryKind → Nat
  | .trade => 1
  | .cancel => 2
  | .haltNote => 3
  | .resumeNote => 4
  | .text => 5

def Direction.code : Direction → Nat
  | .above => 1
  | .below => 2

def TickDir.code : TickDir → Nat
  | .none => 0
  | .up => 1
  | .down => 2

/-- The state code of SNAPSHOT PRICES (chapter 11). -/
def snapshotState (st : RecState) (reason : Option HaltReason) : Nat :=
  match st, reason with
  | .undefined, _ => 0
  | .active, _ => 1
  | .halted, some .news => 2
  | .halted, some .imbalance => 3
  | .halted, _ => 4

/-- The group of a notice (R179). -/
def NoticeBody.group : NoticeBody → GroupId
  | .startDone .. | .tableFaultRemap .. | .tableFaultTerminal .. | .chainBroken .. | .boardMapFull .. => .system
  | .postingRefused .. | .sequenceGap .. | .feedQuiet .. | .feedLost .. | .feedResumed .. | .markReached ..
  | .snapshotPrices .. | .snapshotQuote .. => .feed
  | .moduleLost .. | .moduleBack .. => .board
  | .tapeLevel .. | .tapeOmission .. => .tape
  | .terminalKey .. | .terminalOffline .. | .terminalOnline .. | .watchTripped .. => .terminal

/-- The kind number of a notice within its group (chapter 11). -/
def NoticeBody.kindNumber : NoticeBody → Nat
  | .startDone .. => 1
  | .tableFaultRemap .. | .tableFaultTerminal .. => 2
  | .chainBroken .. => 3
  | .boardMapFull .. => 4
  | .postingRefused .. => 1
  | .sequenceGap .. => 2
  | .feedQuiet .. => 3
  | .feedLost .. => 4
  | .feedResumed .. => 5
  | .markReached .. => 6
  | .snapshotPrices .. => 7
  | .snapshotQuote .. => 8
  | .moduleLost .. => 1
  | .moduleBack .. => 2
  | .tapeLevel .. => 1
  | .tapeOmission .. => 2
  | .terminalKey .. => 1
  | .terminalOffline .. => 2
  | .terminalOnline .. => 3
  | .watchTripped .. => 4

/-- The subject of a notice for folding (R179): none for a kind that is never folded. The first number tells kinds apart
whose subjects differ in form (the two sources of TABLE FAULT). -/
def NoticeBody.subject : NoticeBody → Option (List Nat)
  | .startDone .. => none
  | .tableFaultRemap l _ => some [1, l.val]
  | .tableFaultTerminal t _ => some [2, t.val]
  | .chainBroken .. => none
  | .boardMapFull l _ => some [l.val]
  | .postingRefused .. | .sequenceGap .. | .feedQuiet .. | .feedLost .. | .feedResumed .. | .markReached .. => some []
  | .snapshotPrices i .. => some [i.val]
  | .snapshotQuote i .. => some [i.val]
  | .moduleLost l m => some [l.val, m.val]
  | .moduleBack l m _ => some [l.val, m.val]
  | .tapeLevel t .. => some [tapeCode t]
  | .tapeOmission t _ (some i) .. => some [tapeCode t, i.val]
  | .tapeOmission t _ none .. => some [tapeCode t]
  | .terminalKey t .. => some [t.val]
  | .terminalOffline t => some [t.val]
  | .terminalOnline t => some [t.val]
  | .watchTripped t .. => some [t.val]

/-- The body of a notice from word 6 on (chapter 11), and the lateness of a TAPE LEVEL after it (R133; DESIGN CHOICE, log 34). -/
def NoticeBody.words : NoticeBody → List Word
  | .startDone source modules terminals => [word source.code, word modules, word terminals]
  | .tableFaultRemap l n => [1, word l.val, word (min n 65535)]
  | .tableFaultTerminal t o => [2, word t.val, o]
  | .chainBroken source cell (some w) reason => [word source.code, word cell, w, word reason.code]
  | .chainBroken source cell none reason => [word source.code, word cell, 0, word (32768 + reason.code)]
  | .boardMapFull l n => [word l.val, word n]
  | .postingRefused seq kind reason => [seq, kind, word reason.code]
  | .sequenceGap expected received => [expected, received]
  | .feedQuiet t last => word t :: optionWords last
  | .feedLost t last => word t :: optionWords last
  | .feedResumed secs seq => word secs :: optionWords seq
  | .markReached tag seq => [tag, seq]
  | .snapshotPrices i st tick reason prev op hi lo last time =>
    packWords (
      (let n := snapshotState st reason * 8192 + tick.code * 2048 + i.val; [byte (n / 256), byte n])
        ++ snapshotPrice prev ++ snapshotPrice op ++ snapshotPrice hi ++ snapshotPrice lo ++ snapshotPrice last
        ++ bytes24 (match time with | none => 0xFFFFFF | some t => t.val))
  | .snapshotQuote i bid ask bidSize askSize volume =>
    packWords (
      [byte (i.val / 256), byte i.val] ++ snapshotPrice bid ++ snapshotPrice ask
        ++ [bidSize.high, bidSize.low, askSize.high, askSize.low]
        ++ [byte (volume.val / 16777216), byte (volume.val / 65536), byte (volume.val / 256), byte volume.val])
  | .moduleLost l m => [word l.val, word m.val]
  | .moduleBack l m w => [word l.val, word m.val, word w.toNat]
  | .tapeLevel t before after backlog epoch late =>
    [word (tapeCode t), word before.val, word after.val, word backlog, epoch, word late]
  | .tapeOmission t kind i price id time =>
    [word (tapeCode t), word kind.code, (match i with | none => 0xFFFF | some i => word i.val)]
      ++ priceWords price ++ optionWords id ++ timeWords time
  | .terminalKey t key page => [word t.val, word key.val, page.getD 0xFFFF]
  | .terminalOffline t => [word t.val]
  | .terminalOnline t => [word t.val]
  | .watchTripped t i level dir last =>
    [word t.val, word i.val] ++ doubleWords level.val ++ [word dir.code] ++ doubleWords last.val

/-- The 20 bits of the time of day of a notice; 0xFFFFF is absent (chapter 11). -/
def noticeTime : Option Tod → Nat
  | none => 0xFFFFF
  | some t => t.val

/-- Words 2 to 15 of a notice cell: number, group and kind with the time, repeat count, body, unused words 0 (R183,
chapter 11). -/
def noticeWords (number : Word) (body : NoticeBody) (time : Option Tod) (repeats : Word) : List Word :=
  [number, word (body.group.code * 4096 + body.kindNumber * 256 + noticeTime time / 65536), word (noticeTime time), repeats]
    ++ body.words ++ List.replicate (10 - body.words.length) 0

end Sys2Proof.Machine
end

