-- ==== Sys2Proof/Machine/Handover.lean ====
section
/-! DEFINITION. What one block hands to another: change events, tape arrivals, events of the session unit. Each waits in
the receiver's queue until the receiver's own command takes it (log 2). -/

namespace Sys2Proof.Machine

/-- The fields a terminal row shows (R40, last row of the table). -/
def ChangedField.onRow : ChangedField → Bool
  | .symbol | .state | .mode | .previousClose | .last | .bid | .ask | .volume => true
  | _ => false

/-- The set ALL (R39). -/
def ChangedField.all : List ChangedField :=
  [.state, .symbol, .mode, .tape, .previousClose, .opening, .high, .low, .last, .tick, .volume, .bid, .ask, .bidSize,
    .askSize, .haltReason, .history, .printTime]

/-- After an update whose changed-field set is not empty, a change event goes to the board formatter and, when the set holds
a field a terminal row shows, to the contexts whose interest bit is set (R40). -/
def State.handChange (s : State) (i : Ix) (fields : List ChangedField) (mark : Option TickDir) : State :=
  if fields = [] then s
  else
    let s := s.withFmt { s.fmt with changes := s.fmt.changes ++ [⟨i, fields, mark⟩] }
    if fields.any ChangedField.onRow then
      s.withTerms (Bank.mapAll s.terms fun t x =>
        if Bank.get (s.record i).interest t then { x with changes := x.changes ++ [i] } else x)
    else s

/-- One update of a record, and its change event (R21, R40). -/
def State.updateRecord (s : State) (i : Ix) (r : Record) (fields : List ChangedField) (mark : Option TickDir) : State :=
  (s.setRecord i r).handChange i fields mark

/-- An input of intake, or a text of a session change, to a tape unit (R43, R193). -/
def State.handTape (s : State) (t : TapeId) (a : Arrival) : State :=
  s.modifyTape t fun x => { x with inbox := x.inbox ++ [a] }

/-- An input to the tape unit a record is assigned to, if any. -/
def State.handAssigned (s : State) (t : Option TapeId) (a : Arrival) : State :=
  match t with
  | some t => s.handTape t a
  | none => s

/-- An URGENT TEXT of a session change to each tape, with the time of day as it stands (R66). -/
def State.handSessionText (s : State) (text : List Byte) : State :=
  (s.handTape .a (.text text true s.session.tod)).handTape .b (.text text true s.session.tod)

/-- An URGENT TEXT of the feed watch to each tape (R73, R193), in a queue of its own, so that a later text of a session change may
be taken before it (DESIGN CHOICE, log 42). -/
def State.handWatchText (s : State) (text : List Byte) : State :=
  let put (x : Tape) : Tape := { x with watchInbox := x.watchInbox ++ [.text text true s.session.tod] }
  (s.modifyTape .a put).modifyTape .b put

/-- An event of the session unit to every terminal context (R67, R69, R70, R72). -/
def State.handTerms (s : State) (e : TermEvent) : State :=
  s.withTerms (Bank.mapAll s.terms fun _ x => { x with events := x.events ++ [e] })

/-- A night event to the board line controllers and the terminal contexts. The board formatter takes it too and leaves
every image and range as it stands (R69, R88). -/
def State.handNight (s : State) (flag : Bool) : State :=
  (s.withLines (Bank.mapAll s.lines fun _ x => { x with nights := x.nights ++ [flag] })).handTerms (.night flag)

/-- A session event to the board formatter and the terminal contexts (R67). -/
def State.handSession (s : State) (st : SessionState) : State :=
  (s.withFmt { s.fmt with sessionEvents := s.fmt.sessionEvents ++ [st] }).handTerms (.session st)

/-- A feed-stage event to the board formatter and the terminal contexts (R72 to R74). -/
def State.handStage (s : State) (st : FeedStage) : State :=
  (s.withFmt { s.fmt with stageEvents := s.fmt.stageEvents ++ [st] }).handTerms (.feedStage st)

/-- A watch check to each terminal context whose bit is set in the instrument's watch mask (R47). -/
def State.handWatchCheck (s : State) (i : Ix) (last : Price) : State :=
  s.withTerms (Bank.mapAll s.terms fun t x =>
    if Bank.get (s.record i).watchMask t then { x with checks := x.checks ++ [(i, last)] } else x)

end Sys2Proof.Machine
end

