-- ==== Sys2Proof/Machine/Session.lean ====
section
/-! DEFINITION. The session unit (chapter 04) and its timed rows TIME_OF_DAY_ADVANCE, NIGHT_TIMER, FEED_QUIET, FEED_LOST. -/

namespace Sys2Proof.Machine

/-- The watched sessions (R71). -/
def SessionState.watched : SessionState → Bool
  | .opened | .marketHalt => true
  | _ => false

/-- The text of a session change (R66). -/
def sessionText : SessionState → SessionState → Option (List Byte)
  | .preOpen, .opened => some (chars ['M', 'A', 'R', 'K', 'E', 'T', ' ', 'O', 'P', 'E', 'N'])
  | .marketHalt, .opened =>
    some (chars ['T', 'R', 'A', 'D', 'I', 'N', 'G', ' ', 'R', 'E', 'S', 'U', 'M', 'E', 'D'])
  | .marketHalt, .marketHalt => none
  | _, .marketHalt => some (chars ['M', 'A', 'R', 'K', 'E', 'T', ' ', 'H', 'A', 'L', 'T', 'E', 'D'])
  | .closed, .closed => none
  | _, .closed => some (chars ['M', 'A', 'R', 'K', 'E', 'T', ' ', 'C', 'L', 'O', 'S', 'E', 'D'])
  | _, _ => none

/-- The text of an entry into LOST (R73). -/
def delayedText : List Byte :=
  chars ['Q', 'U', 'O', 'T', 'E', 'S', ' ', 'D', 'E', 'L', 'A', 'Y', 'E', 'D']

/-- A SESSION posting's time is set and the time event handed on (R70). -/
def State.setTime (s : State) (t : Option Tod) : State :=
  match t with
  | none => s
  | some t => (s.withSession { s.session with tod := some t, fraction := 0 }).handTerms .time

/-- The night flag sets: the timer stops and the night event goes out (R68, R69). -/
def State.setNight (s : State) : State :=
  (s.withSession { s.session with night := true, nightTimer := none }).handNight true

/-- The night timer starts at 0 in CLOSED; a night delay of 0 sets the flag at once (R64, R68). -/
def State.enterClosed (s : State) : State :=
  if s.params.nightDelay = 0 then s.setNight
  else s.withSession { s.session with nightTimer := some 0 }

/-- Leaving CLOSED stops the night timer and clears the night flag, with its event (R68, R69). -/
def State.leaveClosed (s : State) : State :=
  let t := s.withSession { s.session with nightTimer := none, night := false }
  if s.session.night then t.handNight false else t

/-- A QUIET or LOST feed returns to LIVE, with the event and the FEED RESUMED notice (R74). -/
def State.feedResumed (s : State) (seq : Option Word) : State :=
  if s.session.stage = .live then s
  else
    let silence := min (s.session.feedTimer.getD 0 / 1000) 65535
    ((s.withSession { s.session with stage := .live, delayAnnounced := false }).handStage .live).hand
      (.feedResumed silence seq)

/-- The night flag and timer at a session change (R65, R68). -/
def State.nightAtChange (s : State) (old new : SessionState) : State :=
  let s := if old = .closed then s.leaveClosed else s
  if new = .closed then s.enterClosed else s

/-- The feed watch at a session change (R71, R74). -/
def State.feedAtChange (s : State) (old new : SessionState) : State :=
  if old.watched && !new.watched then s.feedResumed none
  else if !old.watched && new.watched then s.withSession { s.session with feedTimer := some 0 }
  else s

/-- The texts of a session change (R66). -/
def State.textAtChange (s : State) (old new : SessionState) : State :=
  match sessionText old new with
  | some t => s.handSessionText t
  | none => s

/-- The session changes to `new` (R65): the state, the night flag and timer, the feed watch, the texts, the session event, in
the order of R65's table. R67 puts a night clear before the session event; that a LIVE feed-stage event, and the night set of
a delay of 0, reach a context before it too is DESIGN CHOICE (log 36). -/
def State.changeSession (s : State) (new : SessionState) : State :=
  let old := s.session.state
  if new = old then s
  else
    ((((s.withSession { s.session with state := new }).nightAtChange old new).feedAtChange old new).textAtChange old
      new).handSession new

/-- The signal that a posting has been taken (R43, R71, R74). -/
def State.signalTaken (s : State) (seq : Word) : State :=
  let s := s.feedResumed (some seq)
  s.withSession { s.session with feedTimer := some 0 }

/-- One decisecond on, 863,999 going to 0 (R70). -/
def nextTod (t : Tod) : Tod := if h : t.val + 1 < 864000 then ⟨t.val + 1, h⟩ else 0

/-- TIME_OF_DAY_ADVANCE is due (R70). -/
def State.timeDue (s : State) : Bool := s.inService && s.session.tod.isSome && decide (100 ≤ s.session.fraction)

/-- NIGHT_TIMER is due: the timer has reached the night delay in CLOSED (R68). -/
def State.nightDue (s : State) : Bool :=
  s.inService && s.session.state = .closed && !s.session.night &&
    match s.session.nightTimer with
    | some ms => decide (s.params.nightDelay * Config.minuteMs ≤ ms)
    | none => false

/-- The feed timer has reached a threshold in seconds, in a watched session (R72, R73). -/
def State.feedReached (s : State) (seconds : Nat) : Bool :=
  s.inService && s.session.state.watched &&
    match s.session.feedTimer with
    | some ms => decide (seconds * 1000 ≤ ms)
    | none => false

/-- FEED_QUIET is due (R72). -/
def State.quietDue (s : State) : Bool := s.feedReached s.params.t1 && s.session.stage = .live

/-- FEED_LOST is due (R73). -/
def State.lostDue (s : State) : Bool := s.feedReached s.params.t2 && s.session.stage = .quiet

/-- The time of day advances one decisecond, with a time event at each whole minute (R70). -/
def State.advanceTime (s : State) : State :=
  match s.session.tod with
  | none => s
  | some t =>
    let u := nextTod t
    let s := s.withSession { s.session with tod := some u, fraction := s.session.fraction - 100 }
    if u.val % 600 = 0 then s.handTerms .time else s

/-- TIME_OF_DAY_ADVANCE (R70). -/
def execTimeOfDayAdvance (s : State) : Result := .next (if s.timeDue then s.advanceTime else s)

/-- NIGHT_TIMER (R68). -/
def execNightTimer (s : State) : Result := .next (if s.nightDue then s.setNight else s)

/-- The stage becomes QUIET (R72). -/
def State.becomeQuiet (s : State) : State :=
  ((s.withSession { s.session with stage := .quiet }).handStage .quiet).hand (.feedQuiet s.params.t1 s.intake.lastSeq)

/-- FEED_QUIET (R72). -/
def execFeedQuiet (s : State) : Result := .next (if s.quietDue then s.becomeQuiet else s)

/-- The QUOTES DELAYED texts, once in each silence (R73, R74). -/
def State.announceDelay (s : State) : State :=
  if s.session.delayAnnounced then s
  else (s.handWatchText delayedText).withSession { s.session with delayAnnounced := true }

/-- The stage becomes LOST (R73). -/
def State.becomeLost (s : State) : State :=
  (((s.withSession { s.session with stage := .lost }).handStage .lost).announceDelay).hand
    (.feedLost s.params.t2 s.intake.lastSeq)

/-- FEED_LOST (R73). -/
def execFeedLost (s : State) : Result := .next (if s.lostDue then s.becomeLost else s)

end Sys2Proof.Machine
end

