-- ==== Sys2Proof/Machine/Store.lean ====
section
/-! DEFINITION. The updates that postings make to one instrument record (chapter 02). Each gives the new record and the
changed-field set of R39. -/

namespace Sys2Proof.Machine

/-- Volume added with saturation at 4,294,967,295 (R27). -/
def Volume.satAdd (a b : Volume) : Volume := ⟨min (a.val + b.val) 4294967295, by omega⟩

/-- Volume subtracted with a clamp at 0 (R27). -/
def Volume.clampSub (a b : Volume) : Volume := ⟨a.val - b.val, by omega⟩

/-- What a TRADE carries beside its instrument (R45). -/
structure TradeFields where
  price : Price
  volume : Volume
  time : Option Tod
  opening : Bool
  outOfSeq : Bool
  oddLot : Bool
  id : Word
deriving DecidableEq, Repr

/-- The traded price widens the high (R25). -/
def raisesHigh (high : Option Price) (p : Price) : Bool :=
  match high with
  | none => true
  | some h => decide (h < p)

/-- The traded price widens the low (R25). -/
def lowersLow (low : Option Price) (p : Price) : Bool :=
  match low with
  | none => true
  | some l => decide (p < l)

/-- The tick direction after a trade at `p` that is not OUT-OF-SEQUENCE (R26). -/
def nextTick (r : Record) (p : Price) : TickDir :=
  match r.lastPx.or r.prevClose with
  | none => r.tick
  | some c => if c < p then .up else if p < c then .down else r.tick

/-- The trade sets the open (R46). -/
def setsOpen (r : Record) (f : TradeFields) : Bool := r.openPx.isNone || f.opening

/-- The record after a TRADE that is taken, at a time of day (R25 to R27, R29, R32, R46). -/
def Record.trade (r : Record) (f : TradeFields) (now : Option Tod) : Record :=
  { r with
    volume := r.volume.satAdd f.volume
    highPx := if raisesHigh r.highPx f.price then some f.price else r.highPx
    lowPx := if lowersLow r.lowPx f.price then some f.price else r.lowPx
    openPx := if setsOpen r f then some f.price else r.openPx
    lastPx := if f.outOfSeq then r.lastPx else some f.price
    tick := if f.outOfSeq then r.tick else nextTick r f.price
    history := (⟨f.id, f.price, f.volume, false⟩ :: r.history).take Config.historyCapacity
    printTime := f.time.or now }

/-- The changed-field set of a TRADE (R39, R46). -/
def tradeChanged (r : Record) (f : TradeFields) : List ChangedField :=
  (if setsOpen r f then [.opening] else []) ++ (if raisesHigh r.highPx f.price then [.high] else [])
    ++ (if lowersLow r.lowPx f.price then [.low] else []) ++ (if f.outOfSeq then [] else [.last, .tick])
    ++ [.volume, .history, .printTime]

/-- The four quote fields as a QUOTE writes them (R28, R48). -/
def Record.quote (r : Record) (bid ask : Option Price) (bidSize askSize : Word) : Record :=
  { r with bidPx := bid, askPx := ask, bidSize := bidSize, askSize := askSize }

/-- A CANCEL's search of the history, newest first, for an entry with the id that is not cancelled: the entry, the history
with it cancelled, and whether it was the newest standing print (R30, R31). -/
def cancelIn (id : Word) : List PrintEntry → Option (PrintEntry × List PrintEntry × Bool)
  | [] => none
  | e :: r =>
    if e.id = id ∧ e.cancelled = false then some (e, { e with cancelled := true } :: r, true)
    else
      match cancelIn id r with
      | none => none
      | some (c, r', newest) => some (c, e :: r', newest && e.cancelled)

/-- The price of the newest entry that still has its cancelled flag clear (R31). -/
def standingPrice (h : List PrintEntry) : Option Price := (h.find? fun e => !e.cancelled).map (·.price)

/-- The record after a CANCEL, its changed-field set, and the cancel price (R30, R31, R39). -/
def Record.cancel (r : Record) (id : Word) : Record × List ChangedField × Option Price :=
  match cancelIn id r.history with
  | none => (r, [], none)
  | some (e, h, newest) =>
    let r' := { r with history := h, volume := r.volume.clampSub e.volume }
    match newest, standingPrice h with
    | true, some p => ({ r' with lastPx := some p }, [.last, .volume, .history], some e.price)
    | _, _ => (r', [.volume, .history], some e.price)

/-- What a SUMMARY carries (R49): for each field, none when its presence flag is clear. -/
structure SummaryFields where
  openPx : Option (Option Price)
  highPx : Option (Option Price)
  lowPx : Option (Option Price)
  prevClose : Option (Option Price)
  volume : Option Volume
deriving DecidableEq, Repr

/-- The record after a SUMMARY (R49). -/
def Record.summary (r : Record) (f : SummaryFields) : Record :=
  { r with
    openPx := f.openPx.getD r.openPx
    highPx := f.highPx.getD r.highPx
    lowPx := f.lowPx.getD r.lowPx
    prevClose := f.prevClose.getD r.prevClose
    volume := f.volume.getD r.volume }

/-- The changed-field set of a SUMMARY holds the named fields (R49). -/
def summaryChanged (f : SummaryFields) : List ChangedField :=
  (if f.openPx.isSome then [.opening] else []) ++ (if f.highPx.isSome then [.high] else [])
    ++ (if f.lowPx.isSome then [.low] else []) ++ (if f.prevClose.isSome then [.previousClose] else [])
    ++ (if f.volume.isSome then [.volume] else [])

/-- The low does not exceed the high where both are present (R25). -/
def Record.rangeOk (r : Record) : Bool :=
  match r.lowPx, r.highPx with
  | some l, some h => decide (l ≤ h)
  | _, _ => true

/-- An ACTIVE record HALTED, or the halt reason replaced (R51). -/
def Record.halt (r : Record) (reason : HaltReason) : Record := { r with state := .halted, haltReason := some reason }

/-- A HALTED record made ACTIVE (R52). -/
def Record.resume (r : Record) : Record := { r with state := .active, haltReason := none }

/-- What a DEFINE of an instrument carries (R53). -/
structure DefineFields where
  symbol : List Byte
  mode : Mode
  tape : Option TapeId
  prevClose : Option Price
deriving DecidableEq, Repr

/-- A DEFINE with a symbol of 1 to 5 characters redefines the record; the chain head and both masks are kept (R37). -/
def Record.redefine (r : Record) (f : DefineFields) : Record :=
  { Record.reset with
    state := .active
    symbol := f.symbol
    mode := f.mode
    tape := f.tape
    prevClose := f.prevClose
    chainHead := r.chainHead
    interest := r.interest
    watchMask := r.watchMask }

/-- A DEFINE with a symbol of length 0 removes the instrument; the chain head and the interest mask are kept (R38). -/
def Record.remove (r : Record) : Record :=
  { Record.reset with chainHead := r.chainHead, interest := r.interest }

end Sys2Proof.Machine
end

