-- ==== Sys2Proof/Machine/Terminals.lean ====
section
/-! DEFINITION. Terminal contexts (chapter 08): rows, beeps, watches, subcommands, events, key dispatch and page loads. -/

namespace Sys2Proof.Machine

/-- The context is busy (R134). -/
def Terminal.busy (x : Terminal) : Bool := x.work ≠ .none

/-- Rows marked dirty (R153). -/
def Terminal.markRows (x : Terminal) (p : Fin 18 → Bool) : Terminal :=
  { x with dirty := Bank.mapAll x.dirty fun r d => d || p r }

/-- The message row marked dirty (R153). -/
def Terminal.markMessageRow (x : Terminal) : Terminal := x.markRows fun r => r == 17

/-- Rows 0 to 17 marked dirty (R153). -/
def Terminal.markAllRows (x : Terminal) : Terminal := x.markRows fun _ => true

/-- A beep: none when QUIET is in the mask or the terminal is OFFLINE or ASLEEP (R152). -/
def Terminal.giveBeep (x : Terminal) : Terminal :=
  if x.mask.quiet = true ∨ x.state ≠ .online then x else { x with beep := true }.markMessageRow

/-- The work in hand ends, and the waiting load, if any, begins (R154, R155). -/
def Terminal.endWork (x : Terminal) : Terminal :=
  match x.waiting with
  | none => { x with work := .none }
  | some p => { x with work := .pageLoad p .posting, waiting := none }

/-- The work in hand ends with a beep. -/
def Terminal.endWithBeep (x : Terminal) : Terminal := x.giveBeep.endWork

/-! ## Watches (R159, R160) -/

/-- The watch's price is reached by a last price (R159). -/
def Watch.reached (w : Watch) (last : Price) : Bool :=
  match w.dir with
  | .above => decide (w.level ≤ last)
  | .below => decide (last ≤ w.level)

/-- An ARMED watch on the instrument that the last price trips (R159). -/
def Watch.trips (w : Watch) (i : Ix) (last : Price) : Bool := w.instr = i && !w.tripped && w.reached last

/-- An ARMED watch on the instrument (R160). -/
def Watch.armedOn (w : Watch) (i : Ix) : Bool := w.instr = i && !w.tripped

/-- The alert message (R159). -/
def alertMessage (r : Record) (last : Price) : List Byte :=
  leftIn 40 (chars ['A', 'L', 'E', 'R', 'T', ' '] ++ r.symbol ++ [Glyph.space] ++ (priceParts r.mode .digits last.val).text)

/-- The context after a watch check at which some watch tripped (R159). -/
def Terminal.alerted (x : Terminal) (i : Ix) (last : Price) (message : List Byte) : Terminal :=
  Terminal.giveBeep (Terminal.markMessageRow
    { x with
      watches := x.watches.map fun w => if w.trips i last then { w with tripped := true } else w
      lamp := true
      message := some message })

/-- The notice of a tripped watch (R159). -/
def trippedNotice (t : Fin 16) (last : Price) (w : Watch) : NoticeBody :=
  .watchTripped t w.instr w.level w.dir last

/-- The terminal's bit in the watch mask of an instrument: set if and only if it holds an ARMED watch on it (R160). -/
def State.refreshWatchBit (s : State) (t : Fin 16) (i : Ix) : State :=
  s.setRecord i { s.record i with watchMask := Bank.set (s.record i).watchMask t ((s.term t).watches.any (·.armedOn i)) }

/-- A context checks its ARMED watches on an instrument against a new last price (R159, R160). -/
def State.checkWatches (s : State) (t : Fin 16) (i : Ix) (last : Price) : State :=
  let x := s.term t
  if x.watches.any (·.trips i last) then
    ((s.modifyTerm t fun x => x.alerted i last (alertMessage (s.record i) last)).handAll
      ((x.watches.filter (·.trips i last)).map (trippedNotice t last))).refreshWatchBit t i
  else s

/-- The watch checks handed to a context and not yet taken are taken, in order. A subcommand of a later posting finds them
done (R43, R160, log 17). -/
def State.takeChecks (s : State) (t : Fin 16) : State :=
  (s.term t).checks.foldl (fun s e => s.checkWatches t e.1 e.2) (s.modifyTerm t fun x => { x with checks := [] })

/-- The removal of an instrument takes every watch on it from a context; lamp and message stay (R38, R160). -/
def Terminal.dropWatches (x : Terminal) (i : Ix) : Terminal :=
  { x with watches := x.watches.filter fun w => w.instr ≠ i }

/-! ## Subcommands (R57 to R59, R150, R154) -/

/-- The half of the message line that a TEXT names (R57). -/
inductive Half where
  | first | second
deriving DecidableEq, Repr

/-- The message line after a TEXT (R57). -/
def messageAfter (old : Option (List Byte)) (half : Half) (text : List Byte) : Option (List Byte) :=
  match half with
  | .first => if text = [] then none else some (leftIn 40 text)
  | .second => some (leftIn 20 (old.getD (spaces 40)) ++ leftIn 20 text)

/-- TEXT (R57). -/
def Terminal.setText (half : Half) (text : List Byte) (x : Terminal) : Terminal :=
  { x with message := messageAfter x.message half text }.markMessageRow

/-- SET PAGE (R58, R154). -/
def Terminal.askPage (page : Word) (x : Terminal) : Terminal :=
  if x.busy then { x with waiting := some page } else { x with work := .pageLoad page .posting }

/-- LOCK and UNLOCK (R150). -/
def Terminal.setLock (flag : Bool) (x : Terminal) : Terminal := { x with locked := flag }.markMessageRow

/-- CLEAR STACK (R58, R154). -/
def Terminal.clearStack (x : Terminal) : Terminal := { x with stack := [] }

/-- SET WATCH adds an ARMED watch at the end of the list and sets the watch mask bit (R159, R160). -/
def State.addWatch (s : State) (t : Fin 16) (i : Ix) (level : Price) (dir : Direction) : State :=
  (s.modifyTerm t fun x => { x with watches := x.watches ++ [⟨i, level, dir, false⟩] }).refreshWatchBit t i

/-- CLEAR WATCHES removes every watch and clears the bit of each instrument a removed watch named (R59, R160). -/
def State.clearWatches (s : State) (t : Fin 16) : State :=
  (s.term t).watches.foldl (fun s w => s.refreshWatchBit t w.instr) (s.modifyTerm t fun x => { x with watches := [] })

/-! ## Events of the other blocks (R153, R141, R142) -/

/-- A change event marks each instrument row whose entry is the instrument (R153). -/
def Terminal.markInstrument (x : Terminal) (i : Ix) : Terminal :=
  x.markRows fun r => decide (1 ≤ r.val ∧ r.val ≤ 16) && x.pageList[r.val - 1]? == some (some i)

/-- The context takes the first change event handed to it (R153). -/
def Terminal.takeChange (x : Terminal) : Terminal :=
  match x.changes with
  | [] => x
  | i :: r => { x with changes := r }.markInstrument i

/-- The context takes the first event of the session unit when it is a session event (R153). -/
def Terminal.takeSession (x : Terminal) : Terminal :=
  match x.events with
  | .session _ :: r => { x with events := r }.markRows fun k => decide (k.val ≤ 16)
  | _ => x

/-- The context takes the first event of the session unit when it is a feed-stage event (R153). -/
def Terminal.takeStage (x : Terminal) : Terminal :=
  match x.events with
  | .feedStage _ :: r => { x with events := r }.markRows fun k => k == 0
  | _ => x

/-- The context takes the first event of the session unit when it is a time event (R153). -/
def Terminal.takeTime (x : Terminal) : Terminal :=
  match x.events with
  | .time :: r => { x with events := r }.markRows fun k => k == 0
  | _ => x

/-- A night set: an ONLINE terminal goes ASLEEP (R141). -/
def Terminal.fallAsleep (x : Terminal) : Terminal :=
  let x := { x with night := true }
  if x.state = .online then { x with state := .asleep, blankDue := true, beep := false, poll := .due } else x

/-- Waking (R142). -/
def Terminal.wake (x : Terminal) : Terminal :=
  { x with state := .online, miss := 0, blankDue := false, poll := .stopped }.markAllRows

/-- A night clear wakes an ASLEEP terminal (R142). -/
def Terminal.nightOver (x : Terminal) : Terminal :=
  let x := { x with night := false }
  if x.state = .asleep then x.wake else x

/-- The context takes the first event of the session unit when it is a night set (R141). -/
def Terminal.takeNightSet (x : Terminal) : Terminal :=
  match x.events with
  | .night true :: r => { x with events := r }.fallAsleep
  | _ => x

/-- The context takes the first event of the session unit when it is a night clear (R142). -/
def Terminal.takeNightClear (x : Terminal) : Terminal :=
  match x.events with
  | .night false :: r => { x with events := r }.nightOver
  | _ => x

/-- TERMINAL_CHANGE_EVENT (R153). -/
def execTerminalChangeEvent (t : Fin 16) (s : State) : Result := .next (s.modifyTerm t Terminal.takeChange)

/-- TERMINAL_SESSION_EVENT (R153). -/
def execTerminalSessionEvent (t : Fin 16) (s : State) : Result := .next (s.modifyTerm t Terminal.takeSession)

/-- TERMINAL_FEED_STAGE_EVENT (R153). -/
def execTerminalFeedStageEvent (t : Fin 16) (s : State) : Result := .next (s.modifyTerm t Terminal.takeStage)

/-- TIME_EVENT (R70, R153). -/
def execTimeEvent (t : Fin 16) (s : State) : Result := .next (s.modifyTerm t Terminal.takeTime)

/-- TERMINAL_NIGHT_SET (R141). -/
def execTerminalNightSet (t : Fin 16) (s : State) : Result := .next (s.modifyTerm t Terminal.takeNightSet)

/-- TERMINAL_NIGHT_CLEAR (R142). -/
def execTerminalNightClear (t : Fin 16) (s : State) : Result := .next (s.modifyTerm t Terminal.takeNightClear)

/-- The context takes the first watch check handed to it (R159). -/
def State.takeCheck (s : State) (t : Fin 16) : State :=
  match (s.term t).checks with
  | [] => s
  | (i, last) :: r => (s.modifyTerm t fun x => { x with checks := r }).checkWatches t i last

/-- WATCH_CHECK (R159). -/
def execWatchCheck (t : Fin 16) (s : State) : Result := .next (s.takeCheck t)

/-! ## Key dispatch (R144 to R149) -/

/-- A word lies in the anchor, bitmap or pool region as START accepted them (R176). -/
def Params.inChainRegion (p : Params) (o : Word) : Bool :=
  decide (o.toNat < 64)
    || decide (p.bitmapOffset.toNat ≤ o.toNat ∧ o.toNat < p.bitmapOffset.toNat + (p.cellCount + 15) / 16)
    || decide (p.poolOffset.toNat ≤ o.toNat ∧ o.toNat < p.poolOffset.toNat + 16 * p.cellCount)

/-- The runtime table check refuses a record of `n` words (R176). -/
def Params.refusesRecord (p : Params) (first : Word) (n : Nat) : Bool :=
  (List.range n).any fun k => p.inChainRegion (first + word k)

/-- The runtime table check's flag and notice (R176). -/
def State.runtimeFault (s : State) (t : Fin 16) (first : Word) : State :=
  (s.withBus (s.bus.setError .tableFault)).hand (.tableFaultTerminal t first)

/-- A dispatch that ends without a page load, with or without a beep (R144). -/
def State.endDispatch (s : State) (t : Fin 16) (beep : Bool) : State :=
  s.modifyTerm t fun x => if beep then x.endWithBeep else x.endWork

/-- A dispatch becomes a page load (R145, R147, R148). -/
def State.beginLoad (s : State) (t : Fin 16) (page : Word) (origin : LoadOrigin) : State :=
  s.modifyTerm t fun x => { x with work := .pageLoad page origin }

/-- A key's page is loaded unless its number is at or beyond the page count, which is read from the anchor then; a read
that fails ignores the key with a beep (R145, R147, R176). -/
def State.loadIfCounted (s : State) (t : Fin 16) (page : Word) (origin : LoadOrigin) : State :=
  match s.bus.read pageCountWord with
  | (b, .word count) =>
    if count.toNat ≤ page.toNat then (s.withBus b).endDispatch t true else (s.withBus b).beginLoad t page origin
  | (b, _) => (s.withBus b).endDispatch t true

/-- A DIRECT entry (R145). -/
def State.directKey (s : State) (t : Fin 16) (page : Word) : State :=
  if (s.term t).locked then s.endDispatch t true else s.loadIfCounted t page .directKey

/-- The actions of a key action record (R146). -/
inductive Action where
  | none | showPage | back | forward | clearAlert
deriving DecidableEq, Repr

/-- The action of a code; a code that is none of the five is NONE (R146). -/
def actionOf (w : Word) : Action :=
  match w.toNat with
  | 1 => .showPage
  | 2 => .back
  | 3 => .forward
  | 4 => .clearAlert
  | _ => .none

/-- CLEAR ALERT (R149). -/
def Terminal.clearAlert (x : Terminal) : Terminal :=
  let y := { x with lamp := false, watches := x.watches.filter fun w => !w.tripped }
  if x.lamp then y.markMessageRow else y

/-- A SHOW PAGE action (R147). -/
def State.showPage (s : State) (t : Fin 16) (page : Word) (push : Bool) (bits : PageMask) : State :=
  if (s.term t).locked then s.endDispatch t true else s.loadIfCounted t page (.showPage push bits)

/-- A BACK action (R148). -/
def State.backPage (s : State) (t : Fin 16) : State :=
  if (s.term t).locked then s.endDispatch t true
  else
    match (s.term t).stack with
    | [] => s.endDispatch t true
    | (page, mask) :: _ => s.beginLoad t page (.back mask)

/-- The TERMINAL KEY notice of an action record with NOTIFY set, or of a FORWARD (R146). -/
def State.notifyKey (s : State) (t : Fin 16) (key : Fin 64) (a : Action) (flags : Word) : State :=
  if flags.bit 1 = true ∨ a = .forward then s.hand (.terminalKey t key (s.term t).page) else s

/-- An action record that has been read (R146 to R149). -/
def State.actOn (s : State) (t : Fin 16) (key : Fin 64) (action flags page attrs : Word) : State :=
  let a := actionOf action
  let s := s.notifyKey t key a flags
  match a with
  | .showPage => s.showPage t page (flags.bit 0) ⟨attrs.bit 0, attrs.bit 1⟩
  | .back => s.backPage t
  | .clearAlert => (s.modifyTerm t Terminal.clearAlert).endDispatch t false
  | .forward => s.endDispatch t false
  | .none => s.endDispatch t false

/-- The key action record at an offset is checked and read, all four words whatever the action (R146, R176; DEDUCED, log 43). -/
def State.actionKey (s : State) (t : Fin 16) (key : Fin 64) (first : Word) : State :=
  if s.params.refusesRecord first 4 then (s.runtimeFault t first).endDispatch t true
  else
    match s.bus.readAll [first, first + 1, first + 2, first + 3] with
    | (b, .words [action, flags, page, attrs]) => (s.withBus b).actOn t key action flags page attrs
    | (b, _) => (s.withBus b).endDispatch t true

/-- The read of a key table entry completes and the dispatch acts on it (R144). -/
def State.dispatchKey (s : State) (t : Fin 16) (key : Fin 64) : State :=
  match s.bus.read (s.params.keyTable + word key.val) with
  | (b, .word e) =>
    let s := s.withBus b
    if e.bit 15 then s.directKey t (word (e.bits 0 15))
    else if e.bits 0 15 = 0 then s.endDispatch t true
    else s.actionKey t key (word (e.bits 0 15))
  | (b, _) => (s.withBus b).endDispatch t true

/-- KEY_ENTRY_READ (R144 to R149). -/
def execKeyEntryRead (t : Fin 16) (h : List HostWrite) (s : State) : Result :=
  let s := s.hostWrites h
  .next (match (s.term t).work with
    | .keyDispatch key => s.dispatchKey t key
    | _ => s)

/-! ## Page loads (R151, R155) -/

/-- The load was begun by a key (R151). -/
def LoadOrigin.byKey : LoadOrigin → Bool
  | .posting => false
  | _ => true

/-- A failed load ends, with a beep when a key began it (R151). -/
def State.failLoad (s : State) (t : Fin 16) (origin : LoadOrigin) : State :=
  s.modifyTerm t fun x => if origin.byKey then x.endWithBeep else x.endWork

/-- The stack after a load completes (R147, R148). -/
def stackAfter (x : Terminal) : LoadOrigin → List (Word × PageMask)
  | .showPage true _ =>
    match x.page with
    | some p => ((p, x.mask) :: x.stack).take Config.stackCapacity
    | none => x.stack
  | .back _ => x.stack.tail
  | _ => x.stack

/-- The attribute mask after a load completes (R147, R148). -/
def maskAfter (x : Terminal) : LoadOrigin → PageMask
  | .showPage _ bits => ⟨x.mask.quiet || bits.quiet, x.mask.inverse || bits.inverse⟩
  | .back mask => mask
  | _ => x.mask

/-- A page record as it was read (R151). -/
structure PageRecord where
  title : List Byte
  entries : List (Option Ix)
deriving DecidableEq, Repr

/-- The context after a load completes (R155 steps 1, 4 and 5). -/
def Terminal.showLoaded (x : Terminal) (page : Word) (origin : LoadOrigin) (r : PageRecord) : Terminal :=
  Terminal.endWork (Terminal.markAllRows
    { x with stack := stackAfter x origin, mask := maskAfter x origin, page := some page, pageList := r.entries,
             title := r.title })

/-- One bit of the interest mask of an instrument (R155). -/
def State.setInterest (s : State) (t : Fin 16) (flag : Bool) (i : Ix) : State :=
  s.setRecord i { s.record i with interest := Bank.set (s.record i).interest t flag }

/-- The interest bits after a load: cleared for instruments listed before and not now, set for those listed now (R155 steps
2 and 3). -/
def State.moveInterest (s : State) (t : Fin 16) (old new : List (Option Ix)) : State :=
  let gone := (old.filterMap id).filter fun i => !(new.contains (some i))
  (new.filterMap id).foldl (fun s i => s.setInterest t true i) (gone.foldl (fun s i => s.setInterest t false i) s)

/-- A page load that succeeds completes in one step (R155). -/
def State.completeLoad (s : State) (t : Fin 16) (page : Word) (origin : LoadOrigin) (r : PageRecord) : State :=
  (s.moveInterest t (s.term t).pageList r.entries).modifyTerm t fun x => x.showLoaded page origin r

/-- The title and the entries of a page record; only the words its lengths call for are read (R151, R192, log 23): title length
and instrument count, then the title, then the slots (the order is DESIGN CHOICE, log 38). -/
def Bus.readPage (first : Word) (b : Bus) : Bus × Option PageRecord :=
  match b.readAll [first, first + 13] with
  | (b, .words [len, count]) =>
    let n := min len.toNat 24
    let k := min count.toNat 16
    match b.readAll ((List.range (wordsFor n)).map fun j => first + word (1 + j)) with
    | (b, .words title) =>
      match b.readAll ((List.range k).map fun j => first + word (14 + j)) with
      | (b, .words slots) => (b, some ⟨charsOf title n, slots.map fun w => Ix.ofNat? w.toNat⟩)
      | (b, _) => (b, none)
    | (b, _) => (b, none)
  | (b, _) => (b, none)

/-- A load whose record has been read: a load begun by a key is dropped with a beep when the terminal is locked (R150). -/
def State.finishLoad (s : State) (t : Fin 16) (page : Word) (origin : LoadOrigin) (r : PageRecord) : State :=
  if origin.byKey && (s.term t).locked then s.failLoad t origin else s.completeLoad t page origin r

/-- The page record is checked and read (R151, R176). -/
def State.loadRecord (s : State) (t : Fin 16) (page : Word) (origin : LoadOrigin) (first : Word) : State :=
  if s.params.refusesRecord first 32 then (s.runtimeFault t first).failLoad t origin
  else
    match s.bus.readPage first with
    | (b, some r) => (s.withBus b).finishLoad t page origin r
    | (b, none) => (s.withBus b).failLoad t origin

/-- A page load, from the reads of the anchor to its end: the page table offset, then the page count (log 38), then the record
(R151, R176). -/
def State.loadPage (s : State) (t : Fin 16) (page : Word) (origin : LoadOrigin) : State :=
  match s.bus.readAll [pageTableWord, pageCountWord] with
  | (b, .words [table, count]) =>
    if min count.toNat 256 ≤ page.toNat then (s.withBus b).failLoad t origin
    else (s.withBus b).loadRecord t page origin (table + word (32 * page.toNat))
  | (b, _) => (s.withBus b).failLoad t origin

/-- PAGE_LOAD_COMPLETE (R155). -/
def execPageLoadComplete (t : Fin 16) (h : List HostWrite) (s : State) : Result :=
  let s := s.hostWrites h
  .next (match (s.term t).work with
    | .pageLoad page origin => s.loadPage t page origin
    | _ => s)

end Sys2Proof.Machine
end

