-- ==== Sys2Proof/Machine/TermLines.lean ====
section
/-! DEFINITION. Terminal lines (chapter 08): what the rows show, visits, POLL outcomes. -/

namespace Sys2Proof.Machine

/-- Terminal `a` of line `l` (R135). -/
def terminalOf (l : Fin 2) (a : Fin 8) : Fin 16 := ⟨8 * l.val + a.val, by omega⟩

/-! ## Rows (R156 to R158) -/

/-- The session as the header names it (R156). -/
def SessionState.header : SessionState → List Byte
  | .preOpen => chars ['P', 'R', 'E', '-', 'O', 'P', 'E', 'N']
  | .opened => chars ['O', 'P', 'E', 'N']
  | .marketHalt => chars ['H', 'A', 'L', 'T']
  | .closed => chars ['C', 'L', 'O', 'S', 'E', 'D']

/-- The time of day as "HH:MM" (R156). -/
def clockText : Option Tod → List Byte
  | none => spaces 5
  | some t => padded 2 (t.val / 36000) ++ [Glyph.colon] ++ padded 2 (t.val % 36000 / 600)

/-- The header, row 0 (R156). -/
def State.headerRow (s : State) (x : Terminal) : List Byte :=
  (if x.page.isSome then leftIn 24 (x.title.map (showOr terminalGlyph)) else spaces 24)
    ++ spaces 1 ++ leftIn 8 s.session.state.header ++ spaces 1
    ++ (if s.session.stage = .live then spaces 7 else chars ['D', 'E', 'L', 'A', 'Y', 'E', 'D'])
    ++ spaces 2 ++ clockText s.session.tod

/-- The Change column (R157). -/
def changeColumn (r : Record) (st : SessionState) : List Byte :=
  if st = .preOpen then spaces 9
  else if r.state = .halted then rightIn 9 (chars ['H', 'A', 'L', 'T', 'E', 'D'])
  else
    match r.lastPx, r.prevClose with
    | some l, some p => fitTerminalChange r.mode 9 (netChange l p)
    | _, _ => spaces 9

/-- The row of an instrument (R19, R157). -/
def instrumentRow (r : Record) (st : SessionState) : List Byte :=
  if r.state = .undefined then List.replicate 4 Glyph.minus ++ spaces 44
  else
    leftIn 6 r.symbol ++ terminalPriceField r.mode 10 (if st = .preOpen then r.prevClose else r.lastPx)
      ++ changeColumn r st ++ terminalPriceField r.mode 9 r.bidPx ++ terminalPriceField r.mode 9 r.askPx
      ++ volumeField 5 100 r.volume

/-- The message row, row 17 (R158). -/
def messageRow (x : Terminal) : List Byte :=
  (match x.message with
    | none => spaces 40
    | some m => leftIn 40 (m.map (showOr terminalGlyph)))
    ++ spaces 2 ++ (if x.locked then chars ['L', 'O', 'C', 'K', 'E', 'D'] else spaces 6)

/-- The 48 characters of a row (R156 to R158). -/
def State.rowChars (s : State) (x : Terminal) (r : Fin 18) : List Byte :=
  if r.val = 0 then s.headerRow x
  else if r.val = 17 then messageRow x
  else
    match x.pageList[r.val - 1]? with
    | some (some i) => instrumentRow (s.record i) s.session.state
    | _ => spaces 48

/-- The bytes of a ROW frame (R138, chapter 11). -/
def State.rowFrame (s : State) (x : Terminal) (a : Fin 8) (r : Fin 18) : List Byte :=
  withCheck ([0xC1, byte a.val, byte r.val,
    byte ((if r.val = 0 ∧ x.mask.inverse = true then 1 else 0) + (if x.lamp then 2 else 0) + (if x.beep then 4 else 0))]
    ++ s.rowChars x r)

/-- The bytes of a POLL frame (chapter 11). -/
def pollFrame (a : Fin 8) : List Byte := withCheck [0xC2, byte a.val]

/-- The bytes of a BLANK SCREEN frame (chapter 11). -/
def blankScreenFrame (a : Fin 8) : List Byte := withCheck [0xC3, byte a.val]

/-! ## Visits (R137, R138, R140, R141) -/

/-- A terminal is eligible for a visit (R137). -/
def Terminal.eligible (x : Terminal) : Bool := !x.busy && (x.state = .online || x.poll = .due)

/-- The order in which a line searches its terminals: from the one after the round-robin position upward, wrapping, and
back to the position itself; from the lowest when the position is absent (R137). -/
def visitOrder : Option (Fin 8) → List (Fin 8)
  | none => List.finRange 8
  | some p => (List.finRange 8).filter (fun a => p < a) ++ (List.finRange 8).filter (fun a => a ≤ p)

/-- The terminal a free line visits next (R137). -/
def State.nextVisit (s : State) (l : Fin 2) : Option (Fin 8) :=
  if s.linesWork = true ∧ (s.tline l).frame = none then
    (visitOrder (s.tline l).roundRobin).find? fun a => (s.term (terminalOf l a)).eligible
  else none

/-- The lowest-numbered dirty row (R138). -/
def Terminal.lowestDirty (x : Terminal) : Option (Fin 18) := (List.finRange 18).find? fun r => Bank.get x.dirty r

/-- A frame begins to be sent (R135). -/
def State.sendFrame (s : State) (l : Fin 2) (f : TermFrame) : State :=
  s.modifyTline l fun x => { x with frame := some f }

/-- A row leaves the dirty rows and the beep pending as its frame is built (R138). -/
def Terminal.rowBuilt (x : Terminal) (r : Fin 18) : Terminal :=
  { x with dirty := Bank.set x.dirty r false, beep := false }

/-- A visit to an ONLINE terminal begins: a ROW for the lowest dirty row, or the POLL at once (R138). -/
def State.visitOnline (s : State) (l : Fin 2) (a : Fin 8) : State :=
  let t := terminalOf l a
  match (s.term t).lowestDirty with
  | some r =>
    (s.sendFrame l ⟨.row r, a, s.rowFrame (s.term t) a r, .sending, .online, false⟩).modifyTerm t (·.rowBuilt r)
  | none => s.sendFrame l ⟨.poll, a, pollFrame a, .sending, .online, false⟩

/-- A visit to an ASLEEP terminal begins: the timer stops; a BLANK SCREEN when it is due, or the POLL at once (R141). -/
def State.visitAsleep (s : State) (l : Fin 2) (a : Fin 8) : State :=
  let t := terminalOf l a
  if (s.term t).blankDue then
    (s.sendFrame l ⟨.blankScreen, a, blankScreenFrame a, .sending, .asleep, true⟩).modifyTerm t
      fun x => { x with poll := .stopped, blankDue := false }
  else
    (s.sendFrame l ⟨.poll, a, pollFrame a, .sending, .asleep, true⟩).modifyTerm t fun x => { x with poll := .stopped }

/-- A visit to an OFFLINE terminal: a POLL alone, and its timer stops (R140). -/
def State.visitOffline (s : State) (l : Fin 2) (a : Fin 8) : State :=
  (s.sendFrame l ⟨.poll, a, pollFrame a, .sending, .offline, true⟩).modifyTerm (terminalOf l a)
    fun x => { x with poll := .stopped }

/-- A visit begins; its terminal becomes the round-robin position (R137). -/
def State.beginVisit (s : State) (l : Fin 2) (a : Fin 8) : State :=
  let s := s.modifyTline l fun x => { x with roundRobin := some a }
  match (s.term (terminalOf l a)).state with
  | .online => s.visitOnline l a
  | .asleep => s.visitAsleep l a
  | .offline => s.visitOffline l a

/-- VISIT (R137). -/
def execVisit (l : Fin 2) (s : State) : Result :=
  .next (match s.nextVisit l with
    | some a => s.beginVisit l a
    | none => s)

/-- The line is free. -/
def State.freeLine (s : State) (l : Fin 2) : State := s.modifyTline l fun x => { x with frame := none }

/-- A poll timer the visit stopped is set due at once (R137). -/
def Terminal.pollAgain (x : Terminal) (stopped : Bool) : Terminal := if stopped then { x with poll := .due } else x

/-- The end of sending of a ROW or BLANK SCREEN: the POLL follows, unless the context has become busy; the visit then ends
and a poll timer it stopped is set due at once (R137). -/
def State.afterScreen (s : State) (l : Fin 2) (f : TermFrame) : State :=
  let t := terminalOf l f.terminal
  if (s.term t).busy then (s.freeLine l).modifyTerm t (·.pollAgain f.stopped)
  else s.sendFrame l { f with kind := .poll, bytes := pollFrame f.terminal, phase := .sending }

/-- The end of sending of a terminal frame (R135, R136, R137). -/
def State.termFrameSent (s : State) (l : Fin 2) : State :=
  match (s.tline l).frame with
  | some f =>
    if f.phase = .sending then
      match f.kind with
      | .poll => s.sendFrame l { f with phase := .window (s.now + Config.pollWindow) }
      | _ => s.afterScreen l f
    else s
  | none => s

/-- TERMINAL_FRAME_SENT (R135). -/
def execTerminalFrameSent (l : Fin 2) (s : State) : Result := .next (s.termFrameSent l)

/-! ## Outcomes of a POLL (R139 to R142) -/

/-- A TERMINAL ONLINE notice: handed on, or held by its controller until START completes (R140, R143). -/
def State.reportOnline (s : State) (l : Fin 2) (t : Fin 16) : State :=
  if s.bus.phase = .checking then s.modifyTline l fun x => { x with held := x.held ++ [t] }
  else s.hand (.terminalOnline t)

/-- An OFFLINE terminal has answered (R140). -/
def Terminal.comeBack (x : Terminal) : Terminal :=
  let x := { x with miss := 0 }.markAllRows
  if x.night then { x with state := .asleep, blankDue := true, poll := .due } else { x with state := .online }

/-- The third missed POLL makes a terminal OFFLINE (R139). -/
def Terminal.goOffline (x : Terminal) (ends : Nat) : Terminal :=
  { x with state := .offline, miss := 0, beep := false, poll := .running (ends + Config.offlinePollDelay) }

/-- The POLL in its window on a line, with the time the window ends. -/
def State.pollWaiting (s : State) (l : Fin 2) : Option (TermFrame × Nat) :=
  match (s.tline l).frame with
  | some f =>
    match f.kind, f.phase with
    | .poll, .window ends => some (f, ends)
    | _, _ => none
  | none => none

/-- A reply is taken: in the window, with the right check byte and the polled terminal's address (R136). -/
def State.replyTaken (s : State) (l : Fin 2) (address : Byte) (bytes : List Byte) (check : Byte) : Option TermFrame :=
  match s.pollWaiting l with
  | some (f, ends) =>
    if s.now ≤ ends ∧ address = byte f.terminal.val ∧ check = checkByte bytes then some f else none
  | none => none

/-- The context after an IDLE (R139, R141; log 14 for a state changed in flight). -/
def Terminal.idleTaken (x : Terminal) (visited : TermState) (now : Nat) : Terminal :=
  match x.state, visited with
  | .offline, _ => x.comeBack
  | .asleep, .asleep => { x with miss := 0, poll := .running (now + Config.asleepPollDelay) }
  | _, _ => { x with miss := 0 }

/-- The context after a KEY (R139, R140, R142, R144). -/
def Terminal.keyTaken (x : Terminal) (key : Fin 64) : Terminal :=
  match x.state with
  | .offline => x.comeBack
  | .asleep => x.wake
  | .online =>
    let x := { x with miss := 0 }
    if x.busy then x else { x with work := .keyDispatch key }

/-- The context after a window with no reply (R139 to R141). -/
def Terminal.noReply (x : Terminal) (visited : TermState) (ends : Nat) : Terminal :=
  match x.state with
  | .offline => { x with poll := .running (ends + Config.offlinePollDelay) }
  | .online => if x.miss < 2 then { x with miss := x.miss + 1 } else x.goOffline ends
  | .asleep =>
    if x.miss < 2 then
      (if visited = .asleep then { x with miss := x.miss + 1, poll := .running (ends + Config.asleepPollDelay) }
      else { x with miss := x.miss + 1 })
    else x.goOffline ends

/-- The outcome of a POLL: the line is free, the terminal has had its POLL, its context is as `f` leaves it (R137, R143). -/
def State.pollOutcome (s : State) (l : Fin 2) (t : Fin 16) (f : Terminal → Terminal) : State :=
  (s.freeLine l).modifyTerm t fun x => { f x with polled := true }

/-- The notice of a return (R140). -/
def State.reportReturn (s : State) (l : Fin 2) (t : Fin 16) (before : TermState) : State :=
  if before = .offline then s.reportOnline l t else s

/-- The notice of a terminal gone OFFLINE (R139). -/
def State.reportOffline (s : State) (t : Fin 16) (before : TermState) : State :=
  if before ≠ .offline ∧ (s.term t).state = .offline then s.hand (.terminalOffline t) else s

/-- KEY (R136, R139): bits 4 to 0 of the key byte are the key code and bit 5 the shift, so that its low six bits are the key
index (R144). -/
def execKey (l : Fin 2) (address keyByte check : Byte) (s : State) : Result :=
  .next (match s.replyTaken l address [0xD1, address, keyByte] check with
    | some f =>
      let t := terminalOf l f.terminal
      (s.pollOutcome l t (·.keyTaken ⟨keyByte.toNat % 64, Nat.mod_lt _ (by decide)⟩)).reportReturn l t (s.term t).state
    | none => s)

/-- IDLE (R136, R139). -/
def execIdle (l : Fin 2) (address check : Byte) (s : State) : Result :=
  .next (match s.replyTaken l address [0xD2, address] check with
    | some f =>
      let t := terminalOf l f.terminal
      (s.pollOutcome l t (·.idleTaken f.visited s.now)).reportReturn l t (s.term t).state
    | none => s)

/-- The end of a POLL window has come (R136). -/
def State.pollWindowOver (s : State) (l : Fin 2) : Option (TermFrame × Nat) :=
  match s.pollWaiting l with
  | some (f, ends) => if ends ≤ s.now then some (f, ends) else none
  | none => none

/-- POLL_REPLY_WINDOW (R136). -/
def execPollReplyWindow (l : Fin 2) (s : State) : Result :=
  .next (match s.pollWindowOver l with
    | some (f, ends) =>
      let t := terminalOf l f.terminal
      (s.pollOutcome l t (·.noReply f.visited ends)).reportOffline t (s.term t).state
    | none => s)

/-- A running poll timer has reached its due time. -/
def PollTimer.reached (p : PollTimer) (now : Nat) : Bool :=
  match p with
  | .running d => decide (d ≤ now)
  | _ => false

/-- TERMINAL_POLL_TIMER (R140). -/
def execTerminalPollTimer (t : Fin 16) (s : State) : Result :=
  .next (if s.linesWork && (s.term t).poll.reached s.now then s.modifyTerm t fun x => { x with poll := .due } else s)

/-- The line's first polls are complete: each of its eight terminals has had one POLL reach its outcome (R143). -/
def State.termPollsComplete (s : State) (l : Fin 2) : Bool :=
  (List.finRange 8).all fun a => (s.term (terminalOf l a)).polled

end Sys2Proof.Machine
end

