-- ==== Sys2Proof/Machine/Tapes.lean ====
section
/-! DEFINITION. The tape units (chapter 07): arrivals, levels, lateness, the renderer and the ribbon. -/

namespace Sys2Proof.Machine

/-! ## The print queue (R113) -/

/-- The instrument of an entry; none for a TEXT. -/
def Entry.instr : Entry → Option Ix
  | .trade i .. => some i
  | .cancel i .. => some i
  | .haltNote i => some i
  | .resumeNote i => some i
  | .text .. => none

/-- The entry is an URGENT TEXT. -/
def Entry.isUrgent : Entry → Bool
  | .text _ u => u
  | _ => false

/-- The volume of a TRADE entry: the sum of its merged list, saturating (R113). -/
def mergedVolume (m : List Triple) : Volume := m.foldl (fun v x => v.satAdd x.volume) 0

/-- The price of a TRADE entry: that of the newest triple (R113). -/
def mergedPrice (m : List Triple) : Price := (m.getLast?.map (·.price)).getD 0

/-- The queue has room for an entry (R113). -/
def Tape.hasRoom (x : Tape) : Bool := decide (x.queue.length < Config.queueCapacity)

/-- An entry joins the tail (R114). -/
def Tape.join (x : Tape) (e : Entry) : Tape := { x with queue := x.queue ++ [e] }

/-- An URGENT TEXT stands directly behind the last waiting URGENT TEXT, or at the head (R116). -/
def insertUrgent (e : Entry) : List Entry → List Entry
  | [] => [e]
  | x :: r => if (x :: r).any Entry.isUrgent then x :: insertUrgent e r else e :: x :: r

/-- A triple with the id removed from a merged list, the newest first looked at (R117). -/
def dropTriple (id : Word) : List Triple → Option (List Triple)
  | [] => none
  | x :: r =>
    match dropTriple id r with
    | some r' => some (x :: r')
    | none => if x.id = id then some r else none

/-- A waiting print taken out of one entry: the entries that stand in its place (R117). -/
def cancelInEntry (i : Ix) (id : Word) : Entry → Option (List Entry)
  | .trade j m t op oos merged =>
    if j = i then
      match dropTriple id merged with
      | some [] => some []
      | some rest => some [.trade j m t op oos rest]
      | none => none
    else none
  | _ => none

/-- A waiting print taken out of the queue, searched from the tail toward the head (R117). -/
def cancelWaiting (i : Ix) (id : Word) : List Entry → Option (List Entry)
  | [] => none
  | e :: r =>
    match cancelWaiting i id r with
    | some r' => some (e :: r')
    | none => (cancelInEntry i id e).map (· ++ r)

/-- The outcome of folding a print into a full queue (R119). -/
inductive Fold where
  | noEntry
  | blocked
  | folded (q : List Entry)
deriving DecidableEq, Repr

/-- One entry takes a triple, when it is a plain TRADE with fewer than 8 (R119). -/
def foldEntry (tr : Triple) : Entry → Option Entry
  | .trade j m t false false merged =>
    if merged.length < Config.mergeCapacity then some (.trade j m t false false (merged ++ [tr])) else none
  | _ => none

/-- A print folded into the newest waiting entry of its instrument (R119). -/
def foldPrint (i : Ix) (tr : Triple) : List Entry → Fold
  | [] => .noEntry
  | e :: r =>
    match foldPrint i tr r with
    | .folded r' => .folded (e :: r')
    | .blocked => .blocked
    | .noEntry =>
      if e.instr = some i then
        match foldEntry tr e with
        | some e' => .folded (e' :: r)
        | none => .blocked
      else .noEntry

/-! ## Arrivals (R114 to R120) -/

/-- A print is placed; the second component is the notice of an omission (R114, R119, R120). -/
def Tape.placePrint (id : TapeId) (x : Tape) (i : Ix) (m : Mode) (tr : Triple) (op oos : Bool) (time : Option Tod) :
    Tape × List NoticeBody :=
  if x.hasRoom then (x.join (.trade i m time op oos [tr]), [])
  else
    match (if op || oos then Fold.blocked else foldPrint i tr x.queue) with
    | .folded q => ({ x with queue := q }, [])
    | _ => (x, [.tapeOmission id .trade (some i) (some tr.price) (some tr.id) time])

/-- A cancel is placed (R117, R118, R120). -/
def Tape.placeCancel (id : TapeId) (x : Tape) (i : Ix) (print : Word) (m : Mode) (price : Option Price)
    (time : Option Tod) : Tape × List NoticeBody :=
  match cancelWaiting i print x.queue with
  | some q => ({ x with queue := q }, [])
  | none =>
    if x.hasRoom then (x.join (.cancel i m price), [])
    else (x, [.tapeOmission id .cancel (some i) price (some print) time])

/-- A note is placed (R114, R120). -/
def Tape.placeNote (id : TapeId) (x : Tape) (resumed : Bool) (i : Ix) (time : Option Tod) : Tape × List NoticeBody :=
  if x.hasRoom then (x.join (if resumed then .resumeNote i else .haltNote i), [])
  else (x, [.tapeOmission id (if resumed then .resumeNote else .haltNote) (some i) none none time])

/-- A text is placed (R115, R116, R120). -/
def Tape.placeText (id : TapeId) (x : Tape) (text : List Byte) (urgent : Bool) (time : Option Tod) :
    Tape × List NoticeBody :=
  if x.hasRoom then
    (if urgent then { x with queue := insertUrgent (.text text true) x.queue } else x.join (.text text false), [])
  else (x, [.tapeOmission id .text none none none time])

/-- A tape unit replaced, and the notices it hands on. -/
def State.setTape (s : State) (id : TapeId) (r : Tape × List NoticeBody) : State :=
  (s.modifyTape id fun _ => r.1).handAll r.2

/-- The tape takes the first arrival of intake when it is a print (R114). -/
def State.takePrint (s : State) (id : TapeId) : State :=
  match (s.tape id).inbox with
  | .print i m tr op oos time :: r => s.setTape id (Tape.placePrint id { s.tape id with inbox := r } i m tr op oos time)
  | _ => s

/-- The tape takes the first arrival of intake when it is a cancel (R117). -/
def State.takeCancel (s : State) (id : TapeId) : State :=
  match (s.tape id).inbox with
  | .cancel i print m price time :: r =>
    s.setTape id (Tape.placeCancel id { s.tape id with inbox := r } i print m price time)
  | _ => s

/-- The tape takes the first arrival of intake when it is a note (R114). -/
def State.takeNote (s : State) (id : TapeId) : State :=
  match (s.tape id).inbox with
  | .note resumed i _ time :: r => s.setTape id (Tape.placeNote id { s.tape id with inbox := r } resumed i time)
  | _ => s

/-- The tape takes the first arrival of a supplier when it is a text (R115, R193). -/
def State.takeText (s : State) (id : TapeId) (from_ : Supplier) : State :=
  match from_ with
  | .intake =>
    match (s.tape id).inbox with
    | .text cs u time :: r => s.setTape id (Tape.placeText id { s.tape id with inbox := r } cs u time)
    | _ => s
  | .feedWatch =>
    match (s.tape id).watchInbox with
    | .text cs u time :: r => s.setTape id (Tape.placeText id { s.tape id with watchInbox := r } cs u time)
    | _ => s

/-- PRINT_ARRIVAL (R114, R119). -/
def execPrintArrival (id : TapeId) (s : State) : Result := .next (s.takePrint id)

/-- CANCEL_ARRIVAL (R117, R118). -/
def execCancelArrival (id : TapeId) (s : State) : Result := .next (s.takeCancel id)

/-- NOTE_ARRIVAL (R114). -/
def execNoteArrival (id : TapeId) (s : State) : Result := .next (s.takeNote id)

/-- TEXT_ARRIVAL (R115, R116, R193). -/
def execTextArrival (id : TapeId) (from_ : Supplier) (s : State) : Result := .next (s.takeText id from_)

/-! ## Levels and lateness (R121 to R124) -/

/-- The target level for a backlog (R121). -/
def Tape.target (x : Tape) (b : Nat) : Fin 4 :=
  if x.e3 ≤ b then 3 else if x.e2 ≤ b then 2 else if x.e1 ≤ b then 1 else 0

/-- The leave backlog of a level (R121). -/
def Tape.leave (x : Tape) (level : Fin 4) : Nat :=
  match level with
  | 0 => 0
  | 1 => x.x1
  | 2 => x.x2
  | 3 => x.x3

/-- The level after an evaluation at backlog `b`: up at once, down one step at a time (R121). -/
def Tape.nextLevel (x : Tape) (b : Nat) : Fin 4 :=
  if x.level < x.target b then x.target b
  else if x.target b < x.level ∧ b ≤ x.leave x.level then ⟨x.level.val - 1, by omega⟩
  else x.level

/-- The epoch after a change to a level: incremented when LEVEL 2 or 3 is entered from 0 or 1 (R122). -/
def Tape.nextEpoch (x : Tape) (level : Fin 4) : Word :=
  if x.level.val < 2 ∧ 2 ≤ level.val then x.epoch + 1 else x.epoch

/-- The tape after the evaluation of its level (R121, R122). -/
def Tape.evaluate (x : Tape) : Tape :=
  { x with level := x.nextLevel x.queue.length, epoch := x.nextEpoch (x.nextLevel x.queue.length) }

/-- The time of the oldest waiting TRADE: none when there is none or its time is absent (R123). -/
def oldestTime : List Entry → Option Tod
  | [] => none
  | .trade _ _ time _ _ _ :: _ => time
  | _ :: r => oldestTime r

/-- The lateness in deciseconds (R123). -/
def lateness (now : Option Tod) (q : List Entry) : Nat :=
  match now, oldestTime q with
  | some n, some t =>
    let l := (n.val + 864000 - t.val) % 864000
    if 432000 < l then 0 else l
  | _, _ => 0

/-- The lateness in whole minutes (R123). -/
def lateMinutes (now : Option Tod) (q : List Entry) : Nat := lateness now q / 600

/-- The TAPE LEVEL notice of an evaluation, with the lateness of the queue as the level is evaluated (R121, R133, log 34). -/
def levelNotice (id : TapeId) (before after : Tape) (now : Option Tod) : List NoticeBody :=
  if before.level = after.level then []
  else [.tapeLevel id before.level after.level before.queue.length after.epoch (lateMinutes now before.queue)]

/-- The LATE text of an announcement, if one is made (R124). -/
def lateText (n announced : Nat) : Option (List Byte) :=
  if n = announced then none
  else if n = 0 then some (chars ['T', 'A', 'P', 'E', ' ', 'C', 'U', 'R', 'R', 'E', 'N', 'T'])
  else some (chars ['T', 'A', 'P', 'E', ' '] ++ decimal n ++ chars [' ', 'M', 'I', 'N', ' ', 'L', 'A', 'T', 'E'])

/-! ## The renderer (R125 to R131) -/

/-- A rendering is written into the FIFO, followed by two spaces (R125). -/
def Tape.emit (x : Tape) (t : List Byte) : Tape := { x with fifo := x.fifo ++ t ++ spaces 2 }

/-- The LEVEL 3 merge: the triples folded and the queue left (R127). -/
def mergeLater (i : Ix) : List Triple → List Entry → List Triple × List Entry
  | m, [] => (m, [])
  | m, .trade j mode t op oos more :: r =>
    if j = i then
      if op = false ∧ oos = false ∧ m.length + more.length ≤ Config.mergeCapacity then mergeLater i (m ++ more) r
      else (m, .trade j mode t op oos more :: r)
    else
      let (m', r') := mergeLater i m r
      (m', .trade j mode t op oos more :: r')
  | m, e :: r =>
    if e.instr = some i then (m, e :: r)
    else
      let (m', r') := mergeLater i m r
      (m', e :: r')

/-- The symbol of an entry, from the record as it stands; four dashes for a symbol of length 0 (R131). -/
def symbolText (r : Record) : List Byte := if r.symbol = [] then List.replicate 4 Glyph.minus else r.symbol

/-- The volume part of a print (R129). -/
def lotsText (level : Fin 4) (block : Nat) (v : Volume) : List Byte :=
  let lots := v.val / 100
  if (if level = 0 then 2 else block) ≤ lots then decimal (min lots 9999) ++ [Glyph.lot] else []

/-- The tape owns the instrument's tape reference (R34, R130). -/
def ownsRef (id : TapeId) (r : Record) : Bool := r.tape = some id

/-- The price's whole part is cut to its last digit (R130). -/
def cutsPrice (id : TapeId) (x : Tape) (r : Record) (m : Mode) (p : Price) : Bool :=
  ownsRef id r && decide (2 ≤ x.level.val) && r.tapeRef = some ⟨tensPart m p, x.epoch⟩

/-- The price of a print, whole or cut (R130). -/
def printPrice (cut : Bool) (t : Parts) : List Byte :=
  (if cut then t.whole.drop (t.whole.length - 1) else t.whole) ++ t.frac

/-- A TRADE entry on the ribbon (R128). -/
def tradeText (id : TapeId) (x : Tape) (r : Record) (m : Mode) (op oos : Bool) (merged : List Triple) : List Byte :=
  symbolText r ++ [Glyph.space] ++ lotsText x.level x.block (mergedVolume merged)
    ++ (if op then chars ['O', 'P', 'G'] else [])
    ++ printPrice (cutsPrice id x r m (mergedPrice merged)) (tapePrice m (mergedPrice merged))
    ++ (if oos then chars [' ', 'S', 'L', 'D'] else [])

/-- A CANCEL entry on the ribbon (R131). -/
def cancelText (r : Record) (m : Mode) (price : Option Price) : List Byte :=
  symbolText r ++ chars [' ', 'C', 'X', 'L'] ++
    match price with
    | some p => [Glyph.space] ++ (tapePrice m p).text
    | none => []

/-- The tape reference is written after a price has been rendered (R130). -/
def State.writeRef (s : State) (id : TapeId) (i : Ix) (m : Mode) (p : Price) : State :=
  let r := s.record i
  if ownsRef id r then s.setRecord i { r with tapeRef := some ⟨tensPart m p, (s.tape id).epoch⟩ } else s

/-- The entry taken is rendered into the FIFO and the tape reference written (R126 steps 4 and 5). -/
def State.showEntry (s : State) (id : TapeId) (e : Entry) : State :=
  match e with
  | .trade i m _ op oos merged =>
    (s.modifyTape id fun x => x.emit (tradeText id x (s.record i) m op oos merged)).writeRef id i m (mergedPrice merged)
  | .cancel i m price =>
    let s := s.modifyTape id fun x => x.emit (cancelText (s.record i) m price)
    match price with
    | some p => s.writeRef id i m p
    | none => s
  | .haltNote i =>
    s.modifyTape id fun x => x.emit (symbolText (s.record i) ++ chars [' ', 'H', 'A', 'L', 'T', 'E', 'D'])
  | .resumeNote i =>
    s.modifyTape id fun x => x.emit (symbolText (s.record i) ++ chars [' ', 'R', 'E', 'S', 'U', 'M', 'E', 'D'])
  | .text cs _ => s.modifyTape id fun x => x.emit (cs.map (showOr ribbonGlyph))

/-- The entry taken after the LEVEL 3 merge, and the queue it leaves (R126 steps 3 and 4). -/
def takeHead (level : Fin 4) (e : Entry) (rest : List Entry) : Entry × List Entry :=
  match e with
  | .trade i m t false false merged =>
    if level = 3 then
      let (merged', rest') := mergeLater i merged rest
      (.trade i m t false false merged', rest')
    else (e, rest)
  | _ => (e, rest)

/-- The head entry is taken: the level is evaluated, the merge made, the entry rendered (R126 steps 2 to 5). -/
def State.takeEntry (s : State) (id : TapeId) (e : Entry) (rest : List Entry) : State :=
  let x := s.tape id
  let y := x.evaluate
  let taken := takeHead y.level e rest
  ((s.modifyTape id fun _ => { y with queue := taken.2 }).handAll (levelNotice id x y s.session.tod)).showEntry id taken.1

/-- The renderer acts on the head entry (R124, R126). -/
def State.renderHead (s : State) (id : TapeId) (e : Entry) (rest : List Entry) : State :=
  let n := lateMinutes s.session.tod (s.tape id).queue
  match e with
  | .trade .. =>
    match lateText n (s.tape id).announced with
    | some t => s.modifyTape id fun x => { x.emit t with announced := n }
    | none => s.takeEntry id e rest
  | _ => s.takeEntry id e rest

/-- The conditions of R125 hold. -/
def State.rendererReady (s : State) (id : TapeId) : Bool :=
  s.inService && !(s.tape id).queue.isEmpty && decide ((s.tape id).fifo.length ≤ Config.fifoRoom)

/-- The renderer acts once when the conditions of R125 hold. -/
def State.render (s : State) (id : TapeId) : State :=
  if s.rendererReady id then
    match (s.tape id).queue with
    | e :: rest => s.renderHead id e rest
    | [] => s
  else s

/-- RENDER_ENTRY (R126). -/
def execRenderEntry (id : TapeId) (s : State) : Result := .next (s.render id)

/-! ## Ribbon output (R132) -/

/-- Character k begins floor(1,000 × k / r) milliseconds after START completes (R132). -/
def State.ribbonDue (s : State) (id : TapeId) : Bool :=
  s.inService &&
    match (s.tape id).ribbonStart with
    | some t => decide (t + 1000 * (s.tape id).ribbonNext / (s.tape id).rate ≤ s.now)
    | none => false

/-- The character at the head of the FIFO is sent, or a space (R132). -/
def Tape.sendCharacter (x : Tape) : Tape :=
  { x with
    ribbonOut := some (x.fifo.headD Glyph.space)
    fifo := x.fifo.tail
    ribbonNext := x.ribbonNext + 1 }

/-- RIBBON_CHARACTER (R132). -/
def execRibbonCharacter (id : TapeId) (s : State) : Result :=
  .next (if s.ribbonDue id then s.modifyTape id Tape.sendCharacter else s)

end Sys2Proof.Machine
end

