-- ==== Sys2Proof/Machine/Formatter.lean ====
section
/-! DEFINITION. The board formatter (chapter 05): renderings, ranges, highlights, events and REMAP. -/

namespace Sys2Proof.Machine

/-! ## Renderings (R83 to R85) -/

/-- The fields that render a placement of a kind again (R40). -/
def FieldKind.fields : FieldKind → List ChangedField
  | .symbol => [.symbol, .state]
  | .last => [.last, .previousClose, .mode, .state]
  | .change => [.last, .previousClose, .mode, .state]
  | .tick => [.tick, .state]
  | .bid => [.bid, .mode, .state]
  | .ask => [.ask, .mode, .state]
  | .volume => [.volume, .state]
  | .high => [.high, .mode, .state]
  | .low => [.low, .mode, .state]
  | .opening => [.opening, .mode, .state]
  | .status => [.state, .haltReason]

/-- LAST, CHANGE and TICK: the kinds that take highlights and depend on the session (R84, R88, R89). -/
def FieldKind.lively : FieldKind → Bool
  | .last | .change | .tick => true
  | _ => false

/-- The net change a CHANGE placement shows: none in PRE-OPEN or with either operand absent (R9, R24, R83). -/
def shownChange (r : Record) (st : SessionState) : Option Int :=
  if st = .preOpen then none
  else
    match r.lastPx, r.prevClose with
    | some l, some p => some (netChange l p)
    | _, _ => none

/-- The glyph of a tick direction (R83). -/
def tickGlyph : TickDir → Byte
  | .up => Glyph.upArrow
  | .down => Glyph.downArrow
  | .none => Glyph.space

/-- The glyphs of a field of an ACTIVE or HALTED instrument in `w` cells (R83). -/
def definedGlyphs (r : Record) (st : SessionState) (f : Format) (w : Nat) : FieldKind → List Byte
  | .symbol => leftIn w r.symbol
  | .last => boardPriceField r.mode f w (if st = .preOpen then r.prevClose else r.lastPx)
  | .change =>
    match shownChange r st with
    | some c => fitBoardChange r.mode f w c
    | none => absentField w f.fill
  | .tick => rightIn w [tickGlyph r.tick]
  | .bid => boardPriceField r.mode f w r.bidPx
  | .ask => boardPriceField r.mode f w r.askPx
  | .volume => volumeField w f.unit r.volume
  | .high => boardPriceField r.mode f w r.highPx
  | .low => boardPriceField r.mode f w r.lowPx
  | .opening => boardPriceField r.mode f w r.openPx
  | .status => if r.state = .halted then leftIn w (chars ['H', 'A', 'L', 'T']) else spaces w

/-- The glyphs of a placement (R83). -/
def placementGlyphs (r : Record) (st : SessionState) (f : Format) (p : Placement) : List Byte :=
  if r.state = .undefined then
    if p.kind = .symbol then spaces p.width else absentField p.width f.fill
  else definedGlyphs r st f p.width p.kind

/-- An attribute with blink and dim off. -/
def Attr.steady (c : Colour) : Attr := ⟨c, false, false⟩

/-- The colour of a highlight (R84 row 3). -/
def highlightColour : TickDir → Colour
  | .up => .green
  | .down => .red
  | .none => .white

/-- Row 5 of R84: the base colour, or the sign colour of a CHANGE field. -/
def plainColour (r : Record) (st : SessionState) (f : Format) (kind : FieldKind) : Colour :=
  if kind = .change then ((shownChange r st).bind signColour).getD f.base else f.base

/-- Rows 3 to 5 of R84. -/
def lowerAttr (r : Record) (st : SessionState) (f : Format) (p : Placement) : Attr :=
  match (if p.kind.lively then p.highlight else none) with
  | some d => .steady (highlightColour d)
  | none =>
    if st = .preOpen ∧ p.kind = .last then ⟨f.base, false, true⟩ else .steady (plainColour r st f p.kind)

/-- The attribute of every cell of a placement: the first row of R84 whose condition holds. -/
def placementAttr (r : Record) (st : SessionState) (f : Format) (p : Placement) : Attr :=
  if r.state = .undefined then .steady f.base
  else if r.state = .halted ∧ p.kind = .status then ⟨.amber, true, false⟩
  else if r.state = .halted ∧ p.kind = .last then .steady .amber
  else if st = .marketHalt ∧ p.kind.lively = true then .steady .amber
  else lowerAttr r st f p

/-- The cells of a placement as rendered (R83, R84). -/
def placementCells (r : Record) (st : SessionState) (f : Format) (p : Placement) : List BoardCell :=
  (placementGlyphs r st f p).map fun g => ⟨g, placementAttr r st f p⟩

/-- The stale cell in a feed stage (R85). -/
def staleCell : FeedStage → BoardCell
  | .live => .blank
  | .quiet => ⟨Glyph.colon, .steady .amber⟩
  | .lost => ⟨Glyph.colon, ⟨.amber, true, false⟩⟩

/-! ## Images and ranges (R86, R100) -/

/-- An image with cells written from a start cell on. -/
def paintCells (image : Vector BoardCell 32) (start : Nat) (cells : List BoardCell) : Vector BoardCell 32 :=
  Bank.mapAll image fun k old => if start ≤ k.val then (cells[k.val - start]?).getD old else old

/-- The cells in which two images differ, lowest first. -/
def differing (a b : Vector BoardCell 32) : List Nat :=
  ((List.finRange 32).filter fun k => Bank.get a k ≠ Bank.get b k).map (·.val)

/-- The range from the lowest of some cells to the highest (R86). -/
def rangeOver : List Nat → Option Range
  | [] => none
  | a :: r => some ⟨a, r.getLastD a⟩

/-- The smallest range that covers two ranges (R100). -/
def Range.cover (a b : Range) : Range := ⟨min a.first b.first, max a.last b.last⟩

/-- A range joins a range that may be absent (R100, R104). -/
def joinRange (old : Option Range) (new : Range) : Range :=
  match old with
  | some o => o.cover new
  | none => new

/-- A range handed to a line controller: merged for a LIVE module, discarded for another (R100). -/
def Module.takeRange (x : Module) (r : Option Range) : Module :=
  match r with
  | none => x
  | some r => if x.present = true ∧ x.state = .live then { x with dirty := some (joinRange x.dirty r) } else x

/-- Rendered cells are compared with the image, written where they differ, and the range handed on (R86). -/
def Module.showCells (x : Module) (start : Nat) (cells : List BoardCell) : Module :=
  let image := paintCells x.image start cells
  { x with image := image }.takeRange (rangeOver (differing x.image image))

/-- The whole width of a module (R99, R107, R108, R110). -/
def Module.whole (x : Module) : Option Range := x.width.map fun w => ⟨0, w.cells - 1⟩

/-! ## Placements and chains (R79, R80) -/

/-- The placement in an entry of the table, if it is in use (R79). -/
def Formatter.placement (x : Formatter) (k : Nat) : Option Placement := Sparse.get none x.table k

/-- An entry of the placement table written or freed (R79). -/
def Formatter.setPlacement (x : Formatter) (k : Nat) (p : Option Placement) : Formatter :=
  { x with table := Sparse.set none x.table k p }

/-- The entries of a chain from a link on (R80). -/
def chainFrom (x : Formatter) : Nat → Option Nat → List Nat
  | f + 1, some k =>
    match x.placement k with
    | some p => k :: chainFrom x f p.next
    | none => []
  | _, _ => []

/-- The chain of an instrument, from the head to END (R80). -/
def State.chain (s : State) (i : Ix) : List Nat := chainFrom s.fmt Config.placements (s.record i).chainHead

/-- The entries in use whose placement satisfies `p`, in rising entry number (the order in which a session event and step 4 of
R92 render them is DESIGN CHOICE, log 37). -/
def Formatter.entries (x : Formatter) (p : Placement → Bool) : List Nat :=
  (Sparse.keys x.table).filter fun k => (x.placement k).any p

/-- A format entry as it is read at a rendering (R81). -/
def Bus.readFormat (o : Word) (b : Bus) : Bus × Format :=
  match b.readAll [o, o + 1, o + 2, o + 3] with
  | (b, .words ws) => (b, formatOf ws)
  | (b, _) => (b, Format.default)

/-- A placement is rendered and its cells written (R81, R83, R84, R86). -/
def State.renderOne (s : State) (p : Placement) : State :=
  match s.bus.readFormat (s.params.formatEntry p.format.val) with
  | (b, f) =>
    (s.withBus b).modifyModule p.line p.module fun x =>
      x.showCells p.start (placementCells (s.record p.instr) s.session.state f p)

/-- The placement of an entry is rendered. -/
def State.renderEntry (s : State) (k : Nat) : State :=
  match s.fmt.placement k with
  | some p => s.renderOne p
  | none => s

/-- Several entries are rendered in order. -/
def State.renderEntries (s : State) (ks : List Nat) : State := ks.foldl State.renderEntry s

/-! ## Highlights (R89 to R91) -/

/-- An entry of the timer list, behind every entry that does not expire later (R89). -/
def insertTimer (e : TimerEntry) : List TimerEntry → List TimerEntry
  | [] => [e]
  | x :: r => if x.expiry ≤ e.expiry then x :: insertTimer e r else e :: x :: r

/-- The timer entry of a placement removed, if it has one (R89, R91, R92). -/
def Formatter.dropTimer (x : Formatter) (k : Nat) : Formatter :=
  { x with timers := x.timers.filter fun e => e.placement ≠ k }

/-- The highlight of a placement (R89, R90). -/
def Formatter.setHighlight (x : Formatter) (k : Nat) (d : Option TickDir) : Formatter :=
  match x.placement k with
  | some p => x.setPlacement k (some { p with highlight := d })
  | none => x

/-- A highlight starts or starts again (R89). -/
def Formatter.startHighlight (x : Formatter) (d : TickDir) (expiry k : Nat) : Formatter :=
  let x := (x.dropTimer k).setHighlight k (some d)
  { x with timers := insertTimer ⟨k, expiry⟩ x.timers }

/-- A highlight ends, at its expiry or before its time (R90, R91). -/
def Formatter.endHighlight (x : Formatter) (k : Nat) : Formatter := (x.dropTimer k).setHighlight k none

/-- The chain's placements of a kind that `p` admits. -/
def State.chainOf (s : State) (i : Ix) (p : FieldKind → Bool) : List Nat :=
  (s.chain i).filter fun k => (s.fmt.placement k).any fun x => p x.kind

/-- The highlights a change event starts or ends (R89, R91). -/
def State.highlightChange (s : State) (e : ChangeEvent) : State :=
  match e.mark with
  | some d =>
    s.withFmt ((s.chainOf e.instr FieldKind.lively).foldl
      (fun x k => x.startHighlight d (s.now + s.params.highlight * 1000) k) s.fmt)
  | none =>
    if e.fields = ChangedField.all then s.withFmt ((s.chain e.instr).foldl Formatter.endHighlight s.fmt) else s

/-! ## Events (R87, R88, R90) -/

/-- A change event is taken (R87). -/
def State.takeChange (s : State) (e : ChangeEvent) : State :=
  let s := s.highlightChange e
  s.renderEntries (s.chainOf e.instr fun kind => kind.fields.any fun f => e.fields.contains f)

/-- The formatter acts on the first change event handed to it (R87). -/
def State.formatChange (s : State) : State :=
  match s.fmt.changes with
  | [] => s
  | e :: r => (s.withFmt { s.fmt with changes := r }).takeChange e

/-- CHANGE_EVENT (R87). -/
def execChangeEvent (h : List HostWrite) (s : State) : Result := .next (s.hostWrites h).formatChange

/-- The formatter acts on the first session event handed to it (R88), rendering in rising entry number (log 37). -/
def State.formatSession (s : State) : State :=
  match s.fmt.sessionEvents with
  | [] => s
  | _ :: r =>
    (s.withFmt { s.fmt with sessionEvents := r }).renderEntries (s.fmt.entries fun p => p.kind.lively)

/-- SESSION_EVENT (R88). -/
def execSessionEvent (h : List HostWrite) (s : State) : Result := .next (s.hostWrites h).formatSession

/-- The stale cell of a present module is rendered (R85, R88). -/
def Module.showStale (stage : FeedStage) (x : Module) : Module :=
  match (if x.present then x.stale else none) with
  | some c => x.showCells c.val [staleCell stage]
  | none => x

/-- The formatter acts on the first feed-stage event handed to it (R88). -/
def State.formatStage (s : State) : State :=
  match s.fmt.stageEvents with
  | [] => s
  | stage :: r =>
    (s.withFmt { s.fmt with stageEvents := r }).withLines (Bank.mapAll s.lines fun _ l =>
      { l with modules := Bank.mapAll l.modules fun _ x => x.showStale stage })

/-- FEED_STAGE_EVENT (R88). -/
def execFeedStageEvent (s : State) : Result := .next s.formatStage

/-- The entry at the front of the timer list has expired; highlight timers run in service (R90). -/
def State.highlightDue (s : State) : Bool :=
  s.inService &&
    match s.fmt.timers with
    | e :: _ => decide (e.expiry ≤ s.now)
    | [] => false

/-- The placements whose entries have the expiry time of the front entry (R90). -/
def Formatter.expiring (x : Formatter) : List Nat :=
  match x.timers with
  | e :: _ => (x.timers.filter fun y => y.expiry = e.expiry).map (·.placement)
  | [] => []

/-- The front entries expire (R90). -/
def State.expireHighlights (s : State) : State :=
  (s.withFmt (s.fmt.expiring.foldl Formatter.endHighlight s.fmt)).renderEntries s.fmt.expiring

/-- HIGHLIGHT_EXPIRY (R90). -/
def execHighlightExpiry (h : List HostWrite) (s : State) : Result :=
  let s := s.hostWrites h
  .next (if s.highlightDue then s.expireHighlights else s)

/-! ## REMAP, step 1 (R92) -/

/-- The links that lead to a placement lead past it (R80). -/
def Formatter.linkPast (x : Formatter) (k : Nat) (next : Option Nat) : Formatter :=
  { x with
    table := x.table.map fun e => (e.1, e.2.map fun q => if q.next = some k then { q with next := next } else q) }

/-- A placement is unlinked from its instrument's chain (R80). -/
def State.unlink (s : State) (k : Nat) (p : Placement) : State :=
  let r := s.record p.instr
  if r.chainHead = some k then s.setRecord p.instr { r with chainHead := p.next }
  else s.withFmt (s.fmt.linkPast k p.next)

/-- A placement is unlinked, its timer entry removed and its table entry freed (R92 step 1). -/
def State.removePlacement (s : State) (k : Nat) : State :=
  match s.fmt.placement k with
  | some p =>
    let s := s.unlink k p
    s.withFmt ((s.fmt.dropTimer k).setPlacement k none)
  | none => s

/-- The REMAP of a line begins: step 1 of R92, and the line is under REMAP from here on (R93, log 20). -/
def State.beginLine (s : State) (job : RemapJob) : State :=
  let s := (s.fmt.entries fun p => p.line = job.line).foldl State.removePlacement s
  (s.withFmt { s.fmt with remap := some job }).modifyLine job.line fun l => { l with underRemap := true }

/-! ## REMAP, steps 2 and 3 (R76 to R80) -/

/-- What a module record says (R76). -/
structure MapRecord where
  width : Width
  stale : Option Nat
  slots : List Slot
deriving DecidableEq, Repr

/-- A module record as REMAP takes it (R76). -/
inductive MapRead where
  | absent
  | illegalWidth
  | module (r : MapRecord)
deriving DecidableEq, Repr

/-- The used slots of a module record; the second and third words of an unused slot are not read (R77, log 23). -/
def Bus.readSlots (base : Word) : List Nat → Bus → Bus × Option (List Slot)
  | [], b => (b, some [])
  | k :: ks, b =>
    match b.read (base + word (2 + 3 * k)) with
    | (b, .word a) =>
      if a.bit 15 then
        match b.readAll [base + word (3 + 3 * k), base + word (4 + 3 * k)] with
        | (b, .words [c, d]) =>
          match Bus.readSlots base ks b with
          | (b, some r) => (b, some (slotOf a c d :: r))
          | r => r
        | (b, _) => (b, none)
      else Bus.readSlots base ks b
    | (b, _) => (b, none)

/-- The stale cell a module record names (chapter 11). -/
def staleOf (w : Word) : Option Nat := if w.bit 15 then some (w.bits 0 5) else none

/-- The rest of a present record of a legal width (R76). -/
def Bus.readMapBody (base : Word) (width : Width) (b : Bus) : Bus × MapRead :=
  match b.read (base + 1) with
  | (b, .word w) =>
    match b.readSlots base (List.range 8) with
    | (b, some slots) => (b, .module ⟨width, staleOf w, slots⟩)
    | (b, none) => (b, .absent)
  | (b, _) => (b, .absent)

/-- A module record is read (R76). -/
def Bus.readMap (base : Word) (b : Bus) : Bus × MapRead :=
  match b.read base with
  | (b, .word w) =>
    if w.bit 15 then
      match widthOf (w.bits 0 2) with
      | some width => b.readMapBody base width
      | none => (b, .illegalWidth)
    else (b, .absent)
  | (b, _) => (b, .absent)

/-- A field of cells from `start` for `width` cells overlaps a kept one (R77 condition 5). -/
def Slot.overlaps (a b : Slot) : Bool := decide (a.start < b.start + b.width ∧ b.start < a.start + a.width)

/-- A used slot that passes conditions 1 to 5 of R77 and has a format index below 32. -/
def Slot.checked (x : Slot) (w : Width) (kept : List Slot) : Option (Ix × FieldKind × Fin 32) :=
  match Ix.ofNat? x.instr, fieldKindOf x.kind with
  | some i, some kind =>
    if x.width = 0 ∨ 16 < x.width ∨ w.cells < x.start + x.width ∨ kept.any x.overlaps = true then none
    else if h : x.format < 32 then some (i, kind, ⟨x.format, h⟩)
    else none
  | _, _ => none

/-- The counts of a line's REMAP (R78, R79). -/
structure Tally where
  faults : Nat
  noRoom : Nat
deriving DecidableEq, Repr

/-- One more table fault (R78). -/
def Tally.fault (t : Tally) : Tally := { t with faults := t.faults + 1 }

/-- A placement is built into a free entry, the lowest (log 31), and linked at the head of its chain (R79, R80). -/
def State.build (s : State) (k : Nat) (p : Placement) : State :=
  let r := s.record p.instr
  (s.setRecord p.instr { r with chainHead := some k }).withFmt
    (s.fmt.setPlacement k (some { p with next := r.chainHead }))

/-- The slots of a present module in slot order: each kept and built, or dropped and counted (R77, R79). -/
def State.buildSlots (line : Fin 4) (m : Fin 32) (w : Width) :
    List Slot → List Slot → State × Tally → State × Tally × List Slot
  | [], kept, (s, t) => (s, t, kept)
  | x :: xs, kept, (s, t) =>
    match x.checked w kept with
    | none => State.buildSlots line m w xs kept (s, t.fault)
    | some (i, kind, format) =>
      let o := s.params.formatEntry format.val
      match s.bus.readAll [o, o + 1, o + 2, o + 3] with
      | (b, .words _) =>
        let s := s.withBus b
        let k := Sparse.firstGap 0 s.fmt.table
        if k < Config.placements then
          State.buildSlots line m w xs (x :: kept)
            (s.build k ⟨line, m, x.start, x.width, kind, format, i, none, none⟩, t)
        else State.buildSlots line m w xs kept (s, { t with noRoom := t.noRoom + 1 })
      | (b, _) => State.buildSlots line m w xs kept (s.withBus b, t.fault)

/-- The stale cell examined after the placements (R78): the cell kept, or none, and whether it was made absent. -/
def checkStale (w : Width) (kept : List Slot) (stale : Option Nat) : Option (Fin 32) × Bool :=
  match stale with
  | none => (none, false)
  | some c =>
    if h : c < 32 then
      if c < w.cells ∧ (kept.any fun x => decide (x.start ≤ c ∧ c < x.start + x.width)) = false then (some ⟨c, h⟩, false)
      else (none, true)
    else (none, true)

/-- What REMAP found of a module: its width and stale cell when it is present. -/
abbrev Found := Option (Width × Option (Fin 32))

/-- Step 2 of R92: the module records of a line are read, in address order. -/
def Bus.readMaps (p : Params) (line : Fin 4) : List (Fin 32) → Bus → Bus × List (Fin 32 × MapRead)
  | [], b => (b, [])
  | m :: ms, b =>
    match b.readMap (p.moduleRecord line m) with
    | (b, r) =>
      match Bus.readMaps p line ms b with
      | (b, rs) => (b, (m, r) :: rs)

/-- Step 3 of R92 for one module. -/
def State.buildModule (s : State) (line : Fin 4) (m : Fin 32) (t : Tally) : MapRead → State × Tally × Found
  | .absent => (s, t, none)
  | .illegalWidth => (s, t.fault, none)
  | .module r =>
    match State.buildSlots line m r.width r.slots [] (s, t) with
    | (s, t, kept) =>
      match checkStale r.width kept r.stale with
      | (stale, true) => (s, t.fault, some (r.width, stale))
      | (stale, false) => (s, t, some (r.width, stale))

/-- Step 3 of R92 for the modules of a line, in address order. -/
def State.buildModules (line : Fin 4) : List (Fin 32 × MapRead) → State → Tally → State × Tally × List (Fin 32 × Found)
  | [], s, t => (s, t, [])
  | (m, r) :: rs, s, t =>
    match s.buildModule line m t r with
    | (s, t, found) =>
      match State.buildModules line rs s t with
      | (s, t, fs) => (s, t, (m, found) :: fs)

/-- Steps 2 and 3 of R92: every record of the line is read before the first slot is examined. -/
def State.mapModules (s : State) (line : Fin 4) : State × Tally × List (Fin 32 × Found) :=
  match s.bus.readMaps s.params line (List.finRange 32) with
  | (b, rs) => State.buildModules line rs (s.withBus b) ⟨0, 0⟩

/-! ## REMAP, steps 4 and 5 (R92, R99) -/

/-- The image of a module with no placement rendered yet: blank, but for the stale cell (R82, R85). -/
def freshImage (stage : FeedStage) (stale : Option (Fin 32)) : Vector BoardCell 32 :=
  Bank.tabulate fun k => if stale = some k then staleCell stage else .blank

/-- A module brought into line with what REMAP found (R99). -/
def Module.adopt (x : Module) (found : Found) : Module :=
  match found, x.present with
  | none, false => x
  | some (w, _), false =>
    { x with present := true, width := some w, state := .unknown, dirty := none, inFlight := none, attempts := 0,
             poll := .due }
  | some (w, _), true =>
    { x with width := some w, dirty := if x.state = .live then some ⟨0, w.cells - 1⟩ else x.dirty }
  | none, true =>
    { x with present := false, width := none, state := .unknown, dirty := none, inFlight := none, attempts := 0,
             poll := .stopped, blankDue := true }

/-- The module after steps 4 and 5, but for its placements' cells. -/
def Module.remapped (x : Module) (stage : FeedStage) (found : Found) : Module :=
  { x.adopt found with image := freshImage stage (found.bind (·.2)), stale := found.bind (·.2) }

/-- Module 31 with blank due is blanked by the broadcast in its place (R108). -/
def BoardLine.broadcastFor31 (l : BoardLine) : BoardLine :=
  if (l.module 31).blankDue then { l.modifyModule 31 fun x => { x with blankDue := false } with blankDue := true } else l

/-- The line after steps 4 and 5 of R92: no longer under REMAP; at START its controller starts work with a broadcast BLANK
and an INTENSITY FULL due (R99, R111). -/
def BoardLine.remapped (l : BoardLine) (stage : FeedStage) (cause : RemapCause) (found : List (Fin 32 × Found)) :
    BoardLine :=
  let l := found.foldl (fun l e => l.modifyModule e.1 fun x => x.remapped stage e.2) l
  let l := { l.broadcastFor31 with underRemap := false }
  match cause with
  | .start => { l with blankDue := true, intensityDue := some .full, working := true }
  | .posting => l

/-- Steps 4 and 5 of R92. The placements are rendered onto fresh images, in rising entry number (log 37); the ranges this hands
on lie within the whole width that step 5 makes dirty, or are discarded. -/
def State.repaintLine (s : State) (job : RemapJob) (found : List (Fin 32 × Found)) : State :=
  let s := s.modifyLine job.line fun l => l.remapped s.session.stage job.cause found
  s.renderEntries (s.fmt.entries fun p => p.line = job.line)

/-- A notice of a line's REMAP: handed on, or held until START completes (R94). -/
def State.reportRemap (s : State) (cause : RemapCause) (n : NoticeBody) : State :=
  match cause with
  | .start => s.withFmt { s.fmt with held := s.fmt.held ++ [n] }
  | .posting => s.hand n

/-- The table faults and the no-room count of a line (R78, R79). R94 puts TABLE FAULT before BOARD MAP FULL for START's held notices;
that a REMAP posting hands them on in the same order is the model's choice (DESIGN CHOICE, log 45). -/
def State.reportTally (s : State) (job : RemapJob) (t : Tally) : State :=
  let s :=
    if t.faults = 0 then s
    else (s.withBus (s.bus.setError .tableFault)).reportRemap job.cause (.tableFaultRemap job.line t.faults)
  if t.noRoom = 0 then s else s.reportRemap job.cause (.boardMapFull job.line t.noRoom)

/-- Steps 2 to 5 of R92, with the reports at their end. -/
def State.finishLine (s : State) (job : RemapJob) : State :=
  match s.mapModules job.line with
  | (s, t, found) => (s.repaintLine job found).reportTally job t

/-- The line that follows begins, or none is left (R94). -/
def State.nextLine (s : State) (job : RemapJob) : State :=
  match job.after with
  | n :: r => s.beginLine ⟨n, r, job.cause⟩
  | [] => s.withFmt { s.fmt with remap := none }

end Sys2Proof.Machine
end

