-- ==== Sys2Proof/Machine/BoardLines.lean ====
section
/-! DEFINITION. The board line controllers (chapter 06): night events, the scheduler, outcomes of frames, polls. -/

namespace Sys2Proof.Machine

/-- A LIVE module of the line. A LIVE module is always present (R99); both are asked (R100). -/
def Module.isLive (x : Module) : Bool := x.present && x.state = .live

/-- A present module in UNKNOWN or DARK (R101). -/
def Module.isLost (x : Module) : Bool := x.present && x.state ≠ .live

/-- Every LIVE module of the line has its dirty range made its whole width (R108, R110). -/
def BoardLine.dirtyLive (l : BoardLine) : BoardLine :=
  { l with modules := Bank.mapAll l.modules fun _ x => if x.isLive then { x with dirty := x.whole } else x }

/-! ## Night (R109, R110) -/

/-- A night set reaches the controller (R109). -/
def BoardLine.nightSet (l : BoardLine) : BoardLine :=
  { l with night := true, blankDue := true, intensityDue := some .dim }

/-- A night clear reaches the controller (R110). -/
def BoardLine.nightClear (l : BoardLine) : BoardLine :=
  { l with night := false, intensityDue := some .full }.dirtyLive

/-- The controller takes the first night event handed to it when it is a set. -/
def BoardLine.takeNightSet (l : BoardLine) : BoardLine :=
  match l.nights with
  | true :: r => { l with nights := r }.nightSet
  | _ => l

/-- The controller takes the first night event handed to it when it is a clear. -/
def BoardLine.takeNightClear (l : BoardLine) : BoardLine :=
  match l.nights with
  | false :: r => { l with nights := r }.nightClear
  | _ => l

/-- NIGHT_SET (R109). -/
def execNightSet (n : Fin 4) (s : State) : Result := .next (s.modifyLine n BoardLine.takeNightSet)

/-- NIGHT_CLEAR (R110). -/
def execNightClear (n : Fin 4) (s : State) : Result := .next (s.modifyLine n BoardLine.takeNightClear)

/-! ## The scheduler (R101, R102, R106) -/

/-- The first module address of a list whose module satisfies `p`. -/
def BoardLine.first (l : BoardLine) (order : List (Fin 32)) (p : Module → Bool) : Option (Fin 32) :=
  order.find? fun m => p (l.module m)

/-- A LIVE module that has a dirty range. -/
def Module.wantsWrite (x : Module) : Bool := x.isLive && x.dirty.isSome

/-- The priority rows, lowest first (R101 step 4). -/
def BoardLine.priorityRows (l : BoardLine) : List (Fin 32) := (List.finRange 32).filter fun m => m.val < l.priority

/-- The order of the round robin: upward from the address after the position, then from the lowest address at or above the
priority-row count back to the position itself; all of them when the position is absent (R101 step 6). -/
def BoardLine.robinOrder (l : BoardLine) : List (Fin 32) :=
  let rows := (List.finRange 32).filter fun m => l.priority ≤ m.val
  match l.roundRobin with
  | none => rows
  | some p => rows.filter (fun m => p < m) ++ rows.filter (fun m => m ≤ p)

/-- Steps 4 to 6 of R101. -/
def BoardLine.chooseModule (l : BoardLine) : Option BoardFrameKind :=
  let write (order : List (Fin 32)) : Option BoardFrameKind :=
    if l.night then none else (l.first order Module.wantsWrite).map .writeCells
  (write l.priorityRows).or <|
    ((l.first (List.finRange 32) fun x => x.isLost && x.poll = .due).map .statusPoll).or (write l.robinOrder)

/-- The next frame of a line by the steps of R101. -/
def BoardLine.choose (l : BoardLine) : Option BoardFrameKind :=
  if l.blankDue then some .broadcastBlank
  else
    match l.intensityDue with
    | some level => some (.intensity level)
    | none => ((l.first (List.finRange 32) Module.blankDue).map .blank).or l.chooseModule

/-- The code of a brightness level (chapter 11). -/
def Intensity.code : Intensity → Nat
  | .full => 0
  | .dim => 1

/-- The cells of an image from `first` to `last`. -/
def cellsOf (image : Vector BoardCell 32) (r : Range) : List BoardCell :=
  ((List.finRange 32).filter fun k => r.first ≤ k.val ∧ k.val ≤ r.last).map fun k => Bank.get image k

/-- The bytes of a WRITE CELLS frame (R97, chapter 11). -/
def writeCellsFrame (m : Fin 32) (r : Range) (cells : List BoardCell) : List Byte :=
  withCheck ([0xA1, byte m.val, byte r.first, byte cells.length] ++ cells.flatMap fun c => [c.glyph, c.attr.byte])

/-- The bytes of a frame as its sending begins (R97, chapter 11). -/
def BoardLine.frameBytes (l : BoardLine) : BoardFrameKind → List Byte
  | .writeCells m =>
    match (l.module m).dirty with
    | some r => writeCellsFrame m r (cellsOf (l.module m).image r)
    | none => []
  | .statusPoll m => withCheck [0xA2, byte m.val]
  | .blank m => withCheck [0xA3, byte m.val]
  | .broadcastBlank => withCheck [0xA3, 31]
  | .intensity level => withCheck [0xA4, 31, byte level.code]

/-- What the choice of a frame changes beside the frame in flight: a WRITE CELLS moves the dirty range into flight and,
outside the priority rows, becomes the round-robin position; a STATUS POLL stops the poll timer (R101, R102, R106). -/
def BoardLine.chosen (l : BoardLine) : BoardFrameKind → BoardLine
  | .writeCells m =>
    { l.modifyModule m fun x => { x with inFlight := x.dirty, dirty := none } with
      roundRobin := if l.priority ≤ m.val then some m else l.roundRobin }
  | .statusPoll m => l.modifyModule m fun x => { x with poll := .stopped }
  | .blank _ | .broadcastBlank | .intensity _ => l

/-- A frame begins to be sent. -/
def BoardLine.begin (l : BoardLine) (k : BoardFrameKind) : BoardLine :=
  { l.chosen k with frame := some ⟨k, l.frameBytes k, .sending⟩ }

/-- The frame that a free line chooses: none while the line is under REMAP or the controller may not work (R96, R101). -/
def State.nextFrame (s : State) (n : Fin 4) : Option BoardFrameKind :=
  let l := s.line n
  if s.linesWork = true ∧ l.working = true ∧ l.underRemap = false ∧ l.frame = none then l.choose else none

/-- CHOOSE_NEXT_FRAME (R101). -/
def execChooseNextFrame (n : Fin 4) (s : State) : Result :=
  .next (match s.nextFrame n with
    | some k => s.modifyLine n fun l => l.begin k
    | none => s)

/-! ## The end of sending (R98, R108) -/

/-- The line is free. -/
def BoardLine.free (l : BoardLine) : BoardLine := { l with frame := none }

/-- The end of sending of a broadcast BLANK (R108). -/
def BoardLine.blanked (l : BoardLine) : BoardLine :=
  let l := { l.free with blankDue := false }
  if l.night then l else l.dirtyLive

/-- The end of sending of an INTENSITY: its flag is cleared, unless another level has replaced it (R108, log 15). -/
def BoardLine.dimmed (l : BoardLine) (level : Intensity) : BoardLine :=
  { l.free with intensityDue := if l.intensityDue = some level then none else l.intensityDue }

/-- The end of sending of a frame at a time (R97, R98, R108). -/
def BoardLine.sent (l : BoardLine) (f : BoardFrame) (now : Nat) : BoardLine :=
  match f.kind with
  | .writeCells _ | .statusPoll _ => { l with frame := some { f with phase := .window (now + Config.boardWindow) } }
  | .blank m => l.free.modifyModule m fun x => { x with blankDue := false }
  | .broadcastBlank => l.blanked
  | .intensity level => l.dimmed level

/-- The frame being sent ends its sending. -/
def BoardLine.endSending (l : BoardLine) (now : Nat) : BoardLine :=
  match l.frame with
  | some f => if f.phase = .sending then l.sent f now else l
  | none => l

/-- BOARD_FRAME_SENT (R97). -/
def execBoardFrameSent (n : Fin 4) (s : State) : Result := .next (s.modifyLine n fun l => l.endSending s.now)

/-! ## Outcomes (R98, R103 to R107) -/

/-- The frame in its reply window, with the time the window ends. -/
def BoardLine.waiting (l : BoardLine) : Option (BoardFrameKind × Nat) :=
  match l.frame with
  | some ⟨k, _, .window ends⟩ => some (k, ends)
  | _ => none

/-- The module whose WRITE CELLS a reply answers: in the window, with its address and the right check byte (R98). -/
def State.writeAnswered (s : State) (n : Fin 4) (code address check : Byte) : Option (Fin 32) :=
  match (s.line n).waiting with
  | some (.writeCells m, ends) =>
    if s.now ≤ ends ∧ address = byte m.val ∧ check = checkByte [code, address] then some m else none
  | _ => none

/-- The module whose STATUS POLL a reply answers (R98). -/
def State.pollAnswered (s : State) (n : Fin 4) (address width check : Byte) : Option (Fin 32) :=
  match (s.line n).waiting with
  | some (.statusPoll m, ends) =>
    if s.now ≤ ends ∧ address = byte m.val ∧ check = checkByte [0xB3, address, width] then some m else none
  | _ => none

/-- A module after an ACCEPT (R103). -/
def Module.accepted (x : Module) : Module := if x.present then { x with inFlight := none, attempts := 0 } else x

/-- ACCEPT (R103). -/
def execAccept (n : Fin 4) (address check : Byte) (s : State) : Result :=
  .next (match s.writeAnswered n 0xB1 address check with
    | some m => s.modifyLine n fun l => l.free.modifyModule m Module.accepted
    | none => s)

/-- Cells at or beyond the width are dropped from a range (R104). -/
def Range.within (r : Range) (w : Nat) : Option Range :=
  if r.first < w then some ⟨r.first, min r.last (w - 1)⟩ else none

/-- The dirty range after a failed frame: the in-flight range merged back, within the width (R104). -/
def Module.mergedBack (x : Module) : Option Range :=
  let r := match x.inFlight with
    | some f => some (joinRange x.dirty f)
    | none => x.dirty
  r.bind fun r => r.within ((x.width.map Width.cells).getD 0)

/-- A module that goes DARK at a time (R105). -/
def Module.goDark (x : Module) (at_ : Nat) : Module :=
  { x with state := .dark, dirty := none, inFlight := none, attempts := 0,
           poll := .running (at_ + Config.modulePollDelay) }

/-- A module after a failed WRITE CELLS frame whose outcome came at a time (R104, R105). -/
def Module.failed (x : Module) (at_ : Nat) : Module :=
  if x.isLive = false then x
  else if x.attempts < 2 then { x with dirty := x.mergedBack, inFlight := none, attempts := x.attempts + 1 }
  else x.goDark at_

/-- A notice of a module lost or back: handed on, or held by its controller until START completes (R111). -/
def State.reportModule (s : State) (n : Fin 4) (body : NoticeBody) : State :=
  if s.bus.phase = .checking then s.modifyLine n fun l => { l with held := l.held ++ [body] } else s.hand body

/-- A WRITE CELLS frame has failed (R104, R105). -/
def State.writeFailed (s : State) (n : Fin 4) (m : Fin 32) (at_ : Nat) : State :=
  let t := s.modifyLine n fun l => l.free.modifyModule m fun x => x.failed at_
  if ((s.line n).module m).isLive = true ∧ ((t.line n).module m).state = .dark then t.reportModule n (.moduleLost n m)
  else t

/-- REJECT (R104). -/
def execReject (n : Fin 4) (address check : Byte) (s : State) : Result :=
  .next (match s.writeAnswered n 0xB2 address check with
    | some m => s.writeFailed n m s.now
    | none => s)

/-- A module that answers a STATUS POLL (R107). -/
def Module.returned (x : Module) : Module :=
  if x.isLost then { x with state := .live, attempts := 0, dirty := x.whole, polled := true } else { x with polled := true }

/-- The line after a STATUS REPLY of a module: a return at night makes the broadcast BLANK due (R107). -/
def BoardLine.answered (l : BoardLine) (m : Fin 32) : BoardLine :=
  { l.free.modifyModule m Module.returned with
    blankDue := l.blankDue || ((l.module m).isLost && l.night) }

/-- STATUS_REPLY (R107). -/
def execStatusReply (n : Fin 4) (address width check : Byte) (s : State) : Result :=
  .next (match s.pollAnswered n address width check with
    | some m =>
      let t := s.modifyLine n fun l => l.answered m
      if ((s.line n).module m).present = true ∧ ((s.line n).module m).state = .dark then
        t.reportModule n (.moduleBack n m width)
      else t
    | none => s)

/-- A module whose STATUS POLL was not answered (R106). -/
def Module.unanswered (x : Module) (ends : Nat) : Module :=
  if x.present then { x with poll := .running (ends + Config.modulePollDelay), polled := true }
  else { x with polled := true }

/-- The frame whose reply window has ended, with the time of its end (R98). -/
def State.windowOver (s : State) (n : Fin 4) : Option (BoardFrameKind × Nat) :=
  (s.line n).waiting.filter fun w => w.2 ≤ s.now

/-- REPLY_WINDOW (R98, R104, R106). -/
def execReplyWindow (n : Fin 4) (s : State) : Result :=
  .next (match s.windowOver n with
    | some (.writeCells m, ends) => s.writeFailed n m ends
    | some (.statusPoll m, ends) => s.modifyLine n fun l => l.free.modifyModule m fun x => x.unanswered ends
    | _ => s)

/-- POLL_TIMER (R106). -/
def execPollTimer (n : Fin 4) (m : Fin 32) (s : State) : Result :=
  .next (if s.linesWork && ((s.line n).module m).poll.reached s.now then
      s.modifyModule n m fun x => { x with poll := .due }
    else s)

/-- The line's first polls are complete (R111). -/
def BoardLine.pollsComplete (l : BoardLine) : Bool :=
  l.working && Bank.all l.modules fun _ x => !x.present || x.polled

end Sys2Proof.Machine
end

