-- ==== Sys2Proof/Machine/Notices.lean ====
section
/-! DEFINITION. The notice unit (chapter 10): the holding queue, claiming, writing and linking of notices. -/

namespace Sys2Proof.Machine

/-- The notice unit with one field or more replaced. -/
def State.modifyUnit (s : State) (f : NoticeUnit → NoticeUnit) : State := s.withNotices (f s.notices)

/-- A count word raised, saturating at 65,535 (R179, R186). -/
def raiseCount (w : Word) (n : Nat) : Word := word (min (w.toNat + n) 65535)

/-! ## The holding queue (R185 to R187) -/

/-- The kind and subject of a notice; none for a kind that is never folded (R179). -/
def NoticeBody.foldKey (n : NoticeBody) : Option (Nat × Nat × List Nat) :=
  n.subject.map fun k => (n.group.code, n.kindNumber, k)

/-- A held item has the same kind and the same subject as an arriving one (R186, R187). -/
def Item.folds (held arriving : Item) : Bool :=
  arriving.parts.all (fun n => n.foldKey.isSome)
    && held.parts.map NoticeBody.foldKey == arriving.parts.map NoticeBody.foldKey

/-- The newest item of a queue that satisfies `p`, and the queue without it. -/
def takeNewest (p : Item → Bool) : List Item → Option (Item × List Item)
  | [] => none
  | x :: r =>
    match takeNewest p r with
    | some (y, r') => some (y, x :: r')
    | none => if p x then some (x, r) else none

/-- NOTICES LOST is written from the moment START DONE has been taken in hand, also while it is HELD; nothing is written into
the common area before (R180, DESIGN CHOICE, log 18). -/
def State.writeLost (s : State) : State :=
  if s.notices.startDone then s.withBus (s.bus.writeStatus .noticesLost s.notices.lost) else s

/-- An item is discarded: NOTICES LOST rises by its notices and POOL EXHAUSTED is set (R186, R187). -/
def State.loseItem (s : State) (x : Item) : State :=
  let s := (s.modifyUnit fun u => { u with lost := raiseCount u.lost x.parts.length }).writeLost
  s.withBus (s.bus.setError .poolExhausted)

/-- An item joins the holding queue, is folded into it, or is lost (R185, R186). -/
def State.joinHolding (s : State) (x : Item) : State :=
  if s.notices.holding.length < Config.holdingCapacity then s.modifyUnit fun u => { u with holding := u.holding ++ [x] }
  else
    match takeNewest (fun y => y.folds x) s.notices.holding with
    | some (y, rest) => s.modifyUnit fun u => { u with holding := rest ++ [{ x with repeats := raiseCount y.repeats 1 }] }
    | none => s.loseItem x

/-! ## Claiming a cell (R182) -/

/-- The cells of one bitmap word from `lo` on and below `hi`. -/
def cellsOfWord (lo hi w : Nat) : List Nat := ((List.range 16).map (16 * w + ·)).filter fun c => lo ≤ c ∧ c < hi

/-- The search order, one bitmap word at a time: from the cell after the search position upward, then from cell 0 as far as
the search position itself (R182). -/
def searchOrder (count search : Nat) : List (List Nat) :=
  let words := List.range ((count + 15) / 16)
  (words.map (cellsOfWord (search + 1) count) ++ words.map (cellsOfWord 0 (min (search + 1) count))).filter
    fun cs => !cs.isEmpty

/-- A cell's bit is set in its bitmap word. -/
def cellUsed (w : Word) (c : Nat) : Bool := w.getLsbD (bitmapBit c)

/-- A bitmap word with a cell's bit set. -/
def setCell (c : Nat) (w : Word) : Word := w ||| BitVec.twoPow 16 (bitmapBit c)

/-- A bitmap word with a cell's bit clear. -/
def clearCell (c : Nat) (w : Word) : Word := w &&& ~~~(BitVec.twoPow 16 (bitmapBit c))

/-- The first of some cells whose bit is clear in their bitmap word. -/
def firstClear (cs : List Nat) (w : Word) : Option Nat := cs.find? fun c => !cellUsed w c

/-- What a test-and-set writes back: the word with the first clear bit set, or the word as read (R182). -/
def testAndSet (cs : List Nat) (w : Word) : Word :=
  match firstClear cs w with
  | some c => setCell c w
  | none => w

/-- The outcome of a search. -/
inductive Claim where
  | cell (c : Nat)
  | noneFree
  | failed
deriving DecidableEq, Repr

/-- The search of the bitmap (R182). -/
def Bus.claim (p : Params) : List (List Nat) → Bus → Bus × Claim
  | [], b => (b, .noneFree)
  | cs :: r, b =>
    match b.cycle (p.bitmapWord (cs.headD 0)) (testAndSet cs) with
    | (b, none) => (b, .failed)
    | (b, some w) =>
      match firstClear cs w with
      | some c => (b, .cell c)
      | none => Bus.claim p r b

/-! ## Writing and linking (R181, R183, R184) -/

/-- The unit waits for a feed poll tick (R180). -/
def State.holdUnit (s : State) : State := s.modifyUnit fun u => { u with unit := .held }

/-- The notice in hand replaced. -/
def State.setHand (s : State) (x : InHand) : State := s.modifyUnit fun u => { u with inHand := some x }

/-- START DONE is the notice. -/
def NoticeBody.isStartDone : NoticeBody → Bool
  | .startDone .. => true
  | _ => false

/-- A cell is claimed: it belongs to the notice in hand and becomes the search position (R182). -/
def State.claimed (s : State) (x : InHand) (c : Nat) : State :=
  (s.setHand { x with cells := x.cells ++ [c] }).modifyUnit fun u => { u with search := some c }

/-- The claim of START DONE: the NOTICE START cell, whatever its bit (R181). -/
def State.claimStart (s : State) (x : InHand) : State × Bool :=
  match s.bus.cycle (s.params.bitmapWord s.params.noticeStart) (setCell s.params.noticeStart) with
  | (b, some _) => ((s.withBus b).setHand { x with cells := [s.params.noticeStart] }, true)
  | (b, none) => ((s.withBus b).holdUnit, false)

/-- The claim of a cell by a search (R182). -/
def State.claimCell (s : State) (x : InHand) : State × Bool :=
  match s.bus.claim s.params (searchOrder s.params.cellCount (s.notices.search.getD 0)) with
  | (b, .cell c) => ((s.withBus b).claimed x c, true)
  | (b, _) => ((s.withBus b).holdUnit, false)

/-- The words of a notice cell in the order they are written: words 2 to 15, the link END, the state NOTICE (R183). -/
def cellWrites (p : Params) (c : Nat) (number : Word) (body : NoticeBody) (time : Option Tod) (repeats : Word) :
    List (Word × Word) :=
  (noticeWords number body time repeats).zipIdx.map (fun e => (p.cellWord c (e.2 + 2), e.1))
    ++ [(p.cellWord c 1, Config.endLink), (p.cellWord c 0, stateNotice)]

/-- The notice is linked in a cell: tail, NOTICE COUNT and the group's pending mark; the rest of the item stays in hand
(R181, R187). -/
def State.linked (s : State) (x : InHand) (body : NoticeBody) (c : Nat) : State :=
  let s := s.modifyUnit fun u =>
    { u with
      tail := some c
      count := u.count + 1
      inHand := some ⟨{ x.item with parts := x.item.parts.tail }, x.cells.tail, false⟩ }
  s.withBus ((s.bus.writeStatus .noticeCount s.notices.count).markGroup body.group)

/-- START DONE is linked when its state word has been written; the search position becomes its cell (R181). -/
def State.linkedFirst (s : State) (x : InHand) (body : NoticeBody) (c : Nat) : State :=
  (s.linked x body c).modifyUnit fun u => { u with search := some c }

/-- The notice in hand is written whole into its cell (R183). -/
def State.writeCell (s : State) (x : InHand) (body : NoticeBody) (c : Nat) : State × Bool :=
  match s.bus.writeAll (cellWrites s.params c (s.notices.count + 1) body x.item.time x.item.repeats) with
  | (b, true) =>
    if body.isStartDone then ((s.withBus b).linkedFirst x body c, true)
    else ((s.withBus b).setHand { x with written := true }, true)
  | (b, false) => ((s.withBus b).holdUnit, false)

/-- The chain is restarted at the claimed cell (R183). -/
def State.restartChain (s : State) (x : InHand) (body : NoticeBody) (c tail : Nat) (read : Option Word)
    (reason : BreakReason) : State :=
  let s := s.withBus (s.bus.writeStatus .noticeRestart (word c))
  let s := s.modifyUnit fun u => { u with restarts := u.restarts + 1 }
  let s := s.withBus ((s.bus.writeStatus .restartCount s.notices.restarts).setError .chainBroken)
  (s.linked x body c).joinHolding ⟨[.chainBroken .notice tail read reason], s.session.tod, 0⟩

/-- The reason a tail whose state word was read is bad, if it is (R183). TAIL FREED stands before BAD STATE where both apply
(DESIGN CHOICE, log 40). -/
def tailFault (bitmap : Word) (tail c : Nat) (state : Word) : Option BreakReason :=
  if cellUsed bitmap tail = false ∨ c = tail then some .tailFreed
  else if state = stateNotice then none
  else some .badState

/-- The link from the tail, once its bitmap word has been read (R183, R184). Where the two attempts of the state word's read fail
differently, the second decides (DEDUCED, log 41). -/
def State.linkFrom (s : State) (x : InHand) (body : NoticeBody) (c tail : Nat) (bitmap : Word) : State × Bool :=
  match s.bus.read (s.params.cellWord tail 0) with
  | (b, .timedOut) => ((s.withBus b).holdUnit, false)
  | (b, .faulted _) => ((s.withBus b).restartChain x body c tail none .parity, true)
  | (b, .word w) =>
    match tailFault bitmap tail c w with
    | some reason => ((s.withBus b).restartChain x body c tail (some w) reason, true)
    | none =>
      match b.write (s.params.cellWord tail 1) (word c) with
      | (b, true) => ((s.withBus b).linked x body c, true)
      | (b, false) => ((s.withBus b).holdUnit, false)

/-- The linking of the notice in hand (R183). There is a tail from START DONE on; without one the notice would be the first
of its chain (R181). -/
def State.linkCell (s : State) (x : InHand) (body : NoticeBody) (c : Nat) : State × Bool :=
  match s.notices.tail with
  | none => (s.linked x body c, true)
  | some tail =>
    match s.bus.read (s.params.bitmapWord tail) with
    | (b, .word bitmap) => (s.withBus b).linkFrom x body c tail bitmap
    | (b, _) => ((s.withBus b).holdUnit, false)

/-- The writing of the notice in hand has ended: the oldest held item is taken in hand, or the unit becomes IDLE (R180). -/
def State.nextItem (s : State) : State × Bool :=
  match s.notices.holding with
  | x :: r => (s.modifyUnit fun u => { u with inHand := some ⟨x, [], false⟩, holding := r }, true)
  | [] => (s.modifyUnit fun u => { u with inHand := none, unit := .idle }, false)

/-- The next thing to do with the notice in hand: claim its cells, write the first of its notices, link it (R182, R183,
R187). -/
def State.workOn (s : State) (x : InHand) : State × Bool :=
  match x.item.parts with
  | [] => s.nextItem
  | body :: _ =>
    if x.cells.length < x.item.parts.length then
      if body.isStartDone then s.claimStart x else s.claimCell x
    else
      match x.cells with
      | c :: _ => if x.written then s.linkCell x body c else s.writeCell x body c
      | [] => s.nextItem

/-- The unit works, WRITING, until it is IDLE or HELD. -/
def State.work : Nat → State → State
  | 0, s => s
  | f + 1, s =>
    match s.notices.inHand with
    | none => s
    | some x =>
      match s.workOn x with
      | (s, true) => State.work f s
      | (s, false) => s

/-- More turns than the unit can take before it is IDLE or HELD: at most eight for each item, and an item for each chain
restart, which past the first spends two attempts of the script. -/
def State.workFuel (s : State) : Nat := 8 * (s.notices.holding.length + s.bus.script.length + 4)

/-- The unit becomes WRITING and works (R180). -/
def State.runUnit (s : State) : State := (s.modifyUnit fun u => { u with unit := .writing }).work s.workFuel

/-- A HELD unit takes up the notice in hand at a feed poll tick (R180, R184). -/
def State.noticeRetry (s : State) : State := if s.notices.unit = .held then s.runUnit else s

/-- The unit is busy for an arriving notice (R180). -/
def NoticeUnit.busy (u : NoticeUnit) : Bool := !u.startDone || u.unit ≠ .idle || !u.holding.isEmpty

/-- An item reaches the notice unit (R180, R185, R186). -/
def State.arrive (s : State) (x : Item) : State :=
  if s.notices.busy then s.joinHolding x else (s.setHand ⟨x, [], false⟩).runUnit

/-- The first item handed to the unit reaches it. -/
def State.takeNotice (s : State) : State :=
  match s.notices.inbox with
  | [] => s
  | x :: r => (s.modifyUnit fun u => { u with inbox := r }).arrive x

/-- NOTICE (R180). The part makes no access to the area in UNSET and READY (R161). -/
def execNotice (h : List HostWrite) (s : State) : Result :=
  let s := s.hostWrites h
  .next (if s.linesWork then s.takeNotice else s)

end Sys2Proof.Machine
end

