-- ==== Sys2Proof/Machine/Intake.lean ====
section
/-! DEFINITION. Feed intake on the posting chain (chapter 09, R169 to R175): looks, the link step, the TAKEN write, and the
commands NUDGE, QUIESCE, RESUME, RESTART INTAKE. -/

namespace Sys2Proof.Machine

/-- Intake with one field or more replaced. -/
def State.modifyIntake (s : State) (f : Intake → Intake) : State := s.withIntake (f s.intake)

/-- Intake in another of its states. -/
def State.setIntake (s : State) (st : IntakeState) : State := s.modifyIntake fun x => { x with state := st }

/-- Intake stops; a pending quiesce is dropped (R173, R175, log 13), and a RESTART INTAKE that waits is not (log 35). The last sequence
is kept, also by a RESTART INTAKE that fails (DESIGN CHOICE, log 47). -/
def State.stopIntake (s : State) : State :=
  s.modifyIntake fun x => { x with state := .stopped, quiescePending := false }

/-- CHAIN BROKEN: the flag, the notice, and intake STOPPED (R173). -/
def State.breakChain (s : State) (cell : Nat) (read : Option Word) (reason : BreakReason) : State :=
  ((s.withBus (s.bus.setError .chainBroken)).hand (.chainBroken .posting cell read reason)).stopIntake

/-! ## Looks (R170, R172) -/

/-- A look at the state word of the current cell; true when a link step follows at once (R170). -/
def State.stateStep (s : State) (c : Nat) : State × Bool :=
  match s.bus.readChain (s.params.cellWord c 0) with
  | (b, .timedOut) => (s.withBus b, false)
  | (b, .faulted _) => ((s.withBus b).breakChain c none .parity, false)
  | (b, .word w) =>
    let s := s.withBus b
    if w = stateEmpty then (s, false)
    else if w = stateFilled then (s.setIntake .taking, false)
    else if w = stateTaken then (s.modifyIntake fun x => { x with taken := true }, true)
    else (s.breakChain c (some w) .badState, false)

/-- CURRENT POSTING CELL is written (R163). -/
def State.writeCurrent (s : State) (c : Nat) : State := s.withBus (s.bus.writeStatus .currentCell (word c))

/-- The successor becomes the current cell (R172). -/
def State.moveTo (s : State) (d : Nat) : State :=
  (s.modifyIntake fun x => { x with current := some d, taken := false }).writeCurrent d

/-- The current cell is freed by an interlocked clear, and intake moves to the successor (R165, R172). -/
def State.freeAndMove (s : State) (c d : Nat) : State × Bool :=
  match s.bus.cycle (s.params.bitmapWord c) (clearCell c) with
  | (b, some _) => ((s.withBus b).moveTo d, true)
  | (b, none) => (s.withBus b, false)

/-- A link that names another cell: its bit must be set (R172). -/
def State.followLink (s : State) (c d : Nat) : State × Bool :=
  match s.bus.read (s.params.bitmapWord d) with
  | (b, .word w) =>
    if cellUsed w d then (s.withBus b).freeAndMove c d
    else ((s.withBus b).breakChain c (some (word d)) .linkUnallocated, false)
  | (b, _) => (s.withBus b, false)

/-- The link step; true when the successor's state word is read at once (R172). -/
def State.linkStep (s : State) (c : Nat) : State × Bool :=
  match s.bus.readChain (s.params.cellWord c 1) with
  | (b, .timedOut) => (s.withBus b, false)
  | (b, .faulted _) => ((s.withBus b).breakChain c none .parity, false)
  | (b, .word w) =>
    let s := s.withBus b
    if w = Config.endLink then (s, false)
    else if s.params.cellCount ≤ w.toNat then (s.breakChain c (some w) .linkRange, false)
    else if w.toNat = c then (s.breakChain c (some w) .linkSelf, false)
    else s.followLink c w.toNat

/-- A look, with the steps that follow at once, up to a number of them. -/
def State.lookLoop : Nat → State → State
  | 0, s => s
  | f + 1, s =>
    match s.intake.current with
    | none => s
    | some c =>
      match (if s.intake.taken then s.linkStep c else s.stateStep c) with
      | (s, true) => State.lookLoop f s
      | (s, false) => s

/-- Intake looks (R169). Each move frees a cell and needs the successor's bit set, so a look makes at most one move more
than there are cells. -/
def State.look (s : State) : State := s.lookLoop (2 * s.params.cellCount + 4)

/-- Intake becomes WAITING and starts a look at once. -/
def State.waitAndLook (s : State) : State := (s.setIntake .waiting).look

/-! ## RESTART INTAKE (R175) -/

/-- The cell a RESTART INTAKE accepts becomes the current cell (R175). -/
def State.restartAt (s : State) (c : Nat) (quiesced : Bool) : State :=
  let s := (s.modifyIntake fun x =>
    { x with current := some c, taken := false, lastSeq := none, quiescePending := false }).writeCurrent c
  if quiesced then s.setIntake .quiesced else s.waitAndLook

/-- A RESTART INTAKE whose cell is not accepted (R175, log 13): the last sequence stays as it was (DESIGN CHOICE, log 47). -/
def State.restartRefused (s : State) : State := (s.withBus (s.bus.setError .startCell)).stopIntake

/-- The POSTING START cell of a RESTART INTAKE is accepted: below the cell count, its bit set, and not the notice tail (R175). -/
def State.restartAccepts (s : State) (c : Nat) (bitmap : Word) : Bool :=
  decide (c < s.params.cellCount) && cellUsed bitmap c && s.notices.tail ≠ some c

/-- The POSTING START word of the anchor and the bitmap word of its cell are read, and the cell accepted or not (R175). That the word
is read of a cell at or beyond the cell count too, where it may lie past the bitmap, is the model's choice (DESIGN CHOICE, log 48).
A read that fails leaves the last sequence as it was (DESIGN CHOICE, log 47). -/
def State.readRestart (s : State) (quiesced : Bool) : State :=
  match s.bus.read postingStartWord with
  | (b, .word w) =>
    let s := s.withBus b
    match s.bus.read (s.params.bitmapWord w.toNat) with
    | (b, .word bitmap) =>
      if s.restartAccepts w.toNat bitmap then (s.withBus b).restartAt w.toNat quiesced
      else (s.withBus b).restartRefused
    | (b, _) => (s.withBus b).stopIntake
  | (b, _) => (s.withBus b).stopIntake

/-- Intake starts afresh at the anchor's POSTING START, QUIESCED when it was QUIESCED or a quiesce was pending. No RESTART
INTAKE waits any more: an earlier one that waited asked for the same (R175). -/
def State.restartIntake (s : State) : State :=
  (s.modifyIntake fun x => { x with restartPending := false }).readRestart
    (s.intake.state = .quiesced || s.intake.quiescePending)

/-! ## The TAKEN write (R43, R171) -/

/-- POSTINGS TAKEN and, when it is present, LAST SEQUENCE are written (R43, R163). -/
def State.writeCounts (s : State) : State :=
  let s := s.withBus (s.bus.writeStatus .postingsTaken s.intake.postingsTaken)
  match s.intake.lastSeq with
  | some v => s.withBus (s.bus.writeStatus .lastSequence v)
  | none => s

/-- What follows a posting written TAKEN: a RESTART INTAKE that waited, a pending quiesce, or the link step (R171, R174,
R175). -/
def State.afterTaken (s : State) : State :=
  if s.intake.restartPending then s.restartIntake
  else if s.intake.quiescePending then
    s.modifyIntake fun x => { x with state := .quiesced, quiescePending := false }
  else s.look

/-- The posting in hand counts as taken (R43, R171). -/
def State.postingTaken (s : State) : State :=
  let s := s.modifyIntake fun x =>
    { x with state := .waiting, taken := true, owed := false, postingsTaken := x.postingsTaken + 1 }
  (s.writeCounts.signalTaken s.intake.seqInHand).afterTaken

/-- The state word TAKEN is written into the current cell; a write that fails is owed (R171). -/
def State.writeTaken (s : State) : State :=
  match s.intake.current with
  | none => s
  | some c =>
    match s.bus.write (s.params.cellWord c 0) stateTaken with
    | (b, true) => (s.withBus b).postingTaken
    | (b, false) => (s.withBus b).modifyIntake fun x => { x with state := .taking, owed := true }

/-! ## Ticks and commands (R169, R174, R175, R177) -/

/-- What a feed poll tick or a NUDGE does to intake (R169, R171). -/
def State.pollIntake (s : State) : State :=
  if s.intake.state = .waiting then s.look
  else if s.intake.state = .taking ∧ s.intake.owed = true then s.writeTaken
  else s

/-- A command taken (R177). -/
def State.accept (s : State) : State := s.withBus s.bus.acceptCommand

/-- A command refused (R177). -/
def State.refuse (s : State) : State := s.withBus s.bus.refuseCommand

/-- NUDGE (R174, R177). -/
def execNudge (h : List HostWrite) (s : State) : Result :=
  let s := s.hostWrites h
  .next (match s.bus.phase with
    | .unset | .ready => s.refuse
    | .checking => s.accept.modifyIntake fun x => { x with nudged := true }
    | .running => s.accept.pollIntake)

/-- QUIESCE while the part is in service (R174). A posting found by the look after a TAKEN write is in hand when it comes, and is
taken first (DESIGN CHOICE, log 44). -/
def State.quiesce (s : State) : State :=
  match s.intake.state with
  | .stopped => s.refuse
  | .waiting => s.accept.setIntake .quiesced
  | .taking | .applying => s.accept.modifyIntake fun x => { x with quiescePending := true }
  | .quiesced => s.accept

/-- QUIESCE (R174, R177). -/
def execQuiesce (s : State) : Result := .next (if s.inService then s.quiesce else s.refuse)

/-- RESUME while the part is in service: a pending quiesce is cleared, and a QUIESCED intake goes on (R174). -/
def State.resume (s : State) : State :=
  let t := s.accept.modifyIntake fun x => { x with quiescePending := false }
  if s.intake.state = .quiesced then t.waitAndLook else t

/-- RESUME (R174, R177). -/
def execResume (h : List HostWrite) (s : State) : Result :=
  let s := s.hostWrites h
  .next (if s.inService then s.resume else s.refuse)

/-- RESTART INTAKE while the part is in service (R175). -/
def State.restart (s : State) : State :=
  match s.intake.state with
  | .taking | .applying => s.accept.modifyIntake fun x => { x with restartPending := true }
  | .waiting | .stopped | .quiesced => s.accept.restartIntake

/-- RESTART_INTAKE (R175, R177). -/
def execRestartIntake (h : List HostWrite) (s : State) : Result :=
  let s := s.hostWrites h
  .next (if s.inService then s.restart else s.refuse)

/-- A feed poll tick is due (R169). -/
def State.tickDue (s : State) : Bool :=
  s.inService &&
    match s.intake.feedTick with
    | some due => decide (due ≤ s.now)
    | none => false

/-- The next tick comes a feed poll interval after this one (R169). -/
def State.armTick (s : State) : State :=
  s.modifyIntake fun x => { x with feedTick := x.feedTick.map (· + s.params.feedPoll) }

/-- FEED_POLL_TICK (R169, R180); `noticeFirst` is the order of the two blocks, which no rule gives (log 30). -/
def execFeedPollTick (h : List HostWrite) (noticeFirst : Bool) (s : State) : Result :=
  let s := s.hostWrites h
  .next (if s.tickDue then
      if noticeFirst then s.armTick.noticeRetry.pollIntake else s.armTick.pollIntake.noticeRetry
    else s)

end Sys2Proof.Machine
end

