-- ==== Sys2Proof/Machine/Postings.lean ====
section
/-! DEFINITION. Postings (chapter 03): the reading, the sequence check, the checks and the effect of each kind. -/

namespace Sys2Proof.Machine

/-- What the checks and the application of a posting come to (R41). -/
inductive Verdict where
  | refuse (reason : Reason)
  /-- Refused by a check that read a word of the common area, with the bus as that access left it (R164, R176). -/
  | refuseOn (b : Bus) (reason : Reason)
  | apply (s : State)
  /-- A REMAP handed to the formatter: TAKEN is written when it completes (R60). -/
  | remap (s : State)
  /-- A word the check needs could not be read: the posting is not finished reading (R176, R171). -/
  | unread (b : Bus)

/-- The checks and the effect of a kind, from its sequence and body words, on the state after the sequence check. -/
abbrev Judge := Word → Body → State → Verdict

/-! ## The posting in hand (R41 to R44, R171) -/

/-- The posting in hand has been refused: its notice (R42). -/
def State.refusePosting (s : State) (seq kind : Word) (reason : Reason) : State :=
  s.hand (.postingRefused seq kind reason)

/-- The sequence check of a posting that is no duplicate: the gap notice, and the last sequence (R44). -/
def State.noteSequence (s : State) (seq : Word) : State :=
  let t := match s.intake.lastSeq with
    | some v => if seq = v + 1 then s else s.hand (.sequenceGap (v + 1) seq)
    | none => s
  t.modifyIntake fun x => { x with lastSeq := some seq }

/-- The posting in hand has a sequence, which FEED RESUMED may carry (R74). -/
def State.holdSequence (s : State) (seq : Word) : State := s.modifyIntake fun x => { x with seqInHand := seq }

/-- The posting is not taken: intake is WAITING again (R171). A pending quiesce stays pending (log 13), and a RESTART INTAKE
that waits goes on waiting for a posting to be written TAKEN (log 35). -/
def State.leavePosting (s : State) : State := s.setIntake .waiting

/-- A posting that was read whole, from the sequence check on (R41 steps 2 to 5). -/
def State.judgePosting (s : State) (judge : Judge) (seq kind : Word) (body : Body) : State :=
  if s.intake.lastSeq = some seq then ((s.holdSequence seq).refusePosting seq kind .duplicate).writeTaken
  else
    let t := (s.holdSequence seq).noteSequence seq
    match judge seq body t with
    | .refuse reason => (t.refusePosting seq kind reason).writeTaken
    | .refuseOn b reason => ((t.withBus b).refusePosting seq kind reason).writeTaken
    | .apply u => u.writeTaken
    | .remap u => u.setIntake .applying
    | .unread b => (s.withBus b).leavePosting

/-- The posting in a cell is read and finished with (R41). -/
def State.finishPosting (s : State) (judge : Judge) (c : Nat) : State :=
  match s.bus.readPosting (s.params.cellWord c) with
  | (b, .unread) => (s.withBus b).leavePosting
  | (b, .parity seq kind) => (((s.withBus b).holdSequence seq).refusePosting seq kind .parity).writeTaken
  | (b, .posting seq kind body) => (s.withBus b).judgePosting judge seq kind body

/-- A kind that is none of the thirteen, or a TERMINAL subcommand that is none of the seven, is refused whichever posting
row is given (R42, R56, log 26). -/
def judgeAs (row : Row) (named : Named) (judge : Judge) : Option Judge :=
  match named with
  | .badKind => some fun _ _ _ => .refuse .badKind
  | .badSubcommand => some fun _ _ _ => .refuse .badField
  | .row r => if r = row then some judge else none

/-- The current cell of an intake that is TAKING a posting it has not yet applied (R169, R171). -/
def State.inHand (s : State) : Option Nat :=
  if s.inService = true ∧ s.intake.state = .taking ∧ s.intake.owed = false then s.intake.current else none

/-- What the kind word and the first body word of a cell name. -/
def State.namedAt (s : State) (c : Nat) : Named :=
  namedBy (s.bus.peek (s.params.cellWord c 3)) (s.bus.peek (s.params.cellWord c 4))

/-- Intake takes the posting in hand when it is of the row given (log 26). -/
def State.takePosting (s : State) (row : Row) (judge : Judge) : State :=
  match s.inHand with
  | none => s
  | some c =>
    match judgeAs row (s.namedAt c) judge with
    | some j => s.finishPosting j c
    | none => s

/-- A posting step: the host's stores, then the posting. -/
def postingStep (row : Row) (judge : Judge) (h : List HostWrite) (s : State) : Result :=
  .next ((s.hostWrites h).takePosting row judge)

/-! ## Fields -/

/-- The instrument a posting names (R42 order 4). -/
def withInstrument (body : Body) (k : Nat) (f : Ix → Verdict) : Verdict :=
  match Ix.ofNat? (body.at k).toNat with
  | some i => f i
  | none => .refuse .badIndex

/-- The instrument must be defined (R42 order 6). -/
def whenDefined (s : State) (i : Ix) (v : Verdict) : Verdict :=
  if (s.record i).state = .undefined then .refuse .undefinedInstrument else v

/-! ## Trades (R45 to R47) -/

/-- The fields of a TRADE; none when one is out of its range (R45). -/
def tradeFields (body : Body) : Option TradeFields :=
  match priceOfDouble (body.at 5) (body.at 6), timeOfDouble (body.at 9) (body.at 10) with
  | none, _ => none
  | _, .outOfRange => none
  | some price, time =>
    some ⟨price, volumeOfDouble (body.at 7) (body.at 8), time.toOption, (body.at 11).bit 0, (body.at 11).bit 1,
      (body.at 11).bit 2, body.at 12⟩

/-- The session takes a TRADE (R45). -/
def SessionState.takesTrade (st : SessionState) (outOfSeq : Bool) : Bool :=
  match st with
  | .opened => true
  | .closed => outOfSeq
  | .preOpen | .marketHalt => false

/-- The print of a TRADE to the tape (R47). -/
def printOf (i : Ix) (mode : Mode) (f : TradeFields) (time : Option Tod) : Arrival :=
  .print i mode ⟨f.id, f.price, f.volume⟩ f.opening f.outOfSeq time

/-- A TRADE that is taken (R46, R47). -/
def State.applyTrade (s : State) (i : Ix) (f : TradeFields) : State :=
  let r := s.record i
  let r' := r.trade f s.session.tod
  let t := s.updateRecord i r' (tradeChanged r f) (if f.outOfSeq then none else some r'.tick)
  let t := if f.oddLot then t else t.handAssigned r.tape (printOf i r.mode f (f.time.or s.session.tod))
  if f.outOfSeq then t else t.handWatchCheck i f.price

/-- The checks of a TRADE (R45). -/
def judgeTrade : Judge := fun _ body s =>
  withInstrument body 4 fun i =>
    match tradeFields body with
    | none => .refuse .badField
    | some f =>
      whenDefined s i <|
        if (s.record i).state = .halted then .refuse .halted
        else if s.session.state.takesTrade f.outOfSeq then .apply (s.applyTrade i f)
        else .refuse .wrongSession

/-- TRADE (R45 to R47). -/
def execTrade (h : List HostWrite) (s : State) : Result := postingStep .trade judgeTrade h s

/-! ## Quotes, cancels, summaries (R48 to R50) -/

/-- The bid or ask of a QUOTE: its absence flag decides (R48, R192). -/
def quotePrice (absent : Bool) (hi : Byte) (lo : Word) : Option Price :=
  if absent then none else priceOf24 (hi.toNat * 65536 + lo.toNat)

/-- A QUOTE that is taken (R28, R48). -/
def State.applyQuote (s : State) (i : Ix) (body : Body) : State :=
  s.updateRecord i
    ((s.record i).quote (quotePrice ((body.at 5).bit 8) (body.at 5).low (body.at 6))
      (quotePrice ((body.at 5).bit 9) (body.at 7).low (body.at 8)) (body.at 9) (body.at 10))
    [.bid, .ask, .bidSize, .askSize] none

/-- The checks of a QUOTE (R48). -/
def judgeQuote : Judge := fun _ body s =>
  withInstrument body 4 fun i => whenDefined s i (.apply (s.applyQuote i body))

/-- QUOTE (R48). -/
def execQuote (h : List HostWrite) (s : State) : Result := postingStep .quote judgeQuote h s

/-- A CANCEL that is taken (R30, R31, R50). -/
def State.applyCancel (s : State) (i : Ix) (id : Word) : State :=
  let r := s.record i
  let c := r.cancel id
  let t := if c.2.1 = [] then s else s.updateRecord i c.1 c.2.1 none
  t.handAssigned r.tape (.cancel i id r.mode c.2.2 s.session.tod)

/-- The checks of a CANCEL (R50). -/
def judgeCancel : Judge := fun _ body s =>
  withInstrument body 4 fun i => whenDefined s i (.apply (s.applyCancel i (body.at 5)))

/-- CANCEL (R50). -/
def execCancel (h : List HostWrite) (s : State) : Result := postingStep .cancel judgeCancel h s

/-- A price of a SUMMARY: none when its presence flag is clear (R49). -/
def summaryPrice (body : Body) (j : Nat) : Option (Option Price) :=
  if (body.at 5).bit j then some (priceOfDouble (body.at (6 + 2 * j)) (body.at (7 + 2 * j))) else none

/-- The fields of a SUMMARY (R49, chapter 11). -/
def summaryFields (body : Body) : SummaryFields where
  openPx := summaryPrice body 0
  highPx := summaryPrice body 1
  lowPx := summaryPrice body 2
  prevClose := summaryPrice body 3
  volume := if (body.at 5).bit 4 then some (volumeOfDouble (body.at 14) (body.at 15)) else none

/-- A SUMMARY that is taken (R49). -/
def State.applySummary (s : State) (i : Ix) (f : SummaryFields) : State :=
  if summaryChanged f = [] then s else s.updateRecord i ((s.record i).summary f) (summaryChanged f) none

/-- The checks of a SUMMARY (R49). -/
def judgeSummary : Judge := fun _ body s =>
  withInstrument body 4 fun i =>
    whenDefined s i <|
      if ((s.record i).summary (summaryFields body)).rangeOk then .apply (s.applySummary i (summaryFields body))
      else .refuse .badSummary

/-- SUMMARY (R49). -/
def execSummary (h : List HostWrite) (s : State) : Result := postingStep .summary judgeSummary h s

/-! ## Halts and resumes (R51, R52) -/

/-- A HALT NOTE or RESUME NOTE to the instrument's tape (R51, R52). -/
def State.handNote (s : State) (i : Ix) (resumed : Bool) : State :=
  s.handAssigned (s.record i).tape (.note resumed i (s.record i).mode s.session.tod)

/-- A HALT that is taken (R51). -/
def State.applyHalt (s : State) (i : Ix) (reason : HaltReason) : State :=
  let r := s.record i
  if r.state = .halted then s.updateRecord i (r.halt reason) [.haltReason] none
  else (s.updateRecord i (r.halt reason) [.state, .haltReason] none).handNote i false

/-- The checks of a HALT (R51). -/
def judgeHalt : Judge := fun _ body s =>
  withInstrument body 4 fun i =>
    match haltReasonOf (body.at 5) with
    | none => .refuse .badField
    | some reason => whenDefined s i (.apply (s.applyHalt i reason))

/-- HALT (R51). -/
def execHalt (h : List HostWrite) (s : State) : Result := postingStep .halt judgeHalt h s

/-- A RESUME that is taken: on an ACTIVE instrument it writes nothing (R52). -/
def State.applyResume (s : State) (i : Ix) : State :=
  let r := s.record i
  if r.state = .halted then (s.updateRecord i r.resume [.state, .haltReason] none).handNote i true else s

/-- The checks of a RESUME (R52). -/
def judgeResume : Judge := fun _ body s =>
  withInstrument body 4 fun i => whenDefined s i (.apply (s.applyResume i))

/-- RESUME_POSTING (R52). -/
def execResumePosting (h : List HostWrite) (s : State) : Result := postingStep .resume judgeResume h s

/-! ## DEFINE (R37, R38, R53) -/

/-- The fields of a DEFINE with a symbol length of 1 to 5; none when one is out of its range (R53). -/
def defineFields (body : Body) : Option DefineFields :=
  let n := (body.at 5).toNat
  let symbol := body.chars 6 n
  match modeOf (body.at 9), assignmentOf (body.at 10) with
  | some mode, some tape =>
    if n ≤ 5 ∧ symbol.all symbolChar = true then
      some ⟨symbol, mode, tape, priceOfDouble (body.at 11) (body.at 12)⟩
    else none
  | _, _ => none

/-- The contexts finish the watch checks of earlier trades (log 17). -/
def State.finishChecks (s : State) : State := (List.finRange 16).foldl State.takeChecks s

/-- A DEFINE that redefines (R37). A watch check of an earlier trade shows its price in the mode of that trade, so the checks
are finished first (R1, log 17). -/
def State.applyDefine (s : State) (i : Ix) (f : DefineFields) : State :=
  let s := s.finishChecks
  s.updateRecord i ((s.record i).redefine f) ChangedField.all none

/-- A DEFINE that removes: the contexts first finish their earlier watch checks (log 17) and drop their watches (R38). -/
def State.applyRemove (s : State) (i : Ix) : State :=
  let s := s.finishChecks
  let s := s.withTerms (Bank.mapAll s.terms fun _ x => x.dropWatches i)
  s.updateRecord i (s.record i).remove ChangedField.all none

/-- The checks of a DEFINE (R53). -/
def judgeDefine : Judge := fun _ body s =>
  withInstrument body 4 fun i =>
    if body.at 5 = 0 then .apply (s.applyRemove i)
    else
      match defineFields body with
      | some f => .apply (s.applyDefine i f)
      | none => .refuse .badField

/-- DEFINE (R53). -/
def execDefine (h : List HostWrite) (s : State) : Result := postingStep .define judgeDefine h s

/-! ## SESSION and TAPE TEXT (R54, R55) -/

/-- A SESSION that is taken: the time, then the state (R54, R65). -/
def State.applySession (s : State) (st : SessionState) (time : Option Tod) : State := (s.setTime time).changeSession st

/-- The checks of a SESSION (R54). -/
def judgeSession : Judge := fun _ body s =>
  match sessionOf (body.at 4), timeOfDouble (body.at 5) (body.at 6) with
  | none, _ => .refuse .badField
  | _, .outOfRange => .refuse .badField
  | some st, time => .apply (s.applySession st time.toOption)

/-- SESSION (R54). -/
def execSession (h : List HostWrite) (s : State) : Result := postingStep .session judgeSession h s

/-- The priority of a TAPE TEXT: 0 NORMAL, 1 URGENT (chapter 11). -/
def urgencyOf (b : Byte) : Option Bool :=
  match b.toNat with
  | 0 => some false
  | 1 => some true
  | _ => none

/-- The checks of a TAPE TEXT (R55). -/
def judgeTapeText : Judge := fun _ body s =>
  match textTapesOf (body.at 4).high, urgencyOf (body.at 4).low with
  | some tapes, some urgent =>
    if body.at 5 = 0 then .refuse .badField
    else
      let text := body.chars 6 (min (body.at 5).toNat 20)
      .apply (tapes.foldl (fun t id => t.handTape id (.text text urgent s.session.tod)) s)
  | _, _ => .refuse .badField

/-- TAPE_TEXT (R55). -/
def execTapeText (h : List HostWrite) (s : State) : Result := postingStep .tapeText judgeTapeText h s

/-! ## TERMINAL (R56 to R59) -/

/-- The terminals a TERMINAL names: one of 0 to 15, or ALL (R56, chapter 11). -/
def terminalsOf (b : Byte) : Option (List (Fin 16)) :=
  if b = 0xFF then some (List.finRange 16)
  else if h : b.toNat < 16 then some [⟨b.toNat, h⟩]
  else none

/-- A subcommand handed to each named context, after the watch checks of earlier trades (R56, R43, log 17). -/
def State.command (s : State) (ts : List (Fin 16)) (f : State → Fin 16 → State) : State :=
  ts.foldl (fun s t => f (s.takeChecks t) t) s

/-- A subcommand that has no check of its own. -/
def judgeCommand (f : State → Fin 16 → State) : Judge := fun _ body s =>
  match terminalsOf (body.at 4).high with
  | some ts => .apply (s.command ts f)
  | none => .refuse .badField

/-- The half of a TEXT: 1 FIRST, 2 SECOND (chapter 11). -/
def halfOf (b : Byte) : Option Half :=
  match b.toNat with
  | 1 => some .first
  | 2 => some .second
  | _ => none

/-- The checks of a TEXT (R57). -/
def judgeText : Judge := fun _ body s =>
  match terminalsOf (body.at 4).high, halfOf (body.at 5).high with
  | some ts, some half =>
    let n := (body.at 5).low.toNat
    if 20 < n then .refuse .badField
    else .apply (s.command ts fun s t => s.modifyTerm t (Terminal.setText half (body.chars 6 n)))
  | _, _ => .refuse .badField

/-- TEXT (R57). -/
def execText (h : List HostWrite) (s : State) : Result := postingStep .text judgeText h s

/-- The checks of a SET PAGE; the page count is read from the anchor, and compared as it was read (R58, R176, log 12). The
TAKEN write that follows a refusal meets the bus as this read left it (R164, R171). -/
def judgeSetPage : Judge := fun _ body s =>
  match terminalsOf (body.at 4).high with
  | none => .refuse .badField
  | some ts =>
    match s.bus.read pageCountWord with
    | (b, .word count) =>
      if count.toNat ≤ (body.at 5).toNat then .refuseOn b .badField
      else .apply ((s.withBus b).command ts fun s t => s.modifyTerm t (Terminal.askPage (body.at 5)))
    | (b, _) => .unread b

/-- SET_PAGE (R58). -/
def execSetPage (h : List HostWrite) (s : State) : Result := postingStep .setPage judgeSetPage h s

/-- LOCK (R58, R150). -/
def execLock (h : List HostWrite) (s : State) : Result :=
  postingStep .lock (judgeCommand fun s t => s.modifyTerm t (Terminal.setLock true)) h s

/-- UNLOCK (R58, R150). -/
def execUnlock (h : List HostWrite) (s : State) : Result :=
  postingStep .unlock (judgeCommand fun s t => s.modifyTerm t (Terminal.setLock false)) h s

/-- CLEAR_STACK (R58). -/
def execClearStack (h : List HostWrite) (s : State) : Result :=
  postingStep .clearStack (judgeCommand fun s t => s.modifyTerm t Terminal.clearStack) h s

/-- A SET WATCH for one terminal on a legal instrument (R59). -/
def judgeWatch (body : Body) (s : State) (t : Fin 16) (i : Ix) : Verdict :=
  match priceOfDouble (body.at 6) (body.at 7), directionOf (body.at 8) with
  | some level, some dir =>
    whenDefined s i <|
      if (s.term t).watches.length < Config.watchCapacity then .apply (s.command [t] fun s t => s.addWatch t i level dir)
      else .refuse .badField
  | _, _ => .refuse .badField

/-- The checks of a SET WATCH, in the order of R59. -/
def judgeSetWatch : Judge := fun _ body s =>
  match terminalsOf (body.at 4).high with
  | some [t] => withInstrument body 5 fun i => judgeWatch body s t i
  | _ => .refuse .badField

/-- SET_WATCH (R59). -/
def execSetWatch (h : List HostWrite) (s : State) : Result := postingStep .setWatch judgeSetWatch h s

/-- CLEAR_WATCHES (R59). -/
def execClearWatches (h : List HostWrite) (s : State) : Result :=
  postingStep .clearWatches (judgeCommand State.clearWatches) h s

/-! ## REMAP, SNAPSHOT, MARK (R60 to R62) -/

/-- The lines a REMAP names: one of 0 to 3, or ALL (R60, chapter 11). -/
def remapLines (w : Word) : Option (Fin 4 × List (Fin 4)) :=
  if w = 0x00FF then some (0, [1, 2, 3])
  else if h : w.toNat < 4 then some (⟨w.toNat, h⟩, [])
  else none

/-- The checks of a REMAP (R60). -/
def judgeRemap : Judge := fun _ body s =>
  match remapLines (body.at 4) with
  | some (n, after) => .remap (s.beginLine ⟨n, after, .posting⟩)
  | none => .refuse .badField

/-- REMAP (R60). -/
def execRemap (h : List HostWrite) (s : State) : Result := postingStep .remap judgeRemap h s

/-- The two notices of a SNAPSHOT, from one reading of the record (R61). -/
def snapshotOf (i : Ix) (r : Record) : List NoticeBody :=
  [.snapshotPrices i r.state r.tick r.haltReason r.prevClose r.openPx r.highPx r.lowPx r.lastPx r.printTime,
   .snapshotQuote i r.bidPx r.askPx r.bidSize r.askSize r.volume]

/-- The checks of a SNAPSHOT (R61). -/
def judgeSnapshot : Judge := fun _ body s =>
  withInstrument body 4 fun i => .apply (s.handParts (snapshotOf i (s.record i)))

/-- SNAPSHOT (R61). -/
def execSnapshot (h : List HostWrite) (s : State) : Result := postingStep .snapshot judgeSnapshot h s

/-- A MARK is always taken (R62). -/
def judgeMark : Judge := fun seq body s =>
  .apply (if (body.at 5).bit 0 then s.hand (.markReached (body.at 4) seq) else s)

/-- MARK (R62). -/
def execMark (h : List HostWrite) (s : State) : Result := postingStep .mark judgeMark h s

end Sys2Proof.Machine
end

