-- ==== Sys2Proof/Machine/Control.lean ====
section
/-! DEFINITION. The end of a line's REMAP, the registers, the resets, START and its completion (chapters 05, 09, 10). -/

namespace Sys2Proof.Machine

/-! ## REMAP_LINE_FINISHED (R92, R94) -/

/-- A line's REMAP ends, the next begins, or the REMAP completes; a REMAP posting is then written TAKEN (R60, R92, R94). -/
def State.remapFinished (s : State) : State :=
  match s.fmt.remap with
  | none => s
  | some job =>
    let s := (s.finishLine job).nextLine job
    if job.after = [] ∧ job.cause = .posting ∧ s.intake.state = .applying then s.writeTaken else s

/-- REMAP_LINE_FINISHED (R92). -/
def execRemapLineFinished (h : List HostWrite) (s : State) : Result :=
  let s := s.hostWrites h
  .next (if s.linesWork then s.remapFinished else s)

/-! ## Resets (R178) -/

/-- Every block at its reset values, with a bus interface; the millisecond count and the queue of commands go on. -/
def State.resetWith (s : State) (b : Bus) : State := { State.reset with now := s.now, bus := b, pending := s.pending }

/-- The bus interface after a power-on or pin reset. No reset writes to the common area. -/
def Bus.hardReset (b : Bus) (source : ResetSource) : Bus :=
  { Bus.reset with mem := b.mem, script := b.script, resetSource := source }

/-- The bus interface after SOFT RESET: the area and the vector base are kept. -/
def Bus.softReset (b : Bus) : Bus :=
  { b.hardReset .soft with phase := .ready, area := b.area, vectorBase := b.vectorBase }

/-- POWER_ON_RESET (R178). -/
def execPowerOnReset (s : State) : Result := .next (s.resetWith (s.bus.hardReset .power))

/-- PIN_RESET (R178). -/
def execPinReset (s : State) : Result := .next (s.resetWith (s.bus.hardReset .pin))

/-- SOFT_RESET (R177, R178). -/
def execSoftReset (s : State) : Result := .next (if s.inService then s.resetWith s.bus.softReset else s.refuse)

/-! ## Register writes (R162, R177, R190, R191) -/

/-- The base number is taken and the part becomes READY (R162). -/
def Bus.setArea (w : Word) (b : Bus) : Bus := Bus.settle { b with area := some (w.extractLsb' 0 7), phase := .ready }

/-- AREA_BASE (R162). -/
def execAreaBase (w : Word) (s : State) : Result :=
  .next (s.withBus (if s.bus.area.isSome then s.bus.setError .commandRefused else s.bus.setArea w))

/-- UNKNOWN_COMMAND (R177). -/
def execUnknownCommand (w : Word) (s : State) : Result :=
  if namesNoCommand w then .next s.refuse else .refused .illFormed

/-- ERROR_FLAG_CLEAR (R177). -/
def execErrorFlagClear (w : Word) (s : State) : Result := .next (s.withBus (s.bus.clearErrors w))

/-- The vector base is set (R191). -/
def Bus.setVectorBase (w : Word) (b : Bus) : Bus := Bus.settle { b with vectorBase := some (w.extractLsb' 0 4) }

/-- SET_BASE (R191). -/
def execSetBase (w : Word) (s : State) : Result :=
  if w.bit 15 then .next (s.withBus (s.bus.setVectorBase w)) else .refused .illFormed

/-- One group as the host's acknowledge leaves it, before its mark may make it request again (R191). -/
def Group.acknowledge (g : Group) : Group :=
  match g.state with
  | .idle => g
  | .requesting => { g with state := .idle, marked := false }
  | .inService => { g with state := .idle }

/-- A group is acknowledged; IN SERVICE goes at once to REQUESTING when its mark is set (R188, R191). -/
def Bus.acknowledge (b : Bus) (i : Fin 5) : Bus := Bus.settle { b with groups := Bank.modify b.groups i Group.acknowledge }

/-- The group of a code 1 to 5 (R191). -/
def groupOf (code : Nat) : Option (Fin 5) := if h : 1 ≤ code ∧ code ≤ 5 then some ⟨code - 1, by omega⟩ else none

/-- ACKNOWLEDGE_GROUP (R191). -/
def execAcknowledgeGroup (w : Word) (s : State) : Result :=
  if w.bit 15 then .refused .illFormed
  else
    match groupOf (w.bits 0 4) with
    | some i => .next (s.withBus (s.bus.acknowledge i))
    | none => .next (s.withBus (s.bus.setError .commandRefused))

/-- A group whose vector is supplied becomes IN SERVICE with its mark clear (R190). -/
def Group.serve (g : Group) : Group := { g with state := .inService, marked := false }

/-- The answer to an interrupt acknowledge at a level: the lowest REQUESTING code of the level, or the spurious vector
(R190). -/
def Bus.answer (b : Bus) (level : Fin 8) : Bus :=
  match b.requestingAt level with
  | i :: _ => { b with groups := Bank.modify b.groups i Group.serve, vectorOut := some (b.vector (i.val + 1)) }
  | [] => { b with vectorOut := some (b.vector 0) }

/-- INTERRUPT_ACKNOWLEDGE (R190). -/
def execInterruptAcknowledge (level : Fin 8) (s : State) : Result :=
  if level = 0 then .refused .illFormed else .next (s.withBus (s.bus.answer level))

/-- BUS_TIMEOUT: what the bus will do with the coming attempts of the part's accesses (R164, log 5). -/
def execBusTimeout (attempts : List Attempt) (s : State) : Result :=
  .next (s.withBus { s.bus with script := s.bus.script ++ attempts })

/-! ## Anchor validation (R166, R167) -/

/-- A region of the common area: its first offset and its length in words (R161). -/
structure Region where
  first : Nat
  length : Nat
deriving DecidableEq, Repr

/-- The regions of R161 that have a length, the anchor first. -/
def regionsOf (ws : List Word) : List Region :=
  let at_ (k : Nat) : Nat := (anchorAt ws k).toNat
  [⟨0, 64⟩, ⟨at_ 3, (at_ 2 + 15) / 16⟩, ⟨at_ 1, 16 * at_ 2⟩, ⟨at_ 6, 4096⟩, ⟨at_ 7, 128⟩, ⟨at_ 8, 32 * at_ 9⟩,
    ⟨at_ 10, 64⟩].filter fun r => 0 < r.length

/-- A region has its last word beyond offset 65,535 (R166). -/
def Region.beyond (r : Region) : Bool := decide (65536 < r.first + r.length)

/-- Two regions share a word (R166, log 11). -/
def Region.meets (a b : Region) : Bool := decide (a.first < b.first + b.length ∧ b.first < a.first + a.length)

/-- Some two regions of a list share a word. -/
def anyMeet : List Region → Bool
  | [] => false
  | r :: rs => rs.any r.meets || anyMeet rs

/-- LAYOUT RANGE (R166). -/
def layoutRange (ws : List Word) : Bool :=
  anchorAt ws 0 ≠ 1 || anchorAt ws 2 = 0 || decide (2048 < (anchorAt ws 2).toNat) || decide (256 < (anchorAt ws 9).toNat)
    || (regionsOf ws).tail.any Region.beyond

/-- LAYOUT CONFLICT (R166). -/
def layoutConflict (ws : List Word) : Bool := anyMeet (regionsOf ws)

/-- The tape parameters from word `k` of the anchor break PARAMETER (R166). -/
def badTape (ws : List Word) (k : Nat) : Bool :=
  let at_ (j : Nat) : Nat := (anchorAt ws (k + j)).toNat
  decide (at_ 1 = 0 ∨ at_ 2 ≤ at_ 1 ∨ at_ 3 ≤ at_ 2 ∨ 256 < at_ 3 ∨ at_ 1 ≤ at_ 4 ∨ at_ 2 ≤ at_ 5 ∨ at_ 3 ≤ at_ 6)

/-- The first words of the two tapes' parameters in the anchor. -/
def tapeWord : TapeId → Nat
  | .a => 18
  | .b => 26

/-- A value taken into its range (R167). -/
def clampTo (lo hi n : Nat) : Nat := max lo (min hi n)

/-- T1 as START takes it (R167). -/
def clampedT1 (ws : List Word) : Nat := clampTo 2 60 (anchorAt ws 14).toNat

/-- The parameters as START takes them (R163, R167). -/
def paramsOf (ws : List Word) : Params where
  poolOffset := anchorAt ws 1
  cellCount := (anchorAt ws 2).toNat
  bitmapOffset := anchorAt ws 3
  postingStart := (anchorAt ws 4).toNat
  noticeStart := (anchorAt ws 5).toNat
  boardMap := anchorAt ws 6
  formatTable := anchorAt ws 7
  keyTable := anchorAt ws 10
  feedPoll := clampTo 1 50 (anchorAt ws 13).toNat
  t1 := clampedT1 ws
  t2 := clampTo (clampedT1 ws + 1) 600 (anchorAt ws 15).toNat
  highlight := clampTo 1 15 (anchorAt ws 16).toNat
  nightDelay := clampTo 0 255 (anchorAt ws 17).toNat

/-- A tape unit as START leaves it (R112, R167). -/
def tapeOf (ws : List Word) (k : Nat) : Tape :=
  let at_ (j : Nat) : Nat := (anchorAt ws (k + j)).toNat
  { Tape.reset with
    rate := clampTo 4 24 (at_ 0), e1 := at_ 1, e2 := at_ 2, e3 := at_ 3, x1 := at_ 4, x2 := at_ 5, x3 := at_ 6,
    block := clampTo 10 999 (at_ 7) }

/-- The level of a group in word 11 (chapter 11). -/
def levelOf (w : Word) (i : Fin 5) : Fin 8 := ⟨w.bits (3 * i.val) 3, Nat.mod_lt _ (by decide)⟩

/-- The group levels are taken, and marked groups may request (R180, R188). -/
def Bus.takeLevels (w : Word) (b : Bus) : Bus :=
  Bus.settle { b with groups := Bank.mapAll b.groups fun i g => { g with level := levelOf w i } }

/-- The host words of the anchor: the group levels first, then words 0 to 10 and 12 to 37 (R163, R180, log 11). -/
def Bus.readAnchor (b : Bus) : Bus × Option (List Word) :=
  match b.read 11 with
  | (b, .word levels) =>
    match (b.takeLevels levels).readAll (((List.range 11) ++ (List.range 26).map (12 + ·)).map (word ·)) with
    | (b, .words ws) => (b, some (ws.take 11 ++ levels :: ws.drop 11))
    | (b, _) => (b, none)
  | (b, _) => (b, none)

/-- Flags set in order. -/
def Bus.setErrors (fs : List ErrorFlag) (b : Bus) : Bus := fs.foldl (fun b f => b.setError f) b

/-- The flags of the checks that need neither bitmap nor pool (R166). -/
def layoutFlags (ws : List Word) : List ErrorFlag :=
  (if layoutRange ws then [.layoutRange] else []) ++ (if layoutConflict ws then [.layoutConflict] else [])

/-- PARAMETER (R166). -/
def parameterFlags (ws : List Word) : List ErrorFlag :=
  if badTape ws (tapeWord .a) || badTape ws (tapeWord .b) then [.parameter] else []

/-- The START CELL check of some cells: none when a read failed, else whether every cell is below the cell count with its
bit set (R166). The bitmap word of a cell out of range is not read, and a read that fails stops validation with START CELL not
set, whatever the other cell showed (DESIGN CHOICE, log 39). -/
def Bus.startCells (p : Params) : List Nat → Bus → Bus × Option Bool
  | [], b => (b, some true)
  | c :: cs, b =>
    if p.cellCount ≤ c then
      match Bus.startCells p cs b with
      | (b, some _) => (b, some false)
      | r => r
    else
      match b.read (p.bitmapWord c) with
      | (b, .word w) =>
        match Bus.startCells p cs b with
        | (b, some ok) => (b, some (ok && cellUsed w c))
        | r => r
      | (b, _) => (b, none)

/-- Anchor validation: the anchor's words when every check has passed (R166). -/
def Bus.validate (b : Bus) : Bus × Option (List Word) :=
  match b.readAnchor with
  | (b, none) => (b, none)
  | (b, some ws) =>
    let b := b.setErrors (layoutFlags ws ++ parameterFlags ws)
    if layoutFlags ws ≠ [] then (b, none)
    else
      match b.startCells (paramsOf ws) [(paramsOf ws).postingStart, (paramsOf ws).noticeStart] with
      | (b, none) => (b, none)
      | (b, some ok) =>
        if ok && (paramsOf ws).postingStart ≠ (paramsOf ws).noticeStart then
          (b, if parameterFlags ws = [] then some ws else none)
        else (b.setError .startCell, none)

/-! ## START (R163, R166, R168) -/

/-- The initial values of the status words; LAST SEQUENCE is left as it stands (R163). -/
def initialStatus (p : Params) : List (StatusWord × Word) :=
  [(.postingsTaken, 0), (.currentCell, word p.postingStart), (.noticeCount, 0), (.noticesLost, 0),
    (.noticeRestart, Config.endLink), (.restartCount, 0)]

/-- The status words get their initial values (R163, R168). -/
def Bus.writeInitial (p : Params) (b : Bus) : Bus := (initialStatus p).foldl (fun b e => b.writeStatus e.1 e.2) b

/-- START makes every tape reference absent (R34, R36). -/
def clearRefs (store : List (Nat × Record)) : List (Nat × Record) :=
  store.foldl (fun m e => Sparse.set Record.reset m e.1 { e.2 with tapeRef := none }) []

/-- A terminal context as START leaves it (R134, R143). -/
def Terminal.atStart : Terminal := { Terminal.reset with poll := .due }

/-- The blocks as START leaves them before the REMAP of all lines (R44, R64, R96, R112, R134, R135, R163). -/
def State.loadAnchor (s : State) (ws : List Word) : State :=
  { s with
    params := paramsOf ws
    intake := { s.intake with lastSeq := none, postingsTaken := 0 }
    store := clearRefs s.store
    session := { s.session with state := (sessionOf (anchorAt ws 12)).getD .closed }
    lines := Bank.tabulate fun n => { BoardLine.reset with priority := min 32 (anchorAt ws (34 + n.val)).toNat }
    tapes := Bank.tabulate fun i => tapeOf ws (if i = 0 then tapeWord .a else tapeWord .b)
    tlines := Vector.replicate 2 TermLine.reset
    terms := Vector.replicate 16 Terminal.atStart
    notices := { s.notices with count := 0, lost := 0, restarts := 0 } }

/-- START goes on after validation: status words, parameters, session, and the REMAP of all lines begins (R168). -/
def State.startOn (s : State) (ws : List Word) : State :=
  ((s.withBus (s.bus.writeInitial (paramsOf ws))).loadAnchor ws).beginLine ⟨0, [1, 2, 3], .start⟩

/-- START fails: the part is READY again (R166). -/
def State.startFailed (s : State) : State :=
  (s.withBus { s.bus with phase := .ready }).modifyIntake fun x => { x with nudged := false }

/-- START from READY (R166, R168). -/
def State.start (s : State) : State :=
  match ({ s.bus.acceptCommand with phase := .checking } : Bus).validate with
  | (b, some ws) => (s.withBus b).startOn ws
  | (b, none) => (s.withBus b).startFailed

/-- START (R166, R177). -/
def execStart (h : List HostWrite) (s : State) : Result :=
  let s := s.hostWrites h
  .next (if s.bus.phase = .ready then s.start else s.refuse)

/-! ## START's completion (R111, R143, R168, R181) -/

/-- All six lines have reported their first polls complete, and START DONE has not been taken in hand (R168). -/
def State.startReady (s : State) : Bool :=
  s.bus.phase = .checking && s.fmt.remap.isNone && Bank.all s.lines (fun _ l => l.pollsComplete)
    && (List.finRange 2).all (fun l => s.termPollsComplete l) && !s.notices.startDone

/-- The number of board modules LIVE (R179). -/
def State.modulesLive (s : State) : Nat :=
  s.lines.toList.foldl (fun n l => n + l.modules.toList.countP Module.isLive) 0

/-- The number of terminals ONLINE (R179). -/
def State.terminalsOnline (s : State) : Nat := s.terms.toList.countP fun x => x.state = .online

/-- START DONE is taken in hand and written (R180, R181). -/
def State.writeStartDone (s : State) : State :=
  (s.modifyUnit fun u =>
    { u with
      startDone := true
      inHand := some ⟨⟨[.startDone s.bus.resetSource s.modulesLive s.terminalsOnline], s.session.tod, 0⟩, [], false⟩ }).runUnit

/-- The session unit at START's completion: the feed timer starts, and the night timer in CLOSED (R64, R68). -/
def State.startTimers (s : State) : State :=
  let s := s.withSession { s.session with feedTimer := some 0 }
  if s.session.state = .closed then s.enterClosed else s

/-- The notices held by the formatter, the board lines and the terminal lines, in that order (R94, R111, R143). -/
def State.heldNotices (s : State) : List NoticeBody :=
  s.fmt.held ++ s.lines.toList.flatMap BoardLine.held
    ++ (List.finRange 16).flatMap fun t =>
      ((s.tlines.toList.flatMap TermLine.held).filter fun u => u = t).map NoticeBody.terminalOnline

/-- The holders have handed their notices on. -/
def State.dropHeld (s : State) : State :=
  ((s.withFmt { s.fmt with held := [] }).withLines (Bank.mapAll s.lines fun _ l => { l with held := [] })).withTlines
    (Bank.mapAll s.tlines fun _ l => { l with held := [] })

/-- START is complete (R168): the part is RUNNING, intake WAITING at POSTING START, the ticks, timers and ribbons start, the
held notices are handed on, and a remembered NUDGE starts the first look (R174). No rule says whether the held notices or that look
comes first: a CHAIN BROKEN of the look stands behind them (DESIGN CHOICE, log 46). -/
def State.completeStart (s : State) : State :=
  let nudged := s.intake.nudged
  let s := s.withBus (Bus.settle { s.bus with phase := .running })
  let s := s.modifyIntake fun x =>
    { x with
      state := .waiting, current := some s.params.postingStart, taken := false, nudged := false
      feedTick := some (s.now + s.params.feedPoll) }
  let s := s.startTimers.withTapes (Bank.mapAll s.tapes fun _ x => { x with ribbonStart := some s.now, ribbonNext := 0 })
  let s := s.dropHeld.handAll s.heldNotices
  if nudged then s.look else s

/-- START_DONE (R168, R181). -/
def execStartDone (h : List HostWrite) (s : State) : Result :=
  let s := s.hostWrites h
  .next (if s.startReady then s.writeStartDone.completeStart else s)

end Sys2Proof.Machine
end

