-- ==== Sys2Proof/Machine/Clock.lean ====
section
/-! DEFINITION. The part left to itself (log 1): which of its own steps is due, and one millisecond of its clock. -/

namespace Sys2Proof.Machine

/-- A running timer after one millisecond. -/
def tickTimer (t : Option Nat) : Option Nat := t.map (· + 1)

/-- The session unit after one millisecond in service (R63, R68, R70, R71). -/
def SessionUnit.tick (x : SessionUnit) : SessionUnit :=
  { x with
    nightTimer := tickTimer x.nightTimer
    feedTimer := tickTimer x.feedTimer
    fraction := if x.tod.isSome then x.fraction + 1 else x.fraction }

/-- One millisecond of the part's clock (00_scope; R63, R89). -/
def State.tickMs (s : State) : State :=
  let t := { s with now := s.now + 1 }
  if s.inService then t.withSession s.session.tick else t

/-! ## What is due -/

/-- The command of a posting row. -/
def Row.command : Row → Instr
  | .trade => .trade []
  | .quote => .quote []
  | .cancel => .cancel []
  | .summary => .summary []
  | .halt => .halt []
  | .resume => .resumePosting []
  | .define => .define []
  | .session => .session []
  | .tapeText => .tapeText []
  | .text => .text []
  | .setPage => .setPage []
  | .lock => .lock []
  | .unlock => .unlock []
  | .clearStack => .clearStack []
  | .setWatch => .setWatch []
  | .clearWatches => .clearWatches []
  | .remap => .remap []
  | .snapshot => .snapshot []
  | .mark => .mark []

/-- The row a posting of a bad kind is refused under (log 26). -/
def Named.rowOr (n : Named) : Row :=
  match n with
  | .row r => r
  | .badKind | .badSubcommand => .mark

/-- A step of intake is due: the posting in hand, or a feed poll tick. -/
def State.intakeDue (s : State) : Option Instr :=
  match s.inHand with
  | some c => some (s.namedAt c).rowOr.command
  | none => if s.tickDue then some (.feedPollTick [] false) else none

/-- A timer of the session unit is due. -/
def State.sessionDue (s : State) : Option Instr :=
  if s.timeDue then some .timeOfDayAdvance
  else if s.nightDue then some .nightTimer
  else if s.quietDue then some .feedQuiet
  else if s.lostDue then some .feedLost
  else none

/-- A step of the board formatter is due. -/
def State.formatterDue (s : State) : Option Instr :=
  if !s.fmt.changes.isEmpty then some (.changeEvent [])
  else if !s.fmt.sessionEvents.isEmpty then some (.sessionEvent [])
  else if !s.fmt.stageEvents.isEmpty then some .feedStageEvent
  else if s.highlightDue then some (.highlightExpiry [])
  else if s.fmt.remap.isSome then some (.remapLineFinished [])
  else none

/-- A step of a board line controller is due, but for the ends of sending and the replies, which come from the line. -/
def State.lineDue (s : State) (n : Fin 4) : Option Instr :=
  match (s.line n).nights with
  | true :: _ => some (.nightSet n)
  | false :: _ => some (.nightClear n)
  | [] =>
    match (List.finRange 32).find? fun m => ((s.line n).module m).poll.reached s.now with
    | some m => some (.pollTimer n m)
    | none =>
      if (s.windowOver n).isSome then some (.replyWindow n)
      else if (s.nextFrame n).isSome then some (.chooseNextFrame n)
      else none

/-- The step of the first arrival at a tape unit. -/
def arrivalCommand (id : TapeId) : Arrival → Instr
  | .print .. => .printArrival id
  | .cancel .. => .cancelArrival id
  | .note .. => .noteArrival id
  | .text .. => .textArrival id .intake

/-- A step of a tape unit is due. -/
def State.tapeDue (s : State) (id : TapeId) : Option Instr :=
  match (s.tape id).inbox with
  | a :: _ => some (arrivalCommand id a)
  | [] =>
    if !(s.tape id).watchInbox.isEmpty then some (.textArrival id .feedWatch)
    else if s.rendererReady id then some (.renderEntry id)
    else if s.ribbonDue id then some (.ribbonCharacter id)
    else none

/-- The step of the first event of the session unit at a terminal context. -/
def eventCommand (t : Fin 16) : TermEvent → Instr
  | .session _ => .terminalSessionEvent t
  | .feedStage _ => .terminalFeedStageEvent t
  | .time => .timeEvent t
  | .night true => .terminalNightSet t
  | .night false => .terminalNightClear t

/-- The end of the work in hand, or the poll timer, of a terminal context is due. -/
def State.workDue (s : State) (t : Fin 16) : Option Instr :=
  match (s.term t).work with
  | .keyDispatch _ => some (.keyEntryRead t [])
  | .pageLoad _ _ => some (.pageLoadComplete t [])
  | .none => if (s.term t).poll.reached s.now then some (.terminalPollTimer t) else none

/-- A step of a terminal context is due. -/
def State.termDue (s : State) (t : Fin 16) : Option Instr :=
  if !(s.term t).changes.isEmpty then some (.terminalChangeEvent t)
  else
    match (s.term t).events with
    | e :: _ => some (eventCommand t e)
    | [] => if !(s.term t).checks.isEmpty then some (.watchCheck t) else s.workDue t

/-- A step of a terminal line controller is due, but for the ends of sending and the replies. -/
def State.tlineDue (s : State) (l : Fin 2) : Option Instr :=
  if (s.pollWindowOver l).isSome then some (.pollReplyWindow l)
  else if (s.nextVisit l).isSome then some (.visit l)
  else none

/-- A step of the notice unit is due. -/
def State.noticesDue (s : State) : Option Instr :=
  if !s.notices.inbox.isEmpty then some (.notice [])
  else if s.startReady then some (.startDone [])
  else none

/-- The first of the part's own steps that is due. What is handed over comes before what begins anew; where two blocks have
steps due, no rule gives an order, and this is the model's (log 1). -/
def State.due (s : State) : Option Instr :=
  if s.linesWork then
    s.noticesDue <|> s.formatterDue <|> (List.finRange 4).findSome? s.lineDue
      <|> [TapeId.a, TapeId.b].findSome? s.tapeDue <|> (List.finRange 16).findSome? s.termDue
      <|> (List.finRange 2).findSome? s.tlineDue <|> s.sessionDue <|> s.intakeDue
  else none

end Sys2Proof.Machine
end

