-- ==== Sys2Proof/Machine/Dispatch.lean ====
section
/-! DEFINITION. One arm per command: the meaning of each row of the table. -/

namespace Sys2Proof.Machine

/-- A command's effect on everything but the queue. -/
def exec (i : Instr) (s : State) : Host.Outcome State Fault Refusal :=
  match i with
  | .powerOnReset => Sys2Proof.Machine.execPowerOnReset s
  | .pinReset => Sys2Proof.Machine.execPinReset s
  | .softReset => Sys2Proof.Machine.execSoftReset s
  | .areaBase w => Sys2Proof.Machine.execAreaBase w s
  | .start h => Sys2Proof.Machine.execStart h s
  | .nudge h => Sys2Proof.Machine.execNudge h s
  | .quiesce => Sys2Proof.Machine.execQuiesce s
  | .resume h => Sys2Proof.Machine.execResume h s
  | .restartIntake h => Sys2Proof.Machine.execRestartIntake h s
  | .unknownCommand w => Sys2Proof.Machine.execUnknownCommand w s
  | .errorFlagClear w => Sys2Proof.Machine.execErrorFlagClear w s
  | .setBase w => Sys2Proof.Machine.execSetBase w s
  | .acknowledgeGroup w => Sys2Proof.Machine.execAcknowledgeGroup w s
  | .interruptAcknowledge level => Sys2Proof.Machine.execInterruptAcknowledge level s
  | .busTimeout attempts => Sys2Proof.Machine.execBusTimeout attempts s
  | .feedPollTick h noticeFirst => Sys2Proof.Machine.execFeedPollTick h noticeFirst s
  | .trade h => Sys2Proof.Machine.execTrade h s
  | .quote h => Sys2Proof.Machine.execQuote h s
  | .cancel h => Sys2Proof.Machine.execCancel h s
  | .summary h => Sys2Proof.Machine.execSummary h s
  | .halt h => Sys2Proof.Machine.execHalt h s
  | .resumePosting h => Sys2Proof.Machine.execResumePosting h s
  | .define h => Sys2Proof.Machine.execDefine h s
  | .session h => Sys2Proof.Machine.execSession h s
  | .tapeText h => Sys2Proof.Machine.execTapeText h s
  | .text h => Sys2Proof.Machine.execText h s
  | .setPage h => Sys2Proof.Machine.execSetPage h s
  | .lock h => Sys2Proof.Machine.execLock h s
  | .unlock h => Sys2Proof.Machine.execUnlock h s
  | .clearStack h => Sys2Proof.Machine.execClearStack h s
  | .setWatch h => Sys2Proof.Machine.execSetWatch h s
  | .clearWatches h => Sys2Proof.Machine.execClearWatches h s
  | .remap h => Sys2Proof.Machine.execRemap h s
  | .remapLineFinished h => Sys2Proof.Machine.execRemapLineFinished h s
  | .snapshot h => Sys2Proof.Machine.execSnapshot h s
  | .mark h => Sys2Proof.Machine.execMark h s
  | .timeOfDayAdvance => Sys2Proof.Machine.execTimeOfDayAdvance s
  | .nightTimer => Sys2Proof.Machine.execNightTimer s
  | .feedQuiet => Sys2Proof.Machine.execFeedQuiet s
  | .feedLost => Sys2Proof.Machine.execFeedLost s
  | .changeEvent h => Sys2Proof.Machine.execChangeEvent h s
  | .sessionEvent h => Sys2Proof.Machine.execSessionEvent h s
  | .feedStageEvent => Sys2Proof.Machine.execFeedStageEvent s
  | .highlightExpiry h => Sys2Proof.Machine.execHighlightExpiry h s
  | .nightSet line => Sys2Proof.Machine.execNightSet line s
  | .nightClear line => Sys2Proof.Machine.execNightClear line s
  | .chooseNextFrame line => Sys2Proof.Machine.execChooseNextFrame line s
  | .boardFrameSent line => Sys2Proof.Machine.execBoardFrameSent line s
  | .accept line address check => Sys2Proof.Machine.execAccept line address check s
  | .reject line address check => Sys2Proof.Machine.execReject line address check s
  | .statusReply line address width check => Sys2Proof.Machine.execStatusReply line address width check s
  | .replyWindow line => Sys2Proof.Machine.execReplyWindow line s
  | .pollTimer line m => Sys2Proof.Machine.execPollTimer line m s
  | .printArrival tape => Sys2Proof.Machine.execPrintArrival tape s
  | .cancelArrival tape => Sys2Proof.Machine.execCancelArrival tape s
  | .noteArrival tape => Sys2Proof.Machine.execNoteArrival tape s
  | .textArrival tape supplier => Sys2Proof.Machine.execTextArrival tape supplier s
  | .renderEntry tape => Sys2Proof.Machine.execRenderEntry tape s
  | .ribbonCharacter tape => Sys2Proof.Machine.execRibbonCharacter tape s
  | .terminalChangeEvent t => Sys2Proof.Machine.execTerminalChangeEvent t s
  | .terminalSessionEvent t => Sys2Proof.Machine.execTerminalSessionEvent t s
  | .terminalFeedStageEvent t => Sys2Proof.Machine.execTerminalFeedStageEvent t s
  | .timeEvent t => Sys2Proof.Machine.execTimeEvent t s
  | .terminalNightSet t => Sys2Proof.Machine.execTerminalNightSet t s
  | .terminalNightClear t => Sys2Proof.Machine.execTerminalNightClear t s
  | .watchCheck t => Sys2Proof.Machine.execWatchCheck t s
  | .visit line => Sys2Proof.Machine.execVisit line s
  | .terminalFrameSent line => Sys2Proof.Machine.execTerminalFrameSent line s
  | .key line address keyByte check => Sys2Proof.Machine.execKey line address keyByte check s
  | .idle line address check => Sys2Proof.Machine.execIdle line address check s
  | .pollReplyWindow line => Sys2Proof.Machine.execPollReplyWindow line s
  | .terminalPollTimer t => Sys2Proof.Machine.execTerminalPollTimer t s
  | .pageLoadComplete t h => Sys2Proof.Machine.execPageLoadComplete t h s
  | .startDone h => Sys2Proof.Machine.execStartDone h s
  | .notice h => Sys2Proof.Machine.execNotice h s
  | .keyEntryRead t h => Sys2Proof.Machine.execKeyEntryRead t h s

end Sys2Proof.Machine
end

