-- ==== Sys2Proof/Machine/Step.lean ====
section
/-! DEFINITION. One step: the command at the front of the queue, or the part left to itself. -/

namespace Sys2Proof.Machine

/-- The part left to itself: its first due step, or one millisecond (log 1). -/
def State.idle (s : State) : Host.Outcome State Fault Refusal :=
  match s.due with
  | some c => Sys2Proof.Machine.exec c s
  | none => .next s.tickMs

/-- One step of the machine. -/
def step (s : State) : Host.Outcome State Fault Refusal :=
  match s.pending with
  | c :: rest => Sys2Proof.Machine.exec c (s.withPending rest)
  | [] => s.idle

/-- `s` with the command that a table word spells at the front of its queue; no word spells one (log 28). -/
def State.withFetchWord (s : State) (nbits w : Nat) : State :=
  match decodeTableWord nbits w with
  | some c => s.withPending (c :: s.pending)
  | none => s

end Sys2Proof.Machine
end

