-- ==== Sys2Proof/Safety.lean ====
section
/-! DEFINITION. What claims about the part are said in: which bytes of host memory a step may change, what a posting in hand
is and what its TAKEN write leaves, and the invariants of the state. -/

namespace Sys2Proof.Machine

/-! ## Host memory -/

/-- Host memory reads the same at every byte but those of the words at some offsets, and the area stands where it stood. -/
def Bus.onlyWrites (offsets : Word → Prop) (b b' : Bus) : Prop :=
  b'.area = b.area ∧
    ∀ a, (∀ o, offsets o → a ≠ b.address o ∧ a ≠ b.address o + 1) → Memory.readByte b'.mem a = Memory.readByte b.mem a

/-- Host memory reads the same at every byte. -/
def Bus.writesNothing (b b' : Bus) : Prop := b.onlyWrites (fun _ => False) b'

/-- A word of the bitmap region: the bitmap word of a cell below the cell count (R161). -/
def Params.isBitmapWord (p : Params) (o : Word) : Prop := ∃ k, k < p.cellCount ∧ o = p.bitmapWord k

/-- The words of the common area that a look of intake may write: CURRENT POSTING CELL and bitmap words (R163, R172). -/
def Params.lookWords (p : Params) (o : Word) : Prop := o = StatusWord.currentCell.offset ∨ p.isBitmapWord o

/-- The words of the common area that the end of a posting in cell `c` may write: the cell's state word, POSTINGS TAKEN,
LAST SEQUENCE, and what a look may write (R43, R171). -/
def Params.takenWords (p : Params) (c : Nat) (o : Word) : Prop :=
  o = p.cellWord c 0 ∨ o = StatusWord.postingsTaken.offset ∨ o = StatusWord.lastSequence.offset ∨ p.lookWords o

/-- The bus interface differs at most in host memory, the attempts still to come, the ERROR flags and the groups. -/
def Bus.accessed (b b' : Bus) : Prop :=
  b' = { b with mem := b'.mem, script := b'.script, error := b'.error, groups := b'.groups }

/-- No ERROR flag but those of a list has changed. -/
def Bus.keepsErrors (fs : List ErrorFlag) (b b' : Bus) : Prop := ∀ f, f ∉ fs → b'.hasError f = b.hasError f

/-! ## Accesses that fail (R164, R165) -/

/-- The state whose bus will meet these attempts first, and complete every one after them. -/
def State.meeting (s : State) (attempts : List Attempt) : State := { s with bus := { s.bus with script := attempts } }

/-- The flag that the second attempt of an access sets, when the first did not succeed: none when it completes. -/
def failureFlag : Attempt → Option ErrorFlag
  | .completes => none
  | .timesOut _ => some .busTimeout
  | .faults _ => some .parity

/-- Two attempts of one access that end it with a flag: the first does not succeed, and the second sets the flag. -/
def FailsWith (x y : Attempt) (f : ErrorFlag) : Prop := x ≠ .completes ∧ failureFlag y = some f

/-- A flag set, and nothing else but the mark of SYSTEM with it. -/
def State.flagged (s : State) (f : ErrorFlag) : State := { s with bus := s.bus.setError f }

/-- The bus after an attempt that was to leave a word written: it is written where a time-out came after it (R163, R165). -/
def Bus.afterAttempt (o w : Word) (b : Bus) : Attempt → Bus
  | .timesOut reached => b.pokeIf reached o w
  | _ => b

/-- The TAKEN write of the posting in cell `c` has ended in a second time-out: BUS TIMEOUT is set, and the write is owed (R164,
R171). -/
def State.owes (s : State) (c : Nat) (x y : Bool) : State :=
  { s with
    bus := ((s.bus.pokeIf x (s.params.cellWord c 0) stateTaken).pokeIf y (s.params.cellWord c 0) stateTaken).setError .busTimeout
    intake := { s.intake with state := .taking, owed := true } }

/-! ## Intake -/

/-- Intake's current cell, where it has one, is a cell of the pool (R166, R172, R175). -/
def State.AtCell (s : State) : Prop := ∀ c, s.intake.current = some c → c < s.params.cellCount

/-- What a look, with the link steps in it, may change: the bus interface, intake's state, current cell, taken mark and
quiesce-pending mark, and the CHAIN BROKEN notice handed on; a cell it moves to is one of the pool (R170, R172, R173). -/
structure Looked (s t : State) : Prop where
  rest : t = { s with bus := t.bus, intake := t.intake, notices := { s.notices with inbox := t.notices.inbox } }
  intake : t.intake = { s.intake with state := t.intake.state, current := t.intake.current, taken := t.intake.taken,
                                      quiescePending := t.intake.quiescePending }
  inbox : ∃ l, t.notices.inbox = s.notices.inbox ++ l
  bus : s.bus.accessed t.bus
  memory : s.bus.onlyWrites s.params.lookWords t.bus
  cell : s.AtCell → t.AtCell

/-- A word of the posting cell `c`: 2 the sequence, 3 the kind, 4 and on the body (chapter 11). -/
def State.posted (s : State) (c k : Nat) : Word := s.bus.peek (s.params.cellWord c k)

/-- Intake is TAKING the posting in cell `c` of the pool, whose kind and subcommand name `n`; it is no DUPLICATE and has not been
applied yet, and the bus completes every access. -/
structure State.Holds (s : State) (n : Named) (c : Nat) : Prop where
  service : s.inService = true
  taking : s.intake.state = .taking
  owed : s.intake.owed = false
  current : s.intake.current = some c
  cell : c < s.params.cellCount
  quiet : s.bus.script = []
  named : s.namedAt c = n
  fresh : s.intake.lastSeq ≠ some (s.posted c 2)

/-- The SEQUENCE GAP notice of a sequence that does not follow the last one (R44). -/
def gapNotice (last : Option Word) (seq : Word) : List NoticeBody :=
  match last with
  | some v => if seq = v + 1 then [] else [.sequenceGap (v + 1) seq]
  | none => []

/-- Notices handed on now: each with the time of day (R179). -/
def State.items (s : State) (ns : List NoticeBody) : List Item := ns.map fun n => ⟨[n], s.session.tod, 0⟩

/-- The state with notices handed on. -/
def State.handed (s : State) (ns : List NoticeBody) : State :=
  { s with notices := { s.notices with inbox := s.notices.inbox ++ s.items ns } }

/-- The state after the sequence check of the posting in cell `c` (R44). -/
def State.received (s : State) (c : Nat) : State :=
  { s with
    intake := { s.intake with seqInHand := s.posted c 2, lastSeq := some (s.posted c 2) }
    notices := { s.notices with inbox := s.notices.inbox ++ s.items (gapNotice s.intake.lastSeq (s.posted c 2)) } }

/-- A FEED RESUMED notice, when the stage is not LIVE (R74). -/
def State.resumedNotice (s : State) (seq : Option Word) : List NoticeBody :=
  if s.session.stage = .live then [] else [.feedResumed (min (s.session.feedTimer.getD 0 / 1000) 65535) seq]

/-! ## Looks, case by case (R170, R172, R173) -/

/-- CHAIN BROKEN: the flag, the notice, and intake STOPPED with its current cell and taken mark kept (R173). -/
def BrokenTo (a t : State) (c : Nat) (read : Option Word) (reason : BreakReason) : Prop :=
  t = { a with
    bus := a.bus.setError .chainBroken
    intake := { a.intake with state := .stopped, quiescePending := false }
    notices := { a.notices with inbox := a.notices.inbox ++ a.items [.chainBroken .posting c read reason] } }

/-- A look at a state word that does not read TAKEN (R170). -/
def StateWordLook (a t : State) (c : Nat) : Prop :=
  if a.posted c 0 = stateEmpty then t = a
  else if a.posted c 0 = stateFilled then t = { a with intake := { a.intake with state := .taking } }
  else a.posted c 0 ≠ stateTaken → BrokenTo a t c (some (a.posted c 0)) .badState

/-- The move to a successor: the cell left is freed and no other bit of its bitmap word changes, the successor is the current
cell, and CURRENT POSTING CELL names it (R165, R172). -/
def State.movedTo (a : State) (c d : Nat) : State :=
  { a with
    bus := (a.bus.poke (a.params.bitmapWord c)
      (a.bus.peek (a.params.bitmapWord c) &&& ~~~(BitVec.twoPow 16 (c % 16)))).poke 50 (word d)
    intake := { a.intake with current := some d, taken := false } }

/-- A look at a link (R172). Nothing is said of a successor whose state word reads TAKEN: the look goes on from it. -/
def LinkLook (a t : State) (c : Nat) : Prop :=
  let link := a.posted c 1
  if link = Config.endLink then t = a
  else if a.params.cellCount ≤ link.toNat then BrokenTo a t c (some link) .linkRange
  else if link.toNat = c then BrokenTo a t c (some link) .linkSelf
  else if (a.bus.peek (a.params.bitmapWord link.toNat)).getLsbD (link.toNat % 16) = false then
    BrokenTo a t c (some link) .linkUnallocated
  else (a.movedTo c link.toNat).posted link.toNat 0 ≠ stateTaken → StateWordLook (a.movedTo c link.toNat) t link.toNat

/-- A look of intake at its current cell, with the link step that follows a state word TAKEN (R169, R170, R172). -/
def LookOutcome (a t : State) : Prop :=
  match a.intake.current with
  | none => t = a
  | some c =>
    if a.intake.taken = true then LinkLook a t c
    else if a.posted c 0 = stateTaken then LinkLook { a with intake := { a.intake with taken := true } } t c
    else StateWordLook a t c

/-! ## A posting written TAKEN (R43, R171, R174, R175) -/

/-- A RESTART INTAKE acts (R175): the cell that POSTING START names becomes the current cell, with the last sequence absent, when it
is below the cell count, its bit is set and it is not the notice tail; intake is QUIESCED where it was, or where a quiesce was
pending, and looks else. START CELL is set and intake STOPPED when the cell is not accepted; that the last sequence stays then is
log 47, and that the bitmap word of a cell out of range is read is log 48. -/
def RestartOutcome (a t : State) : Prop :=
  let c := (a.bus.peek 4).toNat
  let cell : State :=
    { a with
      bus := a.bus.poke 50 (word c)
      intake := { a.intake with
        current := some c, taken := false, lastSeq := none, quiescePending := false, restartPending := false } }
  let waits : State := { cell with intake := { cell.intake with state := .waiting } }
  if a.params.cellCount ≤ c ∨ (a.bus.peek (a.params.bitmapWord c)).getLsbD (c % 16) = false ∨ a.notices.tail = some c then
    t = { a.flagged .startCell with
      intake := { a.intake with state := .stopped, quiescePending := false, restartPending := false } }
  else if a.intake.state = .quiesced ∨ a.intake.quiescePending = true then
    t = { cell with intake := { cell.intake with state := .quiesced } }
  else Looked waits t ∧ LookOutcome waits t

/-- The bus interface once the state word TAKEN, POSTINGS TAKEN and, where a last sequence is present, LAST SEQUENCE are written
(R43, R163, R171). -/
def State.countedBus (s : State) (c : Nat) : Bus :=
  let b := (s.bus.poke (s.params.cellWord c 0) stateTaken).poke 48 (s.intake.postingsTaken + 1)
  match s.intake.lastSeq with
  | some v => b.poke 49 v
  | none => b

/-- The posting in cell `c` counts as taken, and nothing that follows has come yet: the words of R43, the taken mark, and the signal
to the feed watch (R43, R71, R74, R171). -/
structure Counted (c : Nat) (s m : State) : Prop where
  rest : m = { s with
    bus := s.countedBus c
    intake := { s.intake with
      state := .waiting, taken := true, owed := false, postingsTaken := s.intake.postingsTaken + 1 }
    session := { s.session with stage := .live, feedTimer := some 0,
                                delayAnnounced := s.session.delayAnnounced && decide (s.session.stage = .live) }
    terms := m.terms
    fmt := { s.fmt with stageEvents := s.fmt.stageEvents ++ (if s.session.stage = .live then [] else [FeedStage.live]) }
    notices := { s.notices with inbox := s.notices.inbox ++ s.items (s.resumedNotice (some s.intake.seqInHand)) } }
  terms : ∀ k, m.term k = { s.term k with events := (s.term k).events ++
    (if s.session.stage = .live then [] else [TermEvent.feedStage .live]) }

/-- What follows the results of the posting in cell `c` up to the end of the step, with a bus that completes every access:
the TAKEN write, the counts, the signal to the feed watch, and then a RESTART INTAKE that waited, a pending quiesce or the
link step (R43, R71, R74, R171, R174, R175). `after` says what follows whole; the other clauses say what holds whichever follows. -/
structure Taken (c : Nat) (s t : State) : Prop where
  rest : t = { s with bus := t.bus, intake := t.intake, session := t.session, terms := t.terms,
                      fmt := { s.fmt with stageEvents := t.fmt.stageEvents },
                      notices := { s.notices with inbox := t.notices.inbox } }
  count : t.intake.postingsTaken = s.intake.postingsTaken + 1
  marks : t.intake.owed = false ∧ t.intake.restartPending = false ∧ t.intake.nudged = s.intake.nudged
  lastSeq : s.intake.restartPending = false → t.intake.lastSeq = s.intake.lastSeq
  quiesce : s.intake.restartPending = false → s.intake.quiescePending = true →
    t.intake.state = .quiesced ∧ t.intake.current = s.intake.current ∧ t.intake.taken = true ∧ t.intake.quiescePending = false
  watch : t.session = { s.session with stage := .live, feedTimer := some 0,
                                       delayAnnounced := s.session.delayAnnounced && decide (s.session.stage = .live) }
  stageEvents : t.fmt.stageEvents = s.fmt.stageEvents ++ (if s.session.stage = .live then [] else [FeedStage.live])
  terms : ∀ k, t.term k = { s.term k with events := (s.term k).events ++
    (if s.session.stage = .live then [] else [TermEvent.feedStage .live]) }
  inbox : ∃ l, t.notices.inbox = s.notices.inbox ++ s.items (s.resumedNotice (some s.intake.seqInHand)) ++ l
  bus : s.bus.accessed t.bus
  errors : s.bus.keepsErrors [.chainBroken, .startCell] t.bus
  memory : s.bus.onlyWrites (s.params.takenWords c) t.bus
  state : (s.params.cellWord c 0 ≠ 48 ∧ s.params.cellWord c 0 ≠ 49 ∧ ¬ s.params.lookWords (s.params.cellWord c 0)) →
    t.bus.peek (s.params.cellWord c 0) = stateTaken
  taken : ¬ s.params.isBitmapWord 48 → t.bus.peek 48 = t.intake.postingsTaken
  sequence : ¬ s.params.isBitmapWord 49 → ∀ v, s.intake.lastSeq = some v → t.bus.peek 49 = v
  cell : t.AtCell
  after : ∃ m, Counted c s m ∧
    (if s.intake.restartPending = true then
      RestartOutcome m t
    else if s.intake.quiescePending = true then
      t = { m with intake := { m.intake with state := .quiesced, quiescePending := false } }
    else Looked m t ∧ LookOutcome m t)

/-- The state that a refused posting leaves before its TAKEN write: nothing but the notice (R42). -/
def State.refusedAs (s : State) (c : Nat) (reason : Reason) : State :=
  (s.received c).handed [.postingRefused (s.posted c 2) (s.posted c 3) reason]

/-- A command refuses the posting in cell `c` of a state for a reason (R42). -/
def Refuses (command : Instr) (before s : State) (c : Nat) (reason : Reason) : Prop :=
  ∃ t, Sys2Proof.Machine.exec command before = .next t ∧ Taken c (s.refusedAs c reason) t

/-- A command applies the posting in cell `c`, with results `result` that the TAKEN write follows (R41 steps 4 and 5). -/
def Applies (command : Instr) (before : State) (c : Nat) (result : State → Prop) : Prop :=
  ∃ u t, Sys2Proof.Machine.exec command before = .next t ∧ result u ∧ Taken c u t

/-! ## Command results (R177) -/

/-- The last command result is ACCEPTED (R177). -/
def State.accepted (s : State) : State := { s with bus := { s.bus with refused := false } }

/-- A command refused: the last command result is REFUSED, COMMAND REFUSED is set, and nothing else is done (R177). -/
def State.turnedAway (s : State) : State := { s with bus := ({ s.bus with refused := true }).setError .commandRefused }

/-! ## Posting rows -/

/-- The command of a row meets the posting in cell `c`: it is a posting of that row, or its kind or subcommand names none, and it is met
under whichever row the model is given (log 26). -/
def State.metAs (s : State) (c : Nat) (row : Row) : Prop := ∀ r, s.namedAt c = .row r → r = row

/-- The command of a posting row, with what the host stored before it. -/
def Row.withStores (h : List HostWrite) : Row → Instr
  | .trade => .trade h
  | .quote => .quote h
  | .cancel => .cancel h
  | .summary => .summary h
  | .halt => .halt h
  | .resume => .resumePosting h
  | .define => .define h
  | .session => .session h
  | .tapeText => .tapeText h
  | .text => .text h
  | .setPage => .setPage h
  | .lock => .lock h
  | .unlock => .unlock h
  | .clearStack => .clearStack h
  | .setWatch => .setWatch h
  | .clearWatches => .clearWatches h
  | .remap => .remap h
  | .snapshot => .snapshot h
  | .mark => .mark h

/-- The rows whose posting names an instrument in its first body word (R42 order 4; a SET WATCH is checked by R59). -/
def Row.namesInstrument : Row → Bool
  | .trade | .quote | .cancel | .summary | .halt | .resume | .define | .snapshot => true
  | _ => false

/-- The rows that are subcommands of TERMINAL (R56). -/
def Row.isTerminal : Row → Bool
  | .text | .setPage | .lock | .unlock | .clearStack | .setWatch | .clearWatches => true
  | _ => false

/-- A terminal context with a change event of an instrument handed to it, when it reaches the context (R40). -/
def Terminal.toldOf (x : Terminal) (i : Ix) (reaches : Bool) : Terminal :=
  if reaches then { x with changes := x.changes ++ [i] } else x

/-- The formatter with a change event handed to it (R40). -/
def Formatter.toldOf (x : Formatter) (i : Ix) (fields : List ChangedField) (mark : Option TickDir) : Formatter :=
  { x with changes := x.changes ++ [⟨i, fields, mark⟩] }

/-- A tape unit with an arrival of intake handed to it (R43). -/
def Tape.given (x : Tape) (a : Arrival) : Tape := { x with inbox := x.inbox ++ [a] }

/-- The update of one record and its change event, and nothing else: the record of `i` becomes `r`, the board formatter gets
the event, and the contexts whose interest bit is set get it when a terminal row shows one of the fields (R21, R40). -/
structure Updates (s u : State) (i : Ix) (r : Record) (fields : List ChangedField) (mark : Option TickDir) : Prop where
  rest : u = { s with store := u.store, fmt := s.fmt.toldOf i fields mark, tapes := u.tapes, terms := u.terms }
  record : u.record i = r
  others : ∀ j, j ≠ i → u.record j = s.record j

/-- The fields that a terminal row shows: the last row of the table of R40. -/
def rowFields : List ChangedField := [.symbol, .state, .mode, .previousClose, .last, .bid, .ask, .volume]

/-- The fields that a placement of a kind shows: its row of the table of R40. -/
def placementFields : FieldKind → List ChangedField
  | .symbol => [.symbol, .state]
  | .last | .change => [.last, .previousClose, .mode, .state]
  | .tick => [.tick, .state]
  | .bid => [.bid, .mode, .state]
  | .ask => [.ask, .mode, .state]
  | .volume => [.volume, .state]
  | .high => [.high, .mode, .state]
  | .low => [.low, .mode, .state]
  | .opening => [.opening, .mode, .state]
  | .status => [.state, .haltReason]

/-- The contexts after an update: told of the instrument when a row shows a changed field and the interest bit is set (R40). -/
def ToldTerms (s u : State) (i : Ix) (fields : List ChangedField) : Prop :=
  ∀ k, u.term k = (s.term k).toldOf i (fields.any (fun f => decide (f ∈ rowFields)) && Bank.get (s.record i).interest k)

/-- A terminal context with the message row dirty (R153). -/
def Terminal.messageDirty (x : Terminal) : Terminal := { x with dirty := Bank.set x.dirty 17 true }

/-- Subcommands and watch removals find no earlier watch check waiting at some contexts. -/
def State.checksTaken (s : State) (ts : List (Fin 16)) : Prop := ∀ k ∈ ts, (s.term k).checks = []

/-- The contexts named by a subcommand are as `f` leaves them, and nothing else has changed (R56). -/
def Commands (s u : State) (ts : List (Fin 16)) (f : Terminal → Terminal) : Prop :=
  u = { s with terms := u.terms } ∧ ∀ k, u.term k = if k ∈ ts then f (s.term k) else s.term k

/-! ## Interrupt groups -/

/-- No group is due to request: R188 has been applied. -/
def Bus.groupsSettled (b : Bus) : Bool :=
  (List.finRange 5).all fun i =>
    let g := Bank.get b.groups i
    !(decide (g.state = .idle) && g.marked && decide (g.level ≠ 0) && b.mayRequest)

/-! ## The anchor as START checks it (R161, R166) -/

/-- The seven regions of R161, each with its offset and its length in words; `w k` is word `k` of the anchor. -/
def regionAt (w : Nat → Nat) : Fin 7 → Nat × Nat
  | 0 => (0, 64)
  | 1 => (w 3, (w 2 + 15) / 16)
  | 2 => (w 1, 16 * w 2)
  | 3 => (w 6, 4096)
  | 4 => (w 7, 128)
  | 5 => (w 8, 32 * w 9)
  | 6 => (w 10, 64)

/-- Word `x` lies in a region. -/
def inRegion (w : Nat → Nat) (i : Fin 7) (x : Nat) : Prop := (regionAt w i).1 ≤ x ∧ x < (regionAt w i).1 + (regionAt w i).2

/-- The words of the anchor that place the bitmap and pool regions, as START accepted them (R163, R166). -/
def Params.anchorWord (p : Params) : Nat → Nat
  | 1 => p.poolOffset.toNat
  | 2 => p.cellCount
  | 3 => p.bitmapOffset.toNat
  | _ => 0

/-- One of the `n` words from `first` on, each offset taken modulo 65,536, lies in the anchor region, the bitmap region or the pool
region (R161, R176). -/
def Params.TouchesChain (p : Params) (first : Word) (n : Nat) : Prop :=
  ∃ k, k < n ∧ ∃ i : Fin 7, i ≤ 2 ∧ inRegion p.anchorWord i ((first.toNat + k) % 65536)

/-- LAYOUT RANGE (R166). -/
def BadRange (w : Nat → Nat) : Prop :=
  w 0 ≠ 1 ∨ w 2 = 0 ∨ 2048 < w 2 ∨ 256 < w 9 ∨ ∃ i x, inRegion w i x ∧ 65535 < x

/-- LAYOUT CONFLICT (R166). -/
def BadLayout (w : Nat → Nat) : Prop := ∃ i j, i ≠ j ∧ ∃ x, inRegion w i x ∧ inRegion w j x

/-- PARAMETER (R166); the words of tape A begin at 18 and those of tape B at 26 (chapter 11). -/
def BadParameter (w : Nat → Nat) : Prop :=
  ∃ k, (k = 18 ∨ k = 26) ∧ (w (k + 1) = 0 ∨ w (k + 2) ≤ w (k + 1) ∨ w (k + 3) ≤ w (k + 2) ∨ 256 < w (k + 3) ∨
    ∃ j, (j = 1 ∨ j = 2 ∨ j = 3) ∧ w (k + j) ≤ w (k + j + 3))

/-- The bit of cell `c` is set in the bitmap that the anchor places (R161). -/
def Bus.cellSet (b : Bus) (c : Nat) : Prop := (b.peek (b.peek 3 + word (c / 16))).getLsbD (c % 16) = true

/-- START CELL (R166). -/
def Bus.BadStartCell (b : Bus) : Prop :=
  (b.peek 2).toNat ≤ (b.peek 4).toNat ∨ (b.peek 2).toNat ≤ (b.peek 5).toNat ∨ ¬ b.cellSet (b.peek 4).toNat ∨
    ¬ b.cellSet (b.peek 5).toNat ∨ b.peek 4 = b.peek 5

/-- The anchor's words as numbers. -/
def Bus.anchor (b : Bus) (k : Nat) : Nat := (b.peek (word k)).toNat

/-- Words stored one after another. -/
def Bus.pokes (ws : List (Word × Word)) (b : Bus) : Bus := ws.foldl (fun b e => b.poke e.1 e.2) b

/-- The groups at the levels of word 11 of the anchor, three bits each, SYSTEM lowest (R180, chapter 11). -/
def Group.levelled (w : Nat) (i : Fin 5) (g : Group) : Group := { g with level := Fin.ofNat 8 (w / 8 ^ i.val) }

/-! ## Notices -/

/-- How far behind the search position a cell stands in the search order of `count` cells (R182). -/
def searchDistance (count search c : Nat) : Nat := (c + count - (search + 1)) % count

/-- The cell that a claim takes: its bit is clear, and no other clear cell comes before it in the search order (R182). -/
def ClaimsCell (s : State) (c : Nat) : Prop :=
  c < s.params.cellCount ∧ (s.bus.peek (s.params.bitmapWord c)).getLsbD (c % 16) = false ∧
    ∀ d, d < s.params.cellCount → (s.bus.peek (s.params.bitmapWord d)).getLsbD (d % 16) = false →
      searchDistance s.params.cellCount (s.notices.search.getD 0) c ≤
        searchDistance s.params.cellCount (s.notices.search.getD 0) d

/-- Every byte of host memory reads the same. -/
def Bus.sameBytes (b b' : Bus) : Prop := ∀ a, Memory.readByte b'.mem a = Memory.readByte b.mem a

/-- The same state, but for how host memory lists its bytes. -/
def State.sameAs (s t : State) : Prop := s.bus.sameBytes t.bus ∧ t = { s with bus := { s.bus with mem := t.bus.mem } }

/-- No bit of the bitmap is clear below the cell count. -/
def State.poolFull (s : State) : Prop :=
  ∀ c, c < s.params.cellCount → (s.bus.peek (s.params.bitmapWord c)).getLsbD (c % 16) = true

/-- Cell `c` is claimed: its bit is set, and it is the search position (R182). -/
def State.claims (s : State) (c : Nat) : State :=
  { s with
    bus := s.bus.poke (s.params.bitmapWord c) (s.bus.peek (s.params.bitmapWord c) ||| BitVec.twoPow 16 (c % 16))
    notices := { s.notices with search := some c } }

/-- A notice is written whole into cell `c`, with the number that it will be linked with (R179, R183). -/
def State.wrote (s : State) (c : Nat) (n : NoticeBody) (time : Option Tod) (repeats : Word) : State :=
  { s with bus := s.bus.pokes (cellWrites s.params c (s.notices.count + 1) n time repeats) }

/-- The tail admits a link to cell `c`: its bit is set, its state word reads NOTICE, and it is another cell (R183). -/
def State.tailSound (s : State) (tail c : Nat) : Prop :=
  (s.bus.peek (s.params.bitmapWord tail)).getLsbD (tail % 16) = true ∧ c ≠ tail ∧
    s.bus.peek (s.params.cellWord tail 0) = stateNotice

/-- The notice in cell `c` is linked behind the tail and counted, and its group marked (R181, R183). -/
def State.linkedTo (s : State) (tail c : Nat) (n : NoticeBody) : State :=
  { s with
    bus := (s.bus.pokes [(s.params.cellWord tail 1, word c), (51, s.notices.count + 1)]).markGroup n.group
    notices := { s.notices with tail := some c, count := s.notices.count + 1 } }

/-- The notice in cell `c` is linked as the first of a new chain: NOTICE RESTART, RESTART COUNT, NOTICE COUNT, CHAIN BROKEN and
the mark of its group (R183). -/
def State.chainRestarted (s : State) (c : Nat) (n : NoticeBody) : State :=
  { s with
    bus := ((s.bus.pokes [(53, word c), (54, s.notices.restarts + 1), (51, s.notices.count + 1)]).setError .chainBroken).markGroup
      n.group
    notices := { s.notices with tail := some c, count := s.notices.count + 1, restarts := s.notices.restarts + 1 } }

/-- The notice unit IDLE with nothing in hand. -/
def State.unitIdle (s : State) : State := { s with notices := { s.notices with unit := .idle, inHand := none } }

/-- The notice unit HELD, with an item in hand, the cells claimed for it, and whether the first is written (R180, R184). -/
def State.unitHeld (s : State) (item : Item) (cells : List Nat) (written : Bool) : State :=
  { s with notices := { s.notices with unit := .held, inHand := some ⟨item, cells, written⟩ } }

/-! ## The board formatter and the board lines -/

/-- A module of a line as several entries of the placement table, rendered in order, leave it: each entry that places a field on
the module has its cells shown (R86). `t` holds the records, session, formats and table that the renderings read. -/
def State.shownOn (t : State) (n : Fin 4) (m : Fin 32) (entries : List Nat) (x : Module) : Module :=
  entries.foldl (fun x k =>
    match t.fmt.placement k with
    | some p =>
      if p.line = n ∧ p.module = m then
        let o := t.params.formatEntry p.format.val
        x.showCells p.start (placementCells (t.record p.instr) t.session.state
          (formatOf [t.bus.peek o, t.bus.peek (o + 1), t.bus.peek (o + 2), t.bus.peek (o + 3)]) p)
      else x
    | none => x) x

/-- The renderings of several entries, and nothing else. -/
def Renders (s t : State) (entries : List Nat) : Prop :=
  t = { s with lines := t.lines } ∧
    (∀ n, t.line n = { s.line n with modules := (t.line n).modules }) ∧
    ∀ n m, (t.line n).module m = s.shownOn n m entries ((s.line n).module m)

/-- The links from `k` on lead through exactly the entries of a list, to END (R80). -/
def Formatter.Links (x : Formatter) : Option Nat → List Nat → Prop
  | none, [] => True
  | some k, j :: ks => k = j ∧ ∃ p, x.placement k = some p ∧ x.Links p.next ks
  | _, _ => False

/-- The chain of an instrument is a list of distinct entries of the table, each a placement of it, from the head to END (R79,
R80). -/
def State.ChainIs (s : State) (i : Ix) (ks : List Nat) : Prop :=
  ks.Nodup ∧ s.fmt.Links (s.record i).chainHead ks ∧ ∀ k ∈ ks, k < 1024 ∧ ∃ p, s.fmt.placement k = some p ∧ p.instr = i

/-- Records may differ in their chain heads, and in nothing else. -/
def ChainHeadsOnly (s t : State) : Prop := ∀ j, t.record j = { s.record j with chainHead := (t.record j).chainHead }

/-- The REMAP of a line has begun, and nothing else has changed: the line's placements are gone from table, chains and timers, and
it is under REMAP (R92 step 1, log 20). -/
structure Begins (s t : State) (job : RemapJob) : Prop where
  rest : t = { s with store := t.store, lines := t.lines,
                      fmt := { s.fmt with table := t.fmt.table, timers := t.fmt.timers, remap := some job } }
  gone : ∀ k, t.fmt.placement k = none ↔ (s.fmt.placement k).all (fun p => p.line == job.line)
  kept : ∀ k p, t.fmt.placement k = some p → ∃ q, s.fmt.placement k = some q ∧ p = { q with next := p.next }
  chains : ∀ i ks, s.ChainIs i ks →
    t.ChainIs i (ks.filter fun k => (s.fmt.placement k).any fun p => p.line != job.line)
  timers : t.fmt.timers = s.fmt.timers.filter fun e => (s.fmt.placement e.placement).all fun p => p.line != job.line
  records : ChainHeadsOnly s t
  lines : ∀ n, t.line n = if n = job.line then { s.line n with underRemap := true } else s.line n

/-- What becomes of a used slot of a module record (R77 to R79). -/
inductive Fate where
  /-- Kept, and built into an entry of the placement table. -/
  | kept (entry : Nat)
  | fault
  | noRoom
deriving DecidableEq, Repr

/-- The slots of a line in the order in which they are examined: modules by address, then slots (R92). -/
def slotOrder : List (Fin 32 × Fin 8) := (List.finRange 32).flatMap fun m => (List.finRange 8).map fun j => (m, j)

/-- One board line changed, and nothing else. -/
def ChangesLine (s t : State) (n : Fin 4) (l : BoardLine) : Prop :=
  t = { s with lines := t.lines } ∧ ∀ k, t.line k = if k = n then l else s.line k

/-- A line with one module changed. -/
def BoardLine.having (l : BoardLine) (m : Fin 32) (x : Module) : BoardLine :=
  { l with modules := Bank.set l.modules m x }

/-- The lowest address whose module satisfies `p`. -/
def BoardLine.lowest (l : BoardLine) (p : Fin 32 → Module → Bool) (m : Fin 32) : Prop :=
  p m (l.module m) = true ∧ ∀ k, p k (l.module k) = true → m ≤ k

/-- A LIVE module: present, with line state LIVE. -/
def Module.live (x : Module) : Bool := x.present && decide (x.state = .live)

/-- A LIVE module has its whole width dirty; another is as it was (R99, R108, R110). -/
def Module.repainted (x : Module) : Module :=
  if x.live = true then { x with dirty := x.width.map fun w => ⟨0, w.cells - 1⟩ } else x

/-- A cell lies in a range. -/
def inRange (r : Option Range) (k : Nat) : Prop := ∃ q, r = some q ∧ q.first ≤ k ∧ k ≤ q.last

/-- A BOARD notice: held by its controller before START completes, handed on after that (R111). -/
def ReportsModule (s t u : State) (n : Fin 4) (body : NoticeBody) : Prop :=
  if s.bus.phase = .checking then ChangesLine t u n { t.line n with held := (t.line n).held ++ [body] }
  else u = t.handed [body]

/-! ## Terminals -/

/-- One terminal context changed, and nothing else. -/
def ChangesTerm (s t : State) (k : Fin 16) (x : Terminal) : Prop :=
  t = { s with terms := t.terms } ∧ ∀ j, t.term j = if j = k then x else s.term j

/-- One terminal line and one of its contexts changed, and nothing else. -/
def ChangesTline (s t : State) (l : Fin 2) (y : TermLine) (k : Fin 16) (x : Terminal) : Prop :=
  t = { s with tlines := t.tlines, terms := t.terms } ∧ (∀ j, t.tline j = if j = l then y else s.tline j) ∧
    ∀ j, t.term j = if j = k then x else s.term j

/-- A context with more rows dirty (R153). -/
def Terminal.dirtied (x : Terminal) (rows : Fin 18 → Bool) : Terminal :=
  { x with dirty := Bank.tabulate fun r => Bank.get x.dirty r || rows r }

/-- A context after a beep that arises now: none is given with QUIET in the mask, or to a terminal that is not ONLINE (R152). -/
def Terminal.beeped (x : Terminal) : Terminal :=
  if x.mask.quiet = true ∨ x.state ≠ .online then x else { x with beep := true }.messageDirty

/-- A context whose work in hand has ended: a waiting load begins (R154, R155). -/
def Terminal.workEnded (x : Terminal) : Terminal :=
  match x.waiting with
  | some page => { x with work := .pageLoad page .posting, waiting := none }
  | none => { x with work := .none }

/-- A terminal that has answered from OFFLINE: every row dirty, and asleep when the night flag of its context is set (R140). -/
def Terminal.back (x : Terminal) : Terminal :=
  let y := { x with miss := 0 }.dirtied fun _ => true
  if x.night = true then { y with state := .asleep, blankDue := true, poll := .due } else { y with state := .online }

/-- A terminal that wakes (R142). -/
def Terminal.awake (x : Terminal) : Terminal :=
  { x with state := .online, miss := 0, blankDue := false, poll := .stopped }.dirtied fun _ => true

/-- A terminal lost at the end of a window (R139). -/
def Terminal.gone (x : Terminal) (ends : Nat) : Terminal :=
  { x with state := .offline, miss := 0, beep := false, poll := .running (ends + 4000) }

/-! ## What a field shows (R8 to R19) -/

/-- A text in a field of `w` cells: right-justified where it fits (R14); else the overflow mark, the sign cell, as many of the last
whole digits as there is room for and the fraction part, with at least two digits given up (R16); and where there is room for none,
or there is none, the overflow mark in every cell (R17). -/
def Fitted (w : Nat) (t : Parts) (row : List Byte) : Prop :=
  let taken := 1 + t.sign.length + t.frac.length
  if t.text.length ≤ w then row = List.replicate (w - t.text.length) 0x20 ++ t.text
  else if taken < w ∧ t.whole ≠ [] then
    ∃ given shown, t.whole = given ++ shown ∧ 2 ≤ given.length ∧ taken + shown.length = w ∧
      row = [0x03] ++ t.sign ++ shown ++ t.frac
  else row = List.replicate w 0x03

/-- A price with a sign cell, which a price alone has not, in a board field: DIGITS on a FRACTION instrument that does not fit is
taken in GLYPH (R15). -/
def BoardPrice (m : Mode) (style : Style) (w p : Nat) (signCell row : List Byte) : Prop :=
  let t : Parts := { priceParts m style p with sign := signCell }
  if w < t.text.length ∧ style = .digits ∧ m.places = none then Fitted w { priceParts m .glyph p with sign := signCell } row
  else Fitted w t row

/-- A price with a sign cell in a terminal column (R19). -/
def TerminalPrice (m : Mode) (w p : Nat) (signCell row : List Byte) : Prop :=
  Fitted w { priceParts m .digits p with sign := signCell } row

/-- A price that may be absent: its row, or the fill in every cell (R12). -/
def PriceOr (w : Nat) (fill : Byte) (shows : Nat → List Byte → List Byte → Prop) (p : Option Price) (row : List Byte) : Prop :=
  match p with
  | none => row = List.replicate w fill
  | some p => shows p.val [] row

/-- A net change (R9, R10): the magnitude with the sign cell of the style, or the text of the zero style. -/
def ChangeShown (w : Nat) (shows : Nat → List Byte → List Byte → Prop) (style : SignStyle) (zeroStyle : ZeroStyle)
    (last prev : Price) (row : List Byte) : Prop :=
  if last = prev then
    Fitted w (match zeroStyle with | .unch => ⟨[], [], chars "UNCH".toList⟩ | .zero => ⟨[], [0x30], []⟩) row
  else
    shows (if prev < last then last.val - prev.val else prev.val - last.val)
      (match style with
        | .arrow => [if prev < last then 0x01 else 0x02]
        | .sign => [if prev < last then 0x2B else 0x2D]
        | .none => []) row

/-- A volume in a unit, at the right of its field (R11; log 21). -/
def VolumeShown (w unit : Nat) (v : Volume) (row : List Byte) : Prop :=
  let digits := decimal (v.val / unit)
  row = if w < digits.length then List.replicate w 0x39 else List.replicate (w - digits.length) 0x20 ++ digits

/-- A text at the left of a field, cut to it (R13). -/
def atLeft (w : Nat) (text : List Byte) : List Byte := (text ++ List.replicate w 0x20).take w

/-! ## Invariants of the state -/

/-- Host memory, the price store and the placement table are in their canonical forms, so that equal contents are equal data. -/
def State.Canonical (s : State) : Prop :=
  Memory.wf s.bus.mem = true ∧ Sparse.wf Record.reset s.store = true ∧ Sparse.wf none s.fmt.table = true

/-- The area is set in every controller state but UNSET; out of service no night flag, night timer or feed stage has moved and intake
is STOPPED; and in UNSET and READY every block holds what the reset left it (R63, R162, R166, R169, R178). -/
def State.IdleBeforeStart (s : State) : Prop :=
  (s.bus.area.isSome = true ↔ s.bus.phase ≠ .unset) ∧
    (s.inService = false →
      s.session.night = false ∧ s.session.nightTimer = none ∧ s.session.stage = .live ∧ s.intake.state = .stopped ∧
      s.intake.owed = false) ∧
    (s.bus.phase = .unset ∨ s.bus.phase = .ready →
      s.intake = Intake.reset ∧ s.store = [] ∧ s.session = SessionUnit.reset ∧ s.fmt = Formatter.reset ∧
      s.lines = Vector.replicate 4 BoardLine.reset ∧ s.tapes = Vector.replicate 2 Tape.reset ∧
      s.tlines = Vector.replicate 2 TermLine.reset ∧ s.terms = Vector.replicate 16 Terminal.reset ∧
      s.notices = NoticeUnit.reset)

/-- The night flag and timer stand in CLOSED alone, never together; the stage leaves LIVE in a watched session alone; the delay is
announced exactly while the stage is LOST (R65, R68, R71 to R74). -/
def SessionUnit.Sound (x : SessionUnit) : Prop :=
  (x.night = true → x.state = .closed ∧ x.nightTimer = none) ∧ (x.nightTimer.isSome = true → x.state = .closed) ∧
    (x.stage ≠ .live → x.state = .opened ∨ x.state = .marketHalt) ∧ (x.delayAnnounced = true ↔ x.stage = .lost)

/-- R188 has been applied, and a group REQUESTING is marked and may request. -/
def Bus.GroupsSound (b : Bus) : Prop :=
  b.groupsSettled = true ∧
    ∀ i, (Bank.get b.groups i).state = .requesting → (Bank.get b.groups i).marked = true ∧ b.mayRequest = true

/-- A record is HALTED exactly with a halt reason, its low does not exceed its high, its history has at most 4 entries, and its
symbol is one of 1 to 5 legal characters, or empty for an UNDEFINED instrument (R22, R23, R25, R29, R51). -/
def Record.Sound (r : Record) : Prop :=
  (r.haltReason.isSome = true ↔ r.state = .halted) ∧ r.rangeOk = true ∧ r.history.length ≤ 4 ∧ r.symbol.length ≤ 5 ∧
    r.symbol.all symbolChar = true ∧ (r.symbol = [] ↔ r.state = .undefined)

/-- Every record is sound; a bit of a watch mask stands for an ARMED watch, and a bit of an interest mask for an entry of a page
list (R155, R160). -/
def State.MasksSound (s : State) : Prop :=
  ∀ i, (s.record i).Sound ∧
    ∀ k, (Bank.get (s.record i).watchMask k = true ↔ ∃ w ∈ (s.term k).watches, w.instr = i ∧ w.tripped = false) ∧
      (Bank.get (s.record i).interest k = true ↔ some i ∈ (s.term k).pageList)

/-- A range of cells of an image. -/
def Range.Sound (r : Range) : Prop := r.first ≤ r.last ∧ r.last < 32

/-- A module has a width exactly when it is present; only a LIVE one has ranges; one not present is UNKNOWN with no failed frame; the
attempt count is at most 2 (R96, R99, R100, R102, R105). -/
def Module.Sound (x : Module) : Prop :=
  (x.present = true ↔ x.width.isSome = true) ∧ (x.dirty.isSome = true ∨ x.inFlight.isSome = true → x.live = true) ∧
    (∀ r, x.dirty = some r ∨ x.inFlight = some r → r.Sound) ∧
    (x.present = false → x.state = .unknown ∧ x.attempts = 0) ∧ x.attempts ≤ 2

/-- A text for a tape has 1 to 20 characters (R55, R115). -/
def tapeTextSound (text : List Byte) : Prop := 1 ≤ text.length ∧ text.length ≤ 20

/-- The queue of a tape unit holds at most 256 entries, each TRADE with 1 to 8 triples and each TEXT, as each text that waits to
arrive, with 1 to 20 characters; the ribbon FIFO holds at most 48 characters, and the lateness last announced is at most 720 minutes
(R112, R113, R115, R125). -/
def Tape.Sound (x : Tape) : Prop :=
  x.queue.length ≤ 256 ∧
    (∀ i m t op late merged, .trade i m t op late merged ∈ x.queue → 1 ≤ merged.length ∧ merged.length ≤ 8) ∧
    (∀ text urgent, .text text urgent ∈ x.queue → tapeTextSound text) ∧
    (∀ text urgent time, .text text urgent time ∈ x.inbox ∨ .text text urgent time ∈ x.watchInbox → tapeTextSound text) ∧
    x.fifo.length ≤ 48 ∧ x.announced ≤ 720

/-- The bounds of a terminal context (R134). -/
def Terminal.Sound (x : Terminal) : Prop :=
  x.watches.length ≤ 4 ∧ x.stack.length ≤ 4 ∧ x.pageList.length ≤ 16 ∧ x.title.length ≤ 24 ∧ x.miss ≤ 2 ∧
    ∀ m, x.message = some m → m.length = 40

/-- Each placement has 1 to 16 cells within an image, the line under REMAP has none, and the timer list has one entry for a
placement, earliest first (R77, R89, R92). -/
def Formatter.Sound (x : Formatter) : Prop :=
  (∀ k p, x.placement k = some p → 1 ≤ p.width ∧ p.width ≤ 16 ∧ p.start + p.width ≤ 32) ∧
    (∀ job, x.remap = some job → ∀ k p, x.placement k = some p → p.line ≠ job.line) ∧
    (x.timers.map (·.placement)).Nodup ∧ x.timers.Pairwise fun a b => a.expiry ≤ b.expiry

/-- Intake has a current cell in every state but STOPPED, and owes a TAKEN write only in TAKING (R169, R171). -/
def Intake.Sound (x : Intake) : Prop :=
  (x.state ≠ .stopped → x.current.isSome = true) ∧ (x.owed = true → x.state = .taking)

/-- Intake's current cell is a cell of the pool, and so is the cell at which START's completion lets intake begin (R166, R168). -/
def State.CellsSound (s : State) : Prop := s.AtCell ∧ (s.linesWork = true → s.params.postingStart < s.params.cellCount)

/-- Every instrument has a chain, and each placement of the instrument is in it (R80). -/
def State.ChainsSound (s : State) : Prop :=
  ∀ i, ∃ ks, s.ChainIs i ks ∧ ∀ k p, s.fmt.placement k = some p → p.instr = i → k ∈ ks

/-- All six lines have reported their first polls complete, of a START that has not completed: no line is under REMAP, each board
line works with every module present polled, each of the sixteen terminals has been polled (R111, R143, R168). -/
def State.FirstPollsComplete (s : State) : Prop :=
  s.bus.phase = .checking ∧ s.notices.startDone = false ∧ s.fmt.remap = none ∧
    (∀ n, (s.line n).working = true ∧ ∀ m, ((s.line n).module m).present = true → ((s.line n).module m).polled = true) ∧
    ∀ k, (s.term k).polled = true

/-- The bounds of every block. The symbol of a record bounds what a tape writes into its FIFO (R23, R125). -/
def State.Bounded (s : State) : Prop :=
  s.intake.Sound ∧ s.fmt.Sound ∧ (∀ n m, ((s.line n).module m).Sound) ∧ (∀ d, (s.tape d).Sound) ∧
    (∀ k, (s.term k).Sound) ∧ s.notices.holding.length ≤ 8 ∧ ∀ i, (s.record i).symbol.length ≤ 5

end Sys2Proof.Machine
end

