-- ==== Sys2Proof/Certificates/Slice0/Obligations.lean ====
section
/-! DEFINITION. The statements about the model, in the order of the spec's chapters. -/

open Sys2Proof Sys2Proof.Machine

/-! ## Postings (chapters 02 and 03) -/

/-- R45. A TRADE whose index is in range is refused BAD FIELD, UNDEFINED INSTRUMENT, HALTED or WRONG SESSION, in that order,
and is taken otherwise. -/
def Obligations.TradeChecksInOrder : Prop :=
  ∀ (h : List HostWrite) (before s : State) (c : Nat) (i : Ix), s = before.hostWrites h → s.Holds (.row .trade) c →
    Ix.ofNat? (s.posted c 4).toNat = some i →
    let badField := priceOfDouble (s.posted c 5) (s.posted c 6) = none ∨
      timeOfDouble (s.posted c 9) (s.posted c 10) = .outOfRange
    let late := (s.posted c 11).bit 1
    if badField then Refuses (.trade h) before s c .badField
    else if (s.record i).state = .undefined then Refuses (.trade h) before s c .undefinedInstrument
    else if (s.record i).state = .halted then Refuses (.trade h) before s c .halted
    else if s.session.state = .preOpen ∨ s.session.state = .marketHalt ∨ (s.session.state = .closed ∧ late = false) then
      Refuses (.trade h) before s c .wrongSession
    else ∃ r fields mark, Applies (.trade h) before c fun u => Updates (s.received c) u i r fields mark

/-- R46, R47. A TRADE that passes the checks: the record, the changed-field set with its trade mark, the print to the tape, and
the watch checks; nothing else changes but what the TAKEN write brings. -/
def Obligations.TradeTaken : Prop :=
  ∀ (h : List HostWrite) (before s : State) (c : Nat) (i : Ix) (price : Price),
    s = before.hostWrites h → s.Holds (.row .trade) c → Ix.ofNat? (s.posted c 4).toNat = some i →
    priceOfDouble (s.posted c 5) (s.posted c 6) = some price →
    timeOfDouble (s.posted c 9) (s.posted c 10) ≠ .outOfRange → (s.record i).state = .active →
    (s.session.state = .opened ∨ s.session.state = .closed ∧ (s.posted c 11).bit 1 = true) →
    let old := s.record i
    let volume := volumeOfDouble (s.posted c 7) (s.posted c 8)
    let time := (timeOfDouble (s.posted c 9) (s.posted c 10)).toOption.or s.session.tod
    let opening := (s.posted c 11).bit 0
    let late := (s.posted c 11).bit 1
    let oddLot := (s.posted c 11).bit 2
    let id := s.posted c 12
    Applies (.trade h) before c fun u => ∃ fields,
      Updates (s.received c) u i (u.record i) fields (if late then none else some (u.record i).tick) ∧
      (∀ x, x ∈ fields ↔
        x = .volume ∨ x = .history ∨ x = .printTime ∨ (late = false ∧ (x = .last ∨ x = .tick)) ∨
        (x = .opening ∧ (old.openPx = none ∨ opening = true)) ∨
        (x = .high ∧ ∀ p, old.highPx = some p → p < price) ∨ (x = .low ∧ ∀ p, old.lowPx = some p → price < p)) ∧
      (∃ v : Volume, v.val = min (old.volume.val + volume.val) 4294967295 ∧
        u.record i = { old with
          volume := v
          highPx := some (match old.highPx with | none => price | some p => max p price)
          lowPx := some (match old.lowPx with | none => price | some p => min p price)
          openPx := if old.openPx = none ∨ opening = true then some price else old.openPx
          lastPx := if late then old.lastPx else some price
          tick := if late then old.tick else
            match old.lastPx.or old.prevClose with
            | none => old.tick
            | some p => if p < price then .up else if price < p then .down else old.tick
          history := (⟨id, price, volume, false⟩ :: old.history).take 4
          printTime := time }) ∧
      (∀ d, u.tape d =
        if old.tape = some d ∧ oddLot = false then
          (s.tape d).given (.print i old.mode ⟨id, price, volume⟩ opening late time)
        else s.tape d) ∧
      ∀ k, u.term k =
        let x := (s.term k).toldOf i (Bank.get old.interest k)
        if late = false ∧ Bank.get old.watchMask k = true then { x with checks := x.checks ++ [(i, price)] } else x

/-- R48, R49. A QUOTE writes the four quote fields and hands nothing to a tape or a watch. A SUMMARY writes the fields whose presence
flags are set and no others, and is refused BAD SUMMARY when it would leave the low above the high. Both are refused UNDEFINED
INSTRUMENT on an UNDEFINED instrument. -/
def Obligations.QuoteAndSummaryTaken : Prop :=
  (∀ (h : List HostWrite) (before s : State) (c : Nat) (i : Ix), s = before.hostWrites h → s.Holds (.row .quote) c →
    Ix.ofNat? (s.posted c 4).toNat = some i →
    let old := s.record i
    let price (absent : Bool) (n : Nat) : Option Price := if absent then none else priceOf24 n
    if old.state = .undefined then Refuses (.quote h) before s c .undefinedInstrument
    else Applies (.quote h) before c fun u =>
      Updates (s.received c) u i
        { old with
          bidPx := price ((s.posted c 5).bit 8) ((s.posted c 5).low.toNat * 65536 + (s.posted c 6).toNat)
          askPx := price ((s.posted c 5).bit 9) ((s.posted c 7).low.toNat * 65536 + (s.posted c 8).toNat)
          bidSize := s.posted c 9
          askSize := s.posted c 10 }
        [.bid, .ask, .bidSize, .askSize] none ∧
      ToldTerms s u i [.bid] ∧ u.tapes = s.tapes) ∧
  (∀ (h : List HostWrite) (before s : State) (c : Nat) (i : Ix), s = before.hostWrites h → s.Holds (.row .summary) c →
    Ix.ofNat? (s.posted c 4).toNat = some i →
    let old := s.record i
    let named (j : Nat) : Bool := (s.posted c 5).bit j
    let price (j : Nat) (was : Option Price) : Option Price :=
      if named j then priceOfDouble (s.posted c (6 + 2 * j)) (s.posted c (7 + 2 * j)) else was
    let high := price 1 old.highPx
    let low := price 2 old.lowPx
    if old.state = .undefined then Refuses (.summary h) before s c .undefinedInstrument
    else if ∃ l t, low = some l ∧ high = some t ∧ t < l then Refuses (.summary h) before s c .badSummary
    else Applies (.summary h) before c fun u =>
      if (List.range 5).all (fun j => !named j) then u = s.received c
      else ∃ fields,
        (∀ x, x ∈ fields ↔ (x = .opening ∧ named 0 = true) ∨ (x = .high ∧ named 1 = true) ∨ (x = .low ∧ named 2 = true) ∨
          (x = .previousClose ∧ named 3 = true) ∨ (x = .volume ∧ named 4 = true)) ∧
        Updates (s.received c) u i
          { old with
            openPx := price 0 old.openPx
            highPx := high
            lowPx := low
            prevClose := price 3 old.prevClose
            volume := if named 4 then volumeOfDouble (s.posted c 14) (s.posted c 15) else old.volume }
          fields none ∧
        ToldTerms s u i fields ∧ u.tapes = s.tapes)

/-- R30, R31, R50. A CANCEL is refused UNDEFINED INSTRUMENT on an UNDEFINED instrument. Otherwise the newest entry with the id
that is not yet cancelled is cancelled, its volume subtracted, and the last price reverts when it was the newest standing
print; the tape gets the cancel whether or not an entry was found. -/
def Obligations.CancelTaken : Prop :=
  ∀ (h : List HostWrite) (before s : State) (c : Nat) (i : Ix), s = before.hostWrites h → s.Holds (.row .cancel) c →
    Ix.ofNat? (s.posted c 4).toNat = some i →
    let old := s.record i
    let id := s.posted c 5
    let found := old.history.findIdx? fun e => e.id = id && !e.cancelled
    if old.state = .undefined then Refuses (.cancel h) before s c .undefinedInstrument
    else Applies (.cancel h) before c fun u =>
      (match found with
        | none => u = { s.received c with tapes := u.tapes }
        | some n => ∃ (v : Volume) (last : Option Price) (fields : List ChangedField),
          let history := old.history.modify n fun e => { e with cancelled := true }
          let reverts := (old.history.take n).all (·.cancelled) ∧ history.any (fun e => !e.cancelled) = true
          v.val = old.volume.val - ((old.history[n]?).map (·.volume.val)).getD 0 ∧
          (¬ reverts → last = old.lastPx ∧ fields = [.volume, .history]) ∧
          (reverts → last = (history.find? fun e => !e.cancelled).map (·.price) ∧ fields = [.last, .volume, .history]) ∧
          Updates (s.received c) u i { old with history := history, volume := v, lastPx := last } fields none ∧
          ToldTerms s u i fields) ∧
      ∀ d, u.tape d =
        if old.tape = some d then
          (s.tape d).given (.cancel i id old.mode (found.bind fun n => (old.history[n]?).map (·.price)) s.session.tod)
        else s.tape d

/-- R51, R52. A HALT of an ACTIVE instrument and a RESUME of a HALTED one change the state, and a note goes to the tape; a
HALT of a HALTED one replaces the reason with no note, and a RESUME of an ACTIVE one writes nothing. -/
def Obligations.HaltAndResumeTaken : Prop :=
  (∀ (h : List HostWrite) (before s : State) (c : Nat) (i : Ix), s = before.hostWrites h → s.Holds (.row .halt) c →
    Ix.ofNat? (s.posted c 4).toNat = some i →
    let old := s.record i
    match haltReasonOf (s.posted c 5) with
    | none => Refuses (.halt h) before s c .badField
    | some reason =>
      if old.state = .undefined then Refuses (.halt h) before s c .undefinedInstrument
      else Applies (.halt h) before c fun u =>
        let fields : List ChangedField := if old.state = .halted then [.haltReason] else [.state, .haltReason]
        Updates (s.received c) u i { old with state := .halted, haltReason := some reason } fields none ∧
        ToldTerms s u i fields ∧
        ∀ d, u.tape d =
          if old.tape = some d ∧ old.state ≠ .halted then (s.tape d).given (.note false i old.mode s.session.tod)
          else s.tape d) ∧
  (∀ (h : List HostWrite) (before s : State) (c : Nat) (i : Ix), s = before.hostWrites h → s.Holds (.row .resume) c →
    Ix.ofNat? (s.posted c 4).toNat = some i →
    let old := s.record i
    if old.state = .undefined then Refuses (.resumePosting h) before s c .undefinedInstrument
    else Applies (.resumePosting h) before c fun u =>
      if old.state = .halted then
        Updates (s.received c) u i { old with state := .active, haltReason := none } [.state, .haltReason] none ∧
        ToldTerms s u i [.state] ∧
        ∀ d, u.tape d =
          if old.tape = some d then (s.tape d).given (.note true i old.mode s.session.tod) else s.tape d
      else u = s.received c)

/-- R1, R37, R38, R53. A DEFINE with a symbol of 1 to 5 characters redefines the record, one with a symbol of length 0 removes the
instrument with every watch on it, and any other is refused BAD FIELD. Watch checks of earlier trades have been taken (log 17). -/
def Obligations.DefineTaken : Prop :=
  ∀ (h : List HostWrite) (before s : State) (c : Nat) (i : Ix), s = before.hostWrites h → s.Holds (.row .define) c →
    s.checksTaken (List.finRange 16) → Ix.ofNat? (s.posted c 4).toNat = some i →
    let old := s.record i
    let n := (s.posted c 5).toNat
    let symbol := charsOf [s.posted c 6, s.posted c 7, s.posted c 8] n
    if n = 0 then
      Applies (.define h) before c fun u =>
        Updates (s.received c) u i { Record.reset with chainHead := old.chainHead, interest := old.interest }
          ChangedField.all none ∧
        u.tapes = s.tapes ∧
        ∀ k, u.term k =
          ({ s.term k with watches := (s.term k).watches.filter fun w => w.instr ≠ i } : Terminal).toldOf i
            (Bank.get old.interest k)
    else
      match modeOf (s.posted c 9), assignmentOf (s.posted c 10) with
      | some mode, some tape =>
        if n ≤ 5 ∧ symbol.all symbolChar = true then
          Applies (.define h) before c fun u =>
            Updates (s.received c) u i
              { Record.reset with
                state := .active
                symbol := symbol
                mode := mode
                tape := tape
                prevClose := priceOfDouble (s.posted c 11) (s.posted c 12)
                chainHead := old.chainHead
                interest := old.interest
                watchMask := old.watchMask }
              ChangedField.all none ∧
            u.tapes = s.tapes ∧ ToldTerms s u i ChangedField.all
        else Refuses (.define h) before s c .badField
      | _, _ => Refuses (.define h) before s c .badField

/-- R54, R65 to R70, R74. A SESSION sets the time of day and then the session, with the night flag and timer, the feed watch, the
texts to both tapes, and the events in their order; one that names the current state sets the time alone. That a context gets the
night set and the LIVE event before the session event is log 36. -/
def Obligations.SessionTaken : Prop :=
  ∀ (h : List HostWrite) (before s : State) (c : Nat), s = before.hostWrites h → s.Holds (.row .session) c →
    match sessionOf (s.posted c 4), timeOfDouble (s.posted c 5) (s.posted c 6) with
    | none, _ => Refuses (.session h) before s c .badField
    | some _, .outOfRange => Refuses (.session h) before s c .badField
    | some new, time =>
      Applies (.session h) before c fun u =>
        let old := s.session.state
        let tod := time.toOption.or s.session.tod
        let set : SessionUnit :=
          { s.session with tod := tod, fraction := if time.toOption.isSome then 0 else s.session.fraction }
        let timeEvents : List TermEvent := if time.toOption.isSome then [.time] else []
        if new = old then
          u = { s.received c with session := set, terms := u.terms } ∧
          ∀ k, u.term k = { s.term k with events := (s.term k).events ++ timeEvents }
        else
          let dark : Bool := new = .closed && s.params.nightDelay == 0
          let nights : List Bool :=
            (if old = .closed ∧ s.session.night = true then [false] else []) ++ (if dark then [true] else [])
          let resumes : Bool := old.watched && !new.watched && s.session.stage ≠ .live
          let say (text : String) : List Arrival := [.text (chars text.toList) true tod]
          let texts : List Arrival :=
            if old = .preOpen ∧ new = .opened then say "MARKET OPEN"
            else if new = .marketHalt then say "MARKET HALTED"
            else if old = .marketHalt ∧ new = .opened then say "TRADING RESUMED"
            else if new = .closed then say "MARKET CLOSED"
            else []
          u = { s.received c with
                session := { set with
                  state := new
                  night := if dark then true else if old = .closed then false else s.session.night
                  nightTimer := if new = .closed then (if dark then none else some 0)
                    else if old = .closed then none else s.session.nightTimer
                  feedTimer := if !old.watched && new.watched then some 0 else s.session.feedTimer
                  stage := if resumes then .live else s.session.stage
                  delayAnnounced := s.session.delayAnnounced && !resumes }
                fmt := { s.fmt with
                  sessionEvents := s.fmt.sessionEvents ++ [new]
                  stageEvents := s.fmt.stageEvents ++ (if resumes then [.live] else []) }
                lines := u.lines, tapes := u.tapes, terms := u.terms
                notices := { (s.received c).notices with
                  inbox := (s.received c).notices.inbox ++ (if resumes then
                    [⟨[.feedResumed (min (s.session.feedTimer.getD 0 / 1000) 65535) none], tod, 0⟩] else []) } } ∧
          (∀ n, u.line n = { s.line n with nights := (s.line n).nights ++ nights }) ∧
          (∀ d, u.tape d = { s.tape d with inbox := (s.tape d).inbox ++ texts }) ∧
          ∀ k, u.term k = { s.term k with
            events := (s.term k).events ++ timeEvents ++ nights.map TermEvent.night ++
              (if resumes then [.feedStage .live] else []) ++ [.session new] }

/-- R55, R57. A TAPE TEXT goes to the tapes it names, with at most 20 characters, its priority and the time of day. A TERMINAL TEXT
writes the message line of the contexts it names, and marks the message row dirty; watch checks of earlier trades have been taken
(log 17). -/
def Obligations.TapeAndTerminalTextsTaken : Prop :=
  (∀ (h : List HostWrite) (before s : State) (c : Nat), s = before.hostWrites h → s.Holds (.row .tapeText) c →
    let n := (s.posted c 5).toNat
    let text := charsOf ((List.range 10).map fun j => s.posted c (6 + j)) (min n 20)
    let tapes := (s.posted c 4).high.toNat
    let urgent := (s.posted c 4).low.toNat
    if tapes = 0 ∨ 3 < tapes ∨ 1 < urgent ∨ n = 0 then Refuses (.tapeText h) before s c .badField
    else Applies (.tapeText h) before c fun u =>
      u = { s.received c with tapes := u.tapes } ∧
      ∀ d, u.tape d =
        if tapes = 3 ∨ (d = .a ∧ tapes = 1) ∨ (d = .b ∧ tapes = 2) then
          (s.tape d).given (.text text (urgent == 1) s.session.tod)
        else s.tape d) ∧
  (∀ (h : List HostWrite) (before s : State) (c : Nat) (ts : List (Fin 16)), s = before.hostWrites h →
    s.Holds (.row .text) c → terminalsOf (s.posted c 4).high = some ts → s.checksTaken ts →
    let half := (s.posted c 5).high.toNat
    let n := (s.posted c 5).low.toNat
    let text := charsOf ((List.range 10).map fun j => s.posted c (6 + j)) n
    if 20 < n ∨ half = 0 ∨ 2 < half then Refuses (.text h) before s c .badField
    else Applies (.text h) before c fun u =>
      Commands (s.received c) u ts fun x => Terminal.messageDirty { x with
        message :=
          if half = 1 then (if n = 0 then none else some (text ++ spaces (40 - n)))
          else some (leftIn 20 (x.message.getD (spaces 40)) ++ text ++ spaces (20 - n)) })

/-- R58, R150, R154, R164, R171, R176. SET PAGE asks for a page below the page count of the anchor, compared as it is read also
above 256 (log 12): a load begins, or waits behind the work in hand. Where the read of the page count fails, the posting is not
taken, and what waits for its end goes on waiting (logs 13, 35); where the TAKEN write after a refusal fails, it is owed. LOCK, UNLOCK and CLEAR STACK act whatever the flag held and whatever
the work in hand. Watch checks of earlier trades have been taken (log 17). -/
def Obligations.SetPageLockAndStackTaken : Prop :=
  (∀ (h : List HostWrite) (before s : State) (c : Nat) (ts : List (Fin 16)), s = before.hostWrites h →
    s.Holds (.row .setPage) c → terminalsOf (s.posted c 4).high = some ts → s.checksTaken ts →
    if (s.bus.peek 9).toNat ≤ (s.posted c 5).toNat then Refuses (.setPage h) before s c .badField
    else Applies (.setPage h) before c fun u =>
      Commands (s.received c) u ts fun x =>
        if x.work = .none then { x with work := .pageLoad (s.posted c 5) .posting }
        else { x with waiting := some (s.posted c 5) }) ∧
  (∀ (h : List HostWrite) (before s : State) (c : Nat) (ts : List (Fin 16)), s = before.hostWrites h →
    s.Holds (.row .setPage) c → terminalsOf (s.posted c 4).high = some ts →
    (∀ x y f, FailsWith x y f →
      exec (.setPage h) (before.meeting (List.replicate 4 .completes ++ [x, y])) =
        .next { s.flagged f with intake := { s.intake with state := .waiting } }) ∧
    ((s.bus.peek 9).toNat ≤ (s.posted c 5).toNat → ∀ a b,
      exec (.setPage h) (before.meeting (List.replicate 5 .completes ++ [.timesOut a, .timesOut b])) =
        .next ((s.refusedAs c .badField).owes c a b))) ∧
  (∀ (h : List HostWrite) (before s : State) (c : Nat) (ts : List (Fin 16)), s = before.hostWrites h →
    terminalsOf (s.posted c 4).high = some ts → s.checksTaken ts →
    (s.Holds (.row .lock) c → Applies (.lock h) before c fun u =>
      Commands (s.received c) u ts fun x => { x with locked := true }.messageDirty) ∧
    (s.Holds (.row .unlock) c → Applies (.unlock h) before c fun u =>
      Commands (s.received c) u ts fun x => { x with locked := false }.messageDirty) ∧
    (s.Holds (.row .clearStack) c → Applies (.clearStack h) before c fun u =>
      Commands (s.received c) u ts fun x => { x with stack := [] }))

/-- R59, R159, R160. SET WATCH: its checks in their order, then an ARMED watch at the end of the list and the watch mask bit set. CLEAR
WATCHES empties the watch lists of the contexts it names and clears their bits in the watch mask of each instrument that a removed
watch named. Watch checks of earlier trades have been taken (log 17). -/
def Obligations.WatchesSetAndCleared : Prop :=
  (∀ (h : List HostWrite) (before s : State) (c : Nat), s = before.hostWrites h → s.Holds (.row .setWatch) c →
    let terminal := (s.posted c 4).high
    let direction := (s.posted c 8).toNat
    match terminalsOf terminal with
    | some [t] =>
      s.checksTaken [t] →
      match Ix.ofNat? (s.posted c 5).toNat with
      | none => Refuses (.setWatch h) before s c .badIndex
      | some i =>
        match priceOfDouble (s.posted c 6) (s.posted c 7) with
        | none => Refuses (.setWatch h) before s c .badField
        | some level =>
          if direction = 0 ∨ 2 < direction then Refuses (.setWatch h) before s c .badField
          else if (s.record i).state = .undefined then Refuses (.setWatch h) before s c .undefinedInstrument
          else if 4 ≤ (s.term t).watches.length then Refuses (.setWatch h) before s c .badField
          else Applies (.setWatch h) before c fun u =>
            u = { s.received c with store := u.store, terms := u.terms } ∧
            (∀ k, u.term k = if k = t then { s.term k with
              watches := (s.term k).watches ++ [⟨i, level, if direction = 1 then .above else .below, false⟩] } else s.term k) ∧
            ∀ j, u.record j = if j = i then { s.record j with watchMask := Bank.set (s.record j).watchMask t true }
              else s.record j
    | _ => Refuses (.setWatch h) before s c .badField) ∧
  (∀ (h : List HostWrite) (before s : State) (c : Nat) (ts : List (Fin 16)), s = before.hostWrites h →
    s.Holds (.row .clearWatches) c → terminalsOf (s.posted c 4).high = some ts → s.checksTaken ts →
    Applies (.clearWatches h) before c fun u =>
      u = { s.received c with store := u.store, terms := u.terms } ∧
      (∀ k, u.term k = if k ∈ ts then { s.term k with watches := [] } else s.term k) ∧
      ∀ j, u.record j = { s.record j with
        watchMask := Bank.tabulate fun k =>
          Bank.get (s.record j).watchMask k && !(decide (k ∈ ts) && (s.term k).watches.any fun w => w.instr = j) })

/-- R60, R92 step 1. A REMAP of a line, or of all four, is handed to the board formatter: intake is APPLYING, the cell is not
yet TAKEN, and the first line's placements are gone from table, chains and timers. That step 1 is done in the REMAP's own step and
steps 2 to 5 are still to come is log 20. -/
def Obligations.RemapTaken : Prop :=
  ∀ (h : List HostWrite) (before s : State) (c : Nat), s = before.hostWrites h → s.Holds (.row .remap) c →
    match remapLines (s.posted c 4) with
    | none => (s.posted c 4 ≠ 0xFF ∧ 3 < (s.posted c 4).toNat) ∧ Refuses (.remap h) before s c .badField
    | some (n, after) =>
      (n :: after = if s.posted c 4 = 0xFF then [0, 1, 2, 3] else [n]) ∧
      (s.posted c 4 ≠ 0xFF → (s.posted c 4).toNat = n.val) ∧
      ∃ t u, exec (.remap h) before = .next u ∧ Begins (s.received c) t ⟨n, after, .posting⟩ ∧
        u = { t with intake := { t.intake with state := .applying } }

/-- R61, R62. A SNAPSHOT hands on its two notices as one item and changes no record; a MARK with the report flag hands on MARK
REACHED, and without it nothing. -/
def Obligations.SnapshotAndMarkTaken : Prop :=
  (∀ (h : List HostWrite) (before s : State) (c : Nat) (i : Ix), s = before.hostWrites h → s.Holds (.row .snapshot) c →
    Ix.ofNat? (s.posted c 4).toNat = some i →
    let x := s.record i
    Applies (.snapshot h) before c fun u =>
      u = { s.received c with notices := { (s.received c).notices with
        inbox := (s.received c).notices.inbox ++
          [⟨[.snapshotPrices i x.state x.tick x.haltReason x.prevClose x.openPx x.highPx x.lowPx x.lastPx x.printTime,
             .snapshotQuote i x.bidPx x.askPx x.bidSize x.askSize x.volume], s.session.tod, 0⟩] } }) ∧
  (∀ (h : List HostWrite) (before s : State) (c : Nat), s = before.hostWrites h → s.Holds (.row .mark) c →
    Applies (.mark h) before c fun u =>
      u = (s.received c).handed (if (s.posted c 5).bit 0 then [.markReached (s.posted c 4) (s.posted c 2)] else []))

/-! ## Refusals that do not depend on the kind (R42, R44) -/

/-- R42 orders 3 and 4, R56. A kind that is none of the thirteen is refused BAD KIND and a TERMINAL subcommand that is none of
the seven BAD FIELD, under whichever posting command the model is given (log 26); an index of 2,048 or more is refused BAD
INDEX, and a terminal that is neither 0 to 15 nor ALL is refused BAD FIELD. -/
def Obligations.BadKindIndexAndTerminalRefused : Prop :=
  ∀ (h : List HostWrite) (before s : State) (c : Nat) (row : Row), s = before.hostWrites h →
    (s.Holds .badKind c → Refuses (row.withStores h) before s c .badKind) ∧
    (s.Holds .badSubcommand c → Refuses (row.withStores h) before s c .badField) ∧
    (s.Holds (.row row) c → row.namesInstrument = true → 2048 ≤ (s.posted c 4).toNat →
      Refuses (row.withStores h) before s c .badIndex) ∧
    (s.Holds (.row row) c → row.isTerminal = true → 15 < (s.posted c 4).high.toNat → (s.posted c 4).high ≠ 0xFF →
      Refuses (row.withStores h) before s c .badField)

/-- R41, R42 order 1, R44, R164, R171. A posting whose sequence is the last one taken is refused DUPLICATE, of whatever kind it is, also
of a kind or subcommand that names none (met under any row: log 26), and the last sequence stays. Where the read of the sequence, the first word of a posting that intake reads, is met by two parity faults,
the posting is refused PARITY with the word as it was read (log 16) and the last sequence stays; where it times out twice, the posting
is not taken, and what waits for its end goes on waiting (logs 13, 35); where only its first attempt does not succeed, the step is
what it would have been. The cell in hand is one of the pool (the invariant BoundsKept). A TAKEN write that fails is owed, and the
posting in hand is not applied again; a NUDGE repeats the write, and it may fail again. -/
def Obligations.DuplicateAndUnreadablePostings : Prop :=
  (∀ (h : List HostWrite) (before s : State) (c : Nat) (row : Row), s = before.hostWrites h → s.inHand = some c →
    c < s.params.cellCount → s.bus.script = [] → s.metAs c row → s.intake.lastSeq = some (s.posted c 2) →
    ∃ t, exec (row.withStores h) before = .next t ∧
      Taken c { s with
        intake := { s.intake with seqInHand := s.posted c 2 }
        notices := { s.notices with
          inbox := s.notices.inbox ++ s.items [.postingRefused (s.posted c 2) (s.posted c 3) .duplicate] } } t) ∧
  (∀ (s quiet : State) (c : Nat) (row : Row), quiet = { s with bus := { s.bus with script := [] } } →
    s.inHand = some c → c < s.params.cellCount → s.metAs c row →
    (∀ x y, s.bus.script = [.faults x, .faults y] →
      ∃ t, exec (row.withStores []) s = .next t ∧
        Taken c { quiet with
          bus := quiet.bus.setError .parity
          intake := { s.intake with seqInHand := y }
          notices := { s.notices with inbox := s.notices.inbox ++ s.items [.postingRefused y (s.posted c 3) .parity] } } t) ∧
    (∀ a b, s.bus.script = [.timesOut a, .timesOut b] →
      exec (row.withStores []) s =
        .next { quiet with bus := quiet.bus.setError .busTimeout, intake := { s.intake with state := .waiting } }) ∧
    (∀ a, s.bus.script = [a] → exec (row.withStores []) s = exec (row.withStores []) quiet)) ∧
  ∀ (h : List HostWrite) (before s : State) (c : Nat) (a b : Bool), s = before.hostWrites h →
    (s.Holds (.row .mark) c →
      exec (.mark h) (before.meeting (List.replicate 4 .completes ++ [.timesOut a, .timesOut b])) =
        .next (((s.received c).handed (if (s.posted c 5).bit 0 then [.markReached (s.posted c 4) (s.posted c 2)] else [])).owes
          c a b)) ∧
    (s.intake.state = .taking → s.intake.owed = true → s.intake.current = some c →
      (∀ row : Row, exec (row.withStores h) before = .next s) ∧
      (s.inService = true → s.bus.script = [] →
        exec (.nudge h) (before.meeting [.timesOut a, .timesOut b]) = .next (s.accepted.owes c a b)))

/-! ## The queue of commands (log 1) -/

/-- A step takes the command at the front of the queue and answers what it does with the rest of the queue. -/
def Obligations.StepRunsFrontCommand : Prop :=
  ∀ (c : Instr) (rest : List Instr) (s : State),
    step { s with pending := c :: rest } = exec c { s with pending := rest }

/-- No step touches the queue but to take the command at its front: no command is dropped, added or moved. Each well-formed command
has a next state in every state, and a term that spells no command of its row is refused by the model, by name. -/
def Obligations.StepTakesOneCommand : Prop :=
  (∀ s t : State, step s = .next t → t.pending = s.pending.tail) ∧
    ∀ (c : Instr) (s : State),
      if c.wellFormed = true then ∃ t, exec c s = .next t else exec c s = .refused .illFormed

/-! ## Session, time and feed watch (chapter 04) -/

/-- R63, R68, R69, R70, R71. The time of day goes on one decisecond, from 863,999 to 0, each time the fraction reaches 100, with a time
event at each whole minute; the night timer that reaches its delay in CLOSED stops and sets the night flag, with the night
event to every board line and every context. Before they are due the commands do nothing (log 3). With no command waiting, a step
is the part's own first due step or, when none is due, one millisecond of its clock (log 1): in service the feed timer and the
night timer count it where they run, and the fraction where the time of day is set. No timed step of the session unit is ever left
behind by the clock. -/
def Obligations.ClockAndNightTimer : Prop :=
  ∀ s : State,
    (s.pending = [] →
      (∀ c, s.due = some c → step s = exec c s) ∧
      (s.due = none →
        (∀ c ∈ [Instr.timeOfDayAdvance, .nightTimer, .feedQuiet, .feedLost], exec c s = .next s) ∧
        step s = .next { s with
          now := s.now + 1
          session := if s.inService = true then { s.session with
              fraction := s.session.fraction + (if s.session.tod.isSome then 1 else 0)
              nightTimer := s.session.nightTimer.map (· + 1)
              feedTimer := s.session.feedTimer.map (· + 1) }
            else s.session })) ∧
    (match s.session.tod with
      | none => exec .timeOfDayAdvance s = .next s
      | some now =>
        if s.inService = true ∧ 100 ≤ s.session.fraction then
          ∃ t u, exec .timeOfDayAdvance s = .next t ∧ u.val = (now.val + 1) % 864000 ∧
            t = { s with
              session := { s.session with tod := some u, fraction := s.session.fraction - 100 }
              terms := t.terms } ∧
            ∀ k, t.term k = { s.term k with events := (s.term k).events ++ if u.val % 600 = 0 then [.time] else [] }
        else exec .timeOfDayAdvance s = .next s) ∧
    (if s.inService = true ∧ s.session.state = .closed ∧ s.session.night = false ∧
        s.session.nightTimer.any (fun ms => s.params.nightDelay * 60000 ≤ ms) = true then
      ∃ t, exec .nightTimer s = .next t ∧
        t = { s with
          session := { s.session with night := true, nightTimer := none }
          lines := t.lines
          terms := t.terms } ∧
        (∀ n, t.line n = { s.line n with nights := (s.line n).nights ++ [true] }) ∧
        ∀ k, t.term k = { s.term k with events := (s.term k).events ++ [.night true] }
    else exec .nightTimer s = .next s)

/-- R72, R73. At T1 a LIVE feed becomes QUIET, with its event and notice; at T2 a QUIET feed becomes LOST, with its event and
notice, and with a text to each tape unless the delay is already announced. In an unwatched session, out of service, in
another stage, or before the threshold, the commands do nothing (log 3). The text waits apart from those of session changes (log 42). -/
def Obligations.FeedGoesQuietAndLost : Prop :=
  ∀ s : State,
    let watched : Bool := s.session.state = .opened || s.session.state = .marketHalt
    let reached (seconds : Nat) : Bool := s.session.feedTimer.any fun ms => decide (seconds * 1000 ≤ ms)
    (if s.inService = true ∧ watched = true ∧ s.session.stage = .live ∧ reached s.params.t1 = true then
      ∃ t, exec .feedQuiet s = .next t ∧
        t = { s with
          session := { s.session with stage := .quiet }
          fmt := { s.fmt with stageEvents := s.fmt.stageEvents ++ [.quiet] }
          terms := t.terms
          notices := { s.notices with
            inbox := s.notices.inbox ++ s.items [.feedQuiet s.params.t1 s.intake.lastSeq] } } ∧
        ∀ k, t.term k = { s.term k with events := (s.term k).events ++ [.feedStage .quiet] }
    else exec .feedQuiet s = .next s) ∧
    (if s.inService = true ∧ watched = true ∧ s.session.stage = .quiet ∧ reached s.params.t2 = true then
      ∃ t, exec .feedLost s = .next t ∧
        t = { s with
          session := { s.session with stage := .lost, delayAnnounced := true }
          fmt := { s.fmt with stageEvents := s.fmt.stageEvents ++ [.lost] }
          tapes := t.tapes
          terms := t.terms
          notices := { s.notices with
            inbox := s.notices.inbox ++ s.items [.feedLost s.params.t2 s.intake.lastSeq] } } ∧
        (∀ d, t.tape d = { s.tape d with
          watchInbox := (s.tape d).watchInbox ++
            if s.session.delayAnnounced then [] else [.text (chars "QUOTES DELAYED".toList) true s.session.tod] }) ∧
        ∀ k, t.term k = { s.term k with events := (s.term k).events ++ [.feedStage .lost] }
    else exec .feedLost s = .next s)

/-! ## Control commands of intake (chapter 09) -/

/-- R164, R165, R169 to R174, R177. NUDGE: refused in UNSET and READY, remembered in CHECKING; in service it starts a look in
WAITING and makes an owed TAKEN write again, and is otherwise accepted with no effect. The LINK UNALLOCATED notice carries the link
(log 32). Failed accesses of a look: the read of the state or link word timed out twice leaves intake WAITING, and one parity fault
breaks the chain (after a time-out too: log 9); a failed read of the successor's bitmap word, or a failed clear of the cell's own
bit, leaves intake WAITING at its cell. The current cell is one of the pool (the invariant BoundsKept). -/
def Obligations.NudgeLooks : Prop :=
  (∀ (h : List HostWrite) (before s : State), s = before.hostWrites h → s.bus.script = [] →
    match s.bus.phase with
    | .unset | .ready => exec (.nudge h) before = .next s.turnedAway
    | .checking => exec (.nudge h) before = .next { s.accepted with intake := { s.intake with nudged := true } }
    | .running =>
      if s.intake.state = .waiting then
        s.AtCell → ∃ t, exec (.nudge h) before = .next t ∧ Looked s.accepted t ∧ LookOutcome s.accepted t
      else
        (match (if s.intake.state = .taking ∧ s.intake.owed = true then s.intake.current else none) with
        | some c => c < s.params.cellCount → ∃ t, exec (.nudge h) before = .next t ∧ Taken c s.accepted t
        | none => exec (.nudge h) before = .next s.accepted)) ∧
  ∀ (h : List HostWrite) (before s : State) (c : Nat), s = before.hostWrites h → s.bus.script = [] → s.inService = true →
    s.intake.state = .waiting → s.intake.current = some c →
    let met (attempts : List Attempt) (u : State) : Prop := exec (.nudge h) (before.meeting attempts) = .next u
    (∀ a b, met [.timesOut a, .timesOut b] (s.accepted.flagged .busTimeout)) ∧
    (∀ x, ∃ t, BrokenTo (s.accepted.flagged .parity) t c none .parity ∧
      met [.faults x] t ∧ ∀ a, met [.timesOut a, .faults x] t) ∧
    let d := (s.posted c 1).toNat
    let bit := s.params.bitmapWord c
    let cleared := s.bus.peek bit &&& ~~~(BitVec.twoPow 16 (c % 16))
    (s.intake.taken = true → s.posted c 1 ≠ Config.endLink → d < s.params.cellCount → d ≠ c → ∀ x y f, FailsWith x y f →
      met [.completes, x, y] (s.accepted.flagged f) ∧
      ((s.bus.peek (s.params.bitmapWord d)).getLsbD (d % 16) = true →
        met [.completes, .completes, x, y]
          { s.accepted with bus := ((s.accepted.bus.afterAttempt bit cleared x).afterAttempt bit cleared y).setError f }))

/-- R169, R170, R171, R172. A feed poll tick that is due arms the next one a feed poll interval on, and starts a look in WAITING
or makes an owed TAKEN write again; it does nothing in another state of intake, and before it is due (log 3). The notice unit
is not HELD here, so the order of the two blocks (log 30) does not matter; the LINK UNALLOCATED notice's word is log 32. The
current cell is one of the pool (the invariant BoundsKept). -/
def Obligations.FeedPollTickLooks : Prop :=
  ∀ (h : List HostWrite) (first : Bool) (before s : State), s = before.hostWrites h → s.bus.script = [] →
    s.notices.unit ≠ .held →
    let armed : State :=
      { s with intake := { s.intake with feedTick := s.intake.feedTick.map (· + s.params.feedPoll) } }
    if s.inService = true ∧ s.intake.feedTick.any (fun due => due ≤ s.now) = true then
      if s.intake.state = .waiting then
        s.AtCell → ∃ t, exec (.feedPollTick h first) before = .next t ∧ Looked armed t ∧ LookOutcome armed t
      else
        match (if s.intake.state = .taking ∧ s.intake.owed = true then s.intake.current else none) with
        | some c => c < s.params.cellCount → ∃ t, exec (.feedPollTick h first) before = .next t ∧ Taken c armed t
        | none => exec (.feedPollTick h first) before = .next armed
    else exec (.feedPollTick h first) before = .next s

/-- R170, R172, R174, R177. QUIESCE and RESUME, in each controller state and each state of intake: RESUME clears a pending quiesce
in service, and starts a look from QUIESCED (its LINK UNALLOCATED notice's word: log 32). The current cell is one of the pool (the
invariant BoundsKept); a QUIESCE that finds TAKING is log 44. -/
def Obligations.QuiesceAndResume : Prop :=
  ∀ (h : List HostWrite) (before s : State), s = before.hostWrites h → s.bus.script = [] →
    (exec .quiesce s = .next
      (if s.inService = false ∨ s.intake.state = .stopped then s.turnedAway
      else if s.intake.state = .waiting then { s.accepted with intake := { s.intake with state := .quiesced } }
      else if s.intake.state = .quiesced then s.accepted
      else { s.accepted with intake := { s.intake with quiescePending := true } })) ∧
    (if s.inService = false then exec (.resume h) before = .next s.turnedAway
    else if s.intake.state = .quiesced then
      let waits : State := { s.accepted with intake := { s.intake with state := .waiting, quiescePending := false } }
      s.AtCell → ∃ t, exec (.resume h) before = .next t ∧ Looked waits t ∧ LookOutcome waits t
    else exec (.resume h) before = .next { s.accepted with intake := { s.intake with quiescePending := false } })

/-- R170, R172, R175, R177. RESTART INTAKE: it waits while a posting is in hand; otherwise the POSTING START cell becomes the current
cell, with the last sequence absent, when it is in range, allocated and not the notice tail, QUIESCED where intake was QUIESCED or a
quiesce was pending; else START CELL is set and intake is STOPPED. A read of POSTING START or of the
cell's bitmap word that fails stops intake with the flag of the access. Three things are the model's choice: the last sequence stays as
it was when the cell is not accepted or a read fails (log 47), the bitmap word is read also of a cell at or beyond the cell count (log
48), and a pending quiesce is dropped with an unaccepted cell (log 13). None of it leaves a RESTART INTAKE waiting (log 35), and the LINK UNALLOCATED notice's word is log 32. One that waited acts
in the same way when the posting in hand has been written TAKEN: `Taken` says so of every posting. -/
def Obligations.RestartIntakeStartsAfresh : Prop :=
  ∀ (h : List HostWrite) (before s : State), s = before.hostWrites h → s.bus.script = [] →
    let stopped (f : ErrorFlag) : State :=
      { s.accepted.flagged f with
        intake := { s.intake with state := .stopped, quiescePending := false, restartPending := false } }
    if s.inService = false then exec (.restartIntake h) before = .next s.turnedAway
    else if s.intake.state = .taking ∨ s.intake.state = .applying then
      exec (.restartIntake h) before = .next { s.accepted with intake := { s.intake with restartPending := true } }
    else
      (∀ x y f, FailsWith x y f →
        exec (.restartIntake h) (before.meeting [x, y]) = .next (stopped f) ∧
        exec (.restartIntake h) (before.meeting [.completes, x, y]) = .next (stopped f)) ∧
      ∃ t, exec (.restartIntake h) before = .next t ∧ RestartOutcome s.accepted t

/-! ## Registers, resets and interrupts (chapters 09 and 10) -/

/-- R174, R177. Each command refused by the controller state, QUIESCE in STOPPED, and a value that names no command: the last command
result is REFUSED, COMMAND REFUSED is set and no other flag changes, SYSTEM is marked unless the part is UNSET, and nothing
else is done. CONTROL reads controller state, intake state, reset source and last command result, each in its bits (chapter 11). -/
def Obligations.RefusedCommandsDoNothingElse : Prop :=
  ∀ (h : List HostWrite) (s : State) (w : Word),
    let stored := s.hostWrites h
    (s.bus.phase ≠ .ready → exec (.start h) s = .next stored.turnedAway) ∧
    (s.bus.phase = .unset ∨ s.bus.phase = .ready → exec (.nudge h) s = .next stored.turnedAway) ∧
    (s.bus.phase ≠ .running →
      exec .quiesce s = .next s.turnedAway ∧ exec (.resume h) s = .next stored.turnedAway ∧
      exec (.restartIntake h) s = .next stored.turnedAway ∧ exec .softReset s = .next s.turnedAway) ∧
    (s.bus.phase = .running → s.intake.state = .stopped → exec .quiesce s = .next s.turnedAway) ∧
    (w.toNat = 0 ∨ 6 < w.toNat → exec (.unknownCommand w) s = .next s.turnedAway) ∧
    (s.readControl.toNat =
        8192 * (match s.bus.phase with | .unset => 0 | .ready => 1 | .checking => 2 | .running => if s.intake.state = .quiesced then 4 else 3) +
        1024 * (match s.intake.state with | .stopped => 0 | .waiting => 1 | .taking => 2 | .applying => 3 | .quiesced => 4) +
        256 * (match s.bus.resetSource with | .power => 1 | .pin => 2 | .soft => 3) + if s.bus.refused then 1 else 0) ∧
    (s.turnedAway.readControl.getLsbD 0 = true ∧ s.accepted.readControl.getLsbD 0 = false) ∧
    s.turnedAway.bus.refused = true ∧
    (∀ f, s.turnedAway.bus.hasError f = (decide (f = .commandRefused) || s.bus.hasError f)) ∧
    s.turnedAway.bus.mem = s.bus.mem ∧
    ∀ g : Fin 5, (Bank.get s.turnedAway.bus.groups g).marked =
      ((Bank.get s.bus.groups g).marked || (g == 0 && s.bus.phase != .unset))

/-- R162. The first write to AREA BASE takes its low seven bits as the base number, and UNSET becomes READY; a later one is
ignored and sets COMMAND REFUSED. The register reads 0xFFFF until the base is set and the base number from then on; SOFT RESET
keeps it, the power-on and pin resets clear it, and no other command moves it. Word `o` of the area stands at base
number × 131,072 + 2 × o (R161). -/
def Obligations.AreaBaseIsSetOnce : Prop :=
  ∀ (s : State) (w : Word),
    (s.bus.area = none → s.readAreaBase = 0xFFFF ∧
      ∃ t, exec (.areaBase w) s = .next t ∧
        t = { s with bus := { s.bus with area := some (w.setWidth 7), phase := .ready, groups := t.bus.groups } } ∧
        t.readAreaBase = w &&& 0x7F ∧ ∀ o, t.bus.address o = (w.toNat % 128) * 131072 + 2 * o.toNat) ∧
    (s.bus.area.isSome = true →
      ∃ t, exec (.areaBase w) s = .next t ∧
        t = { s with bus := { s.bus with error := t.bus.error, groups := t.bus.groups } } ∧
        (∀ f, t.bus.hasError f = (decide (f = .commandRefused) || s.bus.hasError f)) ∧
        t.readAreaBase = s.readAreaBase) ∧
    (s.inService = true → ∃ t, exec .softReset s = .next t ∧ t.bus.area = s.bus.area ∧ t.bus.phase = .ready) ∧
    (∀ c t, c ≠ .powerOnReset → c ≠ .pinReset → exec c s = .next t → s.bus.area.isSome = true → t.bus.area = s.bus.area) ∧
    (∃ t, exec .pinReset s = .next t ∧ t.readAreaBase = 0xFFFF ∧ t.bus.phase = .unset) ∧
    ∃ t, exec .powerOnReset s = .next t ∧ t.readAreaBase = 0xFFFF ∧ t.bus.phase = .unset

/-- R177. A write to ERROR clears each flag whose position holds a one, and changes nothing else: a zero, or a one over a clear
flag, has no effect. Each setting of a flag leaves it set with no other flag changed, and marks SYSTEM unless the part is
UNSET. ERROR reads each flag in its bit (chapter 11). -/
def Obligations.ErrorFlagsAreSticky : Prop :=
  ∀ (s : State) (w : Word),
    (∃ e : Word, exec (.errorFlagClear w) s = .next { s with bus := { s.bus with error := e } } ∧
      ∀ k, e.getLsbD k = (s.bus.error.getLsbD k && !w.getLsbD k)) ∧
    (List.range 10).map s.readError.getLsbD =
      [ErrorFlag.layoutRange, .layoutConflict, .parameter, .startCell, .busTimeout, .parity, .chainBroken, .poolExhausted,
        .tableFault, .commandRefused].map s.bus.hasError ∧
    ∀ f g : ErrorFlag, (s.bus.setError f).hasError g = (decide (g = f) || s.bus.hasError g) ∧
      (s.bus.phase ≠ .unset → (Bank.get (s.bus.setError f).groups 0).marked = true) ∧
      (s.bus.phase = .unset → (s.bus.setError f).groups = s.bus.groups)

/-- R164, log 5. BUS_TIMEOUT tells what the bus will do with the coming attempts and does nothing else. A read or write that
times out once succeeds at its second attempt and sets no flag; one that times out twice sets BUS TIMEOUT, and a read that
faults twice PARITY, with the word as it was read (log 16). -/
def Obligations.AccessesAreTriedTwice : Prop :=
  ∀ (s : State) (b : Bus) (o w : Word) (r q : Bool) (x y : Word) (attempts : List Attempt),
    exec (.busTimeout attempts) s = .next { s with bus := { s.bus with script := s.bus.script ++ attempts } } ∧
    (b.script = [] →
      let told (as : List Attempt) : Bus := { b with script := as }
      b.read o = (b, .word (b.peek o)) ∧ b.write o w = (b.poke o w, true) ∧
      (told [.timesOut r]).read o = (b, .word (b.peek o)) ∧ (told [.faults x]).read o = (b, .word (b.peek o)) ∧
      (told [.timesOut r, .timesOut q]).read o = (b.setError .busTimeout, .timedOut) ∧
      (told [.faults x, .faults y]).read o = (b.setError .parity, .faulted y) ∧
      (told [.faults x, .timesOut q]).read o = (b.setError .busTimeout, .timedOut) ∧
      (told [.timesOut r]).write o w = ((if r then b.poke o w else b).poke o w, true) ∧
      (told [.timesOut false, .timesOut false]).write o w = (b.setError .busTimeout, false))

/-- R188, R191. A write to VECTOR with bit 15 set gives the base and lets marked groups request; one that acknowledges a group
puts it IDLE from IN SERVICE, to request again at once when its mark is set, or withdraws its request; a code of 0 or 6 to 15
sets COMMAND REFUSED. VECTOR reads the base, 0 before it is set, and the five group states, two bits each (chapter 11). No group
was due to request when the write came (the invariant BlocksSessionAndGroupsKept). -/
def Obligations.VectorSetsBaseOrAcknowledges : Prop :=
  ∀ (s : State) (w : Word), s.bus.groupsSettled = true →
    (let state (i : Fin 5) : Nat :=
        match (Bank.get s.bus.groups i).state with | .idle => 0 | .requesting => 1 | .inService => 2
     s.readVector.toNat = 4096 * (s.bus.vectorBase.getD 0).toNat +
        (state 0 + 4 * state 1 + 16 * state 2 + 64 * state 3 + 256 * state 4)) ∧
    (w.bit 15 = true →
      ∃ t, exec (.setBase w) s = .next t ∧
        t = { s with bus := { s.bus with vectorBase := some (w.setWidth 4), groups := t.bus.groups } } ∧
        ∀ i, Bank.get t.bus.groups i =
          let g := Bank.get s.bus.groups i
          if g.state = .idle ∧ g.marked = true ∧ g.level ≠ 0 ∧ s.bus.phase ≠ .unset then { g with state := .requesting }
          else g) ∧
    (w.bit 15 = false →
      let code := w.toNat % 16
      if code = 0 ∨ 5 < code then
        ∃ t, exec (.acknowledgeGroup w) s = .next t ∧
          t = { s with bus := { s.bus with error := t.bus.error, groups := t.bus.groups } } ∧
          ∀ f, t.bus.hasError f = (decide (f = .commandRefused) || s.bus.hasError f)
      else
        ∃ t, exec (.acknowledgeGroup w) s = .next t ∧
          t = { s with bus := { s.bus with groups := t.bus.groups } } ∧
          ∀ i, Bank.get t.bus.groups i =
            let g := Bank.get s.bus.groups i
            if i.val + 1 ≠ code then g
            else
              match g.state with
              | .idle => g
              | .requesting => { g with state := .idle, marked := false }
              | .inService =>
                if g.marked = true ∧ g.level ≠ 0 ∧ s.bus.mayRequest = true then { g with state := .requesting }
                else { g with state := .idle })

/-- R189, R190. An interrupt acknowledge at a level: the REQUESTING group of that level with the lowest code becomes IN SERVICE, its
mark clear, and its vector is supplied; where no group of the level is REQUESTING, the spurious vector is supplied and no group
changes. The request is at the highest level held by a REQUESTING group, and there is none while no group is REQUESTING. -/
def Obligations.InterruptIsRequestedAndAcknowledged : Prop :=
  (∀ (s : State) (level : Fin 8), level ≠ 0 →
    let base : BitVec 4 := s.bus.vectorBase.getD 0
    let requests (i : Fin 5) : Bool :=
      (Bank.get s.bus.groups i).state = .requesting && (Bank.get s.bus.groups i).level = level
    (∀ i, requests i = true → (∀ j, requests j = true → i ≤ j) →
      exec (.interruptAcknowledge level) s = .next
        { s with
          bus := { s.bus with
            groups := Bank.set s.bus.groups i { Bank.get s.bus.groups i with state := .inService, marked := false }
            vectorOut := some (base ++ BitVec.ofNat 4 (i.val + 1)) } }) ∧
    ((∀ i, requests i = false) →
      exec (.interruptAcknowledge level) s = .next { s with bus := { s.bus with vectorOut := some (base ++ 0#4) } })) ∧
  (∀ b : Bus,
    (∀ i, (Bank.get b.groups i).state = .requesting → (Bank.get b.groups i).level.val ≤ b.requestLevel) ∧
    ((∃ i, (Bank.get b.groups i).state = .requesting) →
      ∃ i, (Bank.get b.groups i).state = .requesting ∧ b.requestLevel = (Bank.get b.groups i).level.val) ∧
    ((∀ i, (Bank.get b.groups i).state ≠ .requesting) → b.requestLevel = 0))

/-- R36, R63, R95, R96, R112, R134, R135, R169, R178, R180. The three resets: every block at its reset values, the registers as
the table says, and no byte of the common area changed. SOFT RESET is taken in service; it is refused elsewhere (R177). The reset
values that no rule gives (counters, tape parameters, held notices) are log 7. -/
def Obligations.ResetsRestoreEveryBlock : Prop :=
  ∀ s : State,
    let reset (t : State) : Prop :=
      t.bus.mem = s.bus.mem ∧ t.bus.error = 0 ∧ t.bus.refused = false ∧ t.bus.groups = Group.resetAll ∧
      t.intake = Intake.reset ∧ (∀ i, t.record i = Record.reset) ∧ t.session = SessionUnit.reset ∧
      t.fmt = Formatter.reset ∧ (∀ n, t.line n = BoardLine.reset) ∧ (∀ d, t.tape d = Tape.reset) ∧
      (∀ l, t.tline l = TermLine.reset) ∧ (∀ k, t.term k = Terminal.reset) ∧ t.notices = NoticeUnit.reset
    (∃ t, exec .powerOnReset s = .next t ∧ reset t ∧ t.bus.phase = .unset ∧ t.bus.area = none ∧
      t.bus.vectorBase = none ∧ t.bus.resetSource = .power) ∧
    (∃ t, exec .pinReset s = .next t ∧ reset t ∧ t.bus.phase = .unset ∧ t.bus.area = none ∧
      t.bus.vectorBase = none ∧ t.bus.resetSource = .pin) ∧
    (s.inService = true →
      ∃ t, exec .softReset s = .next t ∧ reset t ∧ t.bus.phase = .ready ∧ t.bus.area = s.bus.area ∧
        t.bus.vectorBase = s.bus.vectorBase ∧ t.bus.resetSource = .soft)

/-! ## START (chapters 09 and 10) -/

/-- R164, R166, R180. START whose validation finds an error: the flag of every check that fails is set, the START CELL checks being
made only where the layout is sound, and LAYOUT CONFLICT for regions past offset 65,535 too (log 11). A read that fails, of the
anchor (group levels first, log 11) or of a START CELL bitmap word, stops validation with the flag of the access, with PARAMETER
where it was found before that, and with no START CELL (log 39). Either way the part is READY again with the last command result
ACCEPTED and no remembered NUDGE, no byte of the area has changed, the group levels are those of the anchor once word 11 has been
read (a group REQUESTING stays so at level 0: log 33), and every block is as it was. -/
def Obligations.StartFailsOnBadAnchor : Prop :=
  ∀ (h : List HostWrite) (before s : State), s = before.hostWrites h → s.bus.script = [] → s.bus.phase = .ready →
    let w := s.bus.anchor
    let cells : Prop := ¬ BadRange w ∧ ¬ BadLayout w ∧ s.bus.BadStartCell
    let fails (met : List Attempt) (levels : Bool) (sets : ErrorFlag → Prop) : Prop :=
      ∃ t, exec (.start h) (before.meeting met) = .next t ∧
        t = { s with
          bus := { s.bus with refused := false, error := t.bus.error, groups := t.bus.groups }
          intake := { s.intake with nudged := false } } ∧
        (∀ f, t.bus.hasError f = true ↔ s.bus.hasError f = true ∨ sets f) ∧
        ∀ i, Bank.get t.bus.groups i =
          let g := if levels then (Bank.get s.bus.groups i).levelled (w 11) i else Bank.get s.bus.groups i
          Group.settle s.bus.vectorBase.isSome { g with marked := g.marked || i == 0 }
    (BadRange w ∨ BadLayout w ∨ BadParameter w ∨ cells →
      fails [] true fun f => (f = .layoutRange ∧ BadRange w) ∨ (f = .layoutConflict ∧ BadLayout w) ∨
        (f = .parameter ∧ BadParameter w) ∨ (f = .startCell ∧ cells)) ∧
    ∀ (k : Nat) (x y : Attempt) (flag : ErrorFlag), FailsWith x y flag →
      (k < 38 → fails (List.replicate k .completes ++ [x, y]) (k != 0) fun f => f = flag) ∧
      (¬ BadRange w → ¬ BadLayout w → k < (if w 4 < w 2 then 1 else 0) + (if w 5 < w 2 then 1 else 0) →
        fails (List.replicate (38 + k) .completes ++ [x, y]) true fun f => f = flag ∨ (f = .parameter ∧ BadParameter w))

/-- R34, R36, R64, R134, R163, R167, R168. START whose validation succeeds: the part is CHECKING, the timing parameters are
clamped, the status words have their initial values and no other word of the area has changed, the session is the anchor's
initial one, every tape reference is absent, and the REMAP of all lines has begun with step 1 of line 0 (log 20). A group REQUESTING
stays so where its new level is 0 (log 33). The price store is in canonical form (the invariant CanonicalFormsKept). -/
def Obligations.StartSucceeds : Prop :=
  ∀ (h : List HostWrite) (before s : State), s = before.hostWrites h → s.bus.script = [] → s.bus.phase = .ready →
    Sparse.wf Record.reset s.store = true →
    let w := s.bus.anchor
    let clamp (lo hi n : Nat) : Nat := if n < lo then lo else if hi < n then hi else n
    let initial : SessionState :=
      if w 12 = 0 then .preOpen else if w 12 = 1 then .opened else if w 12 = 2 then .marketHalt else .closed
    let status : List (Word × Word) := [(48, 0), (50, s.bus.peek 4), (51, 0), (52, 0), (53, 0xFFFF), (54, 0)]
    ¬ (BadRange w ∨ BadLayout w ∨ BadParameter w ∨ s.bus.BadStartCell) →
    ∃ t, exec (.start h) before = .next t ∧
      t = { s with
        bus := { s.bus.pokes status with phase := .checking, refused := false, groups := t.bus.groups }
        params :=
          { poolOffset := s.bus.peek 1
            cellCount := w 2
            bitmapOffset := s.bus.peek 3
            postingStart := w 4
            noticeStart := w 5
            boardMap := s.bus.peek 6
            formatTable := s.bus.peek 7
            keyTable := s.bus.peek 10
            feedPoll := clamp 1 50 (w 13)
            t1 := clamp 2 60 (w 14)
            t2 := clamp (clamp 2 60 (w 14) + 1) 600 (w 15)
            highlight := clamp 1 15 (w 16)
            nightDelay := clamp 0 255 (w 17) }
        intake := { s.intake with lastSeq := none, postingsTaken := 0 }
        store := t.store
        session := { s.session with state := initial }
        fmt := { s.fmt with table := t.fmt.table, timers := t.fmt.timers, remap := some ⟨0, [1, 2, 3], .start⟩ }
        lines := t.lines
        tapes := t.tapes
        tlines := Vector.replicate 2 TermLine.reset
        terms := Vector.replicate 16 { Terminal.reset with poll := .due }
        notices := { s.notices with count := 0, lost := 0, restarts := 0 } } ∧
      (∀ i, Bank.get t.bus.groups i = Group.settle s.bus.vectorBase.isSome ((Bank.get s.bus.groups i).levelled (w 11) i)) ∧
      (∀ j, t.record j = { s.record j with tapeRef := none, chainHead := (t.record j).chainHead }) ∧
      (∀ k, t.fmt.placement k = none ↔ (s.fmt.placement k).all (fun p => p.line == 0)) ∧
      (∀ n, t.line n = { BoardLine.reset with priority := min 32 (w (34 + n.val)), underRemap := n == 0 }) ∧
      ∀ d, t.tape d =
        let k := if d = .a then 18 else 26
        { Tape.reset with
          rate := clamp 4 24 (w k)
          e1 := w (k + 1)
          e2 := w (k + 2)
          e3 := w (k + 3)
          x1 := w (k + 4)
          x2 := w (k + 5)
          x3 := w (k + 6)
          block := clamp 10 999 (w (k + 7)) }

/-- R64, R68, R69, R94, R111, R132, R143, R168, R174, R181. When all six lines have completed their first polls (each board line
works, no first poll of a present module of it is still due, and every terminal has been polled), START_DONE brings the part into
service, whatever the bus does with the accesses of the START DONE notice; the command does nothing before that. In CLOSED the night
timer starts, or with a night delay of 0 the night flag sets at once, with the night event to every line and every context. That the
held notices stand before a CHAIN BROKEN of a remembered NUDGE's look is log 46. Where the bus completes every access and no notice is held, START DONE is in its cell, linked and counted. -/
def Obligations.StartCompletes : Prop :=
  ∀ (h : List HostWrite) (before s : State), s = before.hostWrites h →
    (¬ s.FirstPollsComplete → exec (.startDone h) before = .next s) ∧
    (s.FirstPollsComplete →
      let closed : Bool := s.session.state = .closed
      let dark : Bool := closed && s.params.nightDelay == 0
      let nights : List Bool := if dark then [true] else []
      ∃ t, exec (.startDone h) before = .next t ∧
        t = { s with
          bus := t.bus, intake := t.intake, session := t.session, fmt := { s.fmt with held := [] }, lines := t.lines
          tapes := t.tapes, tlines := t.tlines, terms := t.terms, notices := t.notices } ∧
        t.bus.phase = .running ∧ t.notices.startDone = true ∧
        t.session = { s.session with
          feedTimer := some 0
          night := s.session.night || dark
          nightTimer := if dark then none else if closed then some 0 else s.session.nightTimer } ∧
        t.intake.feedTick = some (s.now + s.params.feedPoll) ∧ t.intake.nudged = false ∧
        (s.intake.nudged = false → t.intake = { s.intake with
          state := .waiting, current := some s.params.postingStart, taken := false,
          feedTick := some (s.now + s.params.feedPoll) }) ∧
        (∀ d, t.tape d = { s.tape d with ribbonStart := some s.now, ribbonNext := 0 }) ∧
        (∀ n, t.line n = { s.line n with held := [], nights := (s.line n).nights ++ nights }) ∧
        (∀ l, t.tline l = { s.tline l with held := [] }) ∧
        (∀ k, t.term k = { s.term k with events := (s.term k).events ++ nights.map TermEvent.night }) ∧
        (∃ more, t.notices.inbox = s.notices.inbox ++ s.items
          (s.fmt.held ++ (List.finRange 4).flatMap (fun n => (s.line n).held)
            ++ (List.finRange 2).flatMap fun l => (List.finRange 8).flatMap fun a =>
                (((s.tlines.toList.flatMap TermLine.held).filter fun u => u = terminalOf l a).map
                  NoticeBody.terminalOnline)) ++ more ∧ (s.intake.nudged = false → more = [])) ∧
        (s.bus.script = [] → s.notices.holding = [] → s.notices.inHand = none → s.intake.nudged = false →
          let cell := s.params.noticeStart
          let modules := ((List.finRange 4).map fun n => (List.finRange 32).countP fun m =>
            ((s.line n).module m).present && (s.line n |>.module m).state = .live).sum
          let terminals := (List.finRange 16).countP fun k => (s.term k).state = .online
          let done : NoticeBody := .startDone s.bus.resetSource modules terminals
          let bit := s.params.bitmapWord cell
          t.bus = { s.bus.pokes (
              [(bit, s.bus.peek bit ||| BitVec.twoPow 16 (cell % 16))]
                ++ cellWrites s.params cell (s.notices.count + 1) done s.session.tod 0
                ++ [(51, s.notices.count + 1)]) with
            phase := .running, groups := t.bus.groups } ∧
          (Bank.get t.bus.groups 0).marked = true ∧
          t.notices = { s.notices with
            unit := .idle, startDone := true, tail := some cell, search := some cell, count := s.notices.count + 1,
            inbox := t.notices.inbox }))

/-! ## Notices (chapter 10) -/

/-- R180, R185, R186, R187. A notice, or the pair of a SNAPSHOT, that reaches a busy notice unit joins the holding queue; on a
full queue it is folded into the newest held item of its kind and subject, which it replaces at the tail, and without one it is
lost, counted and POOL EXHAUSTED set. Before CHECKING the notice waits. That NOTICES LOST is not written into the area before
START DONE is log 18. -/
def Obligations.NoticesJoinFoldOrAreLost : Prop :=
  ∀ (h : List HostWrite) (before s : State) (x : Item) (rest : List Item), s = before.hostWrites h →
    s.notices.inbox = x :: rest →
    let u := s.notices
    (s.linesWork = false → exec (.notice h) before = .next s) ∧
    (s.linesWork = true → u.startDone = false ∨ u.unit ≠ .idle ∨ u.holding ≠ [] →
      (u.holding.length < 8 →
        exec (.notice h) before = .next
          { s with notices := { u with inbox := rest, holding := u.holding ++ [x] } }) ∧
      (∀ old y newer, 8 ≤ u.holding.length → u.holding = old ++ y :: newer → y.folds x = true →
        (∀ z ∈ newer, z.folds x = false) →
        exec (.notice h) before = .next
          { s with notices := { u with
              inbox := rest
              holding := old ++ newer ++ [{ x with repeats := word (min (y.repeats.toNat + 1) 65535) }] } }) ∧
      (8 ≤ u.holding.length → (∀ z ∈ u.holding, z.folds x = false) → s.bus.script = [] →
        let lost := word (min (u.lost.toNat + x.parts.length) 65535)
        exec (.notice h) before = .next
          { s with
            notices := { u with inbox := rest, lost := lost }
            bus := (if u.startDone then s.bus.poke 52 lost else s.bus).setError .poolExhausted })) ∧
    ∀ y : Item, y.folds x = true ↔
      (∀ n ∈ x.parts, n.subject ≠ none) ∧ y.parts.map NoticeBody.foldKey = x.parts.map NoticeBody.foldKey

/-- R179 to R184, R187. A notice that reaches an idle unit: it is HELD where no bit of the bitmap is clear; else the first
clear cell in the search order is claimed and written, and the notice is linked behind a sound tail, or as the first of a new chain,
with CHAIN BROKEN and its notice next in hand (TAIL FREED before BAD STATE: log 40). A SNAPSHOT's pair claims both cells before it
links either. Near the search position, where one test-and-set finds the cell, an access that fails leaves the unit HELD with what it
has claimed and written (a tail state word that faults at its second attempt restarts the chain with PARITY: log 41); a test-and-set
made again after a time-out that reached memory leaves the first cell claimed. At the next feed poll tick the unit takes the work up
where it stopped. -/
def Obligations.NoticesAreWrittenAndLinked : Prop :=
  ∀ (h : List HostWrite) (before s : State) (rest : List Item) (tail : Nat) (time : Option Tod) (repeats : Word) (n : NoticeBody),
    s = before.hostWrites h → s.bus.script = [] → s.linesWork = true → n.isStartDone = false → s.notices.startDone = true →
    s.notices.search.getD 0 < s.params.cellCount → s.notices.holding = [] → s.notices.tail = some tail →
    let one : Item := ⟨[n], time, repeats⟩
    let arrived : State := { s with notices := { s.notices with inbox := rest } }
    let ends (u : State) : Prop := ∃ t, exec (.notice h) before = .next t ∧ u.sameAs t
    let armed : State := { s with intake := { s.intake with feedTick := s.intake.feedTick.map (· + s.params.feedPoll) } }
    let retakes (item : Item) (cells : List Nat) (written : Bool) (u : State) : Prop :=
      s.notices.unit = .held → s.notices.inHand = some ⟨item, cells, written⟩ → s.tickDue = true → s.intake.state = .stopped →
        ∀ first, ∃ t, exec (.feedPollTick h first) before = .next t ∧ u.sameAs t
    (s.notices.unit = .idle → s.notices.inbox = one :: rest →
      (s.poolFull → ends (arrived.unitHeld one [] false)) ∧
      ∀ c, ClaimsCell s c →
        let a := (arrived.claims c).wrote c n time repeats
        (a.tailSound tail c → ends (a.linkedTo tail c n).unitIdle) ∧
        (¬ a.tailSound tail c →
          let state := a.bus.peek (a.params.cellWord tail 0)
          let freed := (a.bus.peek (a.params.bitmapWord tail)).getLsbD (tail % 16) = false ∨ c = tail
          let broken : NoticeBody := .chainBroken .notice tail (some state) (if freed then .tailFreed else .badState)
          let r := a.chainRestarted c n
          (r.poolFull → ends (r.unitHeld ⟨[broken], s.session.tod, 0⟩ [] false)) ∧
          ∀ d, ClaimsCell r d →
            let q := (r.claims d).wrote d broken s.session.tod 0
            q.tailSound c d → ends (q.linkedTo c d broken).unitIdle) ∧
        let first := (s.notices.search.getD 0 + 1) % s.params.cellCount
        let bit := s.params.bitmapWord c
        let set := s.bus.peek bit ||| BitVec.twoPow 16 (c % 16)
        let met (k : Nat) (attempts : List Attempt) (u : State) : Prop :=
          exec (.notice h) (before.meeting (List.replicate k .completes ++ attempts)) = .next u
        (first ≤ c → c / 16 = first / 16 →
          exec (.notice h) (before.meeting [.timesOut true]) = exec (.notice []) { s with bus := s.bus.poke bit set } ∧
          (∀ x y f, FailsWith x y f → (x ≠ .timesOut true ∨ y ≠ .timesOut true) →
            met 0 [x, y] ({ arrived with bus := ((s.bus.afterAttempt bit set x).afterAttempt bit set y).setError f }.unitHeld one
              [] false)) ∧
          (∀ (k : Nat) (e : Word × Word) (v w : Bool), (cellWrites s.params c (s.notices.count + 1) n time repeats)[k]? = some e →
            let done := (arrived.claims c).bus.pokes ((cellWrites s.params c (s.notices.count + 1) n time repeats).take k)
            met (1 + k) [.timesOut v, .timesOut w] ({ arrived.claims c with
              bus := ((done.pokeIf v e.1 e.2).pokeIf w e.1 e.2).setError .busTimeout }.unitHeld one [c] false)) ∧
          (∀ x y f, FailsWith x y f → met 17 [x, y] ((a.flagged f).unitHeld one [c] true)) ∧
          (∀ x w, x ≠ .completes → met 18 [x, .timesOut w] ((a.flagged .busTimeout).unitHeld one [c] true)) ∧
          (∀ x w, x ≠ .completes →
            let r := (a.flagged .parity).chainRestarted c n
            r.poolFull → ∃ t, met 18 [x, .faults w] t ∧
              (r.unitHeld ⟨[.chainBroken .notice tail none .parity], s.session.tod, 0⟩ [] false).sameAs t) ∧
          (a.tailSound tail c → ∀ v w,
            let link := a.params.cellWord tail 1
            met 19 [.timesOut v, .timesOut w] ({ a with
              bus := ((a.bus.pokeIf v link (word c)).pokeIf w link (word c)).setError .busTimeout }.unitHeld one [c] true)))) ∧
    (∀ c,
      (ClaimsCell s c →
        let a := (armed.claims c).wrote c n time repeats
        a.tailSound tail c → retakes one [] false (a.linkedTo tail c n).unitIdle) ∧
      (let a := armed.wrote c n time repeats
       a.tailSound tail c → retakes one [c] false (a.linkedTo tail c n).unitIdle) ∧
      (armed.tailSound tail c → retakes one [c] true (armed.linkedTo tail c n).unitIdle)) ∧
    ∀ n₂ : NoticeBody, n₂.isStartDone = false →
      let pair : Item := ⟨[n, n₂], time, repeats⟩
      let both (claimed : State) (c c₂ : Nat) (comes : State → Prop) : Prop :=
        let a := claimed.wrote c n time repeats
        let b := (a.linkedTo tail c n).wrote c₂ n₂ time repeats
        a.tailSound tail c → b.tailSound c c₂ → comes (b.linkedTo c c₂ n₂).unitIdle
      (s.notices.unit = .idle → s.notices.inbox = pair :: rest →
        (s.poolFull → ends (arrived.unitHeld pair [] false)) ∧
        ∀ c, ClaimsCell s c →
          ((arrived.claims c).poolFull → ends ((arrived.claims c).unitHeld pair [c] false)) ∧
          ∀ c₂, ClaimsCell (arrived.claims c) c₂ → both ((arrived.claims c).claims c₂) c c₂ ends) ∧
      ∀ c c₂, ClaimsCell s c₂ → both (armed.claims c₂) c c₂ (retakes pair [c] false)

/-! ## The board formatter (chapter 05) -/

/-- R86, R100. Cells shown on a module: the image takes each cell that differs, and no other cell changes. The dirty range of a
LIVE module becomes the smallest range that covers the old one and every cell that changed; that of another module stays. -/
def Obligations.ShownCellsJoinTheDirtyRange : Prop :=
  ∀ (x : Module) (start : Nat) (cells : List BoardCell),
    let y := x.showCells start cells
    let changed (k : Nat) : Prop := ∃ i : Fin 32, i.val = k ∧ Bank.get y.image i ≠ Bank.get x.image i
    y = { x with image := y.image, dirty := y.dirty } ∧
    (∀ i : Fin 32, Bank.get y.image i = if start ≤ i.val then (cells[i.val - start]?).getD (Bank.get x.image i)
      else Bank.get x.image i) ∧
    (x.live = false → y.dirty = x.dirty) ∧ ((∀ k, ¬ changed k) → y.dirty = x.dirty) ∧
    (x.live = true → (∃ k, changed k) → ∃ r, y.dirty = some r ∧
      (∀ k, changed k → r.first ≤ k ∧ k ≤ r.last) ∧
      (∀ o, x.dirty = some o → r.first ≤ o.first ∧ o.last ≤ r.last) ∧
      (changed r.first ∨ ∃ o, x.dirty = some o ∧ o.first = r.first) ∧
      (changed r.last ∨ ∃ o, x.dirty = some o ∧ o.last = r.last))

/-- R40, R79, R80, R87, R89, R91. A change event is taken: with a trade mark a highlight starts on each LAST, CHANGE and TICK placement of
the instrument's chain and its timer entry is replaced, and with the set ALL the chain's highlights end; then each placement of
the chain whose row of R40 names a changed field is rendered, and nothing else. The chain is the one that the links of the table
make from the head that the record holds (that every instrument has one: the invariant BoundsKept). With no event waiting nothing
happens (log 3). -/
def Obligations.ChangeEventRendersTheChain : Prop :=
  ∀ (h : List HostWrite) (before s : State), s = before.hostWrites h → s.bus.script = [] →
    (s.fmt.changes = [] → exec (.changeEvent h) before = .next s) ∧
    ∀ (e : ChangeEvent) (rest : List ChangeEvent) (chain : List Nat), s.fmt.changes = e :: rest → s.ChainIs e.instr chain →
      let has (k : Nat) (p : FieldKind → Bool) : Bool := (s.fmt.placement k).any fun q => p q.kind
      let lively (kind : FieldKind) : Bool := kind = .last || kind = .change || kind = .tick
      let ends : Bool := e.mark.isNone && decide (e.fields = ChangedField.all)
      let reaches (kind : FieldKind) : Bool := e.fields.any fun f => decide (f ∈ placementFields kind)
      let expiry := s.now + s.params.highlight * 1000
      let starts (k : Nat) : Prop := e.mark.isSome = true ∧ k ∈ chain ∧ has k lively = true
      let stops (k : Nat) : Prop := ends = true ∧ k ∈ chain
      ∃ u t, exec (.changeEvent h) before = .next t ∧ Renders u t (chain.filter fun k => has k reaches) ∧
        u = { s with fmt := { s.fmt with changes := rest, table := u.fmt.table, timers := u.fmt.timers } } ∧
        (∀ k, (starts k → u.fmt.placement k = (s.fmt.placement k).map fun p => { p with highlight := e.mark }) ∧
          (stops k → u.fmt.placement k = (s.fmt.placement k).map fun p => { p with highlight := none }) ∧
          (¬ starts k → ¬ stops k → u.fmt.placement k = s.fmt.placement k)) ∧
        ∀ x : TimerEntry, x ∈ u.fmt.timers ↔
          (x ∈ s.fmt.timers ∧ ¬ starts x.placement ∧ ¬ stops x.placement) ∨ (starts x.placement ∧ x.expiry = expiry)

/-- R85, R88, R90. A session event renders every LAST, CHANGE and TICK placement again; a feed-stage event the stale cell of
every present module, in the stage it carries; the front of the timer list, once reached in service, ends its highlights and
renders those placements. With no event waiting, or before the expiry, nothing happens (log 3). A session event renders by rising entry number
(log 37). -/
def Obligations.SessionStageAndExpiryRender : Prop :=
  ∀ (h : List HostWrite) (before s : State), s = before.hostWrites h → s.bus.script = [] →
    (match s.fmt.sessionEvents with
      | [] => exec (.sessionEvent h) before = .next s
      | _ :: rest => ∃ t, exec (.sessionEvent h) before = .next t ∧
        Renders { s with fmt := { s.fmt with sessionEvents := rest } } t
          ((s.fmt.table.map (·.1)).filter fun k => (s.fmt.placement k).any fun p =>
            p.kind = .last || p.kind = .change || p.kind = .tick)) ∧
    (match s.fmt.stageEvents with
      | [] => exec .feedStageEvent s = .next s
      | stage :: rest => ∃ t, exec .feedStageEvent s = .next t ∧
        t = { s with fmt := { s.fmt with stageEvents := rest }, lines := t.lines } ∧
        (∀ n, t.line n = { s.line n with modules := (t.line n).modules }) ∧
        ∀ n m, (t.line n).module m =
          let x := (s.line n).module m
          match x.stale with
          | some c => if x.present then x.showCells c.val [staleCell stage] else x
          | none => x) ∧
    (match s.fmt.timers with
      | [] => exec (.highlightExpiry h) before = .next s
      | e :: _ =>
        if s.inService = true ∧ e.expiry ≤ s.now then
          let ended := (s.fmt.timers.filter fun y => y.expiry = e.expiry).map (·.placement)
          ∃ u t, exec (.highlightExpiry h) before = .next t ∧ Renders u t ended ∧
            u = { s with fmt := { s.fmt with
              table := u.fmt.table, timers := s.fmt.timers.filter fun y => y.placement ∉ ended } } ∧
            ∀ k, u.fmt.placement k =
              if k ∈ ended then (s.fmt.placement k).map fun p => { p with highlight := none } else s.fmt.placement k
        else exec (.highlightExpiry h) before = .next s)

/-- R76 to R80, R82, R85, R86, R92, R94, R99, R111. REMAP_LINE_FINISHED, on a bus that completes every access: steps 2 to 5 of R92
(step 1 came before: log 20). The line is no longer under REMAP; each of its modules follows the table of R99 for the present flag
and width its record gives. Each used slot, in order, is kept where it passes R77 and a table entry is free, and becomes a placement
at the head of its instrument's chain; it is a fault where it does not pass; it finds no room else. Faults, no-room count, flag and
notices are R78's, R79's and R94's; every cell of the line's images is rendered, and a LIVE module's whole width is dirty. At START
the controller starts work. The next line's REMAP begins, or the REMAP is complete and a REMAP posting in hand is written TAKEN. With
no REMAP in hand nothing happens (log 3). That a posting's REMAP hands on TABLE FAULT before BOARD MAP FULL is log 45. A posting in
hand is in a cell of the pool, the placements of the line are gone, and the table is in canonical form where the slots are spoken of
(the invariants BoundsKept and CanonicalFormsKept). -/
def Obligations.RemapLineFinishes : Prop :=
  ∀ (h : List HostWrite) (before s : State), s = before.hostWrites h → s.bus.script = [] →
    (s.linesWork = false ∨ s.fmt.remap = none → exec (.remapLineFinished h) before = .next s) ∧
    ∀ job : RemapJob, s.linesWork = true → s.fmt.remap = some job →
      let n := job.line
      let recordWord (m : Fin 32) (k : Nat) : Word := s.bus.peek (s.params.moduleRecord n m + word k)
      let found (m : Fin 32) : Option Width := if (recordWord m 0).bit 15 then widthOf ((recordWord m 0).bits 0 2) else none
      let starts : Bool := job.cause = .start
      let taken : Bool := decide (job.after = []) && decide (job.cause = .posting) && decide (s.intake.state = .applying)
      ∃ v u t, exec (.remapLineFinished h) before = .next t ∧
        (match (if taken then s.intake.current else none) with
          | some c => c < s.params.cellCount → Taken c u t
          | none => t = u) ∧
        (match job.after with
          | k :: r => Begins v u ⟨k, r, job.cause⟩
          | [] => u = { v with fmt := { v.fmt with remap := none } }) ∧
        v = { s with
          bus := { s.bus with error := v.bus.error, groups := v.bus.groups }
          store := v.store
          fmt := { s.fmt with table := v.fmt.table, held := v.fmt.held }
          lines := v.lines
          notices := { s.notices with inbox := v.notices.inbox } } ∧
        ChainHeadsOnly s v ∧ (∀ k, k ≠ n → v.line k = s.line k) ∧
        v.line n = { s.line n with
          underRemap := false
          modules := (v.line n).modules
          blankDue := (s.line n).blankDue || starts || ((s.line n).module 31).blankDue ||
            (((s.line n).module 31).present && (found 31).isNone)
          intensityDue := if starts then some .full else (s.line n).intensityDue
          working := (s.line n).working || starts } ∧
        (∀ m, let x := (s.line n).module m
          let y := (v.line n).module m
          let blank (was : Bool) : Bool := was && m != 31
          match found m, x.present with
          | none, false => y = { x with blankDue := blank x.blankDue, image := y.image, stale := y.stale }
          | some w, false => y = { x with
              present := true, width := some w, state := .unknown, dirty := none, inFlight := none, attempts := 0, poll := .due,
              blankDue := blank x.blankDue, image := y.image, stale := y.stale }
          | none, true => y = { x with
              present := false, width := none, state := .unknown, dirty := none, inFlight := none, attempts := 0,
              poll := .stopped, blankDue := blank true, image := y.image, stale := y.stale }
          | some w, true =>
            y = { x with
              width := some w, dirty := y.dirty, blankDue := blank x.blankDue, image := y.image, stale := y.stale } ∧
            (x.state ≠ .live → y.dirty = x.dirty) ∧
            (x.state = .live → ∃ r, y.dirty = some r ∧ r.first = 0 ∧ w.cells - 1 ≤ r.last)) ∧
        ((∀ k p, s.fmt.placement k = some p → p.line ≠ n) → Sparse.wf none s.fmt.table = true →
          ∃ fate : Fin 32 × Fin 8 → Fate,
            let slotWord (e : Fin 32 × Fin 8) (k : Nat) : Word := recordWord e.1 (2 + 3 * e.2.val + k)
            let used (e : Fin 32 × Fin 8) : Bool := (found e.1).isSome && (slotWord e 0).bit 15
            let start (e : Fin 32 × Fin 8) : Nat := (slotWord e 1).bits 5 5
            let width (e : Fin 32 × Fin 8) : Nat := (slotWord e 1).bits 0 5
            let entry (e : Fin 32 × Fin 8) : Option Nat := if used e then (match fate e with | .kept k => some k | _ => none) else none
            let fits (e : Fin 32 × Fin 8) : Prop :=
              (slotWord e 0).bits 0 15 < 2048 ∧ (fieldKindOf ((slotWord e 1).bits 12 4)).isSome = true ∧
              1 ≤ width e ∧ width e ≤ 16 ∧ (∀ w, found e.1 = some w → start e + width e ≤ w.cells) ∧ (slotWord e 2).bits 0 6 < 32 ∧
              ∀ j, j < e.2 → (entry (e.1, j)).isSome = true →
                start (e.1, j) + width (e.1, j) ≤ start e ∨ start e + width e ≤ start (e.1, j)
            let built (e : Fin 32 × Fin 8) : Nat := ((slotOrder.take (8 * e.1.val + e.2.val)).filterMap entry).length
            let free : Nat := (List.range 1024).countP fun k => (s.fmt.placement k).isNone
            let staleWord (m : Fin 32) : Word := recordWord m 1
            let faults : Nat := slotOrder.countP (fun e => used e && decide (fate e = .fault))
              + (List.finRange 32).countP (fun m => (recordWord m 0).bit 15 && (found m).isNone)
              + (List.finRange 32).countP fun m => (found m).isSome && (staleWord m).bit 15 && ((v.line n).module m).stale.isNone
            let noRoom : Nat := slotOrder.countP fun e => used e && decide (fate e = .noRoom)
            let reports : List NoticeBody := (if faults = 0 then [] else [.tableFaultRemap n faults])
              ++ (if noRoom = 0 then [] else [.boardMapFull n noRoom])
            (∀ e, used e = true →
              (¬ fits e → fate e = .fault) ∧ (fits e → free ≤ built e → fate e = .noRoom) ∧
              (fits e → built e < free → ∃ k p, fate e = .kept k ∧ k < 1024 ∧ s.fmt.placement k = none ∧
                v.fmt.placement k = some p ∧ p.line = n ∧ p.module = e.1 ∧ p.start = start e ∧ p.width = width e ∧
                fieldKindOf ((slotWord e 1).bits 12 4) = some p.kind ∧ p.format.val = (slotWord e 2).bits 0 6 ∧
                p.instr.val = (slotWord e 0).bits 0 15 ∧ p.highlight = none)) ∧
            (slotOrder.filterMap entry).Nodup ∧
            (∀ k, k ∉ slotOrder.filterMap entry → v.fmt.placement k = s.fmt.placement k) ∧
            (∀ i ks, s.ChainIs i ks →
              v.ChainIs i (((slotOrder.filter fun e => (slotWord e 0).bits 0 15 = i.val).filterMap entry).reverse ++ ks)) ∧
            (∀ m, ((v.line n).module m).stale.map (·.val) =
              match found m with
              | some w => if (staleWord m).bit 15 = true ∧ (staleWord m).bits 0 5 < w.cells ∧ ∀ j, (entry (m, j)).isSome = true →
                  (staleWord m).bits 0 5 < start (m, j) ∨ start (m, j) + width (m, j) ≤ (staleWord m).bits 0 5
                then some ((staleWord m).bits 0 5) else none
              | none => none) ∧
            (∀ f, v.bus.hasError f = (s.bus.hasError f || (decide (f = .tableFault) && decide (faults ≠ 0)))) ∧
            v.fmt.held = s.fmt.held ++ (if starts then reports else []) ∧
            v.notices.inbox = s.notices.inbox ++ s.items (if starts then [] else reports) ∧
            (∀ k p, v.fmt.placement k = some p → p.line = n → ∀ c : Fin 32, p.start ≤ c.val → c.val < p.start + p.width →
              let o := s.params.formatEntry p.format.val
              some (Bank.get ((v.line n).module p.module).image c) = (placementCells (v.record p.instr) s.session.state
                (formatOf [s.bus.peek o, s.bus.peek (o + 1), s.bus.peek (o + 2), s.bus.peek (o + 3)]) p)[c.val - p.start]?) ∧
            (∀ (m c : Fin 32), (∀ k p, v.fmt.placement k = some p → p.line = n → p.module = m →
                c.val < p.start ∨ p.start + p.width ≤ c.val) →
              Bank.get ((v.line n).module m).image c =
                if ((v.line n).module m).stale = some c then staleCell s.session.stage else .blank) ∧
            ∀ m w, found m = some w → ((s.line n).module m).live = true →
              ((v.line n).module m).dirty = some ⟨0, w.cells - 1⟩)

/-! ## Board lines (chapter 06) -/

/-- R109, R110. A night set and a night clear reach a board line controller; a command whose event is not the first waiting does
nothing (log 3). -/
def Obligations.NightReachesBoardLine : Prop :=
  ∀ (s : State) (n : Fin 4),
    let l := s.line n
    (∀ rest, l.nights = true :: rest → ∃ t, exec (.nightSet n) s = .next t ∧
      ChangesLine s t n { l with nights := rest, night := true, blankDue := true, intensityDue := some .dim }) ∧
    (∀ rest, l.nights = false :: rest → ∃ t, exec (.nightClear n) s = .next t ∧
      t = { s with lines := t.lines } ∧ (∀ k, k ≠ n → t.line k = s.line k) ∧
      t.line n = { l with nights := rest, night := false, intensityDue := some .full, modules := (t.line n).modules } ∧
      ∀ m, (t.line n).module m = (l.module m).repainted) ∧
    (l.nights.head? ≠ some true → ∃ t, exec (.nightSet n) s = .next t ∧ t = s) ∧
    (l.nights.head? ≠ some false → ∃ t, exec (.nightClear n) s = .next t ∧ t = s)

/-- R96, R97, R101, R102, R106. The frame a free line chooses, by the first step of R101 that finds one, with its bytes, and what
its choice changes; the line stays free when no step finds a frame, and chooses none under REMAP, before its controller works,
outside the controller states that allow work, or with a frame in flight. -/
def Obligations.FreeLineChoosesNextFrame : Prop :=
  ∀ (s : State) (n : Fin 4),
    let l := s.line n
    let sends (l' : BoardLine) (k : BoardFrameKind) (bytes : List Byte) : Prop :=
      ∃ t, exec (.chooseNextFrame n) s = .next t ∧ ChangesLine s t n { l' with frame := some ⟨k, bytes, .sending⟩ }
    let wants (x : Module) : Bool := x.live && x.dirty.isSome
    let row (m : Fin 32) (x : Module) : Bool := decide (m.val < l.priority) && wants x
    let other (m : Fin 32) (x : Module) : Bool := decide (l.priority ≤ m.val) && wants x
    let lost (_ : Fin 32) (x : Module) : Bool := x.present && decide (x.state ≠ .live) && decide (x.poll = .due)
    let turn (m : Fin 32) : Nat := match l.roundRobin with | none => m.val | some p => (m.val + 31 - p.val) % 32
    let write (m : Fin 32) (position : Option (Fin 32)) : Prop :=
      let x := l.module m
      ∀ r, x.dirty = some r →
        sends { l.having m { x with inFlight := some r, dirty := none } with roundRobin := position } (.writeCells m)
          (writeCellsFrame m r (cellsOf x.image r))
    if s.linesWork = false ∨ l.working = false ∨ l.underRemap = true ∨ l.frame ≠ none then
      exec (.chooseNextFrame n) s = .next s
    else if l.blankDue = true then sends l .broadcastBlank (withCheck [0xA3, 31])
    else
      (∀ v, l.intensityDue = some v →
        sends l (.intensity v) (withCheck [0xA4, 31, if v = .full then 0 else 1])) ∧
      (l.intensityDue = none →
        if ∃ m, (l.module m).blankDue = true then
          ∀ m, l.lowest (fun _ x => x.blankDue) m → sends l (.blank m) (withCheck [0xA3, byte m.val])
        else if l.night = false ∧ ∃ m, row m (l.module m) = true then
          ∀ m, l.lowest row m → write m l.roundRobin
        else if ∃ m, lost m (l.module m) = true then
          ∀ m, l.lowest lost m →
            sends (l.having m { l.module m with poll := .stopped }) (.statusPoll m) (withCheck [0xA2, byte m.val])
        else if l.night = false ∧ ∃ m, other m (l.module m) = true then
          ∀ m, other m (l.module m) = true → (∀ k, other k (l.module k) = true → turn m ≤ turn k) → write m (some m)
        else exec (.chooseNextFrame n) s = .next s)

/-- R97, R98, R108. The end of sending: a WRITE CELLS or STATUS POLL waits in its reply window of 20 ms; a BLANK or INTENSITY frees
the line and clears its flag, and a broadcast BLANK by day makes every LIVE module's whole width dirty. An INTENSITY replaced
while it was sent stays due (log 15). With no frame being sent nothing happens (log 3). -/
def Obligations.BoardFrameSendingEnds : Prop :=
  ∀ (s : State) (n : Fin 4),
    let l := s.line n
    let becomes (l' : BoardLine) : Prop := ∃ t, exec (.boardFrameSent n) s = .next t ∧ ChangesLine s t n l'
    match l.frame with
    | some ⟨k, bytes, .sending⟩ =>
      match k with
      | .writeCells _ | .statusPoll _ => becomes { l with frame := some ⟨k, bytes, .window (s.now + 20)⟩ }
      | .blank m => becomes { l.having m { l.module m with blankDue := false } with frame := none }
      | .intensity v =>
        becomes { l with frame := none, intensityDue := if l.intensityDue = some v then none else l.intensityDue }
      | .broadcastBlank =>
        ∃ t, exec (.boardFrameSent n) s = .next t ∧
          ChangesLine s t n { l with frame := none, blankDue := false, modules := (t.line n).modules } ∧
          ∀ m, (t.line n).module m = if l.night = true then l.module m else (l.module m).repainted
    | _ => exec (.boardFrameSent n) s = .next s

/-- R98, R103, R104, R105, R111. The outcome of a WRITE CELLS: an ACCEPT or REJECT in the window with the module's address and the
right check byte, or the end of the window. A failed frame merges its range back, the smallest that covers both, within the width, and counts; the third
makes the module DARK, with a notice. A reply that is late, misaddressed, wrongly checked or of the wrong kind is discarded, and
REPLY_WINDOW before the window's end does nothing (log 3). -/
def Obligations.WriteCellsReachesItsOutcome : Prop :=
  ∀ (s : State) (n : Fin 4) (address check : Byte),
    let l := s.line n
    let fails (command : Instr) (m : Fin 32) (at_ : Nat) : Prop :=
      let x := l.module m
      let becomes (y : Module) (t : State) : Prop := ChangesLine s t n { l.having m y with frame := none }
      if x.live = false then ∃ t, exec command s = .next t ∧ becomes x t
      else if x.attempts < 2 then
        ∃ t dirty, exec command s = .next t ∧
          becomes { x with dirty := dirty, inFlight := none, attempts := x.attempts + 1 } t ∧
          ∀ w, x.width = some w →
            let within (r : Range) : Option Range := if r.first < w.cells then some ⟨r.first, min r.last (w.cells - 1)⟩ else none
            (dirty = match x.dirty, x.inFlight with
              | none, none => none
              | some r, none => within r
              | none, some r => within r
              | some r, some q => within ⟨min r.first q.first, max r.last q.last⟩) ∧
            (∀ k, k < w.cells → inRange x.dirty k ∨ inRange x.inFlight k → inRange dirty k) ∧
            ∀ k, inRange dirty k → k < w.cells
      else
        ∃ t u, exec command s = .next u ∧ ReportsModule s t u n (.moduleLost n m) ∧
          becomes { x with state := .dark, dirty := none, inFlight := none, attempts := 0, poll := .running (at_ + 5000) } t
    let answered (kind : Byte) (m : Fin 32) (ends : Nat) : Prop :=
      s.now ≤ ends ∧ address = byte m.val ∧ check = kind + address
    match l.waiting with
    | some (.writeCells m, ends) =>
      (if answered 0xB1 m ends then
        ∃ t, exec (.accept n address check) s = .next t ∧
          ChangesLine s t n { l.having m (if (l.module m).present then { l.module m with inFlight := none, attempts := 0 }
            else l.module m) with frame := none }
      else exec (.accept n address check) s = .next s) ∧
      (if answered 0xB2 m ends then fails (.reject n address check) m s.now
      else exec (.reject n address check) s = .next s) ∧
      (if ends ≤ s.now then fails (.replyWindow n) m ends else exec (.replyWindow n) s = .next s)
    | _ => exec (.accept n address check) s = .next s ∧ exec (.reject n address check) s = .next s

/-- R98, R106, R107, R111. The outcome of a STATUS POLL: a STATUS REPLY makes a module in UNKNOWN or DARK LIVE with its whole width
dirty, with a notice for a DARK one and the broadcast BLANK due at night; without a reply the poll timer is set 5 seconds on. A
reply that does not answer the poll is discarded. A poll timer that reaches its time is due. POLL_TIMER and REPLY_WINDOW do nothing
before their time (log 3). -/
def Obligations.StatusPollReachesItsOutcome : Prop :=
  ∀ (s : State) (n : Fin 4) (address width check : Byte) (m : Fin 32),
    let l := s.line n
    (if s.linesWork = true ∧ (l.module m).poll.reached s.now = true then
      ∃ t, exec (.pollTimer n m) s = .next t ∧ ChangesLine s t n (l.having m { l.module m with poll := .due })
    else exec (.pollTimer n m) s = .next s) ∧
    (l.waiting = none → exec (.replyWindow n) s = .next s) ∧
    match l.waiting with
    | some (.statusPoll k, ends) =>
      let x := l.module k
      let returns : Bool := x.present && decide (x.state ≠ .live)
      (if s.now ≤ ends ∧ address = byte k.val ∧ check = 0xB3 + address + width then
        ∃ t u, exec (.statusReply n address width check) s = .next u ∧
          ChangesLine s t n { l.having k (if returns then { x with
              state := .live, attempts := 0, dirty := x.width.map fun w => ⟨0, w.cells - 1⟩, polled := true }
            else { x with polled := true }) with frame := none, blankDue := l.blankDue || (returns && l.night) } ∧
          if x.present = true ∧ x.state = .dark then ReportsModule s t u n (.moduleBack n k width) else u = t
      else exec (.statusReply n address width check) s = .next s) ∧
      (if ends ≤ s.now then
        ∃ t, exec (.replyWindow n) s = .next t ∧
          ChangesLine s t n { l.having k { x with
            poll := if x.present then .running (ends + 5000) else x.poll, polled := true } with frame := none }
      else exec (.replyWindow n) s = .next s)
    | _ => exec (.statusReply n address width check) s = .next s

/-! ## Tape units (chapter 07) -/

/-- R114, R117 to R120. A print joins the tail; on a full queue it is folded into its instrument's newest waiting entry when both
are plain trades and there is room in the merged list, and is otherwise discarded with its notice. A cancel takes out the newest
waiting triple of its instrument with the print id, and otherwise joins the tail or is discarded with its notice. A command whose
arrival is not the first waiting does nothing (log 3). -/
def Obligations.PrintsAndCancelsArrive : Prop :=
  ∀ (s : State) (d : TapeId),
    let x := s.tape d
    let becomes (command : Instr) (y : Tape) (notices : List NoticeBody) : Prop :=
      ∃ t, exec command s = .next t ∧
        t = { s with
          tapes := t.tapes, notices := { s.notices with inbox := s.notices.inbox ++ s.items notices } } ∧
        ∀ k, t.tape k = if k = d then y else s.tape k
    (∀ i mode tr op late time rest, x.inbox = .print i mode tr op late time :: rest →
      let y : Tape := { x with inbox := rest }
      let omitted : Prop := becomes (.printArrival d) y [.tapeOmission d .trade (some i) (some tr.price) (some tr.id) time]
      (x.queue.length < 256 →
        becomes (.printArrival d) { y with queue := x.queue ++ [.trade i mode time op late [tr]] } []) ∧
      (256 ≤ x.queue.length →
        (op = true ∨ late = true → omitted) ∧
        ((∀ e ∈ x.queue, e.instr ≠ some i) → omitted) ∧
        (op = false → late = false → ∀ older e newer, x.queue = older ++ e :: newer → e.instr = some i →
          (∀ z ∈ newer, z.instr ≠ some i) →
          (∀ m t merged, e = .trade i m t false false merged → merged.length < 8 →
            becomes (.printArrival d)
              { y with queue := older ++ .trade i m t false false (merged ++ [tr]) :: newer } []) ∧
          ((∀ m t merged, e = .trade i m t false false merged → 8 ≤ merged.length) → omitted)))) ∧
    (∀ i id mode price time rest, x.inbox = .cancel i id mode price time :: rest →
      let y : Tape := { x with inbox := rest }
      let holds (e : Entry) : Bool :=
        match e with | .trade j _ _ _ _ merged => j = i && merged.any (fun z => z.id = id) | _ => false
      (∀ older m t op late a z b newer, x.queue = older ++ .trade i m t op late (a ++ z :: b) :: newer → z.id = id →
        (∀ v ∈ b, v.id ≠ id) → newer.any holds = false →
        becomes (.cancelArrival d)
          { y with queue := older ++ (if a ++ b = [] then [] else [.trade i m t op late (a ++ b)]) ++ newer } []) ∧
      (x.queue.any holds = false →
        (x.queue.length < 256 → becomes (.cancelArrival d) { y with queue := x.queue ++ [.cancel i mode price] } []) ∧
        (256 ≤ x.queue.length →
          becomes (.cancelArrival d) y [.tapeOmission d .cancel (some i) price (some id) time]))) ∧
    ((∀ i mode tr op late time rest, x.inbox ≠ .print i mode tr op late time :: rest) → exec (.printArrival d) s = .next s) ∧
    ((∀ i id mode price time rest, x.inbox ≠ .cancel i id mode price time :: rest) → exec (.cancelArrival d) s = .next s)

/-- R114, R115, R116, R120, R193. A note and a NORMAL text join the tail; an URGENT text stands directly behind the last waiting
URGENT text, or at the head; on a full queue each is discarded with its notice. The texts of the feed watch wait apart from
those of intake and the session changes (log 42). A command whose arrival is not the first waiting does nothing (log 3). -/
def Obligations.NotesAndTextsArrive : Prop :=
  ∀ (s : State) (d : TapeId),
    let x := s.tape d
    let becomes (command : Instr) (y : Tape) (notices : List NoticeBody) : Prop :=
      ∃ t, exec command s = .next t ∧
        t = { s with
          tapes := t.tapes, notices := { s.notices with inbox := s.notices.inbox ++ s.items notices } } ∧
        ∀ k, t.tape k = if k = d then y else s.tape k
    let places (command : Instr) (y : Tape) (text : List Byte) (urgent : Bool) (time : Option Tod) : Prop :=
      (256 ≤ x.queue.length → becomes command y [.tapeOmission d .text none none none time]) ∧
      (x.queue.length < 256 →
        (urgent = false → becomes command { y with queue := x.queue ++ [.text text false] } []) ∧
        (urgent = true → ∀ before behind, x.queue = before ++ behind → (∀ e ∈ behind, e.isUrgent = false) →
          (∀ e, before.getLast? = some e → e.isUrgent = true) →
          becomes command { y with queue := before ++ .text text true :: behind } []))
    (∀ resumed i mode time rest, x.inbox = .note resumed i mode time :: rest →
      let y : Tape := { x with inbox := rest }
      (x.queue.length < 256 → becomes (.noteArrival d)
        { y with queue := x.queue ++ [if resumed then .resumeNote i else .haltNote i] } []) ∧
      (256 ≤ x.queue.length → becomes (.noteArrival d) y
        [.tapeOmission d (if resumed then .resumeNote else .haltNote) (some i) none none time])) ∧
    (∀ text urgent time rest, x.inbox = .text text urgent time :: rest →
      places (.textArrival d .intake) { x with inbox := rest } text urgent time) ∧
    (∀ text urgent time rest, x.watchInbox = .text text urgent time :: rest →
      places (.textArrival d .feedWatch) { x with watchInbox := rest } text urgent time) ∧
    ((∀ resumed i mode time rest, x.inbox ≠ .note resumed i mode time :: rest) → exec (.noteArrival d) s = .next s) ∧
    ((∀ text urgent time rest, x.inbox ≠ .text text urgent time :: rest) →
      exec (.textArrival d .intake) s = .next s) ∧
    ((∀ text urgent time rest, x.watchInbox ≠ .text text urgent time :: rest) →
      exec (.textArrival d .feedWatch) s = .next s)

/-- R121 to R131, R133. The renderer acts on the head entry when the part is in service and the FIFO holds 15 characters or fewer. A
TRADE at the head whose lateness in minutes is not the one last announced brings the LATE text alone. Otherwise the entry is
taken: the level and the epoch are evaluated, with a notice of a change, which carries the lateness in whole minutes (log 34); at
LEVEL 3 a plain TRADE is merged with later ones; the rendering and two spaces join the FIFO; and a price rendered is remembered in
the tape reference of an instrument of this tape. -/
def Obligations.RendererActsOnHead : Prop :=
  ∀ (s : State) (d : TapeId),
    let x := s.tape d
    let say (text : String) : List Byte := chars text.toList
    let time : Option Tod := (x.queue.findSome? fun e => match e with | .trade _ _ t _ _ _ => some t | _ => none).join
    let age : Nat :=
      match s.session.tod, time with
      | some now, some t => (now.val + 864000 - t.val) % 864000
      | _, _ => 0
    let minutes := if 432000 < age then 0 else age / 600
    let backlog := x.queue.length
    let target : Fin 4 := if x.e3 ≤ backlog then 3 else if x.e2 ≤ backlog then 2 else if x.e1 ≤ backlog then 1 else 0
    let leave : Nat := if x.level = 1 then x.x1 else if x.level = 2 then x.x2 else if x.level = 3 then x.x3 else 0
    let level : Fin 4 := if x.level < target then target else if target < x.level ∧ backlog ≤ leave then x.level - 1 else x.level
    let epoch : Word := if x.level.val < 2 ∧ 2 ≤ level.val then x.epoch + 1 else x.epoch
    let changed : List NoticeBody := if level = x.level then [] else [.tapeLevel d x.level level backlog epoch minutes]
    let onlyTape (t : State) (y : Tape) : Prop := ∀ k, t.tape k = if k = d then y else s.tape k
    let takes (queue : List Entry) (text : List Byte) (ref : Option (Ix × Nat)) : Prop :=
      ∃ t, exec (.renderEntry d) s = .next t ∧
        t = { s with
          store := t.store
          tapes := t.tapes
          notices := { s.notices with inbox := s.notices.inbox ++ s.items changed } } ∧
        onlyTape t { x with level := level, epoch := epoch, queue := queue, fifo := x.fifo ++ text ++ [0x20, 0x20] } ∧
        ∀ j, t.record j =
          match ref with
          | some (i, tens) =>
            if j = i ∧ (s.record j).tape = some d then { s.record j with tapeRef := some ⟨tens, epoch⟩ } else s.record j
          | none => s.record j
    let symbol (i : Ix) : List Byte := if (s.record i).symbol = [] then say "----" else (s.record i).symbol
    let tens (m : Mode) (p : Price) : Nat := p.val / m.ticks / 10
    (s.inService = false ∨ x.queue = [] ∨ 15 < x.fifo.length → exec (.renderEntry d) s = .next s) ∧
    ∀ head rest, s.inService = true → x.fifo.length ≤ 15 → x.queue = head :: rest →
      match head with
      | .trade i m _ op late merged =>
        if minutes ≠ x.announced then
          ∃ t, exec (.renderEntry d) s = .next t ∧ t = { s with tapes := t.tapes } ∧
            onlyTape t { x with
              fifo := x.fifo ++ (if minutes = 0 then say "TAPE CURRENT" else say "TAPE " ++ decimal minutes ++ say " MIN LATE")
                ++ [0x20, 0x20]
              announced := minutes }
        else
          let taken := if level = 3 ∧ op = false ∧ late = false then mergeLater i merged rest else (merged, rest)
          let price := mergedPrice taken.1
          let lots := (mergedVolume taken.1).val / 100
          let shown : Bool := if level = 0 then 2 ≤ lots else x.block ≤ lots
          let text := priceParts m (tapeStyle m) price.val
          let cut : Bool := (s.record i).tape = some d && decide (2 ≤ level.val) &&
            decide ((s.record i).tapeRef = some ⟨tens m price, epoch⟩)
          takes taken.2
            (symbol i ++ [0x20] ++ (if shown then decimal (min lots 9999) ++ [0x04] else []) ++ (if op then say "OPG" else [])
              ++ (if cut then text.whole.drop (text.whole.length - 1) else text.whole) ++ text.frac
              ++ (if late then say " SLD" else []))
            (some (i, tens m price))
      | .cancel i m price =>
        takes rest
          (symbol i ++ say " CXL" ++ match price with
            | some p => [0x20] ++ (priceParts m (tapeStyle m) p.val).whole ++ (priceParts m (tapeStyle m) p.val).frac
            | none => [])
          (price.map fun p => (i, tens m p))
      | .haltNote i => takes rest (symbol i ++ say " HALTED") none
      | .resumeNote i => takes rest (symbol i ++ say " RESUMED") none
      | .text cs _ => takes rest (cs.map fun c => if ribbonGlyph c then c else 0x20) none

/-- R113, R127. The LEVEL 3 merge folds the instrument's later entries in queue order, whole, for as long as each is a plain TRADE and
the merged list stays within 8 triples; it stops at the first that is not, and passes over the other entries. It loses no trade and
reorders none: the instrument's triples stand in the merged list and then in the entries left, in the order they stood in; the other
entries stand as they stood; and a list of at most 8 triples stays one. The volume of an entry is the sum of its triples,
saturating. -/
def Obligations.LevelThreeMergeKeepsTrades : Prop :=
  ∀ (i : Ix) (m : List Triple) (q : List Entry),
    let triples (e : Entry) : List Triple := match e with | .trade j _ _ _ _ more => if j = i then more else [] | _ => []
    let mine (e : Entry) : Bool := e.instr == some i
    let plain (e : Entry) : Bool := match e with | .trade _ _ _ op late _ => !op && !late | _ => false
    let own := q.filter mine
    let folds (n : Nat) : Prop :=
      n ≤ own.length ∧ (own.take n).all plain = true ∧ (n = 0 ∨ m.length + ((own.take n).flatMap triples).length ≤ 8)
    let merged := (mergeLater i m q).1
    let left := (mergeLater i m q).2
    (∀ n, folds n → ¬ folds (n + 1) →
      merged = m ++ (own.take n).flatMap triples ∧
      ∃ passed behind, q = passed ++ behind ∧ passed.filter mine = own.take n ∧
        left = passed.filter (fun e => !mine e) ++ behind) ∧
    merged ++ left.flatMap triples = m ++ q.flatMap triples ∧
    left.Sublist q ∧ left.filter (fun e => e.instr != some i) = q.filter (fun e => e.instr != some i) ∧
    (m.length ≤ 8 → merged.length ≤ 8) ∧
    (mergedVolume m).val = min ((m.map (·.volume.val)).sum) 4294967295

/-- R132. A character time sends the character at the head of the FIFO, or a space when the FIFO is empty; character k begins
floor(1,000 × k / r) milliseconds after START completes, and before that the command does nothing (log 3). -/
def Obligations.RibbonSendsHeadOrSpace : Prop :=
  ∀ (s : State) (d : TapeId),
    let x := s.tape d
    if s.inService = true ∧ x.ribbonStart.any (fun start => start + 1000 * x.ribbonNext / x.rate ≤ s.now) = true then
      ∃ t, exec (.ribbonCharacter d) s = .next t ∧ t = { s with tapes := t.tapes } ∧
        ∀ k, t.tape k = if k = d then { x with
          ribbonOut := some (match x.fifo with | c :: _ => c | [] => 0x20)
          fifo := x.fifo.drop 1
          ribbonNext := x.ribbonNext + 1 } else s.tape k
    else exec (.ribbonCharacter d) s = .next s

/-! ## Dealer terminals (chapter 08) -/

/-- R141, R142, R153. The events that reach a context mark their rows dirty; a night set puts an ONLINE terminal to sleep, and a night
clear wakes an ASLEEP one. A command whose event is not the first waiting does nothing (log 3). -/
def Obligations.EventsReachTerminal : Prop :=
  ∀ (s : State) (k : Fin 16),
    let x := s.term k
    let becomes (command : Instr) (y : Terminal) : Prop := ∃ t, exec command s = .next t ∧ ChangesTerm s t k y
    (∀ i rest, x.changes = i :: rest →
      becomes (.terminalChangeEvent k) ({ x with changes := rest }.dirtied fun r =>
        decide (1 ≤ r.val) && decide (r.val ≤ 16) && x.pageList[r.val - 1]? == some (some i))) ∧
    (∀ st rest, x.events = .session st :: rest →
      becomes (.terminalSessionEvent k) ({ x with events := rest }.dirtied fun r => r != 17)) ∧
    (∀ st rest, x.events = .feedStage st :: rest →
      becomes (.terminalFeedStageEvent k) ({ x with events := rest }.dirtied fun r => r == 0)) ∧
    (∀ rest, x.events = .time :: rest → becomes (.timeEvent k) ({ x with events := rest }.dirtied fun r => r == 0)) ∧
    (∀ rest, x.events = .night true :: rest →
      becomes (.terminalNightSet k)
        (if x.state = .online then { x with
          events := rest, night := true, state := .asleep, blankDue := true, beep := false, poll := .due }
        else { x with events := rest, night := true })) ∧
    (∀ rest, x.events = .night false :: rest →
      becomes (.terminalNightClear k)
        (if x.state = .asleep then { x with events := rest, night := false }.awake
        else { x with events := rest, night := false })) ∧
    (x.changes = [] → becomes (.terminalChangeEvent k) x) ∧
    ((∀ st, x.events.head? ≠ some (.session st)) → becomes (.terminalSessionEvent k) x) ∧
    ((∀ st, x.events.head? ≠ some (.feedStage st)) → becomes (.terminalFeedStageEvent k) x) ∧
    (x.events.head? ≠ some .time → becomes (.timeEvent k) x) ∧
    (x.events.head? ≠ some (.night true) → becomes (.terminalNightSet k) x) ∧
    (x.events.head? ≠ some (.night false) → becomes (.terminalNightClear k) x)

/-- R152, R159, R160. A watch check trips each ARMED watch on the instrument that the last price reaches: a notice for each, in list
order, the lamp, the message row, one beep, and the bit of the watch mask recomputed. A check that trips nothing changes
nothing, and with no check waiting nothing happens (log 3). -/
def Obligations.WatchChecksTripWatches : Prop :=
  ∀ (s : State) (k : Fin 16),
    let x := s.term k
    (x.checks = [] → exec (.watchCheck k) s = .next s) ∧
    ∀ (i : Ix) (last : Price) (rest : List (Ix × Price)), x.checks = (i, last) :: rest →
      let trips (w : Watch) : Bool := w.instr = i && !w.tripped &&
        match w.dir with | .above => decide (w.level ≤ last) | .below => decide (last ≤ w.level)
      let r := s.record i
      if x.watches.any trips = false then
        ∃ t, exec (.watchCheck k) s = .next t ∧ ChangesTerm s t k { x with checks := rest }
      else
        let text := chars "ALERT ".toList ++ r.symbol ++ [0x20] ++ (priceParts r.mode .digits last.val).text
        let remain := x.watches.any fun w => w.instr = i && !w.tripped && !trips w
        ∃ t, exec (.watchCheck k) s = .next t ∧
          t = { s with
            store := t.store
            terms := t.terms
            notices := { s.notices with inbox := s.notices.inbox ++ s.items ((x.watches.filter trips).map fun w =>
              NoticeBody.watchTripped k i w.level w.dir last) } } ∧
          (∀ j, t.term j = if j = k then Terminal.beeped (Terminal.messageDirty { x with
              checks := rest
              watches := x.watches.map fun w => { w with tripped := w.tripped || trips w }
              lamp := true
              message := some (leftIn 40 text) })
            else s.term j) ∧
          ∀ j, t.record j = if j = i then { r with watchMask := Bank.set r.watchMask k remain } else s.record j

/-- R135, R137, R138, R140, R141. A free line visits the first eligible terminal after the round-robin position: a ROW for the lowest
dirty row or a BLANK SCREEN, or the POLL at once. At the end of sending a POLL waits in its window of 30 ms; a ROW or BLANK SCREEN is
followed by the POLL, unless the context has become busy, and then the line is free and a timer the visit stopped is due. With no frame being sent
TERMINAL_FRAME_SENT does nothing (log 3). -/
def Obligations.LineVisitsTerminals : Prop :=
  ∀ (s : State) (l : Fin 2),
    let line := s.tline l
    let eligible (a : Fin 8) : Bool :=
      let x := s.term (terminalOf l a)
      decide (x.work = .none) && (decide (x.state = .online) || decide (x.poll = .due))
    let turn (a : Fin 8) : Nat := match line.roundRobin with | none => a.val | some p => (a.val + 7 - p.val) % 8
    let sends (a : Fin 8) (kind : TermFrameKind) (bytes : List Byte) (stopped : Bool) (y : Terminal) : Prop :=
      ∃ t, exec (.visit l) s = .next t ∧
        ChangesTline s t l { line with
          roundRobin := some a
          frame := some ⟨kind, a, bytes, .sending, (s.term (terminalOf l a)).state, stopped⟩ } (terminalOf l a) y
    (if s.linesWork = false ∨ line.frame ≠ none ∨ ∀ a, eligible a = false then exec (.visit l) s = .next s
    else
      ∀ a, eligible a = true → (∀ b, eligible b = true → turn a ≤ turn b) →
        let x := s.term (terminalOf l a)
        match x.state with
        | .online =>
          ((∀ r, Bank.get x.dirty r = false) → sends a .poll (withCheck [0xC2, byte a.val]) false x) ∧
          ∀ r, Bank.get x.dirty r = true → (∀ q, Bank.get x.dirty q = true → r ≤ q) →
            let flags : Byte := (if r = 0 ∧ x.mask.inverse = true then 1 else 0) + (if x.lamp then 2 else 0)
              + (if x.beep then 4 else 0)
            sends a (.row r) (withCheck ([0xC1, byte a.val, byte r.val, flags] ++ s.rowChars x r)) false
              { x with dirty := Bank.set x.dirty r false, beep := false }
        | .asleep =>
          if x.blankDue = true then
            sends a .blankScreen (withCheck [0xC3, byte a.val]) true { x with poll := .stopped, blankDue := false }
          else sends a .poll (withCheck [0xC2, byte a.val]) true { x with poll := .stopped }
        | .offline => sends a .poll (withCheck [0xC2, byte a.val]) true { x with poll := .stopped }) ∧
    match line.frame with
    | some ⟨kind, a, bytes, .sending, visited, stopped⟩ =>
      let k := terminalOf l a
      let x := s.term k
      if kind = .poll then
        ∃ t, exec (.terminalFrameSent l) s = .next t ∧
          ChangesTline s t l { line with frame := some ⟨kind, a, bytes, .window (s.now + 30), visited, stopped⟩ } k x
      else if x.work = .none then
        ∃ t, exec (.terminalFrameSent l) s = .next t ∧
          ChangesTline s t l { line with
            frame := some ⟨.poll, a, withCheck [0xC2, byte a.val], .sending, visited, stopped⟩ } k x
      else
        ∃ t, exec (.terminalFrameSent l) s = .next t ∧
          ChangesTline s t l { line with frame := none } k (if stopped then { x with poll := .due } else x)
    | _ => exec (.terminalFrameSent l) s = .next s

/-- R136, R139 to R144. The outcome of a POLL: a KEY or IDLE in the window with the terminal's address and the right check byte, or the
end of the window. An answer from OFFLINE brings the terminal back with a notice and a KEY from ASLEEP wakes it, both discarding the
key; a KEY from ONLINE is dispatched, or discarded when the context is busy; the third missed POLL makes a terminal OFFLINE, with a
notice. Other replies are discarded, and POLL_REPLY_WINDOW and TERMINAL_POLL_TIMER do nothing before their time (log 3). A
terminal put to sleep while its POLL was in flight keeps the poll timer the night set gave it
(log 14). -/
def Obligations.PollReachesItsOutcome : Prop :=
  ∀ (s : State) (l : Fin 2) (address keyByte check : Byte) (k : Fin 16),
    let line := s.tline l
    (if s.linesWork = true ∧ (s.term k).poll.reached s.now = true then
      ∃ t, exec (.terminalPollTimer k) s = .next t ∧ ChangesTerm s t k { s.term k with poll := .due }
    else exec (.terminalPollTimer k) s = .next s) ∧
    match line.frame with
    | some ⟨.poll, a, _, .window ends, visited, _⟩ =>
      let n := terminalOf l a
      let x := s.term n
      let becomes (t : State) (y : Terminal) : Prop := ChangesTline s t l { line with frame := none } n { y with polled := true }
      let returned (command : Instr) : Prop :=
        if s.bus.phase = .checking then
          ∃ t, exec command s = .next t ∧
            ChangesTline s t l { line with frame := none, held := line.held ++ [n] } n { x.back with polled := true }
        else ∃ t, exec command s = .next (t.handed [.terminalOnline n]) ∧ becomes t x.back
      let replies (kind : Byte) (sum : Byte) : Prop := s.now ≤ ends ∧ address = byte a.val ∧ check = kind + sum
      (if replies 0xD1 (address + keyByte) then
        match x.state with
        | .offline => returned (.key l address keyByte check)
        | .asleep => ∃ t, exec (.key l address keyByte check) s = .next t ∧ becomes t x.awake
        | .online =>
          ∃ t key, exec (.key l address keyByte check) s = .next t ∧ key.val = keyByte.toNat % 64 ∧
            becomes t { x with miss := 0, work := if x.work = .none then .keyDispatch key else x.work }
      else exec (.key l address keyByte check) s = .next s) ∧
      (if replies 0xD2 address then
        match x.state with
        | .offline => returned (.idle l address check)
        | .asleep => ∃ t, exec (.idle l address check) s = .next t ∧
          becomes t { x with miss := 0, poll := if visited = .asleep then .running (s.now + 2000) else x.poll }
        | .online => ∃ t, exec (.idle l address check) s = .next t ∧ becomes t { x with miss := 0 }
      else exec (.idle l address check) s = .next s) ∧
      (if ends ≤ s.now then
        if x.state = .offline then
          ∃ t, exec (.pollReplyWindow l) s = .next t ∧ becomes t { x with poll := .running (ends + 4000) }
        else if x.miss < 2 then
          ∃ t, exec (.pollReplyWindow l) s = .next t ∧
            becomes t { x with
              miss := x.miss + 1
              poll := if x.state = .asleep ∧ visited = .asleep then .running (ends + 2000) else x.poll }
        else
          ∃ t, exec (.pollReplyWindow l) s = .next (t.handed [.terminalOffline n]) ∧ becomes t (x.gone ends)
      else exec (.pollReplyWindow l) s = .next s)
    | _ => exec (.key l address keyByte check) s = .next s ∧ exec (.idle l address check) s = .next s ∧
      exec (.pollReplyWindow l) s = .next s

/-- R144 to R150, R152, R164, R176. A key is dispatched: a DIRECT entry loads its page; an unassigned key is beeped; an action record
that touches the anchor, bitmap or pool region is refused with TABLE FAULT; an action is notified and carried out. A page at or
beyond the page count, compared as it is read also above 256 (log 12), a locked terminal and an empty stack refuse the key with a
beep, and so does a read that fails, of the entry, the record or the page count, with the flag of the access. That a failed read of
any of the four words of the record refuses the key whatever its action, also of an action that uses neither page number nor attribute
word, is the model's choice (log 43). With no key in dispatch nothing happens (log 3). -/
def Obligations.KeysAreDispatched : Prop :=
  ∀ (h : List HostWrite) (before s : State) (k : Fin 16), s = before.hostWrites h → s.bus.script = [] →
    let x := s.term k
    ((∀ key, x.work ≠ .keyDispatch key) → exec (.keyEntryRead k h) before = .next s) ∧
    ∀ key : Fin 64, x.work = .keyDispatch key →
      let met (attempts : List Attempt) (from_ : State) (y : Terminal) : Prop :=
        ∃ t, exec (.keyEntryRead k h) (before.meeting attempts) = .next t ∧ ChangesTerm from_ t k y
      let becomes (from_ : State) (y : Terminal) : Prop := met [] from_ y
      let refused : Terminal := x.beeped.workEnded
      let entry := s.bus.peek (s.params.keyTable + word key.val)
      let low := entry.toNat % 32768
      let show_ (from_ : State) (page : Word) (origin : LoadOrigin) : Prop :=
        if x.locked = true ∨ (s.bus.peek 9).toNat ≤ page.toNat then becomes from_ refused
        else becomes from_ { x with work := .pageLoad page origin }
      let missed (j : Nat) (from_ : State) : Prop :=
        ∀ a b f, FailsWith a b f → met (List.replicate j .completes ++ [a, b]) (from_.flagged f) refused
      missed 0 s ∧
      if entry.bit 15 = true then show_ s (word low) .directKey ∧ (x.locked = false → missed 1 s)
      else if low = 0 then becomes s refused
      else
        let first := word low
        (s.params.refusesRecord first 4 = true ↔ s.params.TouchesChain first 4) ∧
        if s.params.refusesRecord first 4 = true then
          becomes ({ s with bus := s.bus.setError .tableFault }.handed [.tableFaultTerminal k first]) refused
        else
          let action := (s.bus.peek first).toNat
          let flags := s.bus.peek (first + 1)
          let page := s.bus.peek (first + 2)
          let attrs := s.bus.peek (first + 3)
          let notified := if flags.bit 1 = true ∨ action = 3 then s.handed [.terminalKey k key x.page] else s
          (∀ j, 1 ≤ j → j ≤ 4 → missed j s) ∧ (action = 1 → x.locked = false → missed 5 notified) ∧
          if action = 1 then show_ notified page (.showPage (flags.bit 0) ⟨attrs.bit 0, attrs.bit 1⟩)
          else if action = 2 then
            match (if x.locked = true then [] else x.stack) with
            | [] => becomes notified refused
            | (top, mask) :: _ => becomes notified { x with work := .pageLoad top (.back mask) }
          else if action = 4 then
            let y := { x with lamp := false, watches := x.watches.filter fun w => !w.tripped }
            becomes notified (if x.lamp then y.messageDirty else y).workEnded
          else becomes notified x.workEnded

/-- R147, R148, R150, R151, R154, R155, R164, R176. A page load ends. It fails for a page at or beyond the page count, for a record
that touches the anchor, bitmap or pool region, for a key's load on a locked terminal, and for a read that fails (of the two anchor
words, or of the words of the record that its lengths call for: logs 23, 38), changing nothing but the error flag and a beep for a
key's load; with no load in hand nothing happens (log 3). Otherwise the stack and mask, the page, its list and title, every row and
the interest masks change in the one step. -/
def Obligations.PageLoadsComplete : Prop :=
  ∀ (h : List HostWrite) (before s : State) (k : Fin 16), s = before.hostWrites h → s.bus.script = [] →
    let x := s.term k
    ((∀ page origin, x.work ≠ .pageLoad page origin) → exec (.pageLoadComplete k h) before = .next s) ∧
    ∀ (page : Word) (origin : LoadOrigin), x.work = .pageLoad page origin →
      let first := s.bus.peek 8 + word (32 * page.toNat)
      let byKey := origin ≠ .posting
      let failed : Terminal := (if byKey then x.beeped else x).workEnded
      let met (attempts : List Attempt) (from_ : State) : Prop :=
        ∃ t, exec (.pageLoadComplete k h) (before.meeting attempts) = .next t ∧ ChangesTerm from_ t k failed
      let fails (from_ : State) : Prop := met [] from_
      let missed (j : Nat) : Prop := ∀ a b f, FailsWith a b f → met (List.replicate j .completes ++ [a, b]) (s.flagged f)
      (s.params.refusesRecord first 32 = true ↔ s.params.TouchesChain first 32) ∧ missed 0 ∧ missed 1 ∧
      if min (s.bus.peek 9).toNat 256 ≤ page.toNat then fails s
      else if s.params.refusesRecord first 32 = true then
        fails ({ s with bus := s.bus.setError .tableFault }.handed [.tableFaultTerminal k first])
      else
        (∀ j, j < 4 + (min (s.bus.peek first).toNat 24 + 1) / 2 + min (s.bus.peek (first + 13)).toNat 16 → missed j) ∧
        if byKey ∧ x.locked = true then fails s
        else
          let title := charsOf ((List.range 12).map fun j => s.bus.peek (first + word (1 + j)))
            (min (s.bus.peek first).toNat 24)
          let entries := (List.range (min (s.bus.peek (first + 13)).toNat 16)).map fun j =>
            Ix.ofNat? (s.bus.peek (first + word (14 + j))).toNat
          let stack : List (Word × PageMask) :=
            match origin, x.page with
            | .showPage true _, some p => ((p, x.mask) :: x.stack).take 4
            | .back _, _ => x.stack.drop 1
            | _, _ => x.stack
          let mask : PageMask :=
            match origin with
            | .showPage _ bits => ⟨x.mask.quiet || bits.quiet, x.mask.inverse || bits.inverse⟩
            | .back m => m
            | _ => x.mask
          ∃ t, exec (.pageLoadComplete k h) before = .next t ∧
            t = { s with store := t.store, terms := t.terms } ∧
            (∀ j, t.term j = if j = k then (Terminal.workEnded ({ x with
                stack := stack, mask := mask, page := some page, pageList := entries, title := title }.dirtied fun _ => true))
              else s.term j) ∧
            ∀ j, t.record j = { s.record j with
              interest := Bank.tabulate fun q =>
                if q ≠ k then Bank.get (s.record j).interest q
                else if entries.contains (some j) then true
                else if x.pageList.contains (some j) then false
                else Bank.get (s.record j).interest q }

/-! ## Prices and rows (chapters 01 and 08) -/

/-- R2 to R17, R19, R20, R83, R84, R156 to R158. What fields show. A number is its decimal digits, with no leading zero. The modes have
the ticks of R2. A remainder is shown as the exact common fraction in lowest terms (DIGITS),
or taken to the nearest eighth, decimal value or whole number, halves upward, in the parts that R3 to R7 give each style; a style that
does not suit the mode is replaced as the table of R8 says. A board field shows what R83 says of its kind, fitted by
R14 to R17, in the attribute of the first row of R84 that holds, and fills its width. A terminal row has 48 characters, column by
column as R156 to R158 and R19 say. A tape price is exact: two prices of a mode with one rendering are the same price. That a volume
stands at the right of its field is log 21. -/
def Obligations.PricesFitTheirFields : Prop :=
  (∀ n, n < 10 ^ 10 → (decimal n).all (fun c => decide (0x30 ≤ c.toNat ∧ c.toNat ≤ 0x39)) = true ∧
    (decimal n).foldl (fun v c => 10 * v + (c.toNat - 0x30)) 0 = n ∧ (9 < n → (decimal n).head? ≠ some 0x30) ∧
    (n ≤ 9 → (decimal n).length = 1)) ∧
  (∀ (m : Mode) (p places : Nat),
    let r := p % m.ticks
    let nearest (unit value : Nat) : Prop :=
      2 * m.ticks * value ≤ 2 * unit * r + m.ticks ∧ 2 * unit * r + m.ticks < 2 * m.ticks * (value + 1)
    nearest 8 (eighths m p) ∧ eighths m p ≤ 8 ∧
    nearest (10 ^ places) (decimalValue m places p) ∧ decimalValue m places p ≤ 10 ^ places ∧
    (m.places = none → (digitsParts m p).sign = [] ∧
      if r = 0 then (digitsParts m p).whole = decimal (p / m.ticks) ∧ (digitsParts m p).frac = []
      else ∃ n d, n % 2 = 1 ∧ d ∣ m.ticks ∧ n * m.ticks = r * d ∧
        (digitsParts m p).whole = (if p / m.ticks = 0 then [] else decimal (p / m.ticks)) ∧
        (digitsParts m p).frac = (if p / m.ticks = 0 then [] else [0x20]) ++ decimal n ++ [0x2F] ++ decimal d) ∧
    (let carries : Bool := decimalValue m places p = 10 ^ places
     let whole := if carries then p / m.ticks + 1 else p / m.ticks
     (decimalParts m places p).sign = [] ∧ (decimalParts m places p).whole = (if whole = 0 then [] else decimal whole) ∧
     ∃ digits, (decimalParts m places p).frac = [0x2E] ++ digits ∧ digits.length = places ∧
       digits.all (fun c => decide (0x30 ≤ c.toNat ∧ c.toNat ≤ 0x39)) = true ∧
       digits.foldl (fun v c => 10 * v + (c.toNat - 0x30)) 0 = if carries then 0 else decimalValue m places p) ∧
    noneParts m p = ⟨[], decimal (if 2 * r < m.ticks then p / m.ticks else p / m.ticks + 1), []⟩ ∧
    glyphParts m p =
      (let whole := if eighths m p = 8 then p / m.ticks + 1 else p / m.ticks
       let part : List Byte := if eighths m p = 0 ∨ eighths m p = 8 then [] else [byte (0x10 + eighths m p)]
       ⟨[], if whole = 0 ∧ part ≠ [] then [] else decimal whole, part⟩)) ∧
  (∀ m : Mode, (m.ticks, m.places) =
    match m with
    | .fraction2 => (2, none)
    | .fraction4 => (4, none)
    | .fraction8 => (8, none)
    | .fraction16 => (16, none)
    | .fraction32 => (32, none)
    | .fraction64 => (64, none)
    | .decimal0 => (1, some 0)
    | .decimal1 => (10, some 1)
    | .decimal2 => (100, some 2)
    | .decimal3 => (1000, some 3)) ∧
  (∀ (m : Mode) (st : Style) (p : Nat),
    priceParts m st p =
      match st, m.places with
      | .decimal places, _ => decimalParts m places p
      | .none, _ => noneParts m p
      | .digits, none => digitsParts m p
      | .glyph, none => glyphParts m p
      | _, some 0 => ⟨[], decimal p, []⟩
      | _, some (k + 1) => decimalParts m (k + 1) p) ∧
  (∀ (r : Record) (st : SessionState) (f : Format) (p : Placement), 1 ≤ p.width →
    let price (x : Option Price) : List Byte → Prop := PriceOr p.width f.fill (BoardPrice r.mode f.style p.width) x
    let lively : Bool := p.kind = .last || p.kind = .change || p.kind = .tick
    let change : Option (Price × Price) :=
      if st = .preOpen then none
      else match r.lastPx, r.prevClose with | some last, some prev => some (last, prev) | _, _ => none
    let plain : Colour :=
      match (if p.kind = .change then change else none) with
      | some (last, prev) => if prev < last then .green else if last < prev then .red else f.base
      | none => f.base
    let attr : Attr :=
      if r.state = .undefined then ⟨f.base, false, false⟩
      else if r.state = .halted ∧ p.kind = .status then ⟨.amber, true, false⟩
      else if r.state = .halted ∧ p.kind = .last then ⟨.amber, false, false⟩
      else if st = .marketHalt ∧ lively = true then ⟨.amber, false, false⟩
      else match (if lively then p.highlight else none) with
        | some d => ⟨match d with | .up => .green | .down => .red | .none => .white, false, false⟩
        | none => if st = .preOpen ∧ p.kind = .last then ⟨f.base, false, true⟩ else ⟨plain, false, false⟩
    ∃ row : List Byte, placementCells r st f p = row.map (fun g => ⟨g, attr⟩) ∧ row.length = p.width ∧
      if r.state = .undefined then row = List.replicate p.width (if p.kind = .symbol then 0x20 else f.fill)
      else
        match p.kind with
        | .symbol => row = atLeft p.width r.symbol
        | .last => price (if st = .preOpen then r.prevClose else r.lastPx) row
        | .change =>
          match change with
          | some (last, prev) => ChangeShown p.width (BoardPrice r.mode f.style p.width) f.sign f.zero last prev row
          | none => row = List.replicate p.width f.fill
        | .tick => row = List.replicate (p.width - 1) 0x20
            ++ [match r.tick with | .up => 0x01 | .down => 0x02 | .none => 0x20]
        | .bid => price r.bidPx row
        | .ask => price r.askPx row
        | .volume => VolumeShown p.width f.unit r.volume row
        | .high => price r.highPx row
        | .low => price r.lowPx row
        | .opening => price r.openPx row
        | .status => row = atLeft p.width (if r.state = .halted then chars "HALT".toList else [])) ∧
  (∀ (s : State) (x : Terminal),
    let shown (c : Byte) : Byte := if commonGlyph c = true ∨ c = 0x03 then c else 0x20
    let blanks (k : Nat) : List Byte := List.replicate k 0x20
    let two (v : Nat) : List Byte := [byte (0x30 + v / 10), byte (0x30 + v % 10)]
    (∀ row, (s.rowChars x row).length = 48) ∧
    s.rowChars x 0 = (if x.page = none then blanks 24 else atLeft 24 (x.title.map shown)) ++ blanks 1
      ++ atLeft 8 (chars (match s.session.state with
        | .preOpen => "PRE-OPEN" | .opened => "OPEN" | .marketHalt => "HALT" | .closed => "CLOSED").toList) ++ blanks 1
      ++ (if s.session.stage = .live then blanks 7 else chars "DELAYED".toList) ++ blanks 2
      ++ (match s.session.tod with
        | some t => two (t.val / 36000) ++ [0x3A] ++ two (t.val % 36000 / 600)
        | none => blanks 5) ∧
    s.rowChars x 17 = atLeft 40 ((x.message.getD []).map shown) ++ blanks 2
      ++ (if x.locked = true then chars "LOCKED".toList else blanks 6) ∧
    ∀ i : Fin 18, i ≠ 0 → i ≠ 17 →
      match (x.pageList[i.val - 1]?).join with
      | none => s.rowChars x i = blanks 48
      | some ix =>
        let r := s.record ix
        let price (w : Nat) (v : Option Price) : List Byte → Prop := PriceOr w 0x20 (TerminalPrice r.mode w) v
        if r.state = .undefined then s.rowChars x i = chars "----".toList ++ blanks 44
        else ∃ last change bid ask volume, s.rowChars x i = atLeft 6 r.symbol ++ last ++ change ++ bid ++ ask ++ volume ∧
          last.length = 10 ∧ change.length = 9 ∧ bid.length = 9 ∧ ask.length = 9 ∧ volume.length = 5 ∧
          price 10 (if s.session.state = .preOpen then r.prevClose else r.lastPx) last ∧ price 9 r.bidPx bid ∧
          price 9 r.askPx ask ∧ VolumeShown 5 100 r.volume volume ∧
          if s.session.state = .preOpen then change = blanks 9
          else if r.state = .halted then change = blanks 3 ++ chars "HALTED".toList
          else
            match r.lastPx, r.prevClose with
            | some l, some q => ChangeShown 9 (TerminalPrice r.mode 9) .sign .unch l q change
            | _, _ => change = blanks 9) ∧
  ∀ (m : Mode) (p q : Price), (tapePrice m p).text = (tapePrice m q).text → p = q

/-! ## Invariants that every step keeps -/

/-- Host memory, the price store and the placement table keep their canonical forms at every step. -/
def Obligations.CanonicalFormsKept : Prop :=
  ∀ s t : State, s.Canonical → step s = .next t → t.Canonical

/-- R63, R65, R68, R71 to R74, R162, R166, R178, R188. At every step: the area is set in every controller state but UNSET;
every block is at its reset values in UNSET and READY; night flag, night timer, feed stage and delay mark agree with the
session; and the interrupt groups agree with R188. -/
def Obligations.BlocksSessionAndGroupsKept : Prop :=
  ∀ s t : State, s.IdleBeforeStart → s.session.Sound → s.bus.GroupsSound → step s = .next t →
    t.IdleBeforeStart ∧ t.session.Sound ∧ t.bus.GroupsSound

/-- R22, R23, R25, R29, R51, R155, R160. At every step each record stays sound, each bit of a watch mask stands for an ARMED watch, and
each bit of an interest mask for an entry of a page list. -/
def Obligations.RecordsAndMasksKept : Prop :=
  ∀ s t : State, s.IdleBeforeStart → s.MasksSound → step s = .next t → t.MasksSound

/-- R29, R77, R79, R80, R89, R92, R99, R100, R112, R113, R125, R134, R169, R185. The bounds of every block hold at every step: the
queues, lists, ribbon FIFOs and counts within their sizes, the ranges within the images, the placements within the modules. So do two facts that other
statements take as premises: intake's current cell and the POSTING START cell that START accepted stay cells of the pool, and every
instrument keeps a chain, which holds each of its placements and no other (this last from a table in canonical form, the invariant
CanonicalFormsKept). -/
def Obligations.BoundsKept : Prop :=
  (∀ s t : State, s.IdleBeforeStart → s.Bounded → step s = .next t → t.Bounded) ∧
    (∀ s t : State, s.IdleBeforeStart → s.CellsSound → step s = .next t → t.CellsSound) ∧
    ∀ s t : State, s.IdleBeforeStart → s.Canonical → s.ChainsSound → step s = .next t → t.ChainsSound

/-- Every invariant holds at reset. -/
def Obligations.InvariantsHoldAtReset : Prop :=
  State.reset.Canonical ∧ State.reset.IdleBeforeStart ∧ State.reset.session.Sound ∧ State.reset.bus.GroupsSound ∧
    State.reset.MasksSound ∧ State.reset.Bounded ∧ State.reset.CellsSound ∧ State.reset.ChainsSound
end

