-- ==== Sys2Proof/Laws/Bank.lean ====
section
/-! SUPPORT. What a bank reads after each of its operations, and what a sparse table reads after a write. -/

namespace Sys2Proof.Machine

/-! ## Banks -/

variable {α : Type} {n : Nat}

@[simp] theorem Bank.get_set_self (v : Vector α n) (i : Fin n) (a : α) : Bank.get (Bank.set v i a) i = a := by
  simp [Bank.get, Bank.set]

theorem Bank.get_set_ne (v : Vector α n) {i j : Fin n} (a : α) (h : i ≠ j) : Bank.get (Bank.set v i a) j = Bank.get v j := by
  have : i.val ≠ j.val := fun e => h (Fin.ext e)
  simp [Bank.get, Bank.set, Vector.getElem_set_ne, this]

/-- A bank after a write: the value written, or what stood there. -/
theorem Bank.get_set (v : Vector α n) (i j : Fin n) (a : α) :
    Bank.get (Bank.set v i a) j = if i = j then a else Bank.get v j := by
  split
  · next h => subst h; simp
  · next h => exact Bank.get_set_ne v a h

@[simp] theorem Bank.get_modify_self (v : Vector α n) (i : Fin n) (f : α → α) :
    Bank.get (Bank.modify v i f) i = f (Bank.get v i) := by simp [Bank.modify]

theorem Bank.get_modify_ne (v : Vector α n) {i j : Fin n} (f : α → α) (h : i ≠ j) :
    Bank.get (Bank.modify v i f) j = Bank.get v j := Bank.get_set_ne v _ h

/-- A bank after a change of one entry. -/
theorem Bank.get_modify (v : Vector α n) (i j : Fin n) (f : α → α) :
    Bank.get (Bank.modify v i f) j = if i = j then f (Bank.get v j) else Bank.get v j := by
  split
  · next h => subst h; simp
  · next h => exact Bank.get_modify_ne v f h

@[simp] theorem Bank.get_tabulate (f : Fin n → α) (i : Fin n) : Bank.get (Bank.tabulate f) i = f i := by
  simp [Bank.get, Bank.tabulate]

@[simp] theorem Bank.get_mapAll (v : Vector α n) (f : Fin n → α → α) (i : Fin n) :
    Bank.get (Bank.mapAll v f) i = f i (Bank.get v i) := by simp [Bank.mapAll]

@[simp] theorem Bank.get_replicate (a : α) (i : Fin n) : Bank.get (Vector.replicate n a) i = a := by simp [Bank.get]

@[simp] theorem Bank.get_map {β : Type} (v : Vector α n) (f : α → β) (i : Fin n) :
    Bank.get (v.map f) i = f (Bank.get v i) := by simp [Bank.get]

/-- Banks that read the same everywhere are the same. -/
theorem Bank.ext {v w : Vector α n} (h : ∀ i, Bank.get v i = Bank.get w i) : v = w := by
  apply Vector.ext
  intro i hi
  exact h ⟨i, hi⟩

theorem Bank.mapAll_id (v : Vector α n) {f : Fin n → α → α} (h : ∀ i x, f i x = x) : Bank.mapAll v f = v :=
  Bank.ext fun i => by simp [h]

theorem Bank.modify_id (v : Vector α n) (i : Fin n) {f : α → α} (h : ∀ x, f x = x) : Bank.modify v i f = v :=
  Bank.ext fun j => by rw [Bank.get_modify]; split <;> simp [h]

/-- `Bank.all` is a statement about every entry. -/
theorem Bank.all_eq_true (v : Vector α n) (p : Fin n → α → Bool) :
    Bank.all v p = true ↔ ∀ i, p i (Bank.get v i) = true := by simp [Bank.all]

/-! ## Sparse tables -/

theorem Sparse.get_dropWhile_of_lt (d : α) (m : List (Nat × α)) {k j : Nat} (h : k < j) :
    Sparse.get d (m.dropWhile fun e => e.1 ≤ k) j = Sparse.get d m j := by
  induction m with
  | nil => rfl
  | cons e r ih =>
    obtain ⟨a, x⟩ := e
    by_cases ha : a ≤ k
    · have h1 : ¬ j < a := by omega
      have h2 : ¬ j = a := by omega
      simpa [List.dropWhile_cons, ha, Sparse.get, h1, h2] using ih
    · simp [ha]

theorem Sparse.get_dropWhile_of_le (d : α) (m : List (Nat × α)) {k j : Nat} (h : j ≤ k) :
    Sparse.get d (m.dropWhile fun e => e.1 ≤ k) j = d := by
  induction m with
  | nil => rfl
  | cons e r ih =>
    obtain ⟨a, x⟩ := e
    by_cases ha : a ≤ k
    · simpa [ha] using ih
    · have h1 : j < a := by omega
      simp [ha, Sparse.get, h1]

/-- What a table reads is its default or the value of one of its entries. -/
theorem Sparse.get_mem (d : α) (m : List (Nat × α)) (k : Nat) :
    Sparse.get d m k = d ∨ ∃ e ∈ m, e.1 = k ∧ e.2 = Sparse.get d m k := by
  induction m with
  | nil => exact .inl rfl
  | cons e r ih =>
    obtain ⟨a, x⟩ := e
    by_cases h1 : k < a
    · exact .inl (by simp [Sparse.get, h1])
    · by_cases h2 : k = a
      · subst h2; exact .inr ⟨(k, x), by simp, rfl, by simp [Sparse.get]⟩
      · have h : Sparse.get d ((a, x) :: r) k = Sparse.get d r k := by simp [Sparse.get, h1, h2]
        rw [h]
        rcases ih with h | ⟨e, he, h3, h4⟩
        · exact .inl h
        · exact .inr ⟨e, List.mem_cons_of_mem _ he, h3, h4⟩

variable [DecidableEq α]

/-- A sparse table after a write reads the value written at its key and what it read before elsewhere. -/
theorem Sparse.get_set (d : α) (m : List (Nat × α)) (k j : Nat) (v : α) :
    Sparse.get d (Sparse.set d m k v) j = if j = k then v else Sparse.get d m j := by
  induction m with
  | nil =>
    unfold Sparse.set
    by_cases hv : v = d
    · simp [hv, Sparse.get]
    · by_cases hj : j = k
      · subst hj; simp [hv, Sparse.get]
      · simp [hv, Sparse.get, hj]
  | cons e r ih =>
    obtain ⟨a, x⟩ := e
    unfold Sparse.set
    rcases Nat.lt_trichotomy k a with hka | rfl | hka
    · rw [if_pos hka]
      by_cases hv : v = d
      · rw [if_pos hv]
        by_cases hj : j = k
        · subst hj; simp [Sparse.get, hka, hv]
        · simp [hj]
      · rw [if_neg hv]
        by_cases hj : j = k
        · subst hj; simp [Sparse.get]
        · by_cases hlt : j < k
          · have : j < a := by omega
            simp [Sparse.get, hj, hlt, this]
          · simp [Sparse.get, hj, hlt]
    · rw [if_neg (by omega), if_pos rfl]
      by_cases hv : v = d
      · rw [if_pos hv]
        by_cases hj : j = k
        · subst hj; simp [hv, Sparse.get_dropWhile_of_le d r (Nat.le_refl j)]
        · rw [if_neg hj]
          by_cases hlt : j < k
          · simp [Sparse.get, hlt, Sparse.get_dropWhile_of_le d r (Nat.le_of_lt hlt)]
          · simp [Sparse.get, hlt, hj, Sparse.get_dropWhile_of_lt d r (show k < j by omega)]
      · rw [if_neg hv]
        by_cases hj : j = k
        · subst hj; simp [Sparse.get]
        · simp [Sparse.get, hj]
    · rw [if_neg (by omega), if_neg (by omega)]
      by_cases hlt : j < a
      · have : ¬ j = k := by omega
        simp [Sparse.get, hlt, this]
      · by_cases hja : j = a
        · have : ¬ j = k := by omega
          simp [Sparse.get, hja, show ¬ a = k by omega]
        · simp [Sparse.get, hlt, hja, ih]

@[simp] theorem Sparse.get_set_self (d : α) (m : List (Nat × α)) (k : Nat) (v : α) :
    Sparse.get d (Sparse.set d m k v) k = v := by simp [Sparse.get_set]

theorem Sparse.get_set_ne (d : α) (m : List (Nat × α)) {k j : Nat} (v : α) (h : j ≠ k) :
    Sparse.get d (Sparse.set d m k v) j = Sparse.get d m j := by simp [Sparse.get_set, h]

/-- Every entry of a table after a write is the entry written or stood there before. -/
theorem Sparse.mem_set (d : α) (m : List (Nat × α)) (k : Nat) (v : α) {e : Nat × α} (h : e ∈ Sparse.set d m k v) :
    (e = (k, v) ∧ v ≠ d) ∨ e ∈ m := by
  induction m with
  | nil =>
    unfold Sparse.set at h
    split at h
    · simp at h
    · next hv => exact .inl ⟨by simpa using h, hv⟩
  | cons a r ih =>
    obtain ⟨a, x⟩ := a
    unfold Sparse.set at h
    split at h
    · split at h
      · exact .inr h
      · next hv =>
        rcases List.mem_cons.1 h with h | h
        · exact .inl ⟨h, hv⟩
        · exact .inr h
    · split at h
      · split at h
        · exact .inr (List.mem_cons_of_mem _ ((List.dropWhile_sublist _).subset h))
        · next hv =>
          rcases List.mem_cons.1 h with h | h
          · exact .inl ⟨h, hv⟩
          · exact .inr (List.mem_cons_of_mem _ h)
      · rcases List.mem_cons.1 h with h | h
        · exact .inr (h ▸ List.mem_cons_self)
        · rcases ih h with h | h
          · exact .inl h
          · exact .inr (List.mem_cons_of_mem _ h)

theorem Sparse.wf_cons (d : α) (a : Nat) (x : α) (r : List (Nat × α)) :
    Sparse.wf d ((a, x) :: r) = true ↔ x ≠ d ∧ (∀ e ∈ r, a < e.1) ∧ Sparse.wf d r = true := by
  simp [Sparse.wf, and_assoc]

/-- A write keeps the canonical form. -/
theorem Sparse.wf_set (d : α) (m : List (Nat × α)) (k : Nat) (v : α) (h : Sparse.wf d m = true) :
    Sparse.wf d (Sparse.set d m k v) = true := by
  induction m with
  | nil =>
    unfold Sparse.set
    split
    · rfl
    · next hv => simp [Sparse.wf, hv]
  | cons e r ih =>
    obtain ⟨a, x⟩ := e
    obtain ⟨hx, hr, hw⟩ := (Sparse.wf_cons d a x r).1 h
    unfold Sparse.set
    split
    · next hka =>
      split
      · exact h
      · next hv =>
        refine (Sparse.wf_cons d k v _).2 ⟨hv, ?_, h⟩
        intro e he
        rcases List.mem_cons.1 he with rfl | he
        · exact hka
        · exact Nat.lt_trans hka (hr e he)
    · split
      · next hka =>
        subst hka
        split
        · have : r.dropWhile (fun e => decide (e.1 ≤ k)) = r := by
            cases r with
            | nil => rfl
            | cons e r' =>
              have := hr e List.mem_cons_self
              simp [show ¬ e.1 ≤ k by omega]
          rw [this]; exact hw
        · next hv => exact (Sparse.wf_cons d k v r).2 ⟨hv, hr, hw⟩
      · next h1 h2 =>
        refine (Sparse.wf_cons d a x _).2 ⟨hx, ?_, ih hw⟩
        intro e he
        rcases Sparse.mem_set d r k v he with ⟨rfl, -⟩ | he
        · show a < k; omega
        · exact hr e he

end Sys2Proof.Machine
end

