-- ==== Sys2Proof/Laws/Boards.lean ====
section
/-! SUPPORT. What the statements say of chains and of first polls, against the functions of the model that walk them. -/

namespace Sys2Proof.Machine

/-! ## Chains (R80, R87) -/

/-- The walk along links that lead through exactly the entries of a list answers the list. -/
theorem chainFrom_of_links (x : Formatter) {ks : List Nat} {head : Option Nat} {f : Nat} (h : x.Links head ks)
    (hf : ks.length ≤ f) : chainFrom x f head = ks := by
  induction ks generalizing head f with
  | nil =>
    cases head with
    | none => cases f <;> rfl
    | some k => exact h.elim
  | cons j ks ih =>
    cases head with
    | none => exact h.elim
    | some k =>
      obtain ⟨rfl, p, hp, hl⟩ := h
      obtain ⟨f, rfl⟩ : ∃ g, f = g + 1 := ⟨f - 1, by simp only [List.length_cons] at hf; omega⟩
      simp only [chainFrom, hp]
      rw [ih hl (by simpa using hf)]

/-- The chain that the model walks is the chain that the links make. -/
theorem State.ChainIs.chain_eq {s : State} {i : Ix} {ks : List Nat} (h : s.ChainIs i ks) : s.chain i = ks := by
  obtain ⟨hn, hl, hk⟩ := h
  refine chainFrom_of_links _ hl ?_
  have hs : ks ⊆ List.range 1024 := fun k m => List.mem_range.mpr (hk k m).1
  simpa [Config.placements] using (List.subperm_of_subset hn hs).length_le

/-- An instrument has one chain at most. -/
theorem State.ChainIs.unique {s : State} {i : Ix} {ks ls : List Nat} (h : s.ChainIs i ks) (g : s.ChainIs i ls) : ks = ls :=
  h.chain_eq.symm.trans g.chain_eq

/-- The kinds of placement that a change event reaches are those of the table of R40. -/
theorem FieldKind.fields_eq (kind : FieldKind) : kind.fields = placementFields kind := by cases kind <;> rfl

/-! ## First polls (R111, R143, R168) -/

/-- A terminal stands at an address of one of the two lines. -/
theorem terminalOf_surjective (k : Fin 16) : ∃ l a, terminalOf l a = k := by
  revert k; decide

/-- START's completion is due exactly when the first polls of all six lines are complete. -/
theorem State.startReady_iff (s : State) : s.startReady = true ↔ s.FirstPollsComplete := by
  have hb : Bank.all s.lines (fun _ l => l.pollsComplete) = true ↔
      ∀ n, (s.line n).working = true ∧ ∀ m, ((s.line n).module m).present = true → ((s.line n).module m).polled = true := by
    simp only [Bank.all_eq_true, BoardLine.pollsComplete, Bool.and_eq_true, Bool.or_eq_true, Bool.not_eq_true']
    refine forall_congr' fun n => and_congr_right fun _ => forall_congr' fun m => ?_
    show ((s.line n).module m).present = false ∨ _ ↔ _
    cases ((s.line n).module m).present <;> simp [BoardLine.module, State.line]
  have ht : ((List.finRange 2).all fun l => s.termPollsComplete l) = true ↔ ∀ k, (s.term k).polled = true := by
    simp only [List.all_eq_true, List.mem_finRange, true_implies, State.termPollsComplete]
    exact ⟨fun h k => by obtain ⟨l, a, rfl⟩ := terminalOf_surjective k; exact h l a, fun h l a => h _⟩
  unfold State.startReady State.FirstPollsComplete
  simp only [Bool.and_eq_true, hb, ht, decide_eq_true_eq, Option.isNone_iff_eq_none, Bool.not_eq_true']
  tauto

end Sys2Proof.Machine
end

