-- ==== Sys2Proof/Laws/State.lean ====
section
/-! SUPPORT. One lemma per field per update of the state, true by `rfl`, so that no later proof unfolds an update. -/

namespace Sys2Proof.Machine

variable (s : State)

/-! ## withBus -/

@[simp] theorem State.withBus_now (x : Bus) : (s.withBus x).now = s.now := rfl
@[simp] theorem State.withBus_bus (x : Bus) : (s.withBus x).bus = x := rfl
@[simp] theorem State.withBus_params (x : Bus) : (s.withBus x).params = s.params := rfl
@[simp] theorem State.withBus_intake (x : Bus) : (s.withBus x).intake = s.intake := rfl
@[simp] theorem State.withBus_store (x : Bus) : (s.withBus x).store = s.store := rfl
@[simp] theorem State.withBus_session (x : Bus) : (s.withBus x).session = s.session := rfl
@[simp] theorem State.withBus_fmt (x : Bus) : (s.withBus x).fmt = s.fmt := rfl
@[simp] theorem State.withBus_lines (x : Bus) : (s.withBus x).lines = s.lines := rfl
@[simp] theorem State.withBus_tapes (x : Bus) : (s.withBus x).tapes = s.tapes := rfl
@[simp] theorem State.withBus_tlines (x : Bus) : (s.withBus x).tlines = s.tlines := rfl
@[simp] theorem State.withBus_terms (x : Bus) : (s.withBus x).terms = s.terms := rfl
@[simp] theorem State.withBus_notices (x : Bus) : (s.withBus x).notices = s.notices := rfl
@[simp] theorem State.withBus_pending (x : Bus) : (s.withBus x).pending = s.pending := rfl
@[simp] theorem State.withBus_record (x : Bus) (i : Ix) : (s.withBus x).record i = s.record i := rfl
@[simp] theorem State.withBus_line (x : Bus) (n : Fin 4) : (s.withBus x).line n = s.line n := rfl
@[simp] theorem State.withBus_tape (x : Bus) (d : TapeId) : (s.withBus x).tape d = s.tape d := rfl
@[simp] theorem State.withBus_tline (x : Bus) (n : Fin 2) : (s.withBus x).tline n = s.tline n := rfl
@[simp] theorem State.withBus_term (x : Bus) (k : Fin 16) : (s.withBus x).term k = s.term k := rfl
@[simp] theorem State.withBus_withBus (x y : Bus) : (s.withBus x).withBus y = s.withBus y := rfl
@[simp] theorem State.withBus_self : s.withBus s.bus = s := rfl

/-! ## withIntake -/

@[simp] theorem State.withIntake_now (x : Intake) : (s.withIntake x).now = s.now := rfl
@[simp] theorem State.withIntake_bus (x : Intake) : (s.withIntake x).bus = s.bus := rfl
@[simp] theorem State.withIntake_params (x : Intake) : (s.withIntake x).params = s.params := rfl
@[simp] theorem State.withIntake_intake (x : Intake) : (s.withIntake x).intake = x := rfl
@[simp] theorem State.withIntake_store (x : Intake) : (s.withIntake x).store = s.store := rfl
@[simp] theorem State.withIntake_session (x : Intake) : (s.withIntake x).session = s.session := rfl
@[simp] theorem State.withIntake_fmt (x : Intake) : (s.withIntake x).fmt = s.fmt := rfl
@[simp] theorem State.withIntake_lines (x : Intake) : (s.withIntake x).lines = s.lines := rfl
@[simp] theorem State.withIntake_tapes (x : Intake) : (s.withIntake x).tapes = s.tapes := rfl
@[simp] theorem State.withIntake_tlines (x : Intake) : (s.withIntake x).tlines = s.tlines := rfl
@[simp] theorem State.withIntake_terms (x : Intake) : (s.withIntake x).terms = s.terms := rfl
@[simp] theorem State.withIntake_notices (x : Intake) : (s.withIntake x).notices = s.notices := rfl
@[simp] theorem State.withIntake_pending (x : Intake) : (s.withIntake x).pending = s.pending := rfl
@[simp] theorem State.withIntake_record (x : Intake) (i : Ix) : (s.withIntake x).record i = s.record i := rfl
@[simp] theorem State.withIntake_line (x : Intake) (n : Fin 4) : (s.withIntake x).line n = s.line n := rfl
@[simp] theorem State.withIntake_tape (x : Intake) (d : TapeId) : (s.withIntake x).tape d = s.tape d := rfl
@[simp] theorem State.withIntake_tline (x : Intake) (n : Fin 2) : (s.withIntake x).tline n = s.tline n := rfl
@[simp] theorem State.withIntake_term (x : Intake) (k : Fin 16) : (s.withIntake x).term k = s.term k := rfl
@[simp] theorem State.withIntake_inService (x : Intake) : (s.withIntake x).inService = s.inService := rfl
@[simp] theorem State.withIntake_linesWork (x : Intake) : (s.withIntake x).linesWork = s.linesWork := rfl
@[simp] theorem State.withIntake_withIntake (x y : Intake) : (s.withIntake x).withIntake y = s.withIntake y := rfl
@[simp] theorem State.withIntake_self : s.withIntake s.intake = s := rfl

/-! ## withStore -/

@[simp] theorem State.withStore_now (x : List (Nat × Record)) : (s.withStore x).now = s.now := rfl
@[simp] theorem State.withStore_bus (x : List (Nat × Record)) : (s.withStore x).bus = s.bus := rfl
@[simp] theorem State.withStore_params (x : List (Nat × Record)) : (s.withStore x).params = s.params := rfl
@[simp] theorem State.withStore_intake (x : List (Nat × Record)) : (s.withStore x).intake = s.intake := rfl
@[simp] theorem State.withStore_store (x : List (Nat × Record)) : (s.withStore x).store = x := rfl
@[simp] theorem State.withStore_session (x : List (Nat × Record)) : (s.withStore x).session = s.session := rfl
@[simp] theorem State.withStore_fmt (x : List (Nat × Record)) : (s.withStore x).fmt = s.fmt := rfl
@[simp] theorem State.withStore_lines (x : List (Nat × Record)) : (s.withStore x).lines = s.lines := rfl
@[simp] theorem State.withStore_tapes (x : List (Nat × Record)) : (s.withStore x).tapes = s.tapes := rfl
@[simp] theorem State.withStore_tlines (x : List (Nat × Record)) : (s.withStore x).tlines = s.tlines := rfl
@[simp] theorem State.withStore_terms (x : List (Nat × Record)) : (s.withStore x).terms = s.terms := rfl
@[simp] theorem State.withStore_notices (x : List (Nat × Record)) : (s.withStore x).notices = s.notices := rfl
@[simp] theorem State.withStore_pending (x : List (Nat × Record)) : (s.withStore x).pending = s.pending := rfl
@[simp] theorem State.withStore_line (x : List (Nat × Record)) (n : Fin 4) : (s.withStore x).line n = s.line n := rfl
@[simp] theorem State.withStore_tape (x : List (Nat × Record)) (d : TapeId) : (s.withStore x).tape d = s.tape d := rfl
@[simp] theorem State.withStore_tline (x : List (Nat × Record)) (n : Fin 2) : (s.withStore x).tline n = s.tline n := rfl
@[simp] theorem State.withStore_term (x : List (Nat × Record)) (k : Fin 16) : (s.withStore x).term k = s.term k := rfl
@[simp] theorem State.withStore_inService (x : List (Nat × Record)) : (s.withStore x).inService = s.inService := rfl
@[simp] theorem State.withStore_linesWork (x : List (Nat × Record)) : (s.withStore x).linesWork = s.linesWork := rfl
@[simp] theorem State.withStore_withStore (x y : List (Nat × Record)) : (s.withStore x).withStore y = s.withStore y := rfl
@[simp] theorem State.withStore_self : s.withStore s.store = s := rfl

/-! ## withSession -/

@[simp] theorem State.withSession_now (x : SessionUnit) : (s.withSession x).now = s.now := rfl
@[simp] theorem State.withSession_bus (x : SessionUnit) : (s.withSession x).bus = s.bus := rfl
@[simp] theorem State.withSession_params (x : SessionUnit) : (s.withSession x).params = s.params := rfl
@[simp] theorem State.withSession_intake (x : SessionUnit) : (s.withSession x).intake = s.intake := rfl
@[simp] theorem State.withSession_store (x : SessionUnit) : (s.withSession x).store = s.store := rfl
@[simp] theorem State.withSession_session (x : SessionUnit) : (s.withSession x).session = x := rfl
@[simp] theorem State.withSession_fmt (x : SessionUnit) : (s.withSession x).fmt = s.fmt := rfl
@[simp] theorem State.withSession_lines (x : SessionUnit) : (s.withSession x).lines = s.lines := rfl
@[simp] theorem State.withSession_tapes (x : SessionUnit) : (s.withSession x).tapes = s.tapes := rfl
@[simp] theorem State.withSession_tlines (x : SessionUnit) : (s.withSession x).tlines = s.tlines := rfl
@[simp] theorem State.withSession_terms (x : SessionUnit) : (s.withSession x).terms = s.terms := rfl
@[simp] theorem State.withSession_notices (x : SessionUnit) : (s.withSession x).notices = s.notices := rfl
@[simp] theorem State.withSession_pending (x : SessionUnit) : (s.withSession x).pending = s.pending := rfl
@[simp] theorem State.withSession_record (x : SessionUnit) (i : Ix) : (s.withSession x).record i = s.record i := rfl
@[simp] theorem State.withSession_line (x : SessionUnit) (n : Fin 4) : (s.withSession x).line n = s.line n := rfl
@[simp] theorem State.withSession_tape (x : SessionUnit) (d : TapeId) : (s.withSession x).tape d = s.tape d := rfl
@[simp] theorem State.withSession_tline (x : SessionUnit) (n : Fin 2) : (s.withSession x).tline n = s.tline n := rfl
@[simp] theorem State.withSession_term (x : SessionUnit) (k : Fin 16) : (s.withSession x).term k = s.term k := rfl
@[simp] theorem State.withSession_inService (x : SessionUnit) : (s.withSession x).inService = s.inService := rfl
@[simp] theorem State.withSession_linesWork (x : SessionUnit) : (s.withSession x).linesWork = s.linesWork := rfl
@[simp] theorem State.withSession_withSession (x y : SessionUnit) : (s.withSession x).withSession y = s.withSession y := rfl
@[simp] theorem State.withSession_self : s.withSession s.session = s := rfl

/-! ## withFmt -/

@[simp] theorem State.withFmt_now (x : Formatter) : (s.withFmt x).now = s.now := rfl
@[simp] theorem State.withFmt_bus (x : Formatter) : (s.withFmt x).bus = s.bus := rfl
@[simp] theorem State.withFmt_params (x : Formatter) : (s.withFmt x).params = s.params := rfl
@[simp] theorem State.withFmt_intake (x : Formatter) : (s.withFmt x).intake = s.intake := rfl
@[simp] theorem State.withFmt_store (x : Formatter) : (s.withFmt x).store = s.store := rfl
@[simp] theorem State.withFmt_session (x : Formatter) : (s.withFmt x).session = s.session := rfl
@[simp] theorem State.withFmt_fmt (x : Formatter) : (s.withFmt x).fmt = x := rfl
@[simp] theorem State.withFmt_lines (x : Formatter) : (s.withFmt x).lines = s.lines := rfl
@[simp] theorem State.withFmt_tapes (x : Formatter) : (s.withFmt x).tapes = s.tapes := rfl
@[simp] theorem State.withFmt_tlines (x : Formatter) : (s.withFmt x).tlines = s.tlines := rfl
@[simp] theorem State.withFmt_terms (x : Formatter) : (s.withFmt x).terms = s.terms := rfl
@[simp] theorem State.withFmt_notices (x : Formatter) : (s.withFmt x).notices = s.notices := rfl
@[simp] theorem State.withFmt_pending (x : Formatter) : (s.withFmt x).pending = s.pending := rfl
@[simp] theorem State.withFmt_record (x : Formatter) (i : Ix) : (s.withFmt x).record i = s.record i := rfl
@[simp] theorem State.withFmt_line (x : Formatter) (n : Fin 4) : (s.withFmt x).line n = s.line n := rfl
@[simp] theorem State.withFmt_tape (x : Formatter) (d : TapeId) : (s.withFmt x).tape d = s.tape d := rfl
@[simp] theorem State.withFmt_tline (x : Formatter) (n : Fin 2) : (s.withFmt x).tline n = s.tline n := rfl
@[simp] theorem State.withFmt_term (x : Formatter) (k : Fin 16) : (s.withFmt x).term k = s.term k := rfl
@[simp] theorem State.withFmt_inService (x : Formatter) : (s.withFmt x).inService = s.inService := rfl
@[simp] theorem State.withFmt_linesWork (x : Formatter) : (s.withFmt x).linesWork = s.linesWork := rfl
@[simp] theorem State.withFmt_withFmt (x y : Formatter) : (s.withFmt x).withFmt y = s.withFmt y := rfl
@[simp] theorem State.withFmt_self : s.withFmt s.fmt = s := rfl

/-! ## withLines -/

@[simp] theorem State.withLines_now (x : Vector BoardLine 4) : (s.withLines x).now = s.now := rfl
@[simp] theorem State.withLines_bus (x : Vector BoardLine 4) : (s.withLines x).bus = s.bus := rfl
@[simp] theorem State.withLines_params (x : Vector BoardLine 4) : (s.withLines x).params = s.params := rfl
@[simp] theorem State.withLines_intake (x : Vector BoardLine 4) : (s.withLines x).intake = s.intake := rfl
@[simp] theorem State.withLines_store (x : Vector BoardLine 4) : (s.withLines x).store = s.store := rfl
@[simp] theorem State.withLines_session (x : Vector BoardLine 4) : (s.withLines x).session = s.session := rfl
@[simp] theorem State.withLines_fmt (x : Vector BoardLine 4) : (s.withLines x).fmt = s.fmt := rfl
@[simp] theorem State.withLines_lines (x : Vector BoardLine 4) : (s.withLines x).lines = x := rfl
@[simp] theorem State.withLines_tapes (x : Vector BoardLine 4) : (s.withLines x).tapes = s.tapes := rfl
@[simp] theorem State.withLines_tlines (x : Vector BoardLine 4) : (s.withLines x).tlines = s.tlines := rfl
@[simp] theorem State.withLines_terms (x : Vector BoardLine 4) : (s.withLines x).terms = s.terms := rfl
@[simp] theorem State.withLines_notices (x : Vector BoardLine 4) : (s.withLines x).notices = s.notices := rfl
@[simp] theorem State.withLines_pending (x : Vector BoardLine 4) : (s.withLines x).pending = s.pending := rfl
@[simp] theorem State.withLines_record (x : Vector BoardLine 4) (i : Ix) : (s.withLines x).record i = s.record i := rfl
@[simp] theorem State.withLines_tape (x : Vector BoardLine 4) (d : TapeId) : (s.withLines x).tape d = s.tape d := rfl
@[simp] theorem State.withLines_tline (x : Vector BoardLine 4) (n : Fin 2) : (s.withLines x).tline n = s.tline n := rfl
@[simp] theorem State.withLines_term (x : Vector BoardLine 4) (k : Fin 16) : (s.withLines x).term k = s.term k := rfl
@[simp] theorem State.withLines_inService (x : Vector BoardLine 4) : (s.withLines x).inService = s.inService := rfl
@[simp] theorem State.withLines_linesWork (x : Vector BoardLine 4) : (s.withLines x).linesWork = s.linesWork := rfl
@[simp] theorem State.withLines_withLines (x y : Vector BoardLine 4) : (s.withLines x).withLines y = s.withLines y := rfl
@[simp] theorem State.withLines_self : s.withLines s.lines = s := rfl

/-! ## withTapes -/

@[simp] theorem State.withTapes_now (x : Vector Tape 2) : (s.withTapes x).now = s.now := rfl
@[simp] theorem State.withTapes_bus (x : Vector Tape 2) : (s.withTapes x).bus = s.bus := rfl
@[simp] theorem State.withTapes_params (x : Vector Tape 2) : (s.withTapes x).params = s.params := rfl
@[simp] theorem State.withTapes_intake (x : Vector Tape 2) : (s.withTapes x).intake = s.intake := rfl
@[simp] theorem State.withTapes_store (x : Vector Tape 2) : (s.withTapes x).store = s.store := rfl
@[simp] theorem State.withTapes_session (x : Vector Tape 2) : (s.withTapes x).session = s.session := rfl
@[simp] theorem State.withTapes_fmt (x : Vector Tape 2) : (s.withTapes x).fmt = s.fmt := rfl
@[simp] theorem State.withTapes_lines (x : Vector Tape 2) : (s.withTapes x).lines = s.lines := rfl
@[simp] theorem State.withTapes_tapes (x : Vector Tape 2) : (s.withTapes x).tapes = x := rfl
@[simp] theorem State.withTapes_tlines (x : Vector Tape 2) : (s.withTapes x).tlines = s.tlines := rfl
@[simp] theorem State.withTapes_terms (x : Vector Tape 2) : (s.withTapes x).terms = s.terms := rfl
@[simp] theorem State.withTapes_notices (x : Vector Tape 2) : (s.withTapes x).notices = s.notices := rfl
@[simp] theorem State.withTapes_pending (x : Vector Tape 2) : (s.withTapes x).pending = s.pending := rfl
@[simp] theorem State.withTapes_record (x : Vector Tape 2) (i : Ix) : (s.withTapes x).record i = s.record i := rfl
@[simp] theorem State.withTapes_line (x : Vector Tape 2) (n : Fin 4) : (s.withTapes x).line n = s.line n := rfl
@[simp] theorem State.withTapes_tline (x : Vector Tape 2) (n : Fin 2) : (s.withTapes x).tline n = s.tline n := rfl
@[simp] theorem State.withTapes_term (x : Vector Tape 2) (k : Fin 16) : (s.withTapes x).term k = s.term k := rfl
@[simp] theorem State.withTapes_inService (x : Vector Tape 2) : (s.withTapes x).inService = s.inService := rfl
@[simp] theorem State.withTapes_linesWork (x : Vector Tape 2) : (s.withTapes x).linesWork = s.linesWork := rfl
@[simp] theorem State.withTapes_withTapes (x y : Vector Tape 2) : (s.withTapes x).withTapes y = s.withTapes y := rfl
@[simp] theorem State.withTapes_self : s.withTapes s.tapes = s := rfl

/-! ## withTlines -/

@[simp] theorem State.withTlines_now (x : Vector TermLine 2) : (s.withTlines x).now = s.now := rfl
@[simp] theorem State.withTlines_bus (x : Vector TermLine 2) : (s.withTlines x).bus = s.bus := rfl
@[simp] theorem State.withTlines_params (x : Vector TermLine 2) : (s.withTlines x).params = s.params := rfl
@[simp] theorem State.withTlines_intake (x : Vector TermLine 2) : (s.withTlines x).intake = s.intake := rfl
@[simp] theorem State.withTlines_store (x : Vector TermLine 2) : (s.withTlines x).store = s.store := rfl
@[simp] theorem State.withTlines_session (x : Vector TermLine 2) : (s.withTlines x).session = s.session := rfl
@[simp] theorem State.withTlines_fmt (x : Vector TermLine 2) : (s.withTlines x).fmt = s.fmt := rfl
@[simp] theorem State.withTlines_lines (x : Vector TermLine 2) : (s.withTlines x).lines = s.lines := rfl
@[simp] theorem State.withTlines_tapes (x : Vector TermLine 2) : (s.withTlines x).tapes = s.tapes := rfl
@[simp] theorem State.withTlines_tlines (x : Vector TermLine 2) : (s.withTlines x).tlines = x := rfl
@[simp] theorem State.withTlines_terms (x : Vector TermLine 2) : (s.withTlines x).terms = s.terms := rfl
@[simp] theorem State.withTlines_notices (x : Vector TermLine 2) : (s.withTlines x).notices = s.notices := rfl
@[simp] theorem State.withTlines_pending (x : Vector TermLine 2) : (s.withTlines x).pending = s.pending := rfl
@[simp] theorem State.withTlines_record (x : Vector TermLine 2) (i : Ix) : (s.withTlines x).record i = s.record i := rfl
@[simp] theorem State.withTlines_line (x : Vector TermLine 2) (n : Fin 4) : (s.withTlines x).line n = s.line n := rfl
@[simp] theorem State.withTlines_tape (x : Vector TermLine 2) (d : TapeId) : (s.withTlines x).tape d = s.tape d := rfl
@[simp] theorem State.withTlines_term (x : Vector TermLine 2) (k : Fin 16) : (s.withTlines x).term k = s.term k := rfl
@[simp] theorem State.withTlines_inService (x : Vector TermLine 2) : (s.withTlines x).inService = s.inService := rfl
@[simp] theorem State.withTlines_linesWork (x : Vector TermLine 2) : (s.withTlines x).linesWork = s.linesWork := rfl
@[simp] theorem State.withTlines_withTlines (x y : Vector TermLine 2) : (s.withTlines x).withTlines y = s.withTlines y := rfl
@[simp] theorem State.withTlines_self : s.withTlines s.tlines = s := rfl

/-! ## withTerms -/

@[simp] theorem State.withTerms_now (x : Vector Terminal 16) : (s.withTerms x).now = s.now := rfl
@[simp] theorem State.withTerms_bus (x : Vector Terminal 16) : (s.withTerms x).bus = s.bus := rfl
@[simp] theorem State.withTerms_params (x : Vector Terminal 16) : (s.withTerms x).params = s.params := rfl
@[simp] theorem State.withTerms_intake (x : Vector Terminal 16) : (s.withTerms x).intake = s.intake := rfl
@[simp] theorem State.withTerms_store (x : Vector Terminal 16) : (s.withTerms x).store = s.store := rfl
@[simp] theorem State.withTerms_session (x : Vector Terminal 16) : (s.withTerms x).session = s.session := rfl
@[simp] theorem State.withTerms_fmt (x : Vector Terminal 16) : (s.withTerms x).fmt = s.fmt := rfl
@[simp] theorem State.withTerms_lines (x : Vector Terminal 16) : (s.withTerms x).lines = s.lines := rfl
@[simp] theorem State.withTerms_tapes (x : Vector Terminal 16) : (s.withTerms x).tapes = s.tapes := rfl
@[simp] theorem State.withTerms_tlines (x : Vector Terminal 16) : (s.withTerms x).tlines = s.tlines := rfl
@[simp] theorem State.withTerms_terms (x : Vector Terminal 16) : (s.withTerms x).terms = x := rfl
@[simp] theorem State.withTerms_notices (x : Vector Terminal 16) : (s.withTerms x).notices = s.notices := rfl
@[simp] theorem State.withTerms_pending (x : Vector Terminal 16) : (s.withTerms x).pending = s.pending := rfl
@[simp] theorem State.withTerms_record (x : Vector Terminal 16) (i : Ix) : (s.withTerms x).record i = s.record i := rfl
@[simp] theorem State.withTerms_line (x : Vector Terminal 16) (n : Fin 4) : (s.withTerms x).line n = s.line n := rfl
@[simp] theorem State.withTerms_tape (x : Vector Terminal 16) (d : TapeId) : (s.withTerms x).tape d = s.tape d := rfl
@[simp] theorem State.withTerms_tline (x : Vector Terminal 16) (n : Fin 2) : (s.withTerms x).tline n = s.tline n := rfl
@[simp] theorem State.withTerms_inService (x : Vector Terminal 16) : (s.withTerms x).inService = s.inService := rfl
@[simp] theorem State.withTerms_linesWork (x : Vector Terminal 16) : (s.withTerms x).linesWork = s.linesWork := rfl
@[simp] theorem State.withTerms_withTerms (x y : Vector Terminal 16) : (s.withTerms x).withTerms y = s.withTerms y := rfl
@[simp] theorem State.withTerms_self : s.withTerms s.terms = s := rfl

/-! ## withNotices -/

@[simp] theorem State.withNotices_now (x : NoticeUnit) : (s.withNotices x).now = s.now := rfl
@[simp] theorem State.withNotices_bus (x : NoticeUnit) : (s.withNotices x).bus = s.bus := rfl
@[simp] theorem State.withNotices_params (x : NoticeUnit) : (s.withNotices x).params = s.params := rfl
@[simp] theorem State.withNotices_intake (x : NoticeUnit) : (s.withNotices x).intake = s.intake := rfl
@[simp] theorem State.withNotices_store (x : NoticeUnit) : (s.withNotices x).store = s.store := rfl
@[simp] theorem State.withNotices_session (x : NoticeUnit) : (s.withNotices x).session = s.session := rfl
@[simp] theorem State.withNotices_fmt (x : NoticeUnit) : (s.withNotices x).fmt = s.fmt := rfl
@[simp] theorem State.withNotices_lines (x : NoticeUnit) : (s.withNotices x).lines = s.lines := rfl
@[simp] theorem State.withNotices_tapes (x : NoticeUnit) : (s.withNotices x).tapes = s.tapes := rfl
@[simp] theorem State.withNotices_tlines (x : NoticeUnit) : (s.withNotices x).tlines = s.tlines := rfl
@[simp] theorem State.withNotices_terms (x : NoticeUnit) : (s.withNotices x).terms = s.terms := rfl
@[simp] theorem State.withNotices_notices (x : NoticeUnit) : (s.withNotices x).notices = x := rfl
@[simp] theorem State.withNotices_pending (x : NoticeUnit) : (s.withNotices x).pending = s.pending := rfl
@[simp] theorem State.withNotices_record (x : NoticeUnit) (i : Ix) : (s.withNotices x).record i = s.record i := rfl
@[simp] theorem State.withNotices_line (x : NoticeUnit) (n : Fin 4) : (s.withNotices x).line n = s.line n := rfl
@[simp] theorem State.withNotices_tape (x : NoticeUnit) (d : TapeId) : (s.withNotices x).tape d = s.tape d := rfl
@[simp] theorem State.withNotices_tline (x : NoticeUnit) (n : Fin 2) : (s.withNotices x).tline n = s.tline n := rfl
@[simp] theorem State.withNotices_term (x : NoticeUnit) (k : Fin 16) : (s.withNotices x).term k = s.term k := rfl
@[simp] theorem State.withNotices_inService (x : NoticeUnit) : (s.withNotices x).inService = s.inService := rfl
@[simp] theorem State.withNotices_linesWork (x : NoticeUnit) : (s.withNotices x).linesWork = s.linesWork := rfl
@[simp] theorem State.withNotices_withNotices (x y : NoticeUnit) : (s.withNotices x).withNotices y = s.withNotices y := rfl
@[simp] theorem State.withNotices_self : s.withNotices s.notices = s := rfl

/-! ## withPending -/

@[simp] theorem State.withPending_now (x : List Instr) : (s.withPending x).now = s.now := rfl
@[simp] theorem State.withPending_bus (x : List Instr) : (s.withPending x).bus = s.bus := rfl
@[simp] theorem State.withPending_params (x : List Instr) : (s.withPending x).params = s.params := rfl
@[simp] theorem State.withPending_intake (x : List Instr) : (s.withPending x).intake = s.intake := rfl
@[simp] theorem State.withPending_store (x : List Instr) : (s.withPending x).store = s.store := rfl
@[simp] theorem State.withPending_session (x : List Instr) : (s.withPending x).session = s.session := rfl
@[simp] theorem State.withPending_fmt (x : List Instr) : (s.withPending x).fmt = s.fmt := rfl
@[simp] theorem State.withPending_lines (x : List Instr) : (s.withPending x).lines = s.lines := rfl
@[simp] theorem State.withPending_tapes (x : List Instr) : (s.withPending x).tapes = s.tapes := rfl
@[simp] theorem State.withPending_tlines (x : List Instr) : (s.withPending x).tlines = s.tlines := rfl
@[simp] theorem State.withPending_terms (x : List Instr) : (s.withPending x).terms = s.terms := rfl
@[simp] theorem State.withPending_notices (x : List Instr) : (s.withPending x).notices = s.notices := rfl
@[simp] theorem State.withPending_pending (x : List Instr) : (s.withPending x).pending = x := rfl
@[simp] theorem State.withPending_record (x : List Instr) (i : Ix) : (s.withPending x).record i = s.record i := rfl
@[simp] theorem State.withPending_line (x : List Instr) (n : Fin 4) : (s.withPending x).line n = s.line n := rfl
@[simp] theorem State.withPending_tape (x : List Instr) (d : TapeId) : (s.withPending x).tape d = s.tape d := rfl
@[simp] theorem State.withPending_tline (x : List Instr) (n : Fin 2) : (s.withPending x).tline n = s.tline n := rfl
@[simp] theorem State.withPending_term (x : List Instr) (k : Fin 16) : (s.withPending x).term k = s.term k := rfl
@[simp] theorem State.withPending_inService (x : List Instr) : (s.withPending x).inService = s.inService := rfl
@[simp] theorem State.withPending_linesWork (x : List Instr) : (s.withPending x).linesWork = s.linesWork := rfl
@[simp] theorem State.withPending_withPending (x y : List Instr) : (s.withPending x).withPending y = s.withPending y := rfl
@[simp] theorem State.withPending_self : s.withPending s.pending = s := rfl

/-! ## Changes of one of several, in terms of the updates above -/

@[simp] theorem State.modifyLine_eq (n : Fin 4) (f : BoardLine → BoardLine) :
    s.modifyLine n f = s.withLines (Bank.modify s.lines n f) := rfl
@[simp] theorem State.modifyTape_eq (d : TapeId) (f : Tape → Tape) :
    s.modifyTape d f = s.withTapes (Bank.modify s.tapes (slotOfTape d) f) := rfl
@[simp] theorem State.modifyTerm_eq (k : Fin 16) (f : Terminal → Terminal) :
    s.modifyTerm k f = s.withTerms (Bank.modify s.terms k f) := rfl
@[simp] theorem State.modifyTline_eq (n : Fin 2) (f : TermLine → TermLine) :
    s.modifyTline n f = s.withTlines (Bank.modify s.tlines n f) := rfl
@[simp] theorem State.modifyIntake_eq (f : Intake → Intake) : s.modifyIntake f = s.withIntake (f s.intake) := rfl
@[simp] theorem State.setIntake_eq (st : IntakeState) :
    s.setIntake st = s.withIntake { s.intake with state := st } := rfl
@[simp] theorem State.modifyUnit_eq (f : NoticeUnit → NoticeUnit) : s.modifyUnit f = s.withNotices (f s.notices) := rfl
@[simp] theorem State.handParts_eq (ps : List NoticeBody) :
    s.handParts ps = s.withNotices { s.notices with inbox := s.notices.inbox ++ [⟨ps, s.session.tod, 0⟩] } := rfl
@[simp] theorem State.hand_eq (n : NoticeBody) :
    s.hand n = s.withNotices { s.notices with inbox := s.notices.inbox ++ [⟨[n], s.session.tod, 0⟩] } := rfl
@[simp] theorem State.setRecord_eq (i : Ix) (r : Record) :
    s.setRecord i r = s.withStore (Sparse.set Record.reset s.store i.val r) := rfl
@[simp] theorem State.hostWrites_eq (h : List HostWrite) : s.hostWrites h = s.withBus (s.bus.hostWrites h) := rfl

/-- Several notices handed on stand in the inbox in their order (R43, R185). -/
@[simp] theorem State.handAll_eq (ns : List NoticeBody) :
    s.handAll ns = s.withNotices { s.notices with inbox := s.notices.inbox ++ ns.map fun n => ⟨[n], s.session.tod, 0⟩ } := by
  induction ns generalizing s with
  | nil => simp [State.handAll]; rfl
  | cons n ns ih =>
    have h := ih (s.hand n)
    simp only [State.handAll, List.foldl_cons] at h ⊢
    rw [h]
    simp

end Sys2Proof.Machine
end

