-- ==== Sys2Proof/Laws/Frames.lean ====
section
/-! SUPPORT. What one changed line, terminal, tape or terminal line leaves as it was: the frame of a step that changes one of them. -/

namespace Sys2Proof.Machine

/-- A bank with one entry changed by a function is the bank with that entry replaced. -/
theorem BoardLine.modifyModule_eq (l : BoardLine) (m : Fin 32) (f : Module → Module) :
    l.modifyModule m f = l.having m (f (l.module m)) := rfl

@[simp] theorem BoardLine.module_having (l : BoardLine) (m k : Fin 32) (x : Module) :
    (l.having m x).module k = if m = k then x else l.module k := Bank.get_set l.modules m k x

@[simp] theorem BoardLine.having_self (l : BoardLine) (m : Fin 32) : l.having m (l.module m) = l := by
  have h : Bank.set l.modules m (l.module m) = l.modules := Bank.ext fun k => by
    rw [Bank.get_set]; split
    · next h => subst h; rfl
    · rfl
  simp [BoardLine.having, h]

/-- A change of one board line changes nothing else. -/
theorem changesLine_modify (s : State) (n : Fin 4) (f : BoardLine → BoardLine) :
    ChangesLine s (s.modifyLine n f) n (f (s.line n)) := by
  refine ⟨rfl, fun k => ?_⟩
  show Bank.get (Bank.modify s.lines n f) k = _
  rw [Bank.get_modify]
  by_cases h : n = k
  · subst h; simp [State.line]
  · simp [h, Ne.symm h, State.line]

/-- A change of one terminal context changes nothing else. -/
theorem changesTerm_modify (s : State) (k : Fin 16) (f : Terminal → Terminal) :
    ChangesTerm s (s.modifyTerm k f) k (f (s.term k)) := by
  refine ⟨rfl, fun j => ?_⟩
  show Bank.get (Bank.modify s.terms k f) j = _
  rw [Bank.get_modify]
  by_cases h : k = j
  · subst h; simp [State.term]
  · simp [h, Ne.symm h, State.term]

/-- A change of one terminal line and of one of its contexts changes nothing else. -/
theorem changesTline_modify (s : State) (l : Fin 2) (k : Fin 16) (f : TermLine → TermLine) (g : Terminal → Terminal) :
    ChangesTline s ((s.modifyTline l f).modifyTerm k g) l (f (s.tline l)) k (g (s.term k)) := by
  refine ⟨rfl, fun j => ?_, fun j => (changesTerm_modify s k g).2 j⟩
  show Bank.get (Bank.modify s.tlines l f) j = _
  rw [Bank.get_modify]
  by_cases h : l = j
  · subst h; simp [State.tline]
  · simp [h, Ne.symm h, State.tline]

/-- The tape units after a change of one. -/
theorem tape_modify (s : State) (d k : TapeId) (f : Tape → Tape) :
    (s.modifyTape d f).tape k = if k = d then f (s.tape d) else s.tape k := by
  cases d <;> cases k <;> simp [State.modifyTape, State.tape, slotOfTape, Bank.get_modify]

end Sys2Proof.Machine
end

