-- ==== Sys2Proof/Laws/Memory.lean ====
section
/-! SUPPORT. Host memory and the accesses to it: a read after a write, what each access leaves alone, the canonical form, and
the accesses over a bus that completes every attempt. -/

namespace Sys2Proof.Machine

/-! ## Bytes and words -/

theorem Word.ofBytes_high_low (w : Word) : Word.ofBytes w.high w.low = w := by
  apply BitVec.eq_of_getLsbD_eq
  intro i hi
  simp only [Word.ofBytes, Word.high, Word.low, BitVec.getLsbD_append, BitVec.getLsbD_extractLsb']
  by_cases h : i < 8
  · simp [h]
  · simp [h, show 8 + (i - 8) = i by omega, show i - 8 < 8 by omega]

theorem Memory.readByte_writeByte (m : List Host.Cell) (a c : Nat) (b : Byte) :
    Memory.readByte (Memory.writeByte m a b) c = if c = a then b else Memory.readByte m c :=
  Sparse.get_set _ _ _ _ _

/-- A byte after a word is written. -/
theorem Memory.readByte_writeWord (m : List Host.Cell) (a c : Nat) (w : Word) :
    Memory.readByte (Memory.writeWord m a w) c =
      if c = a + 1 then w.low else if c = a then w.high else Memory.readByte m c := by
  simp [Memory.writeWord, Memory.readByte_writeByte]

@[simp] theorem Memory.readWord_writeWord (m : List Host.Cell) (a : Nat) (w : Word) :
    Memory.readWord (Memory.writeWord m a w) a = w := by
  simp [Memory.readWord, Memory.readByte_writeWord, Word.ofBytes_high_low]

theorem Memory.wf_writeByte {m : List Host.Cell} (h : Memory.wf m = true) (a : Nat) (b : Byte) :
    Memory.wf (Memory.writeByte m a b) = true := Sparse.wf_set _ _ _ _ h

theorem Memory.wf_writeWord {m : List Host.Cell} (h : Memory.wf m = true) (a : Nat) (w : Word) :
    Memory.wf (Memory.writeWord m a w) = true := Memory.wf_writeByte (Memory.wf_writeByte h _ _) _ _

/-! ## Words of the common area -/

theorem Bus.address_eq_of_area {b b' : Bus} (h : b'.area = b.area) (o : Word) : b'.address o = b.address o := by
  simp [Bus.address, h]

theorem Bus.address_inj (b : Bus) {o p : Word} (h : b.address o = b.address p) : o = p := by
  simp only [Bus.address] at h
  exact BitVec.eq_of_toNat_eq (by omega)

@[simp] theorem Bus.poke_area (b : Bus) (o w : Word) : (b.poke o w).area = b.area := rfl
@[simp] theorem Bus.poke_script (b : Bus) (o w : Word) : (b.poke o w).script = b.script := rfl
@[simp] theorem Bus.poke_error (b : Bus) (o w : Word) : (b.poke o w).error = b.error := rfl
@[simp] theorem Bus.poke_groups (b : Bus) (o w : Word) : (b.poke o w).groups = b.groups := rfl
@[simp] theorem Bus.poke_phase (b : Bus) (o w : Word) : (b.poke o w).phase = b.phase := rfl
@[simp] theorem Bus.poke_vectorBase (b : Bus) (o w : Word) : (b.poke o w).vectorBase = b.vectorBase := rfl
@[simp] theorem Bus.poke_resetSource (b : Bus) (o w : Word) : (b.poke o w).resetSource = b.resetSource := rfl
@[simp] theorem Bus.poke_refused (b : Bus) (o w : Word) : (b.poke o w).refused = b.refused := rfl
@[simp] theorem Bus.poke_vectorOut (b : Bus) (o w : Word) : (b.poke o w).vectorOut = b.vectorOut := rfl
@[simp] theorem Bus.poke_address (b : Bus) (o p w : Word) : (b.poke o w).address p = b.address p := rfl

theorem Bus.poke_mem (b : Bus) (o w : Word) : (b.poke o w).mem = Memory.writeWord b.mem (b.address o) w := rfl

@[simp] theorem Bus.peek_poke_self (b : Bus) (o w : Word) : (b.poke o w).peek o = w := by
  simp only [Bus.peek, Bus.poke_address]
  exact Memory.readWord_writeWord _ _ _

theorem Bus.peek_poke_ne (b : Bus) {o p : Word} (w : Word) (h : p ≠ o) : (b.poke o w).peek p = b.peek p := by
  have h1 : b.address p ≠ b.address o := fun e => h (b.address_inj e)
  have h2 : b.address p ≠ b.address o + 1 := by simp only [Bus.address]; omega
  have h3 : b.address p + 1 ≠ b.address o + 1 := by omega
  have h4 : b.address p + 1 ≠ b.address o := by simp only [Bus.address]; omega
  simp only [Bus.peek, Bus.poke_address, Bus.poke_mem, Memory.readWord, Memory.readByte_writeWord, h1, h2, h3, h4, if_false]

/-- A word after a word is written: a read after a write. -/
theorem Bus.peek_poke (b : Bus) (o p w : Word) : (b.poke o w).peek p = if p = o then w else b.peek p := by
  split
  · next h => subst h; simp
  · next h => exact b.peek_poke_ne w h

/-! ## What changes what -/

theorem Bus.onlyWrites_refl (os : Word → Prop) (b : Bus) : b.onlyWrites os b := ⟨rfl, fun _ _ => rfl⟩

theorem Bus.onlyWrites_trans {os : Word → Prop} {a b c : Bus} (h : a.onlyWrites os b) (g : b.onlyWrites os c) :
    a.onlyWrites os c :=
  ⟨g.1.trans h.1, fun x hx => (g.2 x fun o ho => by rw [Bus.address_eq_of_area h.1]; exact hx o ho).trans (h.2 x hx)⟩

theorem Bus.onlyWrites_mono {os ps : Word → Prop} (hos : ∀ o, os o → ps o) {b b' : Bus} (h : b.onlyWrites os b') :
    b.onlyWrites ps b' := ⟨h.1, fun a ha => h.2 a fun o ho => ha o (hos o ho)⟩

/-- A bus interface with the same area and the same memory has written nothing. -/
theorem Bus.onlyWrites_of_eq {os : Word → Prop} {b b' : Bus} (ha : b'.area = b.area) (hm : b'.mem = b.mem) :
    b.onlyWrites os b' := ⟨ha, fun _ _ => by rw [hm]⟩

theorem Bus.onlyWrites_poke {os : Word → Prop} (b : Bus) {o : Word} (h : os o) (w : Word) : b.onlyWrites os (b.poke o w) := by
  refine ⟨rfl, fun a ha => ?_⟩
  obtain ⟨h1, h2⟩ := ha o h
  simp only [Bus.poke, Memory.readByte_writeWord]
  rw [if_neg h2, if_neg h1]

/-- A word outside the words written reads as it read. -/
theorem Bus.onlyWrites.peek {os : Word → Prop} {b b' : Bus} (h : b.onlyWrites os b') {o : Word} (ho : ¬ os o) :
    b'.peek o = b.peek o := by
  simp only [Bus.peek, Memory.readWord, Bus.address_eq_of_area h.1]
  have key : ∀ p, os p → b.address o ≠ b.address p := fun p hp e => ho (b.address_inj e ▸ hp)
  rw [h.2 (b.address o), h.2 (b.address o + 1)]
  · intro p hp
    have := key p hp
    simp only [Bus.address] at this ⊢
    omega
  · intro p hp
    have := key p hp
    simp only [Bus.address] at this ⊢
    omega

theorem Bus.accessed_refl (b : Bus) : b.accessed b := rfl

theorem Bus.accessed_trans {a b c : Bus} (h : a.accessed b) (g : b.accessed c) : a.accessed c := by
  unfold Bus.accessed at *
  rw [g, h]

theorem Bus.accessed_poke (b : Bus) (o w : Word) : b.accessed (b.poke o w) := rfl

theorem Bus.keepsErrors_refl (fs : List ErrorFlag) (b : Bus) : b.keepsErrors fs b := fun _ _ => rfl

theorem Bus.keepsErrors_trans {fs : List ErrorFlag} {a b c : Bus} (h : a.keepsErrors fs b) (g : b.keepsErrors fs c) :
    a.keepsErrors fs c := fun f hf => (g f hf).trans (h f hf)

theorem Bus.keepsErrors_mono {fs gs : List ErrorFlag} (hs : ∀ f ∈ fs, f ∈ gs) {a b : Bus} (h : a.keepsErrors fs b) :
    a.keepsErrors gs b := fun f hf => h f fun m => hf (hs f m)

/-! ## Groups and flags -/

@[simp] theorem Bus.settle_mem (b : Bus) : b.settle.mem = b.mem := rfl
@[simp] theorem Bus.settle_script (b : Bus) : b.settle.script = b.script := rfl
@[simp] theorem Bus.settle_area (b : Bus) : b.settle.area = b.area := rfl
@[simp] theorem Bus.settle_phase (b : Bus) : b.settle.phase = b.phase := rfl
@[simp] theorem Bus.settle_error (b : Bus) : b.settle.error = b.error := rfl
theorem Bus.accessed_settle (b : Bus) : b.accessed b.settle := rfl
theorem Bus.accessed_markGroup (b : Bus) (g : GroupId) : b.accessed (b.markGroup g) := rfl
@[simp] theorem Bus.markGroup_mem (b : Bus) (g : GroupId) : (b.markGroup g).mem = b.mem := rfl
@[simp] theorem Bus.markGroup_script (b : Bus) (g : GroupId) : (b.markGroup g).script = b.script := rfl
@[simp] theorem Bus.markGroup_area (b : Bus) (g : GroupId) : (b.markGroup g).area = b.area := rfl
@[simp] theorem Bus.markGroup_phase (b : Bus) (g : GroupId) : (b.markGroup g).phase = b.phase := rfl
@[simp] theorem Bus.markGroup_error (b : Bus) (g : GroupId) : (b.markGroup g).error = b.error := rfl

@[simp] theorem Bus.setError_mem (b : Bus) (f : ErrorFlag) : (b.setError f).mem = b.mem := by
  unfold Bus.setError; dsimp only; split <;> rfl
@[simp] theorem Bus.setError_script (b : Bus) (f : ErrorFlag) : (b.setError f).script = b.script := by
  unfold Bus.setError; dsimp only; split <;> rfl
@[simp] theorem Bus.setError_area (b : Bus) (f : ErrorFlag) : (b.setError f).area = b.area := by
  unfold Bus.setError; dsimp only; split <;> rfl
@[simp] theorem Bus.setError_phase (b : Bus) (f : ErrorFlag) : (b.setError f).phase = b.phase := by
  unfold Bus.setError; dsimp only; split <;> rfl
@[simp] theorem Bus.setError_error (b : Bus) (f : ErrorFlag) : (b.setError f).error = b.error ||| f.mask := by
  unfold Bus.setError; dsimp only; split <;> rfl
theorem Bus.accessed_setError (b : Bus) (f : ErrorFlag) : b.accessed (b.setError f) := by
  unfold Bus.setError; dsimp only; split <;> rfl
@[simp] theorem Bus.setError_peek (b : Bus) (f : ErrorFlag) (o : Word) : (b.setError f).peek o = b.peek o := by
  simp [Bus.peek, Bus.address]

theorem ErrorFlag.index_lt (f : ErrorFlag) : f.index < 16 := by cases f <;> decide

theorem ErrorFlag.index_inj {f g : ErrorFlag} (h : f.index = g.index) : f = g := by
  cases f <;> cases g <;> first | rfl | exact absurd h (by decide)

/-- Setting a flag sets that flag and no other (R177). -/
theorem Bus.hasError_setError (b : Bus) (f g : ErrorFlag) : (b.setError f).hasError g = (b.hasError g || decide (f = g)) := by
  have hg := g.index_lt
  simp only [Bus.hasError, Bus.setError_error, BitVec.getLsbD_or, ErrorFlag.mask, BitVec.getLsbD_twoPow]
  congr 1
  by_cases h : f = g
  · simp [h, hg]
  · have : f.index ≠ g.index := fun e => h (ErrorFlag.index_inj e)
    simp [h, this]

theorem Bus.keepsErrors_setError {fs : List ErrorFlag} (b : Bus) {f : ErrorFlag} (h : f ∈ fs) : b.keepsErrors fs (b.setError f) := by
  intro g hg
  have : f ≠ g := fun e => hg (e ▸ h)
  simp [Bus.hasError_setError, this]

/-! ## Accesses on a bus that completes every attempt (R164) -/

theorem Bus.attempt_quiet {b : Bus} (h : b.script = []) : b.attempt = (.completes, b) := by
  unfold Bus.attempt; rw [h]

@[simp] theorem Bus.read_quiet {b : Bus} (h : b.script = []) (o : Word) : b.read o = (b, .word (b.peek o)) := by
  simp [Bus.read, Bus.attempt_quiet h]

@[simp] theorem Bus.readChain_quiet {b : Bus} (h : b.script = []) (o : Word) : b.readChain o = (b, .word (b.peek o)) := by
  simp [Bus.readChain, Bus.attempt_quiet h]

@[simp] theorem Bus.write_quiet {b : Bus} (h : b.script = []) (o w : Word) : b.write o w = (b.poke o w, true) := by
  simp [Bus.write, Bus.attempt_quiet h]

@[simp] theorem Bus.cycle_quiet {b : Bus} (h : b.script = []) (o : Word) (f : Word → Word) :
    b.cycle o f = (b.poke o (f (b.peek o)), some (b.peek o)) := by
  simp [Bus.cycle, Bus.attempt_quiet h]

@[simp] theorem Bus.writeStatus_quiet {b : Bus} (h : b.script = []) (x : StatusWord) (w : Word) :
    b.writeStatus x w = b.poke x.offset w := by simp [Bus.writeStatus, h]

@[simp] theorem Bus.readAll_quiet {b : Bus} (h : b.script = []) (os : List Word) :
    b.readAll os = (b, .words (os.map b.peek)) := by
  induction os with
  | nil => rfl
  | cons o os ih => simp [Bus.readAll, h, ih]

/-! ## Accesses that are told (R164) -/

/-- Attempts that complete are spent one for one: a read meets the next. -/
theorem Bus.read_completes (b : Bus) (o : Word) (r : List Attempt) :
    ({ b with script := .completes :: r } : Bus).read o = ({ b with script := r }, .word (b.peek o)) := by
  simp [Bus.read, Bus.attempt, Bus.peek, Bus.address]

/-- A read whose two attempts fail sets the flag of the second, and gives no word to go on with (R164). -/
theorem Bus.read_fails {x y : Attempt} {f : ErrorFlag} (h : FailsWith x y f) (b : Bus) (o : Word) (r : List Attempt) :
    (({ b with script := x :: y :: r } : Bus).read o).1 = ({ b with script := r } : Bus).setError f ∧
      ∀ w, (({ b with script := x :: y :: r } : Bus).read o).2 ≠ .word w := by
  obtain ⟨hx, hy⟩ := h
  cases x <;> cases y <;> simp_all [failureFlag, Bus.read, Bus.attempt, Bus.readAgain]

/-! ## Module records on a quiet bus (R76, R92 step 2) -/

/-- The reads of slots leave a quiet bus as it was. -/
theorem Bus.readSlots_quiet_bus {b : Bus} (h : b.script = []) (base : Word) (ks : List Nat) : (b.readSlots base ks).1 = b := by
  induction ks with
  | nil => rfl
  | cons k ks ih =>
    simp only [Bus.readSlots, Bus.read_quiet h, Bus.readAll_quiet h]
    split
    · simp only [List.map]
      split <;> simp_all
    · exact ih

/-- The read of a module record leaves a quiet bus as it was. -/
theorem Bus.readMap_quiet_bus {b : Bus} (h : b.script = []) (base : Word) : (b.readMap base).1 = b := by
  simp only [Bus.readMap, Bus.readMapBody, Bus.read_quiet h]
  have := b.readSlots_quiet_bus h base (List.range 8)
  split
  · split
    · split <;> simp_all
    · rfl
  · rfl

/-- On a quiet bus step 2 reads each module record by itself, and leaves the bus as it was. -/
theorem Bus.readMaps_quiet {b : Bus} (h : b.script = []) (p : Params) (line : Fin 4) (ms : List (Fin 32)) :
    b.readMaps p line ms = (b, ms.map fun m => (m, (b.readMap (p.moduleRecord line m)).2)) := by
  induction ms with
  | nil => rfl
  | cons m ms ih =>
    simp only [Bus.readMaps, Bus.readMap_quiet_bus h, ih, List.map]

/-! ## Accesses in general -/

/-- What every access may do: spend attempts, set BUS TIMEOUT or PARITY, and write the word it is for. -/
structure Bus.Access (os : Word → Prop) (b b' : Bus) : Prop where
  accessed : b.accessed b'
  memory : b.onlyWrites os b'
  errors : b.keepsErrors [.busTimeout, .parity] b'
  wf : Memory.wf b.mem = true → Memory.wf b'.mem = true

theorem Bus.Access.refl (os : Word → Prop) (b : Bus) : b.Access os b :=
  ⟨b.accessed_refl, b.onlyWrites_refl os, b.keepsErrors_refl _, id⟩

theorem Bus.Access.trans {os : Word → Prop} {a b c : Bus} (h : a.Access os b) (g : b.Access os c) : a.Access os c :=
  ⟨Bus.accessed_trans h.accessed g.accessed, Bus.onlyWrites_trans h.memory g.memory, Bus.keepsErrors_trans h.errors g.errors,
    fun w => g.wf (h.wf w)⟩

theorem Bus.Access.mono {os ps : Word → Prop} (hs : ∀ o, os o → ps o) {b b' : Bus} (h : b.Access os b') : b.Access ps b' :=
  ⟨h.accessed, Bus.onlyWrites_mono hs h.memory, h.errors, h.wf⟩

theorem Bus.Access.poke {os : Word → Prop} (b : Bus) {o : Word} (h : os o) (w : Word) : b.Access os (b.poke o w) :=
  ⟨rfl, b.onlyWrites_poke h w, fun _ _ => rfl, fun hw => Memory.wf_writeWord hw _ _⟩

theorem Bus.Access.pokeIf {os : Word → Prop} (b : Bus) {o : Word} (h : os o) (r : Bool) (w : Word) :
    b.Access os (b.pokeIf r o w) := by
  cases r
  · exact .refl os b
  · exact .poke b h w

theorem Bus.Access.setError {os : Word → Prop} (b : Bus) {f : ErrorFlag} (h : f ∈ [ErrorFlag.busTimeout, .parity]) :
    b.Access os (b.setError f) :=
  ⟨b.accessed_setError f, Bus.onlyWrites_of_eq (by simp) (by simp), b.keepsErrors_setError h, by simp⟩

theorem Bus.Access.attempt (os : Word → Prop) (b : Bus) : b.Access os b.attempt.2 := by
  unfold Bus.attempt
  split
  · exact .refl os b
  · exact ⟨rfl, Bus.onlyWrites_of_eq rfl rfl, fun _ _ => rfl, id⟩

/-- A second attempt of a read (R164). -/
theorem Bus.Access.readAgain (os : Word → Prop) (o : Word) (b : Bus) : b.Access os (b.readAgain o).1 := by
  have h := Bus.Access.attempt os b
  unfold Bus.readAgain
  split <;> (rename_i e; rw [e] at h)
  · exact h
  · exact h.trans (.setError _ (by simp))
  · exact h.trans (.setError _ (by simp))

/-- A read writes nothing (R164). -/
theorem Bus.Access.read (os : Word → Prop) (o : Word) (b : Bus) : b.Access os (b.read o).1 := by
  have h := Bus.Access.attempt os b
  unfold Bus.read
  split <;> (rename_i e; rw [e] at h)
  · exact h
  · exact h.trans (.readAgain os o _)

/-- A read of a state or link word writes nothing (R170, R172). -/
theorem Bus.Access.readChain (os : Word → Prop) (o : Word) (b : Bus) : b.Access os (b.readChain o).1 := by
  have h := Bus.Access.attempt os b
  unfold Bus.readChain
  split <;> (rename_i e; rw [e] at h)
  · exact h
  · exact h.trans (.setError _ (by simp))
  · exact h.trans (.readAgain os o _)

/-- A write writes its word (R164). -/
theorem Bus.Access.write {os : Word → Prop} {o : Word} (ho : os o) (w : Word) (b : Bus) : b.Access os (b.write o w).1 := by
  have h := Bus.Access.attempt os b
  unfold Bus.write
  split <;> (rename_i e; rw [e] at h)
  · next r b1 =>
    have h1 := h.trans (Bus.Access.pokeIf b1 ho r w)
    have h2 := h1.trans (Bus.Access.attempt os (b1.pokeIf r o w))
    split <;> (rename_i e; rw [e] at h2)
    · exact (h2.trans (.pokeIf _ ho _ w)).trans (.setError _ (by simp))
    · exact h2.trans (.poke _ ho w)
  · exact h.trans (.poke _ ho w)

/-- A second attempt of an interlocked cycle writes at most its word (R165). -/
theorem Bus.Access.cycleAgain {os : Word → Prop} {o : Word} (ho : os o) (f : Word → Word) (b : Bus) :
    b.Access os (b.cycleAgain o f).1 := by
  have h := Bus.Access.attempt os b
  unfold Bus.cycleAgain
  split <;> (rename_i e; rw [e] at h)
  · exact h.trans (.poke _ ho _)
  · exact (h.trans (.pokeIf _ ho _ _)).trans (.setError _ (by simp))
  · exact h.trans (.setError _ (by simp))

/-- An interlocked cycle writes at most its word (R165). -/
theorem Bus.Access.cycle {os : Word → Prop} {o : Word} (ho : os o) (f : Word → Word) (b : Bus) :
    b.Access os (b.cycle o f).1 := by
  have h := Bus.Access.attempt os b
  unfold Bus.cycle
  split <;> (rename_i e; rw [e] at h)
  · exact h.trans (.poke _ ho _)
  · exact (h.trans (.pokeIf _ ho _ _)).trans (.cycleAgain ho f _)
  · exact h.trans (.cycleAgain ho f _)

/-- The reads of several words write nothing. -/
theorem Bus.Access.readAll (os : Word → Prop) (ws : List Word) (b : Bus) : b.Access os (b.readAll ws).1 := by
  induction ws generalizing b with
  | nil => exact .refl os b
  | cons o ws ih =>
    have h := Bus.Access.read os o b
    unfold Bus.readAll
    split <;> (rename_i e; rw [e] at h)
    · next b1 w =>
      have h2 := h.trans (ih b1)
      split
      · next e => rw [e] at h2; exact h2
      · exact h2
    · exact h
    · exact h

/-- The writes of several words write those words. -/
theorem Bus.Access.writeAll {os : Word → Prop} (ws : List (Word × Word)) (hos : ∀ e ∈ ws, os e.1) (b : Bus) :
    b.Access os (b.writeAll ws).1 := by
  induction ws generalizing b with
  | nil => exact .refl os b
  | cons e ws ih =>
    obtain ⟨o, w⟩ := e
    have h := Bus.Access.write (hos (o, w) (by simp)) w b
    unfold Bus.writeAll
    split <;> (rename_i e; rw [e] at h)
    · exact h.trans (ih (fun e he => hos e (by simp [he])) _)
    · exact h

theorem Bus.Access.writeStatus {os : Word → Prop} (x : StatusWord) (hx : os x.offset) (w : Word) (b : Bus) :
    b.Access os (b.writeStatus x w) := .write hx w b

/-- The host's stores keep the canonical form. -/
theorem Bus.wf_hostWrites (h : List HostWrite) {b : Bus} (hw : Memory.wf b.mem = true) :
    Memory.wf (b.hostWrites h).mem = true := by
  unfold Bus.hostWrites
  split
  · induction h generalizing b with
    | nil => exact hw
    | cons x h ih => exact ih (Memory.wf_writeWord hw _ _) (by assumption)
  · exact hw

/-- The memory right after reset is in canonical form. -/
theorem Memory.wf_reset : Memory.wf State.reset.bus.mem = true := rfl

end Sys2Proof.Machine
end

