-- ==== Sys2Proof/Laws/Handover.lean ====
section
/-! SUPPORT. What each hand-over between blocks does, as one update of the state. -/

namespace Sys2Proof.Machine

@[simp] theorem State.record_setRecord (s : State) (i j : Ix) (r : Record) :
    (s.withStore (Sparse.set Record.reset s.store i.val r)).record j = if j = i then r else s.record j := by
  unfold State.record
  rw [State.withStore_store, Sparse.get_set]
  by_cases h : j = i
  · subst h; simp
  · have : ¬ j.val = i.val := fun e => h (Fin.ext e)
    simp [h, this]

/-- The fields of a terminal row are those of the table of R40. -/
theorem ChangedField.onRow_eq (f : ChangedField) : f.onRow = decide (f ∈ rowFields) := by cases f <;> rfl

/-- A change event with a field in it is handed to the formatter, and to the contexts it reaches (R40). -/
theorem State.handChange_eq (s : State) (i : Ix) {fields : List ChangedField} (mark : Option TickDir) (h : fields ≠ []) :
    s.handChange i fields mark =
      { s with
        fmt := s.fmt.toldOf i fields mark
        terms := Bank.mapAll s.terms fun t x =>
          x.toldOf i (fields.any (fun f => decide (f ∈ rowFields)) && Bank.get (s.record i).interest t) } := by
  have e : (fun f => decide (f ∈ rowFields)) = ChangedField.onRow := funext fun f => f.onRow_eq.symm
  rw [e]
  unfold State.handChange
  rw [if_neg h]
  split
  · next h => simp [h, State.withFmt, State.withTerms, Terminal.toldOf, Formatter.toldOf]; rfl
  · next h =>
    have : fields.any ChangedField.onRow = false := by simpa using h
    simp [this, Terminal.toldOf, State.withFmt, Formatter.toldOf, Bank.mapAll_id]

/-- One update of a record and its change event, as `Updates` says it (R21, R40). -/
theorem Updates.updateRecord (s : State) (i : Ix) (r : Record) {fields : List ChangedField} (mark : Option TickDir)
    (h : fields ≠ []) : Updates s (s.updateRecord i r fields mark) i r fields mark := by
  unfold State.updateRecord
  rw [State.handChange_eq _ _ _ h]
  refine ⟨rfl, ?_, fun j hj => ?_⟩
  · exact (State.record_setRecord s i i r).trans (if_pos rfl)
  · exact (State.record_setRecord s i j r).trans (if_neg hj)

theorem State.term_updateRecord (s : State) (i : Ix) (r : Record) {fields : List ChangedField} (mark : Option TickDir)
    (h : fields ≠ []) (k : Fin 16) :
    (s.updateRecord i r fields mark).term k =
      (s.term k).toldOf i (fields.any (fun f => decide (f ∈ rowFields)) && Bank.get r.interest k) := by
  unfold State.updateRecord
  rw [State.handChange_eq _ _ _ h]
  show Bank.get (Bank.mapAll _ _) k = _
  rw [Bank.get_mapAll, State.setRecord_eq, State.record_setRecord, if_pos rfl]
  rfl

/-- One update that keeps the interest mask tells the contexts as `ToldTerms` says it (R40). -/
theorem ToldTerms.updateRecord (s : State) (i : Ix) {r : Record} {fields : List ChangedField} (mark : Option TickDir)
    (h : fields ≠ []) (hr : r.interest = (s.record i).interest) : ToldTerms s (s.updateRecord i r fields mark) i fields := fun k => by
  rw [State.term_updateRecord s i r mark h k, hr]

@[simp] theorem State.updateRecord_tapes (s : State) (i : Ix) (r : Record) (fields : List ChangedField) (mark : Option TickDir) :
    (s.updateRecord i r fields mark).tapes = s.tapes := by
  unfold State.updateRecord State.handChange
  split
  · rfl
  · dsimp only
    split <;> rfl

@[simp] theorem State.updateRecord_bus (s : State) (i : Ix) (r : Record) (fields : List ChangedField) (mark : Option TickDir) :
    (s.updateRecord i r fields mark).bus = s.bus := by
  unfold State.updateRecord State.handChange
  split
  · rfl
  · dsimp only
    split <;> rfl

@[simp] theorem State.updateRecord_intake (s : State) (i : Ix) (r : Record) (fields : List ChangedField)
    (mark : Option TickDir) : (s.updateRecord i r fields mark).intake = s.intake := by
  unfold State.updateRecord State.handChange
  split
  · rfl
  · dsimp only
    split <;> rfl

/-! ## Tapes -/

theorem slotOfTape_inj {d e : TapeId} (h : slotOfTape d = slotOfTape e) : d = e := by
  cases d <;> cases e <;> first | rfl | exact absurd h (by decide)

theorem State.tape_modifyTape (s : State) (d e : TapeId) (f : Tape → Tape) :
    (s.modifyTape d f).tape e = if e = d then f (s.tape e) else s.tape e := by
  show Bank.get (Bank.modify s.tapes (slotOfTape d) f) (slotOfTape e) = _
  rw [Bank.get_modify]
  by_cases h : e = d
  · subst h; simp [State.tape]
  · have : ¬ slotOfTape d = slotOfTape e := fun x => h (slotOfTape_inj x).symm
    simp [h, this, State.tape]

/-- An input to the tape a record is assigned to, and nothing else (R47, R50 to R52). -/
theorem State.handAssigned_rest (s : State) (t : Option TapeId) (a : Arrival) :
    s.handAssigned t a = { s with tapes := (s.handAssigned t a).tapes } := by
  cases t <;> rfl

theorem State.tape_handAssigned (s : State) (t : Option TapeId) (a : Arrival) (d : TapeId) :
    (s.handAssigned t a).tape d = if t = some d then (s.tape d).given a else s.tape d := by
  cases t with
  | none => rfl
  | some e =>
    show (s.modifyTape e _).tape d = _
    rw [State.tape_modifyTape]
    by_cases h : d = e
    · subst h; simp [Tape.given]
    · have : ¬ e = d := fun x => h x.symm
      simp [h, this]

/-! ## Watch checks -/

/-- A watch check goes to the contexts whose watch mask bit is set, and nothing else changes (R47). -/
theorem State.handWatchCheck_eq (s : State) (i : Ix) (last : Price) :
    s.handWatchCheck i last = { s with
      terms := Bank.mapAll s.terms fun t x =>
        if Bank.get (s.record i).watchMask t then { x with checks := x.checks ++ [(i, last)] } else x } := rfl

/-- A context with no check waiting is as it was after its checks are taken (R160, log 17). -/
theorem State.takeChecks_none {s : State} {k : Fin 16} (h : (s.term k).checks = []) : s.takeChecks k = s := by
  have e : Bank.modify s.terms k (fun x => { x with checks := [] }) = s.terms := Bank.ext fun j => by
    rw [Bank.get_modify]
    split
    · next hj =>
      subst hj
      show ({ s.term k with checks := [] } : Terminal) = s.term k
      rw [← h]
    · rfl
  unfold State.takeChecks
  rw [h]
  show s.withTerms (Bank.modify s.terms k fun x => { x with checks := [] }) = s
  rw [e]
  rfl

/-- With no check waiting anywhere a DEFINE finishes none (R1, log 17). -/
theorem State.finishChecks_none {s : State} (h : s.checksTaken (List.finRange 16)) : s.finishChecks = s := by
  unfold State.finishChecks
  revert h
  generalize List.finRange 16 = ks
  intro h
  induction ks with
  | nil => rfl
  | cons k ks ih =>
    rw [List.foldl_cons, State.takeChecks_none (h k List.mem_cons_self)]
    exact ih fun j hj => h j (List.mem_cons_of_mem k hj)

end Sys2Proof.Machine
end

