-- ==== Sys2Proof/Laws/Intake.lean ====
section
/-! SUPPORT. What a look of intake may change, what the TAKEN write leaves, and what intake reads of a posting over a bus that
completes every access. -/

namespace Sys2Proof.Machine

/-! ## Looks (R170, R172, R173) -/

theorem Looked.refl (s : State) : Looked s s :=
  ⟨rfl, rfl, ⟨[], by simp⟩, Bus.accessed_refl _, Bus.onlyWrites_refl _ _, id⟩

theorem Looked.trans {s t u : State} (h : Looked s t) (g : Looked t u) : Looked s u := by
  obtain ⟨l, hl⟩ := h.inbox
  obtain ⟨m, hm⟩ := g.inbox
  have hp : t.params = s.params := by rw [h.rest]
  refine ⟨?_, ?_, ⟨l ++ m, by rw [hm, hl, List.append_assoc]⟩, Bus.accessed_trans h.bus g.bus, ?_,
    g.cell ∘ h.cell⟩
  · rw [g.rest, h.rest]
  · rw [g.intake, h.intake]
  · exact Bus.onlyWrites_trans h.memory (hp ▸ g.memory)

/-- An access of a look. -/
theorem Looked.access (s : State) {b : Bus} (h : s.bus.Access s.params.lookWords b) : Looked s (s.withBus b) :=
  ⟨rfl, rfl, ⟨[], by simp⟩, h.accessed, h.memory, id⟩

/-- A change of intake's state, current cell, taken mark and quiesce-pending mark. -/
theorem Looked.move (s : State) (st : IntakeState) {cur : Option Nat} (tk qp : Bool)
    (h : s.AtCell → ∀ c, cur = some c → c < s.params.cellCount) :
    Looked s (s.withIntake { s.intake with state := st, current := cur, taken := tk, quiescePending := qp }) :=
  ⟨rfl, rfl, ⟨[], by simp⟩, Bus.accessed_refl _, Bus.onlyWrites_refl _ _, h⟩

/-- A change of intake's state and marks. -/
theorem Looked.marks (s : State) (st : IntakeState) (tk qp : Bool) :
    Looked s (s.withIntake { s.intake with state := st, taken := tk, quiescePending := qp }) := .move s st tk qp id

theorem Looked.breakChain (s : State) (cell : Nat) (read : Option Word) (reason : BreakReason) :
    Looked s (s.breakChain cell read reason) := by
  refine ⟨rfl, rfl, ⟨_, rfl⟩, s.bus.accessed_setError _, Bus.onlyWrites_of_eq ?_ ?_, id⟩
  · exact s.bus.setError_area _
  · exact s.bus.setError_mem _

theorem Looked.stateStep (s : State) (c : Nat) : Looked s (s.stateStep c).1 := by
  have h := Bus.Access.readChain s.params.lookWords (s.params.cellWord c 0) s.bus
  unfold State.stateStep
  split <;> (rename_i e; rw [e] at h)
  · exact .access s h
  · exact (Looked.access s h).trans (.breakChain _ _ _ _)
  · have h := Looked.access s h
    dsimp only
    split
    · exact h
    · split
      · exact h.trans (.marks _ .taking _ _)
      · split
        · exact h.trans (.marks _ _ true _)
        · exact h.trans (.breakChain _ _ _ _)

theorem Looked.writeCurrent (s : State) (c : Nat) : Looked s (s.writeCurrent c) :=
  .access s (.writeStatus _ (.inl rfl) _ _)

theorem Looked.moveTo (s : State) {d : Nat} (hd : d < s.params.cellCount) : Looked s (s.moveTo d) :=
  (Looked.move s _ (cur := some d) false _ fun _ _ e => Option.some.inj e ▸ hd).trans (.writeCurrent _ _)

theorem Looked.freeAndMove (s : State) {c d : Nat} (hc : c < s.params.cellCount) (hd : d < s.params.cellCount) :
    Looked s (s.freeAndMove c d).1 := by
  have h := Bus.Access.cycle (os := s.params.lookWords) (.inr ⟨c, hc, rfl⟩) (clearCell c) s.bus
  unfold State.freeAndMove
  split <;> (rename_i e; rw [e] at h)
  · exact (Looked.access s h).trans (.moveTo _ hd)
  · exact .access s h

theorem Looked.followLink (s : State) {c d : Nat} (hc : c < s.params.cellCount) (hd : d < s.params.cellCount) :
    Looked s (s.followLink c d).1 := by
  have h := Bus.Access.read s.params.lookWords (s.params.bitmapWord d) s.bus
  unfold State.followLink
  split <;> (rename_i e; rw [e] at h)
  · split
    · exact (Looked.access s h).trans (.freeAndMove _ hc hd)
    · exact (Looked.access s h).trans (.breakChain _ _ _ _)
  · exact .access s h

theorem Looked.linkStep (s : State) {c : Nat} (hc : c < s.params.cellCount) : Looked s (s.linkStep c).1 := by
  have h := Bus.Access.readChain s.params.lookWords (s.params.cellWord c 1) s.bus
  unfold State.linkStep
  split <;> (rename_i e; rw [e] at h)
  · exact .access s h
  · exact (Looked.access s h).trans (.breakChain _ _ _ _)
  · have h := Looked.access s h
    dsimp only
    split
    · exact h
    · split
      · exact h.trans (.breakChain _ _ _ _)
      · next hd =>
        split
        · exact h.trans (.breakChain _ _ _ _)
        · exact h.trans (.followLink _ hc (Nat.lt_of_not_le hd))

theorem Looked.lookLoop (f : Nat) {s : State} (ha : s.AtCell) : Looked s (s.lookLoop f) := by
  induction f generalizing s with
  | zero => exact .refl s
  | succ f ih =>
    unfold State.lookLoop
    split
    · exact .refl s
    · next c hc =>
      have h : Looked s (if s.intake.taken then s.linkStep c else s.stateStep c).1 := by
        split
        · exact .linkStep s (ha c hc)
        · exact .stateStep s c
      split <;> (rename_i e; rw [e] at h)
      · exact h.trans (ih (h.cell ha))
      · exact h

/-- A look changes what `Looked` says and nothing else (R169). -/
theorem Looked.look {s : State} (h : s.AtCell) : Looked s s.look := .lookLoop _ h

theorem Looked.waitAndLook {s : State} (h : s.AtCell) : Looked s s.waitAndLook :=
  (Looked.marks s .waiting _ _).trans (.look (s := s.setIntake .waiting) h)

/-! ## Over a bus that completes every access -/

/-- A look over a quiet bus, besides: the bus stays quiet and no flag but CHAIN BROKEN is set. -/
structure QuietLook (s t : State) : Prop where
  looked : Looked s t
  quiet : t.bus.script = []
  errors : s.bus.keepsErrors [.chainBroken] t.bus

theorem QuietLook.refl {s : State} (h : s.bus.script = []) : QuietLook s s := ⟨.refl s, h, Bus.keepsErrors_refl _ _⟩

theorem QuietLook.trans {s t u : State} (h : QuietLook s t) (g : QuietLook t u) : QuietLook s u :=
  ⟨h.looked.trans g.looked, g.quiet, Bus.keepsErrors_trans h.errors g.errors⟩

theorem QuietLook.move {s : State} (h : s.bus.script = []) (st : IntakeState) {cur : Option Nat} (tk qp : Bool)
    (hc : s.AtCell → ∀ c, cur = some c → c < s.params.cellCount) :
    QuietLook s (s.withIntake { s.intake with state := st, current := cur, taken := tk, quiescePending := qp }) :=
  ⟨.move s st tk qp hc, h, Bus.keepsErrors_refl _ _⟩

theorem QuietLook.marks {s : State} (h : s.bus.script = []) (st : IntakeState) (tk qp : Bool) :
    QuietLook s (s.withIntake { s.intake with state := st, taken := tk, quiescePending := qp }) := .move h st tk qp id

theorem QuietLook.breakChain {s : State} (h : s.bus.script = []) (cell : Nat) (read : Option Word) (reason : BreakReason) :
    QuietLook s (s.breakChain cell read reason) := by
  refine ⟨.breakChain _ _ _ _, ?_, s.bus.keepsErrors_setError (by simp)⟩
  simpa [State.breakChain, State.stopIntake] using h

theorem QuietLook.poke {s : State} (h : s.bus.script = []) {o : Word} (ho : s.params.lookWords o) (w : Word) :
    QuietLook s (s.withBus (s.bus.poke o w)) :=
  ⟨.access s (.poke _ ho w), h, Bus.keepsErrors_refl _ _⟩

theorem QuietLook.stateStep {s : State} (h : s.bus.script = []) (c : Nat) : QuietLook s (s.stateStep c).1 := by
  unfold State.stateStep
  rw [Bus.readChain_quiet h]
  dsimp only
  rw [State.withBus_self]
  split
  · exact .refl h
  · split
    · exact .marks h .taking _ _
    · split
      · exact .marks h _ true _
      · exact .breakChain h _ _ _

theorem QuietLook.writeCurrent {s : State} (h : s.bus.script = []) (c : Nat) : QuietLook s (s.writeCurrent c) := by
  unfold State.writeCurrent
  rw [Bus.writeStatus_quiet h]
  exact .poke h (.inl rfl) _

theorem QuietLook.moveTo {s : State} (h : s.bus.script = []) {d : Nat} (hd : d < s.params.cellCount) : QuietLook s (s.moveTo d) :=
  (QuietLook.move h _ (cur := some d) false _ fun _ _ e => Option.some.inj e ▸ hd).trans (.writeCurrent (by exact h) _)

theorem QuietLook.followLink {s : State} (h : s.bus.script = []) {c d : Nat} (hc : c < s.params.cellCount)
    (hd : d < s.params.cellCount) : QuietLook s (s.followLink c d).1 := by
  unfold State.followLink
  rw [Bus.read_quiet h]
  dsimp only
  rw [State.withBus_self]
  split
  · unfold State.freeAndMove
    rw [Bus.cycle_quiet h]
    exact (QuietLook.poke h (.inr ⟨c, hc, rfl⟩) _).trans (.moveTo (by exact h) hd)
  · exact .breakChain h _ _ _

theorem QuietLook.linkStep {s : State} (h : s.bus.script = []) {c : Nat} (hc : c < s.params.cellCount) :
    QuietLook s (s.linkStep c).1 := by
  unfold State.linkStep
  rw [Bus.readChain_quiet h]
  dsimp only
  rw [State.withBus_self]
  split
  · exact .refl h
  · split
    · exact .breakChain h _ _ _
    · next hd =>
      split
      · exact .breakChain h _ _ _
      · exact .followLink h hc (Nat.lt_of_not_le hd)

theorem QuietLook.look {s : State} (h : s.bus.script = []) (ha : s.AtCell) : QuietLook s s.look := by
  unfold State.look
  generalize 2 * s.params.cellCount + 4 = f
  induction f generalizing s with
  | zero => exact .refl h
  | succ f ih =>
    unfold State.lookLoop
    split
    · exact .refl h
    · next c hc =>
      have hq : QuietLook s (if s.intake.taken then s.linkStep c else s.stateStep c).1 := by
        split
        · exact .linkStep h (ha c hc)
        · exact .stateStep h c
      split <;> (rename_i e; rw [e] at hq)
      · exact hq.trans (ih hq.quiet (hq.looked.cell ha))
      · exact hq

theorem QuietLook.waitAndLook {s : State} (h : s.bus.script = []) (ha : s.AtCell) : QuietLook s s.waitAndLook :=
  (QuietLook.marks h .waiting _ _).trans (.look (s := s.setIntake .waiting) h ha)

/-! ## RESTART INTAKE (R175) -/

/-- What a RESTART INTAKE over a quiet bus may change: what a look may, and the last sequence. -/
structure Restarted (s t : State) : Prop where
  rest : t = { s with bus := t.bus, intake := t.intake, notices := { s.notices with inbox := t.notices.inbox } }
  intake : t.intake = { s.intake with state := t.intake.state, current := t.intake.current, taken := t.intake.taken,
                                      quiescePending := t.intake.quiescePending, lastSeq := t.intake.lastSeq }
  inbox : ∃ l, t.notices.inbox = s.notices.inbox ++ l
  bus : s.bus.accessed t.bus
  memory : s.bus.onlyWrites s.params.lookWords t.bus
  quiet : t.bus.script = []
  errors : s.bus.keepsErrors [.chainBroken, .startCell] t.bus
  cell : s.AtCell → t.AtCell

theorem QuietLook.restarted {s t : State} (h : QuietLook s t) : Restarted s t :=
  ⟨h.looked.rest, by rw [h.looked.intake], h.looked.inbox, h.looked.bus, h.looked.memory, h.quiet,
    Bus.keepsErrors_mono (by simp) h.errors, h.looked.cell⟩

theorem Restarted.trans {s t u : State} (h : Restarted s t) (g : Restarted t u) : Restarted s u := by
  obtain ⟨l, hl⟩ := h.inbox
  obtain ⟨m, hm⟩ := g.inbox
  have hp : t.params = s.params := by rw [h.rest]
  refine ⟨?_, ?_, ⟨l ++ m, by rw [hm, hl, List.append_assoc]⟩, Bus.accessed_trans h.bus g.bus, ?_, g.quiet,
    Bus.keepsErrors_trans h.errors g.errors, g.cell ∘ h.cell⟩
  · rw [g.rest, h.rest]
  · rw [g.intake, h.intake]
  · exact Bus.onlyWrites_trans h.memory (hp ▸ g.memory)

theorem Restarted.refused {s : State} (h : s.bus.script = []) : Restarted s s.restartRefused := by
  refine ⟨rfl, rfl, ⟨[], by simp [State.restartRefused, State.stopIntake]⟩, s.bus.accessed_setError _,
    Bus.onlyWrites_of_eq ?_ ?_, ?_, s.bus.keepsErrors_setError (by simp), id⟩
  · exact s.bus.setError_area _
  · exact s.bus.setError_mem _
  · simpa [State.restartRefused, State.stopIntake] using h

theorem Restarted.at {s : State} (h : s.bus.script = []) {c : Nat} (hc : c < s.params.cellCount) (quiesced : Bool) :
    Restarted s (s.restartAt c quiesced) := by
  have ha : ∀ d, some c = some d → d < s.params.cellCount := fun _ e => Option.some.inj e ▸ hc
  have h1 : Restarted s (s.modifyIntake fun x =>
      { x with current := some c, taken := false, lastSeq := none, quiescePending := false }) :=
    ⟨rfl, rfl, ⟨[], by simp⟩, Bus.accessed_refl _, Bus.onlyWrites_refl _ _, h, Bus.keepsErrors_refl _ _, fun _ => ha⟩
  have h2 := h1.trans (QuietLook.writeCurrent h1.quiet c).restarted
  unfold State.restartAt
  dsimp only
  split
  · exact h2.trans (QuietLook.marks h2.quiet .quiesced _ _).restarted
  · exact h2.trans (QuietLook.waitAndLook h2.quiet (by exact ha)).restarted

/-- The reads of a RESTART INTAKE over a quiet bus, and what follows them, change what `Restarted` says (R175). -/
theorem Restarted.readRestart {s : State} (h : s.bus.script = []) (quiesced : Bool) :
    Restarted s (s.readRestart quiesced) := by
  unfold State.readRestart
  rw [Bus.read_quiet h]
  dsimp only
  rw [State.withBus_self, Bus.read_quiet h]
  dsimp only
  rw [State.withBus_self]
  split
  · next ha =>
    simp only [State.restartAccepts, Bool.and_eq_true, decide_eq_true_eq] at ha
    exact .at h ha.1.1 _
  · exact .refused h

/-- A RESTART INTAKE over a quiet bus drops the mark of one that waits, changes what `Restarted` says, and nothing else
(R175). -/
theorem Restarted.intakeRestarted {s : State} (h : s.bus.script = []) :
    Restarted (s.withIntake { s.intake with restartPending := false }) s.restartIntake :=
  Restarted.readRestart (s := s.withIntake { s.intake with restartPending := false }) h _

/-! ## Looks and restarts, case by case (R170, R172, R175) -/

/-- A look at a state word that does not read TAKEN ends there (R170). -/
theorem State.lookLoop_state {s : State} {c : Nat} (h : s.bus.script = []) (hc : s.intake.current = some c)
    (ht : s.intake.taken = false) (hw : s.posted c 0 ≠ stateTaken) (f : Nat) : StateWordLook s (s.lookLoop (f + 1)) c := by
  have hs : s.bus.peek (s.params.cellWord c 0) = s.posted c 0 := rfl
  unfold State.lookLoop
  rw [hc]
  simp only [ht, Bool.false_eq_true, if_false, State.stateStep, Bus.readChain_quiet h, State.withBus_self, hs]
  unfold StateWordLook
  by_cases h1 : s.posted c 0 = stateEmpty
  · simp only [if_pos h1]
  · by_cases h2 : s.posted c 0 = stateFilled
    · simp only [if_neg h1, if_pos h2]; rfl
    · simp only [if_neg h1, if_neg h2, if_neg hw]; exact fun _ => rfl

/-- A link step, and the look at the successor's state word that follows a move (R172). -/
theorem State.lookLoop_link {s : State} {c : Nat} (h : s.bus.script = []) (hc : s.intake.current = some c)
    (ht : s.intake.taken = true) (f : Nat) : LinkLook s (s.lookLoop (f + 2)) c := by
  have hs : s.bus.peek (s.params.cellWord c 1) = s.posted c 1 := rfl
  unfold State.lookLoop
  rw [hc]
  simp only [ht, if_true, State.linkStep, Bus.readChain_quiet h, State.withBus_self, hs]
  unfold LinkLook
  by_cases h1 : s.posted c 1 = Config.endLink
  · simp only [if_pos h1]
  · by_cases h2 : s.params.cellCount ≤ (s.posted c 1).toNat
    · simp only [if_neg h1, h2, if_true]; rfl
    · by_cases h3 : (s.posted c 1).toNat = c
      · simp only [if_neg h1, if_neg h2, if_pos h3]; rfl
      · simp only [if_neg h1, if_neg h2, if_neg h3, State.followLink, Bus.read_quiet h, State.withBus_self]
        have hw : word (s.posted c 1).toNat = s.posted c 1 := BitVec.ofNat_toNat .. |>.trans (BitVec.setWidth_eq _)
        by_cases h4 : (s.bus.peek (s.params.bitmapWord (s.posted c 1).toNat)).getLsbD ((s.posted c 1).toNat % 16) = true
        · simp only [cellUsed, bitmapBit, h4, if_true, Bool.true_eq_false, if_false, State.freeAndMove, Bus.cycle_quiet h]
          intro hn
          have hm : (s.withBus (s.bus.poke (s.params.bitmapWord c)
              (clearCell c (s.bus.peek (s.params.bitmapWord c))))).moveTo (s.posted c 1).toNat =
              s.movedTo c (s.posted c 1).toNat := by
            unfold State.moveTo State.writeCurrent
            rw [Bus.writeStatus_quiet (by exact h)]
            rfl
          rw [hm]
          exact State.lookLoop_state (by exact h) rfl rfl hn f
        · simp only [cellUsed, bitmapBit, h4, if_true, if_false, Bool.false_eq_true, hw]
          rfl

/-- A look over a bus that completes every access comes to what R170 and R172 say. -/
theorem State.look_outcome {s : State} (h : s.bus.script = []) : LookOutcome s s.look := by
  unfold LookOutcome
  split
  · next hc => unfold State.look State.lookLoop; rw [hc]
  · next c hc =>
    split
    · next ht => exact State.lookLoop_link h hc ht _
    · next ht =>
      simp only [Bool.not_eq_true] at ht
      split
      · next hw =>
        have hs : s.bus.peek (s.params.cellWord c 0) = stateTaken := hw
        unfold State.look State.lookLoop
        rw [hc]
        simp only [ht, Bool.false_eq_true, if_false, State.stateStep, Bus.readChain_quiet h, State.withBus_self, hs]
        exact State.lookLoop_link (s := s.modifyIntake fun x => { x with taken := true }) h hc rfl _
      · next hw => exact State.lookLoop_state h hc ht hw _

/-- The reads of a RESTART INTAKE over a bus that completes every access, and what follows them (R175). -/
theorem State.readRestart_outcome {a : State} (h : a.bus.script = []) (hp : a.intake.restartPending = false) {q : Bool}
    (hq : q = true ↔ a.intake.state = .quiesced ∨ a.intake.quiescePending = true) : RestartOutcome a (a.readRestart q) := by
  have hw : a.bus.peek postingStartWord = a.bus.peek 4 := rfl
  unfold State.readRestart
  rw [Bus.read_quiet h]
  dsimp only
  rw [State.withBus_self, Bus.read_quiet h]
  dsimp only
  rw [State.withBus_self, hw]
  unfold RestartOutcome
  dsimp only
  generalize hc : (a.bus.peek 4).toNat = c
  by_cases hr : a.params.cellCount ≤ c ∨ (a.bus.peek (a.params.bitmapWord c)).getLsbD (c % 16) = false ∨ a.notices.tail = some c
  · rw [if_pos hr, if_neg]
    · have hi : ({ a.intake with restartPending := false } : Intake) = a.intake := by rw [← hp]
      show a.restartRefused = { a.flagged .startCell with
        intake := { ({ a.intake with restartPending := false } : Intake) with state := .stopped, quiescePending := false } }
      rw [hi]
      rfl
    · intro ha
      simp only [State.restartAccepts, cellUsed, bitmapBit, Bool.and_eq_true, decide_eq_true_eq] at ha
      rcases hr with e | e | e
      · exact absurd ha.1.1 (Nat.not_lt.mpr e)
      · rw [ha.1.2] at e
        cases e
      · exact ha.2 e
  · simp only [not_or, Bool.not_eq_false] at hr
    have hd : c < a.params.cellCount := Nat.lt_of_not_le hr.1
    have hs : ¬ (a.params.cellCount ≤ c ∨ (a.bus.peek (a.params.bitmapWord c)).getLsbD (c % 16) = false ∨
        a.notices.tail = some c) := by simpa using hr
    have ha : a.restartAccepts c (a.bus.peek (a.params.bitmapWord c)) = true := by
      simp only [State.restartAccepts, cellUsed, bitmapBit, Bool.and_eq_true, decide_eq_true_eq]
      exact ⟨⟨hd, hr.2.1⟩, hr.2.2⟩
    rw [if_neg hs, if_pos ha]
    have hm : (a.modifyIntake fun x =>
        { x with current := some c, taken := false, lastSeq := none, quiescePending := false }).writeCurrent c =
        { a with
          bus := a.bus.poke 50 (word c)
          intake := { a.intake with
            current := some c, taken := false, lastSeq := none, quiescePending := false, restartPending := false } } := by
      unfold State.writeCurrent
      rw [Bus.writeStatus_quiet (by exact h), ← hp]
      rfl
    unfold State.restartAt
    rw [hm]
    dsimp only
    by_cases hs : a.intake.state = .quiesced ∨ a.intake.quiescePending = true
    · rw [if_pos hs, if_pos (hq.mpr hs)]
      rfl
    · rw [if_neg hs, if_neg fun e => hs (hq.mp e)]
      exact ⟨Looked.look fun d e => Option.some.inj e ▸ hd, State.look_outcome (by exact h)⟩

/-- A RESTART INTAKE over a bus that completes every access comes to what R175 says. -/
theorem State.restartIntake_outcome {s : State} (h : s.bus.script = []) : RestartOutcome s s.restartIntake :=
  State.readRestart_outcome (a := s.modifyIntake fun x => { x with restartPending := false }) h rfl
    (by simp [State.modifyIntake])

/-! ## The TAKEN write (R43, R71, R74, R171) -/

/-- The signal that a posting has been taken, field by field (R43, R71, R74). -/
theorem State.signalTaken_eq (s : State) (seq : Word) :
    s.signalTaken seq =
      { s with
        session := { s.session with stage := .live, feedTimer := some 0,
                                    delayAnnounced := s.session.delayAnnounced && decide (s.session.stage = .live) }
        fmt := { s.fmt with stageEvents := s.fmt.stageEvents ++ (if s.session.stage = .live then [] else [FeedStage.live]) }
        terms := Bank.mapAll s.terms fun _ x =>
          { x with events := x.events ++ (if s.session.stage = .live then [] else [TermEvent.feedStage .live]) }
        notices := { s.notices with inbox := s.notices.inbox ++ s.items (s.resumedNotice (some seq)) } } := by
  by_cases hl : s.session.stage = .live
  · have hm : Bank.mapAll s.terms (fun _ x => { x with events := x.events ++ ([] : List TermEvent) }) = s.terms :=
      Bank.mapAll_id _ fun _ x => by simp
    simp only [State.signalTaken, State.feedResumed, hl, if_true, State.resumedNotice, State.items, List.append_nil,
      List.map_nil, decide_true, Bool.and_true, State.withSession]
    cases s; simp_all
  · simp [State.signalTaken, State.feedResumed, hl, State.resumedNotice, State.items, State.handStage, State.handTerms,
      State.withSession, State.withFmt, State.withTerms, State.withNotices]

theorem State.writeCounts_quiet {s : State} (h : s.bus.script = []) :
    s.writeCounts = s.withBus (match s.intake.lastSeq with
      | some v => (s.bus.poke 48 s.intake.postingsTaken).poke 49 v
      | none => s.bus.poke 48 s.intake.postingsTaken) := by
  unfold State.writeCounts
  rw [Bus.writeStatus_quiet h]
  cases hl : s.intake.lastSeq with
  | none => simp [hl, StatusWord.offset]
  | some v =>
    have h2 : (s.bus.poke 48 s.intake.postingsTaken).script = [] := h
    simp only [StatusWord.offset, State.withBus_intake, hl, State.withBus_bus, State.withBus_withBus]
    rw [Bus.writeStatus_quiet h2]
    rfl

/-- Intake as the TAKEN write leaves it, before what follows (R43, R171). -/
def takenIntake (s : State) : Intake :=
  { s.intake with state := .waiting, taken := true, owed := false, postingsTaken := s.intake.postingsTaken + 1 }

/-- The TAKEN write over a quiet bus, up to what follows the signal. -/
theorem State.writeTaken_quiet {s : State} {c : Nat} (h : s.bus.script = []) (hc : s.intake.current = some c) :
    s.writeTaken = (((s.withBus (s.countedBus c)).withIntake (takenIntake s)).signalTaken s.intake.seqInHand).afterTaken := by
  unfold State.writeTaken
  rw [hc]
  dsimp only
  rw [Bus.write_quiet h]
  dsimp only [State.postingTaken]
  have h1 : ((s.withBus (s.bus.poke (s.params.cellWord c 0) stateTaken)).modifyIntake fun x =>
      { x with state := .waiting, taken := true, owed := false, postingsTaken := x.postingsTaken + 1 }).bus.script = [] := h
  rw [State.writeCounts_quiet h1]
  rfl

theorem State.countedBus_script (s : State) (c : Nat) : (s.countedBus c).script = s.bus.script := by
  unfold State.countedBus; split <;> rfl

theorem State.countedBus_error (s : State) (c : Nat) : (s.countedBus c).error = s.bus.error := by
  unfold State.countedBus; split <;> rfl

theorem State.countedBus_access (s : State) (c : Nat) : s.bus.Access (s.params.takenWords c) (s.countedBus c) := by
  have h1 : s.bus.Access (s.params.takenWords c) (s.bus.poke (s.params.cellWord c 0) stateTaken) := .poke _ (.inl rfl) _
  have h2 := h1.trans (.poke _ (o := 48) (.inr (.inl rfl)) (s.intake.postingsTaken + 1))
  unfold State.countedBus
  split
  · exact h2.trans (.poke _ (o := 49) (.inr (.inr (.inl rfl))) _)
  · exact h2

/-- What follows the signal of the TAKEN write over a quiet bus (R171, R174, R175). -/
theorem Restarted.afterTaken {s : State} (h : s.bus.script = []) (ha : s.AtCell) :
    ∃ x : Intake, x = { s.intake with restartPending := false } ∧ Restarted (s.withIntake x) s.afterTaken := by
  unfold State.afterTaken
  split
  · exact ⟨_, rfl, .intakeRestarted h⟩
  · next hr =>
    refine ⟨_, rfl, ?_⟩
    have e : s.withIntake { s.intake with restartPending := false } = s := by
      have : s.intake.restartPending = false := by simpa using hr
      rw [← this]
      rfl
    rw [e]
    split
    · exact (QuietLook.marks h .quiesced _ false).restarted
    · exact (QuietLook.look h ha).restarted

theorem State.countedBus_count (s : State) (c : Nat) : (s.countedBus c).peek 48 = s.intake.postingsTaken + 1 := by
  unfold State.countedBus
  split
  · rw [Bus.peek_poke_ne _ _ (by decide), Bus.peek_poke_self]
  · rw [Bus.peek_poke_self]

theorem State.countedBus_sequence {s : State} {v : Word} (h : s.intake.lastSeq = some v) (c : Nat) :
    (s.countedBus c).peek 49 = v := by
  unfold State.countedBus
  rw [h]
  exact Bus.peek_poke_self _ _ _

theorem State.countedBus_state {s : State} {c : Nat} (h1 : s.params.cellWord c 0 ≠ 48) (h2 : s.params.cellWord c 0 ≠ 49) :
    (s.countedBus c).peek (s.params.cellWord c 0) = stateTaken := by
  unfold State.countedBus
  split
  · rw [Bus.peek_poke_ne _ _ h2, Bus.peek_poke_ne _ _ h1, Bus.peek_poke_self]
  · rw [Bus.peek_poke_ne _ _ h1, Bus.peek_poke_self]

theorem not_lookWords {p : Params} {o : Word} (h50 : o ≠ 50) (h : ¬ p.isBitmapWord o) : ¬ p.lookWords o := by
  rintro (e | e)
  · exact h50 e
  · exact h e

theorem Restarted.lastSeq {s : State} (h : s.bus.script = []) (ha : s.AtCell) (hr : s.intake.restartPending = false) :
    s.afterTaken.intake.lastSeq = s.intake.lastSeq := by
  unfold State.afterTaken
  rw [hr]
  simp only [Bool.false_eq_true, if_false]
  split
  · rfl
  · rw [(QuietLook.look h ha).looked.intake]

theorem State.afterTaken_quiesces {s : State} (hr : s.intake.restartPending = false) (hq : s.intake.quiescePending = true) :
    s.afterTaken = s.withIntake { s.intake with state := .quiesced, quiescePending := false } := by
  unfold State.afterTaken
  rw [hr, hq]
  rfl

/-- What follows the signal of the TAKEN write over a bus that completes every access, case by case (R171, R174, R175). -/
theorem State.afterTaken_outcome {m : State} (h : m.bus.script = []) (ha : m.AtCell) :
    if m.intake.restartPending = true then RestartOutcome m m.afterTaken
    else if m.intake.quiescePending = true then
      m.afterTaken = { m with intake := { m.intake with state := .quiesced, quiescePending := false } }
    else Looked m m.afterTaken ∧ LookOutcome m m.afterTaken := by
  unfold State.afterTaken
  split
  · exact State.restartIntake_outcome h
  · split
    · rfl
    · exact ⟨Looked.look ha, State.look_outcome h⟩

/-- The TAKEN write over a bus that completes every access: the posting counts as taken, and then what follows it (R43, R171). -/
theorem State.writeTaken_outcome {s : State} {c : Nat} (h : s.bus.script = []) (hc : s.intake.current = some c)
    (hn : c < s.params.cellCount) :
    ∃ m, Counted c s m ∧
      if s.intake.restartPending = true then RestartOutcome m s.writeTaken
      else if s.intake.quiescePending = true then
        s.writeTaken = { m with intake := { m.intake with state := .quiesced, quiescePending := false } }
      else Looked m s.writeTaken ∧ LookOutcome m s.writeTaken := by
  rw [State.writeTaken_quiet h hc, State.signalTaken_eq]
  generalize hm : ({ (s.withBus (s.countedBus c)).withIntake (takenIntake s) with
    session := _, fmt := _, terms := _, notices := _ } : State) = m
  have ht : m.terms = Bank.mapAll s.terms fun _ x =>
      { x with events := x.events ++ (if s.session.stage = .live then [] else [TermEvent.feedStage .live]) } := by
    rw [← hm]; rfl
  have hb : m.bus.script = [] := by rw [← hm]; exact (State.countedBus_script s c).trans h
  have ha : m.AtCell := by rw [← hm]; exact fun d hd => Option.some.inj (hc.symm.trans hd) ▸ hn
  have hr : m.intake.restartPending = s.intake.restartPending := by rw [← hm]; rfl
  have hq : m.intake.quiescePending = s.intake.quiescePending := by rw [← hm]; rfl
  refine ⟨m, ⟨?_, fun k => ?_⟩, ?_⟩
  · rw [← hm]; rfl
  · unfold State.term
    rw [ht, Bank.get_mapAll]
  · rw [← hr, ← hq]
    exact State.afterTaken_outcome hb ha

/-- The TAKEN write over a bus that completes every access, and what follows it up to the end of the step. -/
theorem Taken.writeTaken {s : State} {c : Nat} (h : s.bus.script = []) (hc : s.intake.current = some c)
    (hn : c < s.params.cellCount) :
    Taken c s s.writeTaken := by
  have hout := State.writeTaken_outcome h hc hn
  rw [State.writeTaken_quiet h hc, State.signalTaken_eq] at hout ⊢
  have hs := State.countedBus_script s c
  have ha := State.countedBus_access s c
  have hcount := State.countedBus_count s c
  have hseq := fun v hv => State.countedBus_sequence (s := s) (v := v) hv c
  have hstate := State.countedBus_state (s := s) (c := c)
  have herr := State.countedBus_error s c
  generalize s.countedBus c = b at herr hs ha hcount hseq hstate hout ⊢
  generalize hm : ({ (s.withBus b).withIntake (takenIntake s) with
    session := _, fmt := _, terms := _, notices := _ } : State) = m at hout ⊢
  have hmq : m.bus.script = [] := by rw [← hm]; exact hs.trans h
  have hat : m.AtCell := by
    rw [← hm]
    exact fun d hd => Option.some.inj (hc.symm.trans hd) ▸ hn
  obtain ⟨x, hx, hr⟩ := Restarted.afterTaken hmq hat
  have hlast := Restarted.lastSeq hmq hat
  have hquiesce := State.afterTaken_quiesces (s := m)
  generalize m.afterTaken = t at hr hlast hquiesce hout
  subst hm
  subst hx
  have hmem : b.onlyWrites s.params.lookWords t.bus := hr.memory
  refine ⟨?_, ?_, ⟨?_, ?_, ?_⟩, hlast, ?_, ?_, ?_, ?_, ?_, ?_, ?_, ?_, ?_, ?_, ?_, hr.cell hat, hout⟩
  · rw [hr.rest]; rfl
  · rw [hr.intake]; rfl
  · rw [hr.intake]; rfl
  · rw [hr.intake]; rfl
  · rw [hr.intake]; rfl
  · intro h1 h2
    rw [hquiesce h1 h2]
    exact ⟨rfl, rfl, rfl, rfl⟩
  · rw [hr.rest]; rfl
  · rw [hr.rest]; rfl
  · intro k
    have ht : t.terms = Bank.mapAll s.terms fun _ x =>
        { x with events := x.events ++ (if s.session.stage = .live then [] else [TermEvent.feedStage .live]) } := by
      rw [hr.rest]; rfl
    unfold State.term
    rw [ht, Bank.get_mapAll]
  · obtain ⟨l, hl⟩ := hr.inbox
    exact ⟨l, hl⟩
  · exact Bus.accessed_trans ha.accessed hr.bus
  · exact Bus.keepsErrors_trans (b := b) (fun f _ => by rw [Bus.hasError, herr]; rfl) hr.errors
  · exact Bus.onlyWrites_trans ha.memory (Bus.onlyWrites_mono (fun o ho => .inr (.inr (.inr ho))) hmem)
  · rintro ⟨h1, h2, h3⟩
    rw [hmem.peek h3, hstate h1 h2]
  · intro h1
    rw [hmem.peek (not_lookWords (by decide) h1), hcount, hr.intake]
    rfl
  · intro h1 v hv
    rw [hmem.peek (not_lookWords (by decide) h1), hseq v hv]

end Sys2Proof.Machine
end

