-- ==== Sys2Proof/Laws/Postings.lean ====
section
/-! SUPPORT. What a posting step comes to over a bus that completes every access: the words intake reads, the sequence check,
and the verdict of its kind followed by the TAKEN write. -/

namespace Sys2Proof.Machine

/-- The body words of a cell that intake reads, in the order it reads them (R192). -/
def readWords (kind : Word) (f : Nat → Word) : List Nat :=
  let l1 := firstWords kind
  let l2 := l1 ++ moreWords kind (l1.map fun k => (k, f k))
  l2 ++ lastWords kind (l2.map fun k => (k, f k))

/-- The body that intake reads of a cell whose words are `f` (R41). -/
def bodyOf (kind : Word) (f : Nat → Word) : Body := (readWords kind f).map fun k => (k, f k)

/-- A word of a body is the word of the cell where intake reads it, and 0 elsewhere. -/
theorem Body.at_map (l : List Nat) (f : Nat → Word) (k : Nat) :
    Body.at (l.map fun j => (j, f j)) k = if k ∈ l then f k else 0 := by
  induction l with
  | nil => rfl
  | cons a l ih =>
    unfold Body.at at ih ⊢
    simp only [List.map_cons, List.find?_cons]
    by_cases h : a = k
    · subst h; simp
    · have h' : ¬ k = a := fun e => h e.symm
      simp only [h, decide_false, List.mem_cons, h', false_or]
      exact ih

theorem Body.at_bodyOf (kind : Word) (f : Nat → Word) (k : Nat) :
    Body.at (bodyOf kind f) k = if k ∈ readWords kind f then f k else 0 := Body.at_map _ _ _

theorem zip_map_self (l : List Nat) (f : Nat → Word) : l.zip (l.map f) = l.map fun k => (k, f k) := by
  induction l with
  | nil => rfl
  | cons a l ih => simp [ih]

theorem Bus.readBody_quiet {b : Bus} (h : b.script = []) (at_ : Nat → Word) (ks : List Nat) (body : Body) :
    b.readBody at_ ks body = (b, some (some (body ++ ks.map fun k => (k, b.peek (at_ k))))) := by
  unfold Bus.readBody
  rw [Bus.readAll_quiet h, List.map_map]
  dsimp only
  rw [zip_map_self]
  rfl

/-- Over a quiet bus intake reads the posting whole (R41 step 1). -/
theorem Bus.readPosting_quiet {b : Bus} (h : b.script = []) (at_ : Nat → Word) :
    b.readPosting at_ =
      (b, .posting (b.peek (at_ 2)) (b.peek (at_ 3)) (bodyOf (b.peek (at_ 3)) fun k => b.peek (at_ k))) := by
  unfold Bus.readPosting
  simp [h, Bus.readBodies, Bus.readBody_quiet h, bodyOf, readWords]

/-! ## The sequence check (R44) -/

theorem State.handed_nil (s : State) : s.handed [] = s := by simp [State.handed, State.items]

/-- What the sequence check of a posting that is no duplicate leaves (R44). -/
theorem State.noteSequence_eq (s : State) (c : Nat) :
    (s.holdSequence (s.posted c 2)).noteSequence (s.posted c 2) = s.received c := by
  unfold State.noteSequence State.received gapNotice
  cases hl : s.intake.lastSeq with
  | none => simp only [State.holdSequence, State.modifyIntake_eq, State.withIntake_intake, hl, State.items]; simp; rfl
  | some v =>
    by_cases hv : s.posted c 2 = v + 1
    · simp only [State.holdSequence, State.modifyIntake_eq, State.withIntake_intake, hl, State.items, if_pos hv]; simp; rfl
    · simp only [State.holdSequence, State.modifyIntake_eq, State.withIntake_intake, hl, State.items, if_neg hv]; rfl

@[simp] theorem State.received_bus (s : State) (c : Nat) : (s.received c).bus = s.bus := rfl
@[simp] theorem State.received_params (s : State) (c : Nat) : (s.received c).params = s.params := rfl
@[simp] theorem State.received_session (s : State) (c : Nat) : (s.received c).session = s.session := rfl
@[simp] theorem State.received_record (s : State) (c : Nat) (i : Ix) : (s.received c).record i = s.record i := rfl
@[simp] theorem State.received_term (s : State) (c : Nat) (k : Fin 16) : (s.received c).term k = s.term k := rfl
@[simp] theorem State.received_tape (s : State) (c : Nat) (d : TapeId) : (s.received c).tape d = s.tape d := rfl
@[simp] theorem State.received_current (s : State) (c : Nat) : (s.received c).intake.current = s.intake.current := rfl

/-! ## The verdict -/

/-- The state a verdict leaves (R41 steps 3 to 5). -/
def Verdict.outcome (v : Verdict) (s t : State) (seq kind : Word) : State :=
  match v with
  | .refuse reason => (t.refusePosting seq kind reason).writeTaken
  | .refuseOn b reason => ((t.withBus b).refusePosting seq kind reason).writeTaken
  | .apply u => u.writeTaken
  | .remap u => u.setIntake .applying
  | .unread b => (s.withBus b).leavePosting

theorem State.Holds.inHand {s : State} {n : Named} {c : Nat} (h : s.Holds n c) : s.inHand = some c := by
  unfold State.inHand
  rw [if_pos ⟨h.service, h.taking, h.owed⟩, h.current]

/-- A posting in hand comes to the verdict of its kind on the words of its cell. -/
theorem State.takePosting_holds {s : State} {row : Row} {c : Nat} (h : s.Holds (.row row) c) (judge : Judge) :
    s.takePosting row judge =
      (judge (s.posted c 2) (bodyOf (s.posted c 3) (s.posted c)) (s.received c)).outcome s (s.received c) (s.posted c 2)
        (s.posted c 3) := by
  unfold State.takePosting
  rw [h.inHand]
  dsimp only
  rw [h.named]
  simp only [judgeAs, if_true]
  unfold State.finishPosting
  rw [Bus.readPosting_quiet h.quiet]
  dsimp only
  rw [State.withBus_self]
  unfold State.judgePosting
  rw [if_neg (show ¬ s.intake.lastSeq = some (s.bus.peek (s.params.cellWord c 2)) from h.fresh)]
  dsimp only
  have e := State.noteSequence_eq s c
  unfold State.posted at e
  rw [e]
  rfl

/-- A posting step whose kind refuses the posting. -/
theorem refuses_of_judge {command : Instr} {before s : State} {row : Row} {c : Nat} {judge : Judge} {reason : Reason}
    (hx : Sys2Proof.Machine.exec command before = .next (s.takePosting row judge)) (h : s.Holds (.row row) c)
    (hj : judge (s.posted c 2) (bodyOf (s.posted c 3) (s.posted c)) (s.received c) = .refuse reason) :
    Refuses command before s c reason := by
  refine ⟨_, hx, ?_⟩
  rw [State.takePosting_holds h, hj]
  exact Taken.writeTaken (s := s.refusedAs c reason) h.quiet h.current h.cell

/-- A posting step whose kind refuses the posting after a read that a quiet bus completes. -/
theorem refuses_of_judgeOn {command : Instr} {before s : State} {row : Row} {c : Nat} {judge : Judge} {reason : Reason}
    (hx : Sys2Proof.Machine.exec command before = .next (s.takePosting row judge)) (h : s.Holds (.row row) c)
    (hj : judge (s.posted c 2) (bodyOf (s.posted c 3) (s.posted c)) (s.received c) = .refuseOn s.bus reason) :
    Refuses command before s c reason := by
  refine ⟨_, hx, ?_⟩
  rw [State.takePosting_holds h, hj]
  exact Taken.writeTaken (s := s.refusedAs c reason) h.quiet h.current h.cell

/-- A posting step whose kind applies the posting. -/
theorem applies_of_judge {command : Instr} {before s u : State} {row : Row} {c : Nat} {judge : Judge} {result : State → Prop}
    (hx : Sys2Proof.Machine.exec command before = .next (s.takePosting row judge)) (h : s.Holds (.row row) c)
    (hj : judge (s.posted c 2) (bodyOf (s.posted c 3) (s.posted c)) (s.received c) = .apply u)
    (hq : u.bus.script = []) (hc : u.intake.current = some c) (hn : c < u.params.cellCount) (hr : result u) : Applies command before c result := by
  refine ⟨u, _, hx, hr, ?_⟩
  rw [State.takePosting_holds h, hj]
  exact Taken.writeTaken hq hc hn

end Sys2Proof.Machine
end

