-- ==== Sys2Proof/Laws/Tapes.lean ====
section
/-! SUPPORT. How long the texts of a tape are: a price at most thirteen cells (R20), a rendering at most 31 (R128). -/

namespace Sys2Proof.Machine

/-- A number below 10^k has at most k digits. -/
theorem digitsUpTo_length {k : Nat} (f : Nat) : ∀ {n : Nat}, 1 ≤ k → n < 10 ^ k → (digitsUpTo f n).length ≤ k := by
  induction f generalizing k with
  | zero => intro n _ _; exact Nat.zero_le _
  | succ f ih =>
    intro n hk hn
    unfold digitsUpTo
    split
    · exact hk
    · next h =>
      obtain ⟨j, rfl⟩ : ∃ j, k = j + 1 := ⟨k - 1, by omega⟩
      have hj : 1 ≤ j := by
        rcases j with _ | j
        · simp at hn; omega
        · omega
      have := ih hj (n := n / 10) (by rw [Nat.pow_succ] at hn; omega)
      simp only [List.length_append, List.length_singleton]
      omega

theorem decimal_length {n k : Nat} (hk : 1 ≤ k) (hn : n < 10 ^ k) : (decimal n).length ≤ k := digitsUpTo_length 10 hk hn

theorem padded_length (p n : Nat) : (padded p n).length = p := by
  induction p generalizing n with
  | zero => rfl
  | succ p ih => simp [padded, ih]

theorem halve_le (f n d : Nat) : (halve f n d).1 ≤ n ∧ (halve f n d).2 ≤ d := by
  induction f generalizing n d with
  | zero => exact ⟨Nat.le_refl _, Nat.le_refl _⟩
  | succ f ih =>
    unfold halve
    split
    · exact ⟨(ih _ _).1.trans (Nat.div_le_self _ _), (ih _ _).2.trans (Nat.div_le_self _ _)⟩
    · exact ⟨Nat.le_refl _, Nat.le_refl _⟩

theorem wholePart_length {w k : Nat} (frac : List Byte) (hk : 1 ≤ k) (hw : w < 10 ^ k) : (wholePart w frac).length ≤ k := by
  unfold wholePart
  split
  · exact Nat.zero_le _
  · exact decimal_length hk hw

theorem Mode.ticks_pos (m : Mode) : 0 < m.ticks := by cases m <;> decide

/-- A price in DIGITS on a mode of at most 64 ticks: the whole part, and at most six cells (R4). -/
theorem digitsParts_length {m : Mode} {p k : Nat} (hk : 1 ≤ k) (hw : p / m.ticks < 10 ^ k) (hm : m.ticks ≤ 64) :
    (digitsParts m p).text.length ≤ k + 6 := by
  unfold digitsParts
  dsimp only
  split
  · have := decimal_length hk hw
    simp only [Parts.text, List.append_nil, List.nil_append]
    omega
  · have hl := halve_le 6 (p % m.ticks) m.ticks
    have hr := Nat.mod_lt p m.ticks_pos
    have hn : (decimal (halve 6 (p % m.ticks) m.ticks).1).length ≤ 2 := decimal_length (by decide) (by omega)
    have hd : (decimal (halve 6 (p % m.ticks) m.ticks).2).length ≤ 2 := decimal_length (by decide) (by omega)
    have hs : (if p / m.ticks = 0 then ([] : List Byte) else [Glyph.space]).length ≤ 1 := by split <;> simp
    simp only [Parts.text, List.nil_append, List.length_append, List.length_singleton]
    have := wholePart_length ((if p / m.ticks = 0 then [] else [Glyph.space]) ++
      decimal (halve 6 (p % m.ticks) m.ticks).1 ++ [Glyph.stroke] ++ decimal (halve 6 (p % m.ticks) m.ticks).2) hk hw
    omega

/-- A price in GLYPH: the whole part, and at most one cell (R5). -/
theorem glyphParts_length {m : Mode} {p k : Nat} (hk : 1 ≤ k) (hw : p / m.ticks + 1 < 10 ^ k) :
    (glyphParts m p).text.length ≤ k + 1 := by
  unfold glyphParts
  dsimp only
  have hf : (if eighths m p = 0 ∨ eighths m p = 8 then ([] : List Byte) else [Glyph.eighths (eighths m p)]).length ≤ 1 := by
    split <;> simp
  have hw' : (if eighths m p = 8 then p / m.ticks + 1 else p / m.ticks) < 10 ^ k := by split <;> omega
  have := wholePart_length (if eighths m p = 0 ∨ eighths m p = 8 then ([] : List Byte) else [Glyph.eighths (eighths m p)]) hk hw'
  simp only [Parts.text, List.nil_append, List.length_append]
  omega

/-- A price in DECIMAL: the whole part, the point and the places (R6). -/
theorem decimalParts_length {m : Mode} {places p k : Nat} (hk : 1 ≤ k) (hw : p / m.ticks + 1 < 10 ^ k) :
    (decimalParts m places p).text.length ≤ k + places + 1 := by
  unfold decimalParts
  dsimp only
  generalize decimalValue m places p = q
  have hw' : (if q = 10 ^ places then p / m.ticks + 1 else p / m.ticks) < 10 ^ k := by split <;> omega
  have := wholePart_length (Glyph.point :: padded places (if q = 10 ^ places then 0 else q)) hk hw'
  simp only [Parts.text, List.nil_append, List.length_append, List.length_cons, padded_length]
  omega

/-- The longest tape price text is thirteen cells (R20). -/
theorem tapePrice_length (m : Mode) (p : Price) : (tapePrice m p).text.length ≤ 13 := by
  have hp : p.val < 16777216 := p.isLt
  cases m
  case fraction2 | fraction4 | fraction8 =>
    exact (glyphParts_length (k := 8) (by decide) (by simp only [Mode.ticks]; omega)).trans (by decide)
  case fraction16 | fraction32 | fraction64 =>
    exact (digitsParts_length (k := 7) (by decide) (by simp only [Mode.ticks]; omega) (by decide)).trans (by decide)
  case decimal0 =>
    have := decimal_length (n := (2 * p.val + 1) / (2 * 1)) (k := 8) (by decide) (by omega)
    simp only [tapePrice, tapeStyle, Mode.places, priceParts, Style.resolve, noneParts, Mode.ticks, Parts.text,
      List.append_nil, List.nil_append]
    omega
  case decimal1 | decimal2 | decimal3 =>
    exact (decimalParts_length (k := 8) (by decide) (by simp only [Mode.ticks]; omega)).trans (by decide)

theorem symbolText_length {r : Record} (h : r.symbol.length ≤ 5) : (symbolText r).length ≤ 5 := by
  unfold symbolText
  split
  · simp
  · exact h

theorem lotsText_length (level : Fin 4) (block : Nat) (v : Volume) : (lotsText level block v).length ≤ 5 := by
  unfold lotsText
  dsimp only
  generalize (if level = 0 then 2 else block) = least
  split
  · have := decimal_length (n := min (v.val / 100) 9999) (k := 4) (by decide) (by omega)
    simp only [List.length_append, List.length_singleton]
    omega
  · exact Nat.zero_le _

theorem printPrice_length (cut : Bool) (t : Parts) : (printPrice cut t).length ≤ t.text.length := by
  unfold printPrice Parts.text
  cases cut <;> simp only [List.length_append, List.length_drop, if_true, Bool.false_eq_true, if_false] <;> omega

/-- The rendering of a TRADE has at most 31 characters (R128). -/
theorem tradeText_length (id : TapeId) (x : Tape) {r : Record} (h : r.symbol.length ≤ 5) (m : Mode) (op oos : Bool)
    (merged : List Triple) : (tradeText id x r m op oos merged).length ≤ 31 := by
  have h1 := symbolText_length h
  have h2 := lotsText_length x.level x.block (mergedVolume merged)
  have h3 := (printPrice_length (cutsPrice id x r m (mergedPrice merged)) _).trans (tapePrice_length m (mergedPrice merged))
  have h4 : (if op then chars ['O', 'P', 'G'] else []).length ≤ 3 := by cases op <;> decide
  have h5 : (if oos then chars [' ', 'S', 'L', 'D'] else []).length ≤ 4 := by cases oos <;> decide
  unfold tradeText
  simp only [List.length_append, List.length_singleton]
  omega

/-- The rendering of a CANCEL (R131). -/
theorem cancelText_length {r : Record} (h : r.symbol.length ≤ 5) (m : Mode) (price : Option Price) :
    (cancelText r m price).length ≤ 31 := by
  have h1 := symbolText_length h
  unfold cancelText
  cases price with
  | none => simp [chars]; omega
  | some p =>
    have := tapePrice_length m p
    simp only [List.length_append, chars, List.length_map, List.length_cons, List.length_nil]
    omega

/-- The lateness is at most 720 minutes (R112, R123). -/
theorem lateMinutes_le (now : Option Tod) (q : List Entry) : lateMinutes now q ≤ 720 := by
  unfold lateMinutes lateness
  split
  · dsimp only
    split <;> omega
  · decide

/-- A LATE text has at most 17 characters (R124). -/
theorem lateText_length {n a : Nat} (hn : n ≤ 720) {t : List Byte} (h : lateText n a = some t) : t.length ≤ 31 := by
  have hd := decimal_length (n := n) (k := 3) (by decide) (by omega)
  unfold lateText at h
  split at h
  · cases h
  · split at h <;> (obtain rfl := Option.some.inj h; simp [chars]; try omega)

end Sys2Proof.Machine
end

