-- ==== Sys2Proof/Tests/Slice0.lean ====
section
/-! SUPPORT. Small tests: the refusals of ill-formed terms, a witness for the hypotheses of each statement, and single steps whose
expected outcome is worked out from the rule named in the docstring. -/

open Sys2Proof Sys2Proof.Machine

namespace Sys2Proof.Tests

set_option maxRecDepth 20000

/-! ## Helpers -/

/-- The state after a command. -/
def after (c : Instr) (s : State) : State :=
  match exec c s with
  | .next t => t
  | _ => s

/-- Words stored at offsets of the area. -/
def stored (ws : List (Nat × Nat)) (b : Bus) : Bus := Bus.pokes (ws.map fun e => (word e.1, word e.2)) b

/-- Words stored one after another from an offset. -/
def storedFrom (o : Nat) (ws : List Nat) (b : Bus) : Bus := stored ((List.range ws.length).zip ws |>.map fun e => (o + e.1, e.2)) b

/-- The notices handed on. -/
def notices (s : State) : List NoticeBody := s.notices.inbox.flatMap (·.parts)

/-- In service with a pool of 16 cells at offset 80, the bitmap at 64, the session OPEN, and nothing present. -/
def running : State :=
  { State.reset with
    bus := { Bus.reset with phase := .running, area := some 0 }
    params := { Params.reset with poolOffset := 80, cellCount := 16, bitmapOffset := 64, formatTable := 6000, keyTable := 8000 }
    session := { SessionUnit.reset with state := .opened, tod := some 342000 }
    intake := { Intake.reset with state := .waiting, current := some 0 } }

/-- Intake TAKING a posting in cell 0, given from its sequence word on, the last of its chain, with last sequence 40. -/
def posting (ws : List Nat) : State :=
  { running with
    bus := storedFrom 80 ([0x5A01, 0xFFFF] ++ ws) running.bus
    intake := { running.intake with state := .taking, lastSeq := some 40 } }

/-- A posting with a record in the price store. -/
def postingOn (i : Ix) (r : Record) (ws : List Nat) : State := (posting ws).setRecord i r

/-- `State.Holds` as one check. -/
def holds (n : Named) (s : State) : Bool :=
  s.inService && decide (s.intake.state = .taking) && !s.intake.owed && decide (s.intake.current = some 0)
    && decide (0 < s.params.cellCount) && decide (s.bus.script = []) && decide (s.namedAt 0 = n) && decide (s.intake.lastSeq ≠ some (s.posted 0 2))

theorem holds_iff (n : Named) (s : State) (h : holds n s = true) : s.Holds n 0 := by
  simp only [holds, Bool.and_eq_true, decide_eq_true_eq, Bool.not_eq_true'] at h
  obtain ⟨⟨⟨⟨⟨⟨⟨a, b⟩, c⟩, d⟩, i⟩, e⟩, f⟩, g⟩ := h
  exact ⟨a, b, c, d, i, e, f, g⟩

/-- Words 48 and 49 and the state word of cell 0 stand clear of the words of a look, so that `Taken` says what is written there; the
bitmap of the 16 cells is the one word 64. -/
theorem test_taken_words : (∀ o, running.params.isBitmapWord o ↔ o = 64) ∧
    ¬ running.params.lookWords (running.params.cellWord 0 0) ∧ running.params.cellWord 0 0 = 80 := by
  have h : ∀ o, running.params.isBitmapWord o ↔ o = 64 := fun o =>
    ⟨fun ⟨k, hk, e⟩ => e.trans ((by decide : ∀ j : Fin 16, running.params.bitmapWord j.val = 64) ⟨k, hk⟩), fun e => ⟨0, by decide, e⟩⟩
  refine ⟨h, ?_, by decide⟩
  rintro (e | e)
  · revert e; decide
  · rw [h] at e; revert e; decide

/-! ## Well-formed terms -/

/-- R177: 1 to 6 are commands; 0 and 7 are not. -/
theorem test_wellFormed_unknownCommand : [0, 1, 6, 7].map (fun w => (Instr.unknownCommand w).wellFormed) = [true, false, false, true] := by
  decide

/-- Chapter 11, Registers: bit 15 set sets the base. -/
theorem test_wellFormed_setBase : [0x7FFF, 0x8000].map (fun w => (Instr.setBase w).wellFormed) = [false, true] := by decide

theorem test_wellFormed_acknowledgeGroup :
    [0x7FFF, 0x8000].map (fun w => (Instr.acknowledgeGroup w).wellFormed) = [true, false] := by decide

/-- R190: a level is 1 to 7. -/
theorem test_wellFormed_interruptAcknowledge :
    [0, 1, 7].map (fun l => (Instr.interruptAcknowledge l).wellFormed) = [false, true, true] := by decide

theorem test_illFormed_refused :
    exec (.unknownCommand 6) State.reset = .refused .illFormed ∧ exec (.setBase 0x7FFF) State.reset = .refused .illFormed ∧
    exec (.acknowledgeGroup 0x8000) State.reset = .refused .illFormed ∧
    exec (.interruptAcknowledge 0) State.reset = .refused .illFormed := ⟨rfl, rfl, rfl, rfl⟩

/-! ## Postings -/

/-- KRT of the worked example of chapter 03. -/
def krt : Record :=
  { Record.reset with
    state := .active, symbol := [0x4B, 0x52, 0x54], mode := .fraction8, tape := some .a, prevClose := some 400 }

/-- A TRADE of instrument 7: price words, time words, conditions. -/
def trade (r : Record) (session : SessionState) (priceHi timeHi conditions : Nat) : State :=
  { postingOn 7 r [41, 1, 7, priceHi, 404, 0, 500, timeHi, if timeHi = 0xFFFF then 0xFFFF else 12032, conditions, 21] with
    session := { running.session with state := session } }

/-- The checks of R45, each at the edge: price 16,777,620 and time 864,000 are out of range. -/
def tradeCases : List State :=
  [trade krt .opened 256 0xFFFF 0, trade krt .opened 0 13 0, trade Record.reset .opened 0 0xFFFF 0,
   trade { krt with state := .halted } .opened 0 0xFFFF 0, trade krt .preOpen 0 0xFFFF 0, trade krt .marketHalt 0 0xFFFF 2,
   trade krt .closed 0 0xFFFF 1, trade krt .closed 0 0xFFFF 2]

theorem test_trade_checks_witness :
    ∀ s ∈ tradeCases, s = s.hostWrites [] ∧ holds (.row .trade) s = true ∧ Ix.ofNat? (s.posted 0 4).toNat = some 7 := by decide

/-- R45. -/
theorem test_trade_checks : tradeCases.map (fun s => notices (after (.trade []) s)) =
    [.badField, .badField, .undefinedInstrument, .halted, .wrongSession, .wrongSession, .wrongSession].map
      (fun r => [NoticeBody.postingRefused 41 1 r]) ++ [[]] := by decide

theorem test_trade_taken_witness : (let s := trade krt .opened 0 0xFFFF 0
    holds (.row .trade) s = true ∧ priceOfDouble (s.posted 0 5) (s.posted 0 6) = some 404 ∧
    timeOfDouble (s.posted 0 9) (s.posted 0 10) ≠ .outOfRange ∧ (s.record 7).state = .active ∧ s.session.state = .opened) ∧
    (trade krt .closed 0 0xFFFF 2).session.state = .closed ∧ ((trade krt .closed 0 0xFFFF 2).posted 0 11).bit 1 = true := by decide

/-- The worked example of chapter 03, posting 42: last 404, tick UP, open, high and low 404, volume 500. -/
theorem test_trade_taken : (let t := after (.trade []) (trade krt .opened 0 0xFFFF 0);
    let r := t.record 7;
    (r.lastPx, r.tick, r.openPx, r.highPx, r.lowPx) = (some 404, .up, some 404, some 404, some 404) ∧
    (r.volume, r.history, r.printTime) = (500, [⟨21, 404, 500, false⟩], some 342000) ∧
    (t.tape .a).inbox = [.print 7 .fraction8 ⟨21, 404, 500⟩ false false (some 342000)]) := by decide

/-- A QUOTE of instrument 7 with bid 403 absent by its flag, and ask 0xFFFFFF. -/
def quote (r : Record) : State := postingOn 7 r [41, 2, 7, 0x0100, 403, 0x00FF, 0xFFFF, 10, 12]

theorem test_quote_witness : ∀ s ∈ [quote krt, quote Record.reset], holds (.row .quote) s = true ∧
    Ix.ofNat? (s.posted 0 4).toNat = some 7 := by decide

/-- R48: both prices become absent. -/
theorem test_quote : (after (.quote []) (quote { krt with bidPx := some 1, askPx := some 2 })).record 7 =
      { krt with bidSize := 10, askSize := 12 } ∧
    notices (after (.quote []) (quote Record.reset)) = [.postingRefused 41 2 .undefinedInstrument] := by decide

/-- A SUMMARY with presence flags, high and low. -/
def summary (flags high low : Nat) : State := postingOn 7 krt [41, 4, 7, flags, 0, 5, 0, high, 0, low, 0, 400, 1, 0]

theorem test_summary_witness :
    ∀ s ∈ [summary 6 10 11, summary 6 10 10, summary 0 10 11, postingOn 8 krt [41, 4, 7, 6]], holds (.row .summary) s = true ∧
      Ix.ofNat? (s.posted 0 4).toNat = some 7 := by decide

/-- R49: a low above the high is refused, equal ones are taken, and no flag writes nothing. -/
theorem test_summary :
    notices (after (.summary []) (summary 6 10 11)) = [.postingRefused 41 4 .badSummary] ∧
    (after (.summary []) (summary 6 10 10)).record 7 = { krt with highPx := some 10, lowPx := some 10 } ∧
    (after (.summary []) (summary 0 10 11)).record 7 = krt ∧ (after (.summary []) (summary 0 10 11)).fmt.changes = [] := by decide

/-- The record of chapter 03's worked cancel shape: two standing prints, the newest 22 at 405. -/
def twice : Record :=
  { krt with lastPx := some 405, volume := 800, history := [⟨22, 405, 300, false⟩, ⟨21, 404, 500, false⟩] }

def cancel (r : Record) (id : Nat) : State := postingOn 7 r [41, 3, 7, id]

theorem test_cancel_witness : ∀ s ∈ [cancel twice 22, cancel twice 9, cancel Record.reset 22], holds (.row .cancel) s = true ∧
    Ix.ofNat? (s.posted 0 4).toNat = some 7 := by decide

/-- R30, R31, R50: the newest print is undone and the last price reverts; an unknown id goes to the tape alone. -/
theorem test_cancel :
    (after (.cancel []) (cancel twice 22)).record 7 =
      { twice with lastPx := some 404, volume := 500, history := [⟨22, 405, 300, true⟩, ⟨21, 404, 500, false⟩] } ∧
    (after (.cancel []) (cancel twice 9)).record 7 = twice ∧
    ((after (.cancel []) (cancel twice 9)).tape .a).inbox = [.cancel 7 9 .fraction8 none (some 342000)] := by decide

def halt (r : Record) (reason : Nat) : State := postingOn 7 r [41, 5, 7, reason]
def resume (r : Record) : State := postingOn 7 r [41, 6, 7]
def haltedKrt : Record := { krt with state := .halted, haltReason := some .news }

theorem test_halt_resume_witness :
    (∀ s ∈ [halt krt 3, halt krt 4, halt haltedKrt 3, halt Record.reset 1],
      holds (.row .halt) s = true ∧ Ix.ofNat? (s.posted 0 4).toNat = some 7) ∧
    ∀ s ∈ [resume krt, resume haltedKrt, resume Record.reset],
      holds (.row .resume) s = true ∧ Ix.ofNat? (s.posted 0 4).toNat = some 7 := by decide

/-- R51, R52. -/
theorem test_halt_resume :
    ((after (.halt []) (halt krt 1)).record 7, ((after (.halt []) (halt krt 1)).tape .a).inbox) =
      (haltedKrt, [.note false 7 .fraction8 (some 342000)]) ∧
    notices (after (.halt []) (halt krt 4)) = [.postingRefused 41 5 .badField] ∧
    ((after (.resumePosting []) (resume haltedKrt)).record 7, ((after (.resumePosting []) (resume haltedKrt)).tape .a).inbox) =
      (krt, [.note true 7 .fraction8 (some 342000)]) := by decide

/-- The DEFINE of posting 41 of chapter 03, with a symbol length. -/
def define (n : Nat) : State := postingOn 7 twice [41, 7, 7, n, 0x4B52, 0x5441, 0x4141, 0x0108, 1, 0, 400]

/-- R1, R159: a check of the last trade, 404, that waits when KRT is redefined in whole numbers is made first, in eighths: 50 1/2. -/
theorem test_define_checks :
    let s := define 3
    let s := { s with terms := Vector.replicate 16 { Terminal.reset with watches := [⟨7, 404, .above, false⟩], checks := [(7, 404)] } }
    let t := after (.define []) { s with bus := stored [(89, 0x0200)] s.bus }
    ((t.term 3).message, (t.record 7).mode, (t.term 3).checks) =
      (some (leftIn 40 (chars "ALERT KRT 50 1/2".toList)), .decimal0, []) := by decide

theorem test_define_witness :
    ∀ s ∈ [define 0, define 1, define 5, define 6], holds (.row .define) s = true ∧ Ix.ofNat? (s.posted 0 4).toNat = some 7 ∧
      ∀ k, (s.term k).checks = [] := by decide

/-- R37, R38, R53. -/
theorem test_define : (after (.define []) (define 3)).record 7 = krt ∧ (after (.define []) (define 0)).record 7 = Record.reset ∧
    notices (after (.define []) (define 6)) = [.postingRefused 41 7 .badField] := by decide

/-- A SESSION with a new state and a time of high word `hi`. -/
def session (st hi : Nat) : State := posting [41, 8, st, hi, if hi = 0xFFFF then 0xFFFF else 12031]

theorem test_session_witness : ∀ s ∈ [session 0 0xFFFF, session 1 13, session 3 13, session 4 13, session 1 14],
    holds (.row .session) s = true := by decide

/-- R54: 863,999 is 13 × 65,536 + 12,031; R68: with a night delay of 0, CLOSED sets the night flag at once. -/
theorem test_session :
    (after (.session []) (session 1 13)).session = { running.session with tod := some 863999 , feedTimer := some 0 } ∧
    ((after (.session []) (session 3 13)).session.night, ((after (.session []) (session 3 13)).line 2).nights) = (true, [true]) ∧
    notices (after (.session []) (session 4 13)) = [.postingRefused 41 8 .badField] ∧
    notices (after (.session []) (session 1 14)) = [.postingRefused 41 8 .badField] := by decide

def tapeText (code n : Nat) : State := posting [41, 9, code, n, 0x4142]
def text (target half n : Nat) : State := posting [41, 10, target * 256 + 1, half * 256 + n, 0x4142]

theorem test_text_witness :
    (∀ s ∈ [tapeText 0x0000 2, tapeText 0x0301 2, tapeText 0x0400 2, tapeText 0x0102 2, tapeText 0x0100 0],
      holds (.row .tapeText) s = true) ∧
    ∀ s ∈ [text 15 1 20, text 15 1 21, text 15 0 2, text 15 3 2, text 15 2 0], holds (.row .text) s = true ∧
      terminalsOf (s.posted 0 4).high = some [15] ∧ s.checksTaken [15] := by
  unfold State.checksTaken; decide

/-- R55, R57. -/
theorem test_text :
    ((after (.tapeText []) (tapeText 0x0301 2)).tape .b).inbox = [.text [0x41, 0x42] true (some 342000)] ∧
    notices (after (.tapeText []) (tapeText 0x0400 2)) = [.postingRefused 41 9 .badField] ∧
    ((after (.text []) (text 15 2 2)).term 15).message = some (spaces 20 ++ [0x41, 0x42] ++ spaces 18) ∧
    notices (after (.text []) (text 15 1 21)) = [.postingRefused 41 10 .badField] := by decide

/-- A subcommand of all terminals, with a page count of 10 in the anchor. -/
def command (code page : Nat) : State :=
  { posting [41, 10, 0xFF00 + code, page] with bus := stored [(9, 10)] (posting [41, 10, 0xFF00 + code, page]).bus }

theorem test_commands_witness :
    (∀ s ∈ [command 2 9, command 2 10], holds (.row .setPage) s = true ∧
      terminalsOf (s.posted 0 4).high = some (List.finRange 16) ∧ ∀ k, (s.term k).checks = []) ∧
    holds (.row .lock) (command 3 0) = true ∧ holds (.row .unlock) (command 4 0) = true ∧
    holds (.row .clearStack) (command 5 0) = true ∧ holds (.row .clearWatches) (command 7 0) = true := by decide

/-- R58. -/
theorem test_commands :
    ((after (.setPage []) (command 2 9)).term 15).work = .pageLoad 9 .posting ∧
    notices (after (.setPage []) (command 2 10)) = [.postingRefused 41 10 .badField] ∧
    ((after (.lock []) (command 3 0)).term 0).locked = true ∧ ((after (.unlock []) (command 4 0)).term 0).locked = false ∧
    ((after (.clearStack []) (command 5 0)).term 0).stack = [] := by decide

/-- Two attempts that end an access with a flag, of each shape. -/
theorem test_fails_witness : FailsWith (.timesOut false) (.timesOut true) .busTimeout ∧ FailsWith (.faults 7) (.timesOut false) .busTimeout ∧
    FailsWith (.timesOut true) (.faults 8) .parity ∧ FailsWith (.faults 7) (.faults 8) .parity := by
  unfold FailsWith; decide

/-- R164, R171: the fifth access of a SET PAGE reads the page count, and the TAKEN write follows a refusal. -/
theorem test_commands_fail :
    (after (.setPage []) ((command 2 9).meeting (List.replicate 4 .completes ++ [.timesOut false, .faults 8]))).intake.state = .waiting ∧
    (let t := after (.setPage []) ((command 2 10).meeting (List.replicate 5 .completes ++ [.timesOut false, .timesOut false]));
      (t.intake.owed, notices t, t.posted 0 0)) = (true, [.postingRefused 41 10 .badField], 0x5A01) := by decide

/-- A SET WATCH of terminal 3 on an instrument, with a direction. -/
def setWatch (target i direction : Nat) : State := postingOn 7 krt [41, 10, target * 256 + 6, i, 0, 404, direction]

theorem test_watches_witness :
    ∀ s ∈ [setWatch 3 7 1, setWatch 3 2048 1, setWatch 3 8 1, setWatch 3 7 0, setWatch 3 7 3, setWatch 0xFF 7 1],
      holds (.row .setWatch) s = true ∧ ∀ k, (s.term k).checks = [] := by decide

/-- R59. -/
theorem test_watches :
    ((after (.setWatch []) (setWatch 3 7 2)).term 3).watches = [⟨7, 404, .below, false⟩] ∧
    [setWatch 3 2048 1, setWatch 3 8 1, setWatch 3 7 3, setWatch 0xFF 7 1].map (fun s => notices (after (.setWatch []) s)) =
      [.badIndex, .undefinedInstrument, .badField, .badField].map (fun r => [NoticeBody.postingRefused 41 10 r]) ∧
    ((after (.clearWatches []) { command 7 0 with
        terms := Vector.replicate 16 { Terminal.reset with watches := [⟨7, 404, .below, false⟩] } }).term 3).watches = [] := by
  decide

theorem test_remap_witness : ∀ w ∈ [0, 3, 4, 0xFF], holds (.row .remap) (posting [41, 11, w]) = true := by decide

/-- R60, R92. -/
theorem test_remap :
    (let t := after (.remap []) (posting [41, 11, 0xFF]);
      (t.intake.state, t.fmt.remap, (t.line 0).underRemap)) = (.applying, some ⟨0, [1, 2, 3], .posting⟩, true) ∧
    notices (after (.remap []) (posting [41, 11, 4])) = [.postingRefused 41 11 .badField] := by decide

theorem test_snapshot_mark_witness : holds (.row .snapshot) (postingOn 7 haltedKrt [41, 12, 7]) = true ∧
    ∀ f ∈ [0, 1], holds (.row .mark) (posting [41, 13, 9, f]) = true := by decide

/-- R61, R62. -/
theorem test_snapshot_mark :
    (after (.snapshot []) (postingOn 7 haltedKrt [41, 12, 7])).notices.inbox.map (·.parts) =
      [[.snapshotPrices 7 .halted .none (some .news) (some 400) none none none none none, .snapshotQuote 7 none none 0 0 0]] ∧
    notices (after (.mark []) (posting [41, 13, 9, 1])) = [.markReached 9 41] ∧
    notices (after (.mark []) (posting [41, 13, 9, 0])) = [] := by decide

theorem test_refusals_witness :
    (∀ k ∈ [0, 14], holds .badKind (posting [41, k]) = true) ∧
    (∀ k ∈ [0, 8], holds .badSubcommand (posting [41, 10, k]) = true) ∧
    holds (.row .trade) (posting [41, 1, 2048]) = true ∧ holds (.row .lock) (posting [41, 10, 0x1003]) = true ∧
    ((posting [41, 10, 0x1003]).posted 0 4).high.toNat = 16 := by decide

/-- R42, R56. -/
theorem test_refusals :
    notices (after (.mark []) (posting [41, 14])) = [.postingRefused 41 14 .badKind] ∧
    notices (after (.lock []) (posting [41, 10, 8])) = [.postingRefused 41 10 .badField] ∧
    notices (after (.trade []) (posting [41, 1, 2048])) = [.postingRefused 41 1 .badIndex] ∧
    notices (after (.lock []) (posting [41, 10, 0x1003])) = [.postingRefused 41 10 .badField] := by decide

/-- The posting with attempts told to come. -/
def scripted (as : List Attempt) : State := { posting [41, 13, 9, 1] with bus := { (posting [41, 13, 9, 1]).bus with script := as } }

theorem test_duplicate_witness :
    (posting [40, 13]).inHand = some 0 ∧ 0 < (posting [40, 13]).params.cellCount ∧ (posting [40, 13]).namedAt 0 = .row .mark ∧
    (posting [40, 13]).intake.lastSeq = some ((posting [40, 13]).posted 0 2) ∧
    (∀ as ∈ [[.faults 7, .faults 8], [.timesOut false, .timesOut true], [.faults 7]],
      (scripted as).inHand = some 0 ∧ (scripted as).namedAt 0 = .row .mark) := by decide

/-- Each posting above is met under its own row; one of kind 14, or of subcommand 8, under any row (log 26). -/
theorem test_duplicate_met : (∀ s ∈ [posting [40, 13], scripted [.faults 7]], s.metAs 0 .mark) ∧
    ∀ row, (posting [40, 14]).metAs 0 row ∧ (posting [40, 10, 8]).metAs 0 row := by
  refine ⟨fun s hs r h => ?_, fun row => ⟨fun r h => (by cases h), fun r h => (by cases h)⟩⟩
  have e : s.namedAt 0 = .row .mark := (by decide :
    ∀ s ∈ [posting [40, 13], scripted [.faults 7]], s.namedAt 0 = .row .mark) s hs
  exact (Named.row.inj (e.symm.trans h)).symm

/-- The worked example of chapter 03, the posting 42 sent again; R41 and R171 for unreadable words. -/
theorem test_duplicate :
    notices (after (.mark []) (posting [40, 13])) = [.postingRefused 40 13 .duplicate] ∧
    notices (after (.trade []) (posting [40, 14])) = [.postingRefused 40 14 .duplicate] ∧
    notices (after (.mark []) (scripted [.faults 7, .faults 8])) = [.postingRefused 8 13 .parity] ∧
    (after (.mark []) (scripted [.timesOut false, .timesOut true])).intake.state = .waiting ∧
    notices (after (.mark []) (scripted [.faults 7])) = [.markReached 9 41] := by decide

/-- A MARK in hand in cell 0 whose link is cell 1, EMPTY; POSTING START is cell 15; the bits of 0, 1 and 15 are set. -/
def followed (restart quiesce : Bool) : State :=
  let s := posting [41, 13]
  { s with
    bus := stored [(81, 1), (64, 0x8003), (4, 15)] s.bus
    intake := { s.intake with restartPending := restart, quiescePending := quiesce } }

/-- R171, R172, R174, R175: after the TAKEN write a RESTART INTAKE that waited, a pending quiesce, both, or the link step. -/
theorem test_taken_follows : [(false, false), (true, false), (false, true), (true, true)].map (fun e =>
    let t := after (.mark []) (followed e.1 e.2)
    (t.intake.state, t.intake.current, t.intake.taken, t.intake.lastSeq, t.bus.peek 64)) =
    [(.waiting, some 1, false, some 41, 0x8002), (.waiting, some 15, false, none, 0x8003),
     (.quiesced, some 0, true, some 41, 0x8003), (.quiesced, some 15, false, none, 0x8003)] := by decide

/-! ## Session, time and feed watch -/

/-- R70: 863,999 wraps to 0, a whole minute; a fraction of 99 is not due. -/
def clock (fraction : Nat) (tod : Tod) : State :=
  { running with session := { running.session with tod := some tod, fraction := fraction } }

theorem test_timeOfDay :
    (let t := after .timeOfDayAdvance (clock 100 863999);
      (t.session.tod, t.session.fraction, (t.term 3).events)) = (some 0, 0, [.time]) ∧
    (after .timeOfDayAdvance (clock 99 863999)).session.tod = some 863999 ∧
    ((after .timeOfDayAdvance (clock 100 0)).term 3).events = [] := by decide

/-- R68: a night delay of 1 minute is 60,000 milliseconds. -/
def night (ms : Nat) : State :=
  { running with
    params := { running.params with nightDelay := 1 }
    session := { running.session with state := .closed, nightTimer := some ms } }

theorem test_nightTimer : (after .nightTimer (night 59999)).session.night = false ∧
    ((after .nightTimer (night 60000)).session.night, ((after .nightTimer (night 60000)).line 3).nights) = (true, [true]) := by decide

/-- Nothing is due of a part that only counts its milliseconds. -/
theorem test_clock_witness : (night 5).pending = [] ∧ (night 5).due = none ∧ State.reset.due = none ∧ (clock 100 0).due = some .timeOfDayAdvance := by
  decide

/-- R63, R68, R71: one millisecond. -/
theorem test_clock : (match step (night 5) with
    | .next t => (t.now, t.session.nightTimer, t.session.fraction)
    | _ => (0, none, 0)) = (1, some 6, 1) := by decide

/-- R72, R73: T1 5 and T2 20 seconds. -/
def feed (stage : FeedStage) (ms : Nat) : State :=
  { running with
    params := { running.params with t1 := 5, t2 := 20 }
    session := { running.session with stage := stage, feedTimer := some ms } }

theorem test_feedWatch :
    (after .feedQuiet (feed .live 4999)).session.stage = .live ∧
    ((after .feedQuiet (feed .live 5000)).session.stage, notices (after .feedQuiet (feed .live 5000))) =
      (.quiet, [.feedQuiet 5 none]) ∧
    (after .feedLost (feed .quiet 19999)).session.stage = .quiet ∧
    ((after .feedLost (feed .quiet 20000)).session.stage, ((after .feedLost (feed .quiet 20000)).tape .b).watchInbox) =
      (.lost, [.text (chars "QUOTES DELAYED".toList) true (some 342000)]) := by decide

/-! ## Intake commands -/

/-- The controller state and the state of intake. -/
def inState (p : Phase) (st : IntakeState) : State :=
  { running with bus := { running.bus with phase := p }, intake := { running.intake with state := st } }

theorem test_intake_witness : ∀ p ∈ [Phase.ready, .checking, .running],
    inState p .waiting = (inState p .waiting).hostWrites [] ∧ (inState p .waiting).bus.script = [] ∧
    (inState p .waiting).intake.current = some 0 ∧ 0 < (inState p .waiting).params.cellCount := by decide

/-- R177, R174: NUDGE in READY, CHECKING, and in WAITING on a FILLED cell; the host stores the state word before the look. -/
theorem test_nudge :
    (after (.nudge []) (inState .ready .stopped)).bus.refused = true ∧
    (after (.nudge []) (inState .checking .stopped)).intake.nudged = true ∧
    (after (.nudge [⟨80, 0x5A01⟩]) (inState .running .waiting)).intake.state = .taking ∧
    (after (.nudge [⟨80, 0x5A01⟩]) (inState .running .quiesced)).intake.state = .quiesced := by decide

/-- A posting whose TAKEN write is owed, with a feed poll tick due at 0 and an interval of 10. -/
def owed : State :=
  { posting [41, 13, 9, 0] with
    params := { running.params with feedPoll := 10 }
    intake := { (posting [41]).intake with owed := true, feedTick := some 0 } }

theorem test_tick_witness : owed = owed.hostWrites [] ∧ owed.bus.script = [] ∧ owed.notices.unit ≠ .held ∧ owed.inService = true ∧
    owed.intake.state = .taking ∧ owed.intake.owed = true ∧ owed.intake.current = some 0 ∧ 0 < owed.params.cellCount := by decide

/-- R171, R43: the owed TAKEN write is made at the tick. -/
theorem test_tick :
    (let t := after (.feedPollTick [] false) owed;
      (t.posted 0 0, t.intake.state, t.intake.postingsTaken, t.intake.feedTick)) = (0x5A02, .waiting, 1, some 10) ∧
    after (.feedPollTick [] false) { owed with intake := { owed.intake with feedTick := some 1 } } =
      { owed with intake := { owed.intake with feedTick := some 1 } } := by decide

/-- R172: a look at a TAKEN cell moves to its successor, frees the cell it leaves, and takes the FILLED successor. -/
def linked : State := { running with bus := stored [(64, 7), (80, 0x5A02), (81, 2), (112, 0x5A01)] running.bus }

theorem test_link_step : (let t := after (.nudge []) linked;
    (t.intake.current, t.intake.state, t.bus.peek 64, t.bus.peek 50)) = (some 2, .taking, 6, 2) := by decide

/-- Intake at a TAKEN cell 0 whose link is 2, with the bit of cell 2 set. -/
def taken : State := { linked with intake := { linked.intake with taken := true } }

theorem test_failed_look_witness : taken = taken.hostWrites [] ∧ taken.bus.script = [] ∧ taken.inService = true ∧
    taken.intake.state = .waiting ∧ taken.intake.current = some 0 ∧ taken.posted 0 1 = 2 ∧ (taken.posted 0 1).toNat < taken.params.cellCount ∧
    (taken.bus.peek (taken.params.bitmapWord 2)).getLsbD (2 % 16) = true := by decide

/-- R170, R172: the failed read of the link or of the successor's bitmap word, and a failed clear that reached memory. -/
theorem test_failed_look :
    (let t := after (.nudge []) (taken.meeting [.timesOut false, .timesOut false]);
      (t.readError, t.intake.state, t.intake.current)) = (0x0010, .waiting, some 0) ∧
    notices (after (.nudge []) (taken.meeting [.timesOut false, .faults 2])) = [.chainBroken .posting 0 none .parity] ∧
    (after (.nudge []) (taken.meeting [.completes, .faults 7, .faults 7])).intake.state = .waiting ∧
    (let t := after (.nudge []) (taken.meeting [.completes, .completes, .timesOut true, .timesOut false]);
      (t.bus.peek 64, t.intake.current)) = (6, some 0) := by decide

/-- R173: a link equal to its own cell breaks the chain. -/
theorem test_chain_broken : notices (after (.nudge [⟨80, 0x5A02⟩, ⟨81, 0⟩]) running) = [.chainBroken .posting 0 (some 0) .linkSelf] := by
  decide

/-- R174. -/
theorem test_quiesce :
    (after .quiesce (inState .running .waiting)).intake.state = .quiesced ∧
    (after .quiesce (inState .running .taking)).intake.quiescePending = true ∧
    (after .quiesce (inState .running .stopped)).bus.refused = true ∧
    (after (.resume []) (inState .running .quiesced)).intake.state = .waiting := by decide

/-- Intake WAITING with a quiesce still pending. -/
def stillPending (st : IntakeState) : State :=
  { inState .running st with intake := { (inState .running st).intake with quiescePending := true } }

theorem test_pending_witness : ∀ st ∈ [IntakeState.waiting, .quiesced], stillPending st = (stillPending st).hostWrites [] ∧
    (stillPending st).bus.script = [] ∧ (stillPending st).intake.quiescePending = true ∧
    ((stillPending st).bus.peek 4).toNat < (stillPending st).params.cellCount := by
  decide

/-- R174, R175: RESUME ends a pending quiesce in QUIESCED too, and a RESTART INTAKE brings it about. -/
theorem test_pending :
    (after (.resume []) (stillPending .quiesced)).intake.quiescePending = false ∧
    (let t := after (.restartIntake [⟨64, 1⟩]) (stillPending .waiting);
      (t.intake.state, t.intake.quiescePending, t.intake.current)) = (.quiesced, false, some 0) ∧
    (after (.restartIntake []) ((inState .running .waiting).meeting [.timesOut false, .timesOut false])).readError = 0x0010 := by decide

/-- R175: cell 15 of 16 is accepted when its bit is set; 16 is out of range. -/
theorem test_restart :
    (after (.restartIntake [⟨4, 15⟩, ⟨64, 0x8000⟩]) (inState .running .stopped)).intake.current = some 15 ∧
    (after (.restartIntake [⟨4, 15⟩]) (inState .running .stopped)).bus.hasError .startCell = true ∧
    (after (.restartIntake [⟨4, 16⟩]) (inState .running .waiting)).intake.state = .stopped ∧
    (after (.restartIntake []) (inState .running .taking)).intake.restartPending = true := by decide

/-! ## Registers, interrupts and resets -/

/-- R177: 0 and 7 name no command, and each refusal needs its controller state. -/
theorem test_refused_witness : (running.bus.phase ≠ .ready ∧ running.bus.phase = .running) ∧
    (State.reset.bus.phase = .unset ∧ State.reset.bus.phase ≠ .running) ∧ (inState .running .stopped).intake.state = .stopped ∧
    (0 : Word).toNat = 0 ∧ 6 < (7 : Word).toNat := by decide

theorem test_refused :
    (after (.unknownCommand 7) running).bus.hasError .commandRefused = true ∧
    (Bank.get (after (.start []) running).bus.groups 0).marked = true ∧
    (Bank.get (after .softReset State.reset).bus.groups 0).marked = false := by decide

theorem test_area_witness : State.reset.bus.area = none ∧ running.bus.area.isSome = true ∧ running.inService = true ∧
    exec .quiesce running = .next (after .quiesce running) := ⟨rfl, rfl, rfl, rfl⟩

/-- R162: the low seven bits count, once. -/
theorem test_area :
    (after (.areaBase 0xFF85) State.reset).readAreaBase = 5 ∧ (after (.areaBase 0xFF85) State.reset).bus.address 3 = 655366 ∧
    (after (.areaBase 9) (after (.areaBase 0xFF85) State.reset)).readAreaBase = 5 ∧
    (after (.areaBase 9) (after (.areaBase 0xFF85) State.reset)).readError = 0x0200 := by decide

/-- R177: CONTROL in RUNNING, WAITING, after POWER, ACCEPTED; ones clear flags. -/
theorem test_registers : running.readControl = 0x6500 ∧
    (after (.errorFlagClear 0x0200) (after (.unknownCommand 0) running)).readError = 0 ∧
    (after (.errorFlagClear 0x01FF) (after (.unknownCommand 0) running)).readError = 0x0200 := by decide

/-- R164. -/
theorem test_access : running.bus.script = [] ∧
    (after (.busTimeout [.timesOut true]) running).bus.script = [.timesOut true] := by decide

/-- Chapter 10's worked sequence: base 6, FEED at level 3 IN SERVICE and marked, TERMINAL at level 2 REQUESTING. -/
def serving : State :=
  { running with bus := { running.bus with
    vectorBase := some 6
    groups := #v[⟨7, .idle, false⟩, ⟨3, .inService, true⟩, ⟨0, .idle, true⟩, ⟨0, .idle, false⟩, ⟨2, .requesting, true⟩] } }

theorem test_vector_witness : serving.bus.groupsSettled = true ∧ running.bus.groupsSettled = true ∧
    (0x8006 : Word).bit 15 = true ∧ [(0 : Word), 1, 5, 6, 15].map (·.bit 15) = [false, false, false, false, false] := by decide

/-- R191: FEED is acknowledged with its mark set and requests again; codes 0 and 6 set COMMAND REFUSED. -/
theorem test_vector :
    (after (.acknowledgeGroup 2) serving).readVector = 0x6104 ∧
    (after (.acknowledgeGroup 5) serving).readVector = 0x6008 ∧
    (after (.acknowledgeGroup 0) serving).readError = 0x0200 ∧ (after (.acknowledgeGroup 6) serving).readError = 0x0200 ∧
    (after (.setBase 0x8009) serving).readVector = 0x9108 := by decide

theorem test_interrupt_witness :
    (2 : Fin 8) ≠ 0 ∧ (Bank.get serving.bus.groups 4).state = .requesting ∧ (Bank.get serving.bus.groups 4).level = 2 ∧
    (∀ i, (Bank.get serving.bus.groups i).level = 7 → (Bank.get serving.bus.groups i).state ≠ .requesting) ∧
    ∀ i, (Bank.get running.bus.groups i).state ≠ .requesting := by decide

/-- Chapter 10's worked sequence: the acknowledge at level 2 is answered with 101; R190: at level 7 with the spurious vector. -/
theorem test_interrupt : serving.bus.requestLevel = 2 ∧
    (after (.interruptAcknowledge 2) serving).bus.vectorOut = some 101 ∧
    (after (.interruptAcknowledge 2) serving).readVector = 0x6208 ∧
    (after (.interruptAcknowledge 7) serving).bus.vectorOut = some 0x60 := by decide

/-- R178: SOFT RESET keeps the area and the vector base; no reset writes to the area. -/
theorem test_resets : serving.inService = true ∧
    ((after .softReset serving).readAreaBase, (after .softReset serving).readVector, (after .softReset serving).readControl) =
      (0, 0x6000, 0x2300) ∧
    (after .pinReset linked).bus.mem = linked.bus.mem ∧ (after .pinReset linked).readControl = 0x0200 ∧
    (after .powerOnReset linked).readControl = 0x0100 := by decide

/-! ## START -/

/-- An anchor whose regions stand apart, with the bits of the two start cells set. -/
def anchorWords : List Nat :=
  [1, 80, 16, 64, 0, 1, 1000, 6000, 7000, 10, 8000, 5, 1, 60, 1, 1, 3, 300,
   12, 40, 80, 120, 20, 60, 100, 50, 25, 1, 2, 3, 0, 1, 2, 5, 33, 0, 0, 0]

/-- READY with the anchor stored, some words replaced. -/
def ready (changed : List (Nat × Nat)) : State :=
  { State.reset with bus := stored changed (stored [(64, 3)] (storedFrom 0 anchorWords
      { Bus.reset with phase := .ready, area := some 0 })) }

theorem test_layout_sound (w : Nat → Nat)
    (h : w 0 = 1 ∧ w 1 = 80 ∧ w 2 = 16 ∧ w 3 = 64 ∧ w 6 = 1000 ∧ w 7 = 6000 ∧ w 8 = 7000 ∧ w 9 = 10 ∧ w 10 = 8000) :
    ¬ BadRange w ∧ ¬ BadLayout w := by
  obtain ⟨h0, h1, h2, h3, h6, h7, h8, h9, h10⟩ := h
  constructor
  · rintro (h | h | h | h | ⟨i, x, h, hx⟩)
    · exact h h0
    · omega
    · omega
    · omega
    · fin_cases i <;> simp only [inRegion, regionAt] at h <;> omega
  · rintro ⟨i, j, hij, x, hi, hj⟩
    fin_cases i <;> fin_cases j <;> simp only [inRegion, regionAt] at hi hj <;> first | exact hij rfl | omega

theorem test_start_witness :
    (ready []).bus.script = [] ∧ (ready []).bus.phase = .ready ∧ Sparse.wf Record.reset (ready []).store = true ∧
    ¬ (BadRange (ready []).bus.anchor ∨ BadLayout (ready []).bus.anchor ∨ BadParameter (ready []).bus.anchor ∨
      (ready []).bus.BadStartCell) := by
  refine ⟨rfl, rfl, rfl, ?_⟩
  have h := test_layout_sound (ready []).bus.anchor (by decide)
  have hp : (ready []).bus.anchor 18 = 12 ∧ (List.range 6).map (fun j => (ready []).bus.anchor (19 + j)) = [40, 80, 120, 20, 60, 100] ∧
      (List.range 6).map (fun j => (ready []).bus.anchor (27 + j)) = [1, 2, 3, 0, 1, 2] := by decide
  rintro (g | g | ⟨k, hk, g⟩ | g)
  · exact h.1 g
  · exact h.2 g
  · revert g
    obtain rfl | rfl := hk
    all_goals
      rintro (g | g | g | g | ⟨j, rfl | rfl | rfl, g⟩) <;> revert g <;> decide
  · revert g
    unfold Bus.BadStartCell Bus.cellSet
    decide

/-- R166: each kind of error, at an edge. -/
theorem test_start_fails_witness :
    BadRange (ready [(2, 2049)]).bus.anchor ∧ BadLayout (ready [(3, 63)]).bus.anchor ∧ BadParameter (ready [(22, 40)]).bus.anchor ∧
    (¬ BadRange (ready [(5, 0)]).bus.anchor ∧ ¬ BadLayout (ready [(5, 0)]).bus.anchor) ∧ (ready [(5, 0)]).bus.BadStartCell := by
  refine ⟨.inr (.inr (.inl (by decide))), ⟨0, 1, by decide, 63, ?_, ?_⟩, ⟨18, .inl rfl, ?_⟩, ?_, ?_⟩
  · unfold inRegion; decide
  · unfold inRegion; decide
  · exact .inr (.inr (.inr (.inr ⟨1, .inl rfl, by decide⟩)))
  · exact test_layout_sound _ (by decide)
  · exact .inr (.inr (.inr (.inr (by decide))))

/-- R166, R177: the flags and the controller state. -/
theorem test_start_fails :
    [[(0, 2)], [(3, 63)], [(22, 40)], [(5, 0)], [(4, 16)]].map (fun l => (after (.start []) (ready l)).readError) =
      [1, 2, 4, 8, 8] ∧
    (after (.start []) (ready [(22, 40)])).readControl = 0x2100 := by decide

/-- R164, R166: reads 0 and 37 are the first and the last of the anchor, 38 and 39 the bitmap words of the two start cells. -/
theorem test_start_unread : [0, 37, 38, 39].map (fun k =>
    let t := after (.start []) ((ready []).meeting (List.replicate k .completes ++ [.timesOut false, .faults 7]))
    (t.readError, t.bus.phase, (Bank.get t.bus.groups 0).level)) =
      [(0x0020, .ready, 7), (0x0020, .ready, 5), (0x0020, .ready, 5), (0x0020, .ready, 5)] := by decide

theorem test_start_unread_witness : (ready []).bus.anchor 4 < (ready []).bus.anchor 2 ∧ (ready []).bus.anchor 5 < (ready []).bus.anchor 2 := by
  decide

/-- R163, R167: the feed poll interval 60 becomes 50, T1 1 becomes 2, T2 1 becomes 3; tape B's ribbon rate 25 becomes 24 and its block
threshold 5 becomes 10; 33 priority rows become 32. -/
theorem test_start : (let t := after (.start []) (ready []);
    [t.params.feedPoll, t.params.t1, t.params.t2, t.params.nightDelay, (t.tape .b).rate, (t.tape .b).block, (t.line 0).priority] =
      [50, 2, 3, 255, 24, 10, 32] ∧
    t.bus.peek 53 = 0xFFFF ∧ t.fmt.remap = some ⟨0, [1, 2, 3], .start⟩ ∧ t.session.state = .opened) := by decide

/-- CHECKING with nothing present and every line's first polls at their outcome, one TERMINAL ONLINE held. -/
def checked : State :=
  { running with
    bus := stored [(64, 1)] { running.bus with phase := .checking }
    params := { running.params with noticeStart := 1, feedPoll := 10 }
    intake := Intake.reset
    lines := Vector.replicate 4 { BoardLine.reset with working := true }
    tlines := #v[{ TermLine.reset with held := [3] }, TermLine.reset]
    terms := Vector.replicate 16 { Terminal.reset with polled := true } }

theorem test_startDone_witness : checked.FirstPollsComplete ∧ ¬ running.FirstPollsComplete ∧ checked.bus.script = [] ∧
    checked.notices.holding = [] ∧ checked.notices.inHand = none ∧ checked.intake.nudged = false ∧
    checked.session.state = .opened := by
  unfold State.FirstPollsComplete; decide

/-- R181, R168, R143: the START DONE cell, the controller and intake states, the held notice, the feed timer. -/
theorem test_startDone :
    (let t := after (.startDone []) checked;
      ((List.range 9).map (fun k => t.posted 1 k), t.bus.peek 64, t.bus.peek 51, t.readControl)) =
      ([0x5A04, 0xFFFF, 1, 0x1105, 0x37F0, 0, 1, 0, 0], 3, 1, 0x6500) ∧
    notices (after (.startDone []) checked) = [.terminalOnline 3] ∧
    (after (.startDone []) checked).session.feedTimer = some 0 := by decide

/-- R68, R168: an initial session CLOSED with a night delay of 0 or of 1. -/
theorem test_startDone_night : [0, 1].map (fun delay =>
    let t := after (.startDone []) { checked with params := { checked.params with nightDelay := delay }, session := { checked.session with state := .closed } }
    (t.session.night, t.session.nightTimer, (t.line 2).nights, (t.term 7).events)) =
      [(true, none, [true], [.night true]), (false, some 0, [], [])] := by decide

/-! ## Notices -/

/-- A TERMINAL OFFLINE. -/
def offline (k : Fin 16) : Item := ⟨[.terminalOffline k], none, 0⟩

/-- The notice unit with an item arriving and items held. -/
def unit (u : UnitState) (held : List Item) (x : Item) : State :=
  { running with notices := { NoticeUnit.reset with
    unit := u, inHand := none, holding := held, inbox := [x], startDone := true, tail := some 12, search := some 12, count := 40 } }

def eight : List Item := [4, 5, 6, 7, 8, 9, 10, 3].map offline

theorem test_holding_witness :
    (unit .held [] (offline 4)).notices.inbox = offline 4 :: [] ∧ (unit .held [] (offline 4)).linesWork = true ∧
    eight.length = 8 ∧ eight = [] ++ offline 4 :: eight.drop 1 ∧ (offline 4).folds (offline 4) = true ∧
    (∀ z ∈ eight.drop 1, z.folds (offline 4) = false) ∧ ∀ z ∈ eight, z.folds (offline 11) = false := by decide

/-- Chapter 10's worked sequence: TERMINAL OFFLINE (4) is folded to the tail with repeat 1; TERMINAL OFFLINE (11) is lost. -/
theorem test_holding :
    (after (.notice []) (unit .held eight (offline 4))).notices.holding = eight.drop 1 ++ [⟨[.terminalOffline 4], none, 1⟩] ∧
    (let t := after (.notice []) (unit .held eight (offline 11));
      (t.notices.lost, t.bus.peek 52, t.readError)) = (1, 1, 0x0080) ∧
    (after (.notice []) (unit .held (eight.drop 1) (offline 11))).notices.holding.length = 8 := by decide

/-- Cells 0 to 12 in use, the tail 12 a notice; or all cells in use. -/
def pool (bits tailState : Nat) : State :=
  { unit .idle [] (offline 3) with bus := stored [(64, bits), (272, tailState), (273, 0xFFFF)] running.bus }

/-- A HELD unit with the notice in hand, and a feed poll tick due. -/
def heldPool : State :=
  { pool 0x1FFF 0x5A04 with
    params := { running.params with feedPoll := 10 }
    intake := { Intake.reset with feedTick := some 0 }
    notices := { (pool 0x1FFF 0x5A04).notices with unit := .held, inbox := [], inHand := some ⟨offline 3, [], false⟩ } }

/-- A HELD unit that has claimed cell 13, written or not. -/
def claimedPool (written : Bool) : State :=
  { heldPool with bus := stored [(64, 0x3FFF)] heldPool.bus, notices := { heldPool.notices with inHand := some ⟨offline 3, [13], written⟩ } }

/-- The pair of a SNAPSHOT at an idle unit. -/
def snapshotPair : Item := ⟨[.snapshotPrices 7 .halted .none (some .news) (some 400) none none none none none, .snapshotQuote 7 none none 0 0 0], none, 0⟩

def pairPool (bits : Nat) : State :=
  { pool bits 0x5A04 with notices := { (pool bits 0x5A04).notices with inbox := [snapshotPair] } }

theorem test_claims : ∀ s ∈ [pool 0x1FFF 0x5A04, pool 0x1FFF 0, heldPool, pairPool 0x1FFF], ClaimsCell s 13 := by
  intro s hs
  have h : s.params.cellCount = 16 ∧ (s.bus.peek (s.params.bitmapWord 13)).getLsbD (13 % 16) = false ∧
      ∀ d : Fin 16, (s.bus.peek (s.params.bitmapWord d.val)).getLsbD (d.val % 16) = false →
        searchDistance s.params.cellCount (s.notices.search.getD 0) 13 ≤
          searchDistance s.params.cellCount (s.notices.search.getD 0) d.val := by
    revert s; decide
  exact ⟨by rw [h.1]; decide, h.2.1, fun d hd => h.2.2 ⟨d, by rw [← h.1]; exact hd⟩⟩

theorem test_link_witness :
    (∀ s ∈ [pool 0x1FFF 0x5A04, pool 0xEFFF 0x5A04, pool 0xFFFF 0x5A04], s.bus.script = [] ∧ s.linesWork = true ∧
      s.notices.startDone = true ∧ s.notices.search.getD 0 < s.params.cellCount ∧ s.notices.unit = .idle ∧ s.notices.holding = [] ∧
      s.notices.inbox = [offline 3] ∧ s.notices.tail = some 12) ∧
    (∀ c : Fin 16, ((pool 0xFFFF 0x5A04).bus.peek ((pool 0xFFFF 0x5A04).params.bitmapWord c.val)).getLsbD (c.val % 16) = true) ∧
    ((12 + 1) % 16 ≤ 13 ∧ 13 / 16 = ((12 + 1) % 16) / 16) ∧
    (pairPool 0x1FFF).notices.inbox = [snapshotPair] ∧ (pairPool 0x1FFF).notices.unit = .idle ∧
    (∀ w ∈ [true, false], (claimedPool w).notices.inHand = some ⟨offline 3, [13], w⟩ ∧ (claimedPool w).tickDue = true) ∧
    heldPool.notices.unit = .held ∧ heldPool.notices.inHand = some ⟨offline 3, [], false⟩ ∧ heldPool.tickDue = true ∧
    heldPool.intake.state = .stopped := by decide

/-- Chapter 10's worked sequence: TERMINAL OFFLINE (3) claims 13, is linked behind 12 and counted; in a full pool the unit is HELD; a
tail that reads EMPTY restarts the chain at 13, and 14 is claimed for the CHAIN BROKEN notice. -/
theorem test_link :
    (let t := after (.notice []) (pool 0x1FFF 0x5A04);
      (t.bus.peek 64, t.posted 12 1, (List.range 7).map (fun k => t.posted 13 k), t.notices.tail, t.bus.peek 51)) =
      (0x3FFF, 13, [0x5A04, 0xFFFF, 41, 0x520F, 0xFFFF, 0, 3], some 13, 41) ∧
    (after (.notice []) (pool 0xFFFF 0x5A04)).notices.unit = .held ∧
    (let t := after (.notice []) (pool 0x1FFF 0);
      (t.bus.peek 53, t.bus.peek 54, t.readError, (List.range 10).map (fun k => t.posted 14 k))) =
      (13, 1, 0x0040, [0x5A04, 0xFFFF, 42, 0x1305, 0x37F0, 0, 2, 12, 0, 1]) ∧
    (after (.feedPollTick [] true) heldPool).notices.tail = some 13 := by decide

/-- The tail 12 admits a link; a state word EMPTY, and a clear bit, do not. -/
theorem test_tail_witness : (pool 0x1FFF 0x5A04).tailSound 12 13 ∧ ¬ (pool 0x1FFF 0).tailSound 12 13 ∧
    ¬ (pool 0x0FFF 0x5A04).tailSound 12 13 ∧ (∀ w ∈ [true, false], (claimedPool w).tailSound 12 13) := by
  unfold State.tailSound; decide

/-- R183, R184, R187: TAIL FREED stands before BAD STATE; a SNAPSHOT's pair takes two cells, or waits with one; a failed access leaves the unit
HELD with its claim; a tail that faults at its second attempt restarts the chain; a claimed cell is written and linked at the tick. -/
theorem test_notice_failures :
    notices (after (.notice []) (pool 0xEFFF 0)) = [] ∧
    (let t := after (.notice []) (pairPool 0x1FFF);
      (t.bus.peek 64, t.posted 12 1, t.posted 13 1, t.bus.peek 51)) = (0x7FFF, 13, 14, 42) ∧
    (after (.notice []) (pairPool 0xDFFF)).notices.inHand = some ⟨snapshotPair, [13], false⟩ ∧
    (after (.notice []) ((pool 0x1FFF 0x5A04).meeting [.timesOut false, .timesOut true])).notices.inHand = some ⟨offline 3, [], false⟩ ∧
    (after (.notice []) ((pool 0x1FFF 0x5A04).meeting (List.replicate 18 .completes ++ [.timesOut false, .faults 1]))).bus.peek 53 = 13 ∧
    (after (.feedPollTick [] true) (claimedPool false)).notices.tail = some 13 := by decide

/-! ## Boards -/

/-- BRQ of chapter 12: FRACTION-16, tape A, previous close 712. -/
def brq : Record :=
  { Record.reset with
    state := .active, symbol := [0x42, 0x52, 0x51], mode := .fraction16, tape := some .a, prevClose := some 712,
    chainHead := some 0 }

/-- A present module of 16 cells. -/
def module_ (st : ModState) (dirty inFlight : Option Range) : Module :=
  { Module.reset with present := true, width := some .w16, state := st, dirty := dirty, inFlight := inFlight }

/-- Line 1 with module 5 and some fields set, of a part in service. -/
def board (x : Module) (f : BoardLine → BoardLine) : State :=
  running.modifyLine 1 fun l => f ({ l with working := true }.having 5 x)

def image (s : State) : List Byte := (((s.line 1).module 5).image.toList.map (·.glyph)).take 10

/-- R100: the range covers the old one and the cells that changed, and nothing is kept of an UNKNOWN module. -/
theorem test_shown :
    ((module_ .live (some ⟨8, 9⟩) none).showCells 3 [.blank, ⟨0x41, BoardCell.blank.attr⟩, .blank]).dirty = some ⟨4, 9⟩ ∧
    ((module_ .live none none).showCells 3 [.blank]).dirty = none ∧
    ((module_ .unknown none none).showCells 31 [⟨0x41, BoardCell.blank.attr⟩]).dirty = none := by decide

/-- Module 5 of chapter 05's example: LAST in cells 4 to 9 by format 3, GLYPH. -/
def placed (highlight : Option TickDir) : State :=
  let s := (board (module_ .live none none) id).setRecord 12 { brq with lastPx := some 729, tick := .up }
  { s with
    bus := stored [(6012, 0x2000), (6013, 0x3021), (6014, 1)] s.bus
    params := { s.params with highlight := 3 }
    fmt := { s.fmt with table := [(0, some ⟨1, 5, 4, 6, .last, 3, 12, none, highlight⟩)] } }

/-- The change event of a trade, waiting. -/
def changed : State :=
  { placed none with fmt := { (placed none).fmt with changes := [⟨12, [.last, .volume], some .up⟩] } }

theorem test_change_event_witness : changed = changed.hostWrites [] ∧ changed.bus.script = [] ∧
    changed.fmt.changes = ⟨12, [.last, .volume], some .up⟩ :: [] ∧ changed.ChainIs 12 [0] := by
  refine ⟨by decide, by decide, by decide, by decide, ⟨rfl, _, rfl, trivial⟩, fun k h => ?_⟩
  obtain rfl := List.mem_singleton.mp h
  exact ⟨by decide, _, rfl, rfl⟩

/-- R89: the highlight expires 3 seconds later; R86: cells 4 to 9 of the image hold 45 9/16 in DIGITS, in GREEN. -/
theorem test_change_event : (let t := after (.changeEvent []) changed;
    t.fmt.timers = [⟨0, 3000⟩] ∧ ((t.line 1).module 5).dirty.isSome = true ∧
    (Bank.get ((t.line 1).module 5).image 9).attr.colour = .green) := by decide

/-- R90: a highlight at its expiry ends, and one millisecond before it nothing happens. -/
def highlighted (now : Nat) : State :=
  { placed (some .up) with now := now, fmt := { (placed (some .up)).fmt with timers := [⟨0, 3000⟩] } }

def stale : State :=
  let s := board { module_ .live none none with stale := some 15 } id
  { s with fmt := { s.fmt with stageEvents := [.lost], sessionEvents := [.marketHalt] } }

theorem test_events_witness : (∀ now ∈ [2999, 3000], (highlighted now) = (highlighted now).hostWrites [] ∧
    (highlighted now).bus.script = [] ∧ (highlighted now).fmt.timers = ⟨0, 3000⟩ :: []) ∧ stale = stale.hostWrites [] ∧
    stale.bus.script = [] := by decide

/-- R85: the stale cell of a LOST feed is a blinking amber colon. -/
theorem test_events :
    (after (.highlightExpiry []) (highlighted 2999)).fmt.timers = [⟨0, 3000⟩] ∧
    ((after (.highlightExpiry []) (highlighted 3000)).fmt.placement 0).map (·.highlight) = some none ∧
    Bank.get (((after .feedStageEvent stale).line 1).module 5).image 15 = ⟨0x3A, ⟨.amber, true, false⟩⟩ ∧
    (after (.sessionEvent []) stale).fmt.sessionEvents = [] := by decide

/-- REMAP of line 1 at START, module 5 present with SYMBOL of instrument 12 in cells 0 to 3. -/
def remapping : State :=
  let s := running.modifyLine 1 fun l => { l with underRemap := true }
  { s with
    bus := stored [(1000 + 1024 + 160, 0x8001), (1000 + 1024 + 162, 0x800C), (1000 + 1024 + 163, 0x1004)]
      { s.bus with phase := .checking }
    params := { s.params with boardMap := 1000 }
    fmt := { s.fmt with remap := some ⟨1, [2, 3], .start⟩ } }

theorem test_remap_finished_witness : remapping = remapping.hostWrites [] ∧ remapping.bus.script = [] ∧
    remapping.linesWork = true ∧ remapping.fmt.remap = some ⟨1, [2, 3], .start⟩ ∧
    remapping.fmt.table = [] ∧ Sparse.wf none remapping.fmt.table = true := by decide

/-- An instrument with no placement has the empty chain. -/
theorem test_chain_witness : remapping.ChainIs 12 [] := ⟨List.nodup_nil, trivial, fun _ h => absurd h List.not_mem_nil⟩

/-- A second slot of module 5 that overlaps the first is a fault, reported in START's notices (R77, R78, R94). -/
def faulty : State := { remapping with bus := stored [(2189, 0x8007), (2190, 0x1064)] remapping.bus }

/-- R76, R77, R92, R99: module 5 is present, UNKNOWN and due to be polled, the placement is in the table, and line 2 follows. -/
theorem test_remap_finished : (let t := after (.remapLineFinished []) remapping;
    t.fmt.remap = some ⟨2, [3], .start⟩ ∧ t.fmt.placement 0 = some ⟨1, 5, 0, 4, .symbol, 0, 12, none, none⟩ ∧
    (t.record 12).chainHead = some 0 ∧
    (((t.line 1).module 5).state, ((t.line 1).module 5).poll, (t.line 1).intensityDue) = (.unknown, .due, some .full)) ∧
    (let t := after (.remapLineFinished []) faulty;
      (t.readError, t.fmt.held, t.fmt.placement 1)) = (0x0100, [.tableFaultRemap 1 1], none) := by
  decide +kernel

/-- R109, R110. -/
theorem test_nights :
    (let t := after (.nightSet 1) (board (module_ .live none none) fun l => { l with nights := [true] });
      ((t.line 1).blankDue, (t.line 1).intensityDue) = (true, some .dim)) ∧
    ((after (.nightClear 1) (board (module_ .live none none) fun l => { l with nights := [false] })).line 1 |>.module 5).dirty =
      some ⟨0, 15⟩ ∧
    ((after (.nightClear 1) (board (module_ .live none none) fun l => { l with nights := [true] })).line 1).nights = [true] := by
  decide

/-- R97, R101: a WRITE CELLS of two blanks in cells 14 and 15; its check byte is 0xA1 + 5 + 14 + 2 + 2 × 0x20. -/
theorem test_choose :
    ((after (.chooseNextFrame 1) (board (module_ .live (some ⟨14, 15⟩) none) id)).line 1).frame =
      some ⟨.writeCells 5, [0xA1, 5, 14, 2, 0x20, 0, 0x20, 0, 0xF6], .sending⟩ ∧
    ((after (.chooseNextFrame 1) (board { module_ .dark none none with poll := .due } id)).line 1).frame =
      some ⟨.statusPoll 5, [0xA2, 5, 0xA7], .sending⟩ ∧
    ((after (.chooseNextFrame 1) (board (module_ .live (some ⟨14, 15⟩) none)
      fun l => { l with intensityDue := some .dim, blankDue := true })).line 1).frame =
      some ⟨.broadcastBlank, [0xA3, 31, 0xC2], .sending⟩ := by decide

/-- R98, R108. -/
theorem test_frame_sent :
    ((after (.boardFrameSent 1) (board (module_ .live none none)
      fun l => { l with frame := some ⟨.statusPoll 5, [], .sending⟩ })).line 1).frame = some ⟨.statusPoll 5, [], .window 20⟩ ∧
    ((after (.boardFrameSent 1) (board (module_ .live none none)
      fun l => { l with frame := some ⟨.broadcastBlank, [], .sending⟩ })).line 1 |>.module 5).dirty = some ⟨0, 15⟩ ∧
    ((after (.boardFrameSent 1) (board (module_ .live none none)
      fun l => { l with frame := some ⟨.intensity .dim, [], .sending⟩, intensityDue := some .full })).line 1).intensityDue =
      some .full := by decide

/-- A WRITE CELLS of cells 0 to 3 in its window, which ends at 20, after some failed attempts. -/
def inWindow (now attempts : Nat) : State :=
  { board { module_ .live (some ⟨8, 9⟩) (some ⟨0, 3⟩) with attempts := attempts }
      (fun l => { l with frame := some ⟨.writeCells 5, [], .window 20⟩ }) with now := now }

/-- R98, R103 to R105: an ACCEPT at 20 is in time, one at 21 is not, nor one of another address; the third failure is DARK. -/
theorem test_write_outcome :
    (((after (.accept 1 5 0xB6) (inWindow 20 2)).line 1 |>.module 5).inFlight, (after (.accept 1 5 0xB6) (inWindow 20 2)).line 1 |>.frame) =
      (none, none) ∧
    ((after (.accept 1 5 0xB6) (inWindow 21 0)).line 1).frame.isSome = true ∧
    ((after (.accept 1 6 0xB7) (inWindow 20 0)).line 1).frame.isSome = true ∧
    ((after (.reject 1 5 0xB7) (inWindow 20 0)).line 1 |>.module 5).dirty = some ⟨0, 9⟩ ∧
    ((after (.replyWindow 1) (inWindow 20 2)).line 1 |>.module 5).state = .dark ∧
    notices (after (.replyWindow 1) (inWindow 20 2)) = [.moduleLost 1 5] := by decide

/-- A STATUS POLL of a DARK module in its window. -/
def polling (now : Nat) : State :=
  { board (module_ .dark none none) (fun l => { l with frame := some ⟨.statusPoll 5, [], .window 20⟩ }) with now := now }

/-- R106, R107. -/
theorem test_poll_outcome :
    ((after (.statusReply 1 5 1 0xB9) (polling 20)).line 1 |>.module 5).dirty = some ⟨0, 15⟩ ∧
    notices (after (.statusReply 1 5 1 0xB9) (polling 20)) = [.moduleBack 1 5 1] ∧
    ((after (.replyWindow 1) (polling 20)).line 1 |>.module 5).poll = .running 5020 ∧
    ((after (.pollTimer 1 5) (board { module_ .dark none none with poll := .running 0 } id)).line 1 |>.module 5).poll = .due := by
  decide

/-! ## Tapes -/

/-- Tape A in service, with the parameters of chapter 12. -/
def tape (f : Tape → Tape) : State :=
  (running.modifyTape .a fun x => f { x with
    rate := 12, e1 := 40, e2 := 80, e3 := 120, x1 := 20, x2 := 60, x3 := 100, block := 50, ribbonStart := some 0 }).setRecord 12 brq

def print (id : Nat) (p : Price) (v : Volume) : Arrival := .print 12 .fraction16 ⟨word id, p, v⟩ false false (some 342000)
def entry (merged : List Triple) : Entry := .trade 12 .fraction16 (some 342000) false false merged

/-- A queue of 255 texts, and one of 256 entries whose oldest is the entry of id 29. -/
def texts : List Entry := List.replicate 255 (.text [] false)
def full : List Entry := entry [⟨29, 728, 100⟩] :: texts

theorem test_prints_witness :
    ((tape fun x => { x with queue := full, inbox := [print 30 735 200] }).tape .a).inbox = [print 30 735 200] ∧
    full.length = 256 ∧ texts.length = 255 ∧ full = [] ++ entry [⟨29, 728, 100⟩] :: texts ∧ (entry []).instr = some 12 ∧
    ∀ z ∈ texts, z.instr ≠ some 12 := by decide

/-- Chapter 12, the full queue: id 30 is folded into the entry of id 29; a NORMAL text is discarded with its notice. -/
theorem test_prints :
    (((after (.printArrival .a) (tape fun x => { x with queue := full, inbox := [print 30 735 200] })).tape .a).queue.take 1 =
      [entry [⟨29, 728, 100⟩, ⟨30, 735, 200⟩]]) ∧
    ((after (.printArrival .a) (tape fun x => { x with queue := texts, inbox := [print 30 735 200] })).tape .a).queue.length = 256 ∧
    ((after (.cancelArrival .a) (tape fun x => { x with
      queue := [entry [⟨29, 728, 100⟩, ⟨30, 735, 200⟩]], inbox := [.cancel 12 30 .fraction16 none none] })).tape .a).queue =
      [entry [⟨29, 728, 100⟩]] ∧
    ((after (.cancelArrival .a) (tape fun x => { x with
      queue := [entry [⟨29, 728, 100⟩]], inbox := [.cancel 12 31 .fraction16 none none] })).tape .a).queue =
      [entry [⟨29, 728, 100⟩], .cancel 12 .fraction16 none] := by decide

/-- R115, R116, R120. -/
theorem test_texts :
    ((after (.textArrival .a .feedWatch) (tape fun x => { x with
      queue := [.text [1] true, entry [⟨29, 728, 100⟩]], watchInbox := [.text [2] true none] })).tape .a).queue =
      [.text [1] true, .text [2] true, entry [⟨29, 728, 100⟩]] ∧
    ((after (.noteArrival .a) (tape fun x => { x with queue := texts, inbox := [.note false 12 .fraction16 none] })).tape .a).queue.length =
      256 ∧
    notices (after (.textArrival .a .intake) (tape fun x => { x with queue := full, inbox := [.text [2] false (some 5)] })) =
      [.tapeOmission .a .text none none none (some 5)] := by decide

/-- Chapters 07 and 11, R133: TAPE LEVEL (A, 1 to 2, B 80, epoch 5), with 12 minutes of lateness after it (log 34). -/
theorem test_tape_level : (NoticeBody.tapeLevel .a 1 2 80 5 12).words = [1, 1, 2, 80, 5, 12] := by decide

/-- A head entry, with a FIFO. -/
def head (e : Entry) (fifo : Nat) : State := tape fun x => { x with queue := [e], fifo := List.replicate fifo 0x20 }

theorem test_render_witness : (head (entry [⟨1, 729, 1000⟩]) 15).inService = true ∧
    ((head (entry [⟨1, 729, 1000⟩]) 15).tape .a).fifo.length = 15 ∧
    ((head (entry [⟨1, 729, 1000⟩]) 15).tape .a).queue = entry [⟨1, 729, 1000⟩] :: [] := by decide

/-- Chapter 12, posting 6: the opening print is shown as BRQ 10, the lot mark, OPG45 9/16, 17 characters and two spaces; the reference is
tens 4, epoch 0. With 16 characters in the FIFO nothing is taken; a trade 620 deciseconds old is announced 1 minute late. -/
theorem test_render :
    (let t := after (.renderEntry .a) (head (.trade 12 .fraction16 (some 342000) true false [⟨1, 729, 1000⟩]) 0);
      (t.tape .a).fifo = chars "BRQ 10".toList ++ [0x04] ++ chars "OPG45 9/16  ".toList ∧ (t.record 12).tapeRef = some ⟨4, 0⟩) ∧
    ((after (.renderEntry .a) (head (entry [⟨1, 729, 1000⟩]) 16)).tape .a).queue.length = 1 ∧
    ((after (.renderEntry .a) (head (.trade 12 .fraction16 (some 341380) false false [⟨1, 729, 1000⟩]) 0)).tape .a).fifo =
      chars "TAPE 1 MIN LATE  ".toList := by decide

/-- Chapter 12, the LEVEL 3 merge: ids 50 and 52 become one entry, 5,300 shares; an entry that would carry the list past 8 stays. -/
theorem test_merge :
    mergeLater 12 [⟨50, 404, 300⟩] [.haltNote 7, entry [⟨52, 406, 5000⟩]] = ([⟨50, 404, 300⟩, ⟨52, 406, 5000⟩], [.haltNote 7]) ∧
    mergedVolume [⟨50, 404, 300⟩, ⟨52, 406, 5000⟩] = 5300 ∧
    (mergeLater 12 (List.replicate 7 ⟨50, 404, 300⟩) [entry [⟨52, 406, 1⟩, ⟨53, 406, 1⟩]]).2.length = 1 := by decide

/-- R127: of a plain entry, an opening and a plain one, one is folded and no more. -/
theorem test_merge_witness : (let own : List Entry := [entry [⟨1, 5, 1⟩], .trade 12 .fraction16 none true false [⟨2, 5, 1⟩], entry [⟨3, 5, 1⟩]];
    let plain (e : Entry) : Bool := match e with | .trade _ _ _ op late _ => !op && !late | _ => false
    ((own.take 1).all plain, (own.take 2).all plain)) = (true, false) ∧
    mergeLater 12 [] [entry [⟨1, 5, 1⟩], .trade 12 .fraction16 none true false [⟨2, 5, 1⟩], entry [⟨3, 5, 1⟩]] =
      ([⟨1, 5, 1⟩], [.trade 12 .fraction16 none true false [⟨2, 5, 1⟩], entry [⟨3, 5, 1⟩]]) := by decide

/-- R132: at 12 characters a second, character 1 begins at millisecond 83. -/
theorem test_ribbon :
    (let s (now : Nat) := { tape (fun x => { x with fifo := [0x41], ribbonNext := 1 }) with now := now };
      (((after (.ribbonCharacter .a) (s 82)).tape .a).ribbonOut, ((after (.ribbonCharacter .a) (s 83)).tape .a).ribbonOut) =
        (none, some 0x41)) := by decide

/-! ## Terminals -/

/-- Terminal 3, ONLINE, and its context. -/
def desk (f : Terminal → Terminal) : State := running.modifyTerm 3 fun x => f { x with state := .online }

def rows (s : State) : List Nat := ((List.finRange 18).filter fun r => Bank.get (s.term 3).dirty r).map (·.val)

/-- R153, R141, R142: the rows that each event makes dirty, and sleep. -/
theorem test_terminal_events :
    rows (after (.terminalChangeEvent 3) (desk fun x => { x with changes := [12], pageList := [some 12, some 7, some 12] })) = [1, 3] ∧
    rows (after (.terminalSessionEvent 3) (desk fun x => { x with events := [.session .opened] })) = List.range 17 ∧
    rows (after (.terminalFeedStageEvent 3) (desk fun x => { x with events := [.feedStage .lost] })) = [0] ∧
    rows (after (.timeEvent 3) (desk fun x => { x with events := [.time] })) = [0] := by decide

theorem test_terminal_nights :
    ((after (.terminalNightSet 3) (desk fun x => { x with events := [.night true] })).term 3).state = .asleep ∧
    ((after (.terminalNightClear 3) (desk fun x => { x with state := .asleep, events := [.night false] })).term 3).state = .online ∧
    ((after (.terminalNightClear 3) (desk fun x => { x with events := [.night true] })).term 3).events = [.night true] := by decide

/-- A watch ABOVE 730 on instrument 12, and a watch check. -/
def watched (last : Price) : State :=
  (desk fun x => { x with watches := [⟨12, 730, .above, false⟩], checks := [(12, last)] }).setRecord 12
    { brq with watchMask := Bank.set (Vector.replicate 16 false) 3 true }

theorem test_watch_witness : ((watched 729).term 3).checks = (12, 729) :: [] ∧ ((watched 730).term 3).checks = (12, 730) :: [] := by
  decide

/-- Chapter 12: 729 leaves the watch ARMED; 735 trips it, with lamp, ALERT BRQ 45 15/16, notice, and watch mask bit 3 clear. -/
theorem test_watch :
    ((after (.watchCheck 3) (watched 729)).term 3).lamp = false ∧ ((after (.watchCheck 3) (watched 730)).term 3).lamp = true ∧
    (let t := after (.watchCheck 3) (watched 735);
      (t.term 3).message = some (leftIn 40 (chars "ALERT BRQ 45 15/16".toList)) ∧
      notices t = [.watchTripped 3 12 730 .above 735] ∧ Bank.get (t.record 12).watchMask 3 = false) := by decide

theorem test_visit_witness : running.linesWork = true ∧ ∀ b : Fin 8, b ≠ 3 →
    ((desk id).term (terminalOf 0 b)).state = .offline ∧ ((desk id).term (terminalOf 0 b)).poll = .stopped := by decide

/-- R137, R138: a dirty row goes out as a ROW, then the POLL, whose window ends 30 milliseconds after its sending. -/
theorem test_visit :
    (let t := after (.visit 0) (desk fun x => { x with dirty := Bank.set x.dirty 17 true });
      ((t.tline 0).frame.map (·.kind), (t.tline 0).frame.map (·.bytes.length), rows t) = (some (.row 17), some 53, [])) ∧
    ((after (.visit 0) (desk id)).tline 0).frame = some ⟨.poll, 3, [0xC2, 3, 0xC5], .sending, .online, false⟩ ∧
    ((after (.terminalFrameSent 0) (after (.visit 0) (desk id))).tline 0).frame =
      some ⟨.poll, 3, [0xC2, 3, 0xC5], .window 30, .online, false⟩ := by decide

/-- A POLL to terminal 3 in its window, which ends at 30. -/
def polled (now : Nat) (f : Terminal → Terminal) : State :=
  { (desk f).modifyTline 0 (fun x => { x with frame := some ⟨.poll, 3, [], .window 30, .online, false⟩ }) with now := now }

/-- R136, R139, R140, R144: a KEY at 30, the third missed POLL, and an answer from OFFLINE. -/
theorem test_poll :
    ((after (.key 0 3 0x45 0x19) (polled 30 id)).term 3).work = .keyDispatch 5 ∧
    ((after (.key 0 3 0x45 0x19) (polled 31 id)).term 3).work = .none ∧
    (let t := after (.pollReplyWindow 0) (polled 30 fun x => { x with miss := 2 });
      ((t.term 3).state, (t.term 3).poll, notices t) = (.offline, .running 4030, [.terminalOffline 3])) ∧
    (let t := after (.idle 0 3 0xD5) (polled 30 fun x => { x with state := .offline });
      ((t.term 3).state, rows t, notices t) = (.online, List.range 18, [.terminalOnline 3])) ∧
    ((after (.terminalPollTimer 3) (desk fun x => { x with poll := .running 0 })).term 3).poll = .due := by decide

/-- Terminal 3 with work in hand, the tables of chapter 12: key 5 is DIRECT 2, key 6 shows page 7 with PUSH, NOTIFY and INVERSE
HEADER; page 7 lists 12 and 20. -/
def working (work : Work) (locked : Bool) : State :=
  let s := desk fun x => { x with work := work, locked := locked, page := some 2, pageList := [some 7, some 12, some 7] }
  { s with bus := stored [(8, 7000), (9, 10), (8005, 0x8002), (8006, 9000), (9000, 1), (9001, 3), (9002, 7), (9003, 2), (8007, 60),
      (7224, 3), (7225, 0x5859), (7226, 0x5A00), (7237, 2), (7238, 12), (7239, 20)] s.bus }

/-- Key 6 of an unlocked terminal is a SHOW PAGE record, whose words are reads 1 to 4, and the page count is read 5. -/
theorem test_keys_fail :
    (after (.keyEntryRead 3 []) ((working (.keyDispatch 6) false).meeting [.timesOut false, .timesOut false])).readError = 0x0010 ∧
    [0, 1, 4, 5].map (fun k =>
      let t := after (.keyEntryRead 3 []) ((working (.keyDispatch 6) false).meeting (List.replicate k .completes ++ [.faults 7, .faults 7]))
      (t.readError, (t.term 3).work, (t.term 3).beep, (notices t).length)) =
        [(0x20, .none, true, 0), (0x20, .none, true, 0), (0x20, .none, true, 0), (0x20, .none, true, 1)] := by decide

theorem test_keys_witness :
    ∀ k ∈ [(5 : Fin 64), 6, 7, 8], working (.keyDispatch k) false = (working (.keyDispatch k) false).hostWrites [] ∧
    (working (.keyDispatch k) false).bus.script = [] ∧ ((working (.keyDispatch k) false).term 3).work = .keyDispatch k := by
  decide +kernel

/-- R144 to R150, R176: DIRECT, an action record with its notice, a record in the anchor, an unassigned key, a locked terminal. -/
theorem test_keys :
    ((after (.keyEntryRead 3 []) (working (.keyDispatch 5) false)).term 3).work = .pageLoad 2 .directKey ∧
    (let t := after (.keyEntryRead 3 []) (working (.keyDispatch 6) false);
      ((t.term 3).work, notices t) = (.pageLoad 7 (.showPage true ⟨false, true⟩), [.terminalKey 3 6 (some 2)])) ∧
    (after (.keyEntryRead 3 []) (working (.keyDispatch 7) false)).readError = 0x0100 ∧
    ((after (.keyEntryRead 3 []) (working (.keyDispatch 8) false)).term 3).beep = true ∧
    ((after (.keyEntryRead 3 []) (working (.keyDispatch 5) true)).term 3).work = .none := by decide

def loading (page : Word) : State := working (.pageLoad page (.showPage true ⟨false, true⟩)) false

theorem test_page_witness : [(loading 7), (loading 9), (loading 10)].map (fun s => (s.bus.script, (s.term 3).work)) =
    [7, 9, 10].map fun p => ([], .pageLoad p (.showPage true ⟨false, true⟩)) := by decide

/-- Chapter 12, the desk: the stack holds page 2 with a clear mask, the mask is INVERSE HEADER, and the interest bits move. -/
theorem test_page : (let t := after (.pageLoadComplete 3 []) (loading 7);
    (t.term 3).stack = [(2, ⟨false, false⟩)] ∧ (t.term 3).mask = ⟨false, true⟩ ∧ (t.term 3).title = [0x58, 0x59, 0x5A] ∧
    Bank.get (t.record 20).interest 3 = true ∧ Bank.get (t.record 7).interest 3 = false) ∧
    ((after (.pageLoadComplete 3 []) (loading 10)).term 3).page = some 2 := by decide

/-- R151, R164: the words read for page 7 are eight: two of the anchor, the title's length and
two words, the instrument count and two slots. -/
theorem test_page_fails : [0, 7, 8].map (fun k =>
    let t := after (.pageLoadComplete 3 []) ((loading 7).meeting (List.replicate k .completes ++ [.faults 7, .faults 7]))
    (t.readError, (t.term 3).page)) = [(0x20, some 2), (0x20, some 2), (0, some 7)] := by decide

/-! ## Prices, the queue and the invariants -/

theorem test_price_witness : (1 : Nat) ≤ (⟨1, 5, 4, 1, .last, 3, 12, none, none⟩ : Placement).width := by decide

/-- R5: the largest number spoken of has ten digits. R14 to R17: 729 in DIGITS at an exact fit, one cell short (taken in GLYPH, 9/16
shown as the glyph of 5/8), and with no room for a digit. -/
theorem test_fields : decimal 9999999999 = chars "9999999999".toList ∧ (9999999999 : Nat) < 10 ^ 10 ∧
    [7, 6, 2].map (fun w => (placementCells { brq with lastPx := some 729 } .opened (formatOf [0x2000, 0x3021, 1, 0])
      ⟨1, 5, 4, w, .last, 3, 12, none, none⟩).map (·.glyph)) =
      [chars "45 9/16".toList, chars "   45".toList ++ [0x15], [0x03, 0x03]] := by decide

/-- Chapter 01: 729 of FRACTION-16 is 45 9/16; in whole numbers 46; 9/16 is taken up to 5/8. -/
theorem test_prices : (tapePrice .fraction16 729).text = chars "45 9/16".toList ∧
    (noneParts .fraction16 729).text = chars "46".toList ∧ eighths .fraction16 729 = 5 := by decide

theorem test_queue :
    step { running with pending := [.quiesce, .errorFlagClear 1] } = exec .quiesce { running with pending := [.errorFlagClear 1] } ∧
    step State.reset = .next { State.reset with now := 1 } := ⟨rfl, rfl⟩

/-- A state that meets the premises of every invariant, and from which a step follows. -/
def queued : State := { running with pending := [.quiesce] }

theorem test_canonical_witness : queued.Canonical ∧ step queued = .next (after .quiesce running) := by
  refine ⟨?_, rfl⟩
  unfold State.Canonical
  decide

theorem test_blocks_witness : queued.IdleBeforeStart ∧ queued.session.Sound ∧ queued.bus.GroupsSound := by
  refine ⟨⟨by decide, by decide, by decide⟩, ?_, by decide, by decide⟩
  unfold SessionUnit.Sound
  decide

theorem test_masks_witness : queued.MasksSound := by
  have hs : Record.reset.Sound := by unfold Record.Sound; decide
  have hb : ∀ k : Fin 16, Bank.get Record.reset.watchMask k = false ∧ Bank.get Record.reset.interest k = false := by decide
  have ht : ∀ k : Fin 16, (queued.term k).watches = [] ∧ (queued.term k).pageList = [] := by decide
  intro i
  have hr : queued.record i = Record.reset := rfl
  rw [hr]
  exact ⟨hs, fun k => by simp [ht k, hb k]⟩

theorem test_cells_witness : queued.CellsSound := by
  refine ⟨fun c h => ?_, fun _ => by decide⟩
  obtain rfl : (0 : Nat) = c := Option.some.inj h
  decide

theorem test_chains_witness : queued.ChainsSound := fun _ =>
  ⟨[], ⟨List.nodup_nil, trivial, fun _ h => absurd h List.not_mem_nil⟩, fun _ _ h => nomatch h⟩

theorem test_bounds_witness : queued.Bounded := by
  have hm : ∀ (n : Fin 4) (m : Fin 32), (queued.line n).module m = Module.reset := by decide +kernel
  have ht : ∀ k : Fin 16, queued.term k = Terminal.reset := by decide +kernel
  have hd : ∀ d, queued.tape d = Tape.reset := fun d => by cases d <;> rfl
  refine ⟨by unfold Intake.Sound; decide, ⟨fun k p h => (by cases h), fun j h => (by cases h), by decide, by decide⟩,
    fun n m => ?_, fun d => ?_, fun k => ?_, by decide, fun i => (by decide : (0 : Nat) ≤ 5)⟩
  · rw [hm]
    exact ⟨by decide, by decide, fun r h => (by obtain h | h := h <;> cases h), by decide, by decide⟩
  · rw [hd]
    exact ⟨by decide, fun i m t o l g h => (by cases h), fun c u h => (by cases h),
      fun c u t h => (by obtain h | h := h <;> cases h), by decide, by decide⟩
  · rw [ht]
    exact ⟨by decide, by decide, by decide, by decide, by decide, fun m h => (by cases h)⟩

end Sys2Proof.Tests
end

section
/-! PROOF. A DEFINE posting (chapter 02, R37, R38, R53): the words intake reads of it, its checks, and its effect. -/

namespace Sys2Proof.Machine

/-! ## Character fields (R192) -/

theorem flatMap_bytes_length (ws : List Word) : (ws.flatMap fun w => [w.high, w.low]).length = 2 * ws.length := by
  induction ws with
  | nil => rfl
  | cons w ws ih => simp only [List.flatMap_cons, List.length_append, ih, List.length_cons, List.length_nil]; omega

/-- Words past those that hold the characters change no character. -/
theorem charsOf_append {ws : List Word} {n : Nat} (h : n ≤ 2 * ws.length) (more : List Word) :
    charsOf (ws ++ more) n = charsOf ws n := by
  unfold charsOf
  rw [List.flatMap_append, List.take_append_of_le_length (by rw [flatMap_bytes_length]; exact h)]

/-- A field of `m` words gives the same characters when only the words that hold them are taken. -/
theorem charsOf_wordsFor {n m : Nat} (h : n ≤ 2 * m) (f : Nat → Word) :
    charsOf ((List.range (wordsFor n)).map f) n = charsOf ((List.range m).map f) n := by
  obtain ⟨k, rfl⟩ : ∃ k, m = wordsFor n + k := ⟨m - wordsFor n, by unfold wordsFor; omega⟩
  rw [List.range_add, List.map_append, charsOf_append]
  rw [List.length_map, List.length_range]
  unfold wordsFor
  omega

/-- The characters of a body are those of the cell, when intake reads the words that hold them. -/
theorem Body.chars_bodyOf {kind : Word} {f : Nat → Word} {k n : Nat}
    (h : ∀ j ∈ charWords k n, j ∈ readWords kind f) :
    Body.chars (bodyOf kind f) k n = charsOf ((List.range (wordsFor n)).map fun j => f (k + j)) n := by
  have e : (List.range (wordsFor n)).map (fun j => Body.at (bodyOf kind f) (k + j)) =
      (List.range (wordsFor n)).map fun j => f (k + j) :=
    List.map_congr_left fun j hj => by
      rw [Body.at_bodyOf, if_pos (h (k + j) (List.mem_map_of_mem hj))]
  unfold Body.chars
  rw [e]

/-! ## The words of a DEFINE -/

/-- No kind but 7 names the row DEFINE. -/
theorem kind_of_namedBy_define {kind first : Word} (h : namedBy kind first = .row .define) : kind.toNat = 7 := by
  unfold namedBy at h
  split at h
  case h_7 e => exact e
  case h_10 => unfold subcommandOf at h; split at h <;> cases h
  all_goals cases h

theorem State.Holds.kind_define {s : State} {c : Nat} (h : s.Holds (.row .define) c) : (s.posted c 3).toNat = 7 :=
  kind_of_namedBy_define h.named

/-- The words that intake reads of a DEFINE (R53). -/
theorem readWords_define {kind : Word} (hk : kind.toNat = 7) (f : Nat → Word) :
    readWords kind f =
      [4, 5] ++ (if (f 5).toNat = 0 ∨ 5 < (f 5).toNat then [] else charWords 6 (f 5).toNat ++ [9, 10, 11, 12]) := by
  have h5 : Body.at [(4, f 4), (5, f 5)] 5 = f 5 := rfl
  simp [readWords, firstWords, moreWords, lastWords, hk, h5]

/-- The instrument index and the symbol length of a DEFINE are read in any case. -/
theorem bodyOf_define_head {kind : Word} (hk : kind.toNat = 7) (f : Nat → Word) :
    Body.at (bodyOf kind f) 4 = f 4 ∧ Body.at (bodyOf kind f) 5 = f 5 := by
  simp [Body.at_bodyOf, readWords_define hk]

/-- The fields after a symbol length of 1 to 5 are read as they stand in the cell. -/
theorem bodyOf_define_fields {kind : Word} (hk : kind.toNat = 7) {f : Nat → Word} (h0 : (f 5).toNat ≠ 0)
    (h5 : (f 5).toNat ≤ 5) :
    (∀ k ∈ [9, 10, 11, 12], Body.at (bodyOf kind f) k = f k) ∧
      Body.chars (bodyOf kind f) 6 (f 5).toNat = charsOf [f 6, f 7, f 8] (f 5).toNat := by
  have e : readWords kind f = [4, 5] ++ (charWords 6 (f 5).toNat ++ [9, 10, 11, 12]) := by
    rw [readWords_define hk, if_neg (by omega)]
  refine ⟨fun k hk => ?_, ?_⟩
  · rw [Body.at_bodyOf, if_pos (by rw [e]; exact List.mem_append_right _ (List.mem_append_right _ hk))]
  · rw [Body.chars_bodyOf fun j hj => by rw [e]; exact List.mem_append_right _ (List.mem_append_left _ hj)]
    exact charsOf_wordsFor (m := 3) (by omega) fun j => f (6 + j)

/-- The fields of a DEFINE whose symbol and codes are legal (R53). -/
theorem defineFields_of_legal {kind : Word} (hk : kind.toNat = 7) {f : Nat → Word} (h0 : (f 5).toNat ≠ 0) {mode : Mode}
    {tape : Option TapeId} (hm : modeOf (f 9) = some mode) (ht : assignmentOf (f 10) = some tape)
    (hok : (f 5).toNat ≤ 5 ∧ (charsOf [f 6, f 7, f 8] (f 5).toNat).all symbolChar = true) :
    defineFields (bodyOf kind f) =
      some ⟨charsOf [f 6, f 7, f 8] (f 5).toNat, mode, tape, priceOfDouble (f 11) (f 12)⟩ := by
  obtain ⟨-, hlen⟩ := bodyOf_define_head hk f
  obtain ⟨hf, hsym⟩ := bodyOf_define_fields hk h0 hok.1
  simp only [List.mem_cons, List.not_mem_nil, or_false, forall_eq_or_imp, forall_eq] at hf
  obtain ⟨h9, h10, h11, h12⟩ := hf
  unfold defineFields
  simp only [hlen, h9, h10, h11, h12, hsym, hm, ht, hok, and_self, if_true]

/-- A DEFINE with a symbol too long, an illegal character or an illegal code has no fields (R53). -/
theorem defineFields_of_illegal {kind : Word} (hk : kind.toNat = 7) {f : Nat → Word} (h0 : (f 5).toNat ≠ 0)
    (hno : ∀ mode tape, modeOf (f 9) = some mode → assignmentOf (f 10) = some tape →
      ¬ ((f 5).toNat ≤ 5 ∧ (charsOf [f 6, f 7, f 8] (f 5).toNat).all symbolChar = true)) :
    defineFields (bodyOf kind f) = none := by
  obtain ⟨-, hlen⟩ := bodyOf_define_head hk f
  unfold defineFields
  dsimp only
  rw [hlen]
  split
  next mode tape hm ht =>
    refine if_neg fun hok => ?_
    obtain ⟨hf, hsym⟩ := bodyOf_define_fields hk h0 hok.1
    rw [hf 9 (by decide)] at hm
    rw [hf 10 (by decide)] at ht
    rw [hsym] at hok
    exact hno mode tape hm ht hok
  next => rfl

/-! ## The checks and the effect of a DEFINE -/

/-- The verdict of a DEFINE whose index is in range, from the fields that its checks find (R53). -/
theorem judgeDefine_bodyOf {kind seq : Word} (hk : kind.toNat = 7) {f : Nat → Word} {i : Ix} {s : State}
    (hi : Ix.ofNat? (f 4).toNat = some i) :
    judgeDefine seq (bodyOf kind f) s =
      if (f 5).toNat = 0 then .apply (s.applyRemove i)
      else (defineFields (bodyOf kind f)).elim (.refuse .badField) fun x => .apply (s.applyDefine i x) := by
  obtain ⟨h4, h5⟩ := bodyOf_define_head hk f
  have hz : (f 5 = 0) ↔ (f 5).toNat = 0 := by rw [← BitVec.toNat_inj]; rfl
  simp only [judgeDefine, withInstrument, h4, h5, hi, hz]
  cases defineFields (bodyOf kind f) <;> rfl

theorem ChangedField.all_ne_nil : ChangedField.all ≠ [] := List.cons_ne_nil _ _

/-- The set ALL holds a field that a terminal row shows (R39, R40). -/
theorem ChangedField.all_onRow : ChangedField.all.any (fun f => decide (f ∈ rowFields)) = true := by decide

theorem State.updateRecord_params (s : State) (i : Ix) (r : Record) {fields : List ChangedField} (mark : Option TickDir)
    (h : fields ≠ []) : (s.updateRecord i r fields mark).params = s.params := by
  unfold State.updateRecord
  rw [State.handChange_eq _ _ _ h]
  rfl

theorem State.term_withTerms (s : State) (x : Vector Terminal 16) (k : Fin 16) : (s.withTerms x).term k = Bank.get x k := rfl

/-- A removal with no watch check waiting: one update of the record, after the contexts have dropped their watches (R38). -/
theorem State.applyRemove_eq {s : State} (h : s.checksTaken (List.finRange 16)) (i : Ix) :
    s.applyRemove i = (s.withTerms (Bank.mapAll s.terms fun _ x => x.dropWatches i)).updateRecord i (s.record i).remove
      ChangedField.all none := by
  unfold State.applyRemove
  rw [State.finishChecks_none h]
  rfl

/-- The contexts after a removal (R38, R40, R160). -/
theorem State.term_applyRemove {s : State} (h : s.checksTaken (List.finRange 16)) (i : Ix) (k : Fin 16) :
    (s.applyRemove i).term k = ((s.term k).dropWatches i).toldOf i (Bank.get (s.record i).interest k) := by
  rw [State.applyRemove_eq h, State.term_updateRecord _ _ _ _ ChangedField.all_ne_nil, ChangedField.all_onRow, Bool.true_and]
  rw [State.term_withTerms, Bank.get_mapAll]
  rfl

theorem Updates.applyRemove {s : State} (h : s.checksTaken (List.finRange 16)) (i : Ix) :
    Updates s (s.applyRemove i) i (s.record i).remove ChangedField.all none := by
  obtain ⟨rest, record, others⟩ := Updates.updateRecord (s.withTerms (Bank.mapAll s.terms fun _ x => x.dropWatches i)) i
    (s.record i).remove none ChangedField.all_ne_nil
  rw [State.applyRemove_eq h]
  exact ⟨rest, record, others⟩

/-- A removal is taken (R38). -/
theorem applies_remove {h : List HostWrite} {before s : State} {c : Nat} {i : Ix} (hs : s = before.hostWrites h)
    (hh : s.Holds (.row .define) c) (hc : s.checksTaken (List.finRange 16)) (hi : Ix.ofNat? (s.posted c 4).toNat = some i)
    (hn : (s.posted c 5).toNat = 0) :
    Applies (.define h) before c fun u =>
      Updates (s.received c) u i (s.record i).remove ChangedField.all none ∧ u.tapes = s.tapes ∧
        ∀ k, u.term k = ((s.term k).dropWatches i).toldOf i (Bank.get (s.record i).interest k) := by
  have hk := hh.kind_define
  have hc' : (s.received c).checksTaken (List.finRange 16) := hc
  have heq := State.applyRemove_eq hc' i
  refine applies_of_judge (u := (s.received c).applyRemove i) (by subst hs; rfl) hh
    (by rw [judgeDefine_bodyOf hk hi, if_pos hn]) ?_ ?_ ?_
    ⟨Updates.applyRemove hc' i, ?_, State.term_applyRemove hc' i⟩
  · rw [heq, State.updateRecord_bus]; exact hh.quiet
  · rw [heq, State.updateRecord_intake]; exact hh.current
  · rw [heq, State.updateRecord_params _ _ _ _ ChangedField.all_ne_nil]; exact hh.cell
  · rw [heq, State.updateRecord_tapes]; rfl

/-- A redefinition is taken (R37). -/
theorem applies_redefine {h : List HostWrite} {before s : State} {c : Nat} {i : Ix} {x : DefineFields}
    (hs : s = before.hostWrites h) (hh : s.Holds (.row .define) c) (hc : s.checksTaken (List.finRange 16))
    (hi : Ix.ofNat? (s.posted c 4).toNat = some i) (hn : (s.posted c 5).toNat ≠ 0)
    (hx : defineFields (bodyOf (s.posted c 3) (s.posted c)) = some x) :
    Applies (.define h) before c fun u =>
      Updates (s.received c) u i ((s.record i).redefine x) ChangedField.all none ∧ u.tapes = s.tapes ∧
        ToldTerms s u i ChangedField.all := by
  have hk := hh.kind_define
  have heq : (s.received c).applyDefine i x =
      (s.received c).updateRecord i ((s.record i).redefine x) ChangedField.all none := by
    unfold State.applyDefine
    rw [State.finishChecks_none (s := s.received c) hc]
    rfl
  refine applies_of_judge (u := (s.received c).applyDefine i x) (by subst hs; rfl) hh
    (by rw [judgeDefine_bodyOf hk hi, if_neg hn, hx, Option.elim]) ?_ ?_ ?_ ?_ <;> rw [heq]
  · rw [State.updateRecord_bus]; exact hh.quiet
  · rw [State.updateRecord_intake]; exact hh.current
  · rw [State.updateRecord_params _ _ _ _ ChangedField.all_ne_nil]; exact hh.cell
  · exact ⟨Updates.updateRecord _ _ _ _ ChangedField.all_ne_nil, State.updateRecord_tapes _ _ _ _ _,
      ToldTerms.updateRecord (s.received c) i none ChangedField.all_ne_nil rfl⟩

/-- A DEFINE with a field out of its range is refused BAD FIELD (R53). -/
theorem refuses_define {h : List HostWrite} {before s : State} {c : Nat} {i : Ix} (hs : s = before.hostWrites h)
    (hh : s.Holds (.row .define) c) (hi : Ix.ofNat? (s.posted c 4).toNat = some i) (hn : (s.posted c 5).toNat ≠ 0)
    (hx : defineFields (bodyOf (s.posted c 3) (s.posted c)) = none) : Refuses (.define h) before s c .badField :=
  refuses_of_judge (judge := judgeDefine) (by subst hs; rfl) hh
    (by rw [judgeDefine_bodyOf hh.kind_define hi, if_neg hn, hx, Option.elim])

/-- Settles O6: by its symbol length and its fields, a DEFINE is a removal, a redefinition or a refusal. -/
theorem defineTaken : Obligations.DefineTaken := by
  intro h before s c i hs hh hc hi
  dsimp only
  split
  next hn => exact applies_remove hs hh hc hi hn
  next hn =>
    split
    next mode tape hm ht =>
      split
      next hok => exact applies_redefine hs hh hc hi hn (defineFields_of_legal hh.kind_define hn hm ht hok)
      next hbad =>
        exact refuses_define hs hh hi hn (defineFields_of_illegal hh.kind_define hn fun _ _ _ _ => hbad)
    next hno =>
      exact refuses_define hs hh hi hn
        (defineFields_of_illegal hh.kind_define hn fun mode tape hm ht => (hno mode tape hm ht).elim)

end Sys2Proof.Machine
end

section
/-! PROOF. Digits and numbers in decimal (chapter 01, R3, R6): what their characters are and what number they spell. -/

namespace Sys2Proof.Machine

/-- A glyph code is that of a decimal digit. -/
def isDigit (c : Byte) : Bool := decide (0x30 ≤ c.toNat ∧ c.toNat ≤ 0x39)

/-- The number that a text of digits spells. -/
def digitsValue (t : List Byte) : Nat := t.foldl (fun v c => 10 * v + (c.toNat - 0x30)) 0

/-! ## One digit -/

theorem Glyph.digit_toNat {d : Nat} (h : d < 10) : (Glyph.digit d).toNat = 0x30 + d := by
  simp only [Glyph.digit, byte, BitVec.toNat_ofNat]
  omega

theorem isDigit_digit {d : Nat} (h : d < 10) : isDigit (Glyph.digit d) = true := by
  rw [isDigit, Glyph.digit_toNat h, decide_eq_true_eq]
  omega

@[simp] theorem digitsValue_nil : digitsValue [] = 0 := rfl

theorem digitsValue_append_digit (t : List Byte) {d : Nat} (h : d < 10) :
    digitsValue (t ++ [Glyph.digit d]) = 10 * digitsValue t + d := by
  simp [digitsValue, Glyph.digit_toNat h]

theorem digitsValue_digit {d : Nat} (h : d < 10) : digitsValue [Glyph.digit d] = d := by
  simpa using digitsValue_append_digit [] h

/-! ## Numbers in a fixed number of digits (R6) -/

theorem padded_all_isDigit (p n : Nat) : (padded p n).all isDigit = true := by
  induction p generalizing n with
  | zero => rfl
  | succ p ih => simp [padded, ih, isDigit_digit (Nat.mod_lt n (by decide : 0 < 10))]

theorem digitsValue_padded {p n : Nat} (h : n < 10 ^ p) : digitsValue (padded p n) = n := by
  induction p generalizing n with
  | zero => rw [Nat.pow_zero] at h; rw [padded, digitsValue_nil]; omega
  | succ p ih =>
    rw [padded, digitsValue_append_digit _ (Nat.mod_lt n (by decide)), ih (by rw [Nat.pow_succ] at h; omega)]
    omega

/-! ## Numbers with no leading zeros (R3) -/

theorem digitsUpTo_of_lt {f n : Nat} (h : n < 10) : digitsUpTo (f + 1) n = [Glyph.digit n] := if_pos h

theorem digitsUpTo_of_le {f n : Nat} (h : 10 ≤ n) :
    digitsUpTo (f + 1) n = digitsUpTo f (n / 10) ++ [Glyph.digit (n % 10)] := if_neg (by omega)

theorem digitsUpTo_all_isDigit (f n : Nat) : (digitsUpTo f n).all isDigit = true := by
  induction f generalizing n with
  | zero => rfl
  | succ f ih =>
    rcases Nat.lt_or_ge n 10 with h | h
    · simp [digitsUpTo_of_lt h, isDigit_digit h]
    · simp [digitsUpTo_of_le h, ih, isDigit_digit (Nat.mod_lt n (by decide : 0 < 10))]

theorem digitsValue_digitsUpTo {f n : Nat} (h : n < 10 ^ f) : digitsValue (digitsUpTo f n) = n := by
  induction f generalizing n with
  | zero => rw [Nat.pow_zero] at h; rw [digitsUpTo, digitsValue_nil]; omega
  | succ f ih =>
    rcases Nat.lt_or_ge n 10 with hn | hn
    · rw [digitsUpTo_of_lt hn, digitsValue_digit hn]
    · rw [digitsUpTo_of_le hn, digitsValue_append_digit _ (Nat.mod_lt n (by decide)),
        ih (by rw [Nat.pow_succ] at h; omega)]
      omega

/-- The first digit of a number that is not 0 is not 0. -/
theorem digitsUpTo_leading {f n : Nat} (h : n < 10 ^ f) (h0 : 0 < n) :
    ∃ d t, 0 < d ∧ d < 10 ∧ digitsUpTo f n = Glyph.digit d :: t := by
  induction f generalizing n with
  | zero => rw [Nat.pow_zero] at h; omega
  | succ f ih =>
    rcases Nat.lt_or_ge n 10 with hn | hn
    · exact ⟨n, [], h0, hn, digitsUpTo_of_lt hn⟩
    · obtain ⟨d, t, hd0, hd, e⟩ := ih (n := n / 10) (by rw [Nat.pow_succ] at h; omega) (by omega)
      exact ⟨d, t ++ [Glyph.digit (n % 10)], hd0, hd, by rw [digitsUpTo_of_le hn, e, List.cons_append]⟩

theorem decimal_all_isDigit (n : Nat) : (decimal n).all isDigit = true := digitsUpTo_all_isDigit 10 n

theorem digitsValue_decimal {n : Nat} (h : n < 10 ^ 10) : digitsValue (decimal n) = n := digitsValue_digitsUpTo h

/-- Two numbers with one text are the same number. -/
theorem decimal_inj {n k : Nat} (hn : n < 10 ^ 10) (hk : k < 10 ^ 10) (h : decimal n = decimal k) : n = k := by
  rw [← digitsValue_decimal hn, h, digitsValue_decimal hk]

theorem decimal_head?_ne_zero {n : Nat} (h : n < 10 ^ 10) (h0 : 0 < n) : (decimal n).head? ≠ some 0x30 := by
  obtain ⟨d, t, hd0, hd, e⟩ := digitsUpTo_leading h h0
  rw [decimal, e, List.head?_cons]
  intro hc
  have hv := congrArg BitVec.toNat (Option.some.inj hc)
  rw [Glyph.digit_toNat hd] at hv
  change 0x30 + d = 0x30 at hv
  omega

theorem decimal_length_one {n : Nat} (h : n ≤ 9) : (decimal n).length = 1 := by
  rw [decimal, digitsUpTo_of_lt (by omega), List.length_singleton]

/-! ## Where the digits of a text end -/

/-- Texts that begin with digits and go on, if at all, with a character that is none, split in one way. -/
theorem digits_append_inj {a b c d : List Byte} (ha : a.all isDigit = true) (hb : b.all isDigit = true)
    (hc : ∀ x ∈ c.head?, isDigit x = false) (hd : ∀ x ∈ d.head?, isDigit x = false) (h : a ++ c = b ++ d) :
    a = b ∧ c = d := by
  have key : ∀ {t u : List Byte}, t.all isDigit = true → (∀ x ∈ u.head?, isDigit x = false) →
      (t ++ u).takeWhile isDigit = t := by
    intro t u ht hu
    rw [List.takeWhile_append_of_pos fun x hx => List.all_eq_true.1 ht x hx]
    cases u with
    | nil => simp
    | cons x u => simp [hu x rfl]
  have e : a = b := by rw [← key ha hc, h, key hb hd]
  exact ⟨e, List.append_cancel_left (e ▸ h)⟩

end Sys2Proof.Machine
end

section
/-! PROOF. The four styles (chapter 01, R2 to R8): what is taken of a remainder, and the parts each style gives. -/

namespace Sys2Proof.Machine

/-! ## Roundings, halves upward -/

/-- The model's rounding of `a / d` is the nearest whole number, halves upward. -/
theorem roundHalfUp_bounds {d : Nat} (a : Nat) (hd : 0 < d) :
    2 * d * ((2 * a + d) / (2 * d)) ≤ 2 * a + d ∧ 2 * a + d < 2 * d * ((2 * a + d) / (2 * d) + 1) :=
  ⟨Nat.mul_div_le _ _, Nat.lt_mul_div_succ _ (by omega)⟩

/-- A remainder below `d`, rounded to units of `1 / unit`, is at most one whole. -/
theorem roundHalfUp_le {unit r d : Nat} (h : r < d) : (2 * (unit * r) + d) / (2 * d) ≤ unit := by
  have : unit * r ≤ unit * d := Nat.mul_le_mul_left _ h.le
  refine Nat.lt_succ_iff.1 ((Nat.div_lt_iff_lt_mul (by omega)).2 ?_)
  calc 2 * (unit * r) + d < 2 * (unit * d) + 2 * d := by omega
    _ = (unit + 1) * (2 * d) := by ring

/-- Rounding keeps the whole units apart. -/
theorem roundHalfUp_add {d : Nat} (w r : Nat) (hd : 0 < d) :
    (2 * (d * w + r) + d) / (2 * d) = w + (2 * r + d) / (2 * d) := by
  rw [show 2 * (d * w + r) + d = 2 * r + d + 2 * d * w by ring, Nat.add_mul_div_left _ _ (by omega), Nat.add_comm]

theorem eighths_eq (m : Mode) (p : Nat) : eighths m p = (2 * (8 * (p % m.ticks)) + m.ticks) / (2 * m.ticks) := by
  rw [eighths, ← Nat.mul_assoc]

theorem decimalValue_eq (m : Mode) (places p : Nat) :
    decimalValue m places p = (2 * (10 ^ places * (p % m.ticks)) + m.ticks) / (2 * m.ticks) := by
  rw [decimalValue, Nat.mul_assoc, Nat.mul_comm (10 ^ places)]

theorem eighths_le (m : Mode) (p : Nat) : eighths m p ≤ 8 := by
  rw [eighths_eq]
  exact roundHalfUp_le (Nat.mod_lt p m.ticks_pos)

theorem decimalValue_le (m : Mode) (places p : Nat) : decimalValue m places p ≤ 10 ^ places := by
  rw [decimalValue_eq]
  exact roundHalfUp_le (Nat.mod_lt p m.ticks_pos)

/-- The eighths count is the nearest to the remainder (R5). -/
theorem eighths_nearest (m : Mode) (p : Nat) :
    2 * m.ticks * eighths m p ≤ 2 * 8 * (p % m.ticks) + m.ticks ∧
      2 * 8 * (p % m.ticks) + m.ticks < 2 * m.ticks * (eighths m p + 1) := by
  rw [eighths_eq, Nat.mul_assoc 2 8]
  exact roundHalfUp_bounds _ m.ticks_pos

/-- The decimal value is the nearest to the remainder (R6). -/
theorem decimalValue_nearest (m : Mode) (places p : Nat) :
    2 * m.ticks * decimalValue m places p ≤ 2 * 10 ^ places * (p % m.ticks) + m.ticks ∧
      2 * 10 ^ places * (p % m.ticks) + m.ticks < 2 * m.ticks * (decimalValue m places p + 1) := by
  rw [decimalValue_eq, Nat.mul_assoc 2 (10 ^ places)]
  exact roundHalfUp_bounds _ m.ticks_pos

/-- The whole number nearest to a price (R7). -/
theorem noneParts_eq (m : Mode) (p : Nat) :
    noneParts m p =
      ⟨[], decimal (if 2 * (p % m.ticks) < m.ticks then p / m.ticks else p / m.ticks + 1), []⟩ := by
  have hd := m.ticks_pos
  have hr := Nat.mod_lt p hd
  have e := roundHalfUp_add (p / m.ticks) (p % m.ticks) hd
  rw [Nat.div_add_mod] at e
  have hq : (2 * (p % m.ticks) + m.ticks) / (2 * m.ticks) = if 2 * (p % m.ticks) < m.ticks then 0 else 1 := by
    split
    next h => exact Nat.div_eq_of_lt (by omega)
    next h => exact Nat.div_eq_of_lt_le (by omega) (by omega)
  rw [noneParts, e, hq]
  split <;> rfl

/-! ## Common fractions in lowest terms (R4) -/

/-- Halving ends at the fraction of the same value with an odd numerator. -/
theorem halve_lowest {f k n : Nat} (hk : k ≤ f) (h0 : 0 < n) (h : n < 2 ^ k) :
    (halve f n (2 ^ k)).1 % 2 = 1 ∧ (halve f n (2 ^ k)).2 ∣ 2 ^ k ∧
      (halve f n (2 ^ k)).1 * 2 ^ k = n * (halve f n (2 ^ k)).2 := by
  induction f generalizing k n with
  | zero =>
    obtain rfl : k = 0 := by omega
    omega
  | succ f ih =>
    unfold halve
    split
    next he =>
      obtain ⟨j, rfl⟩ : ∃ j, k = j + 1 := ⟨k - 1, by cases k <;> omega⟩
      have hp : 2 ^ (j + 1) / 2 = 2 ^ j := by rw [Nat.pow_succ, Nat.mul_div_cancel _ (by decide)]
      rw [hp]
      obtain ⟨hodd, hdvd, hval⟩ := ih (k := j) (n := n / 2) (by omega) (by omega) (by rw [Nat.pow_succ] at h; omega)
      refine ⟨hodd, hdvd.trans (Nat.pow_dvd_pow 2 (Nat.le_succ j)), ?_⟩
      calc _ = (halve f (n / 2) (2 ^ j)).1 * 2 ^ j * 2 := by rw [Nat.pow_succ, Nat.mul_assoc]
        _ = n / 2 * 2 * (halve f (n / 2) (2 ^ j)).2 := by rw [hval]; ring
        _ = n * (halve f (n / 2) (2 ^ j)).2 := by rw [Nat.div_mul_cancel (Nat.dvd_of_mod_eq_zero he)]
    next ho => exact ⟨by omega, dvd_rfl, rfl⟩

/-- The ticks of a FRACTION mode are a power of 2, at most 64 (R2). -/
theorem Mode.ticks_of_fraction {m : Mode} (h : m.places = none) : ∃ k, k ≤ 6 ∧ m.ticks = 2 ^ k := by
  cases m
  case fraction2 => exact ⟨1, by decide, rfl⟩
  case fraction4 => exact ⟨2, by decide, rfl⟩
  case fraction8 => exact ⟨3, by decide, rfl⟩
  case fraction16 => exact ⟨4, by decide, rfl⟩
  case fraction32 => exact ⟨5, by decide, rfl⟩
  case fraction64 => exact ⟨6, by decide, rfl⟩
  all_goals cases h

/-- A remainder of a FRACTION mode reduced: an odd numerator over a part of the ticks, of the same value (R4). -/
theorem halve_ticks {m : Mode} (h : m.places = none) {r : Nat} (h0 : 0 < r) (hr : r < m.ticks) :
    (halve 6 r m.ticks).1 % 2 = 1 ∧ (halve 6 r m.ticks).2 ∣ m.ticks ∧
      (halve 6 r m.ticks).1 * m.ticks = r * (halve 6 r m.ticks).2 := by
  obtain ⟨k, hk, e⟩ := Mode.ticks_of_fraction h
  rw [e] at hr ⊢
  exact halve_lowest hk h0 hr

theorem wholePart_of_ne_nil {w : Nat} {frac : List Byte} (h : frac ≠ []) :
    wholePart w frac = if w = 0 then [] else decimal w := by
  simp only [wholePart, h, ne_eq, not_false_eq_true, and_true]

theorem digitsParts_of_zero {m : Mode} {p : Nat} (h : p % m.ticks = 0) : digitsParts m p = ⟨[], decimal (p / m.ticks), []⟩ :=
  if_pos h

/-- DIGITS of a price with a remainder (R3, R4). -/
theorem digitsParts_of_ne {m : Mode} {p : Nat} (h : p % m.ticks ≠ 0) :
    digitsParts m p =
      ⟨[], if p / m.ticks = 0 then [] else decimal (p / m.ticks),
        (if p / m.ticks = 0 then [] else [0x20]) ++ decimal (halve 6 (p % m.ticks) m.ticks).1 ++ [0x2F] ++
          decimal (halve 6 (p % m.ticks) m.ticks).2⟩ := by
  unfold digitsParts
  dsimp only
  rw [if_neg h, wholePart_of_ne_nil (by simp)]
  rfl

/-! ## Decimal values (R6) -/

/-- DECIMAL: the digits after the point are as many as the places, and spell the value; a carry goes to the whole part. -/
theorem decimalParts_eq (m : Mode) (places p : Nat) :
    decimalParts m places p =
      let carries := decimalValue m places p = 10 ^ places
      ⟨[], if (if carries then p / m.ticks + 1 else p / m.ticks) = 0 then []
          else decimal (if carries then p / m.ticks + 1 else p / m.ticks),
        [0x2E] ++ padded places (if carries then 0 else decimalValue m places p)⟩ := by
  unfold decimalParts
  dsimp only
  rw [wholePart_of_ne_nil (List.cons_ne_nil _ _)]
  rfl

/-- The value shown after the point is below one whole. -/
theorem decimalValue_shown_lt (m : Mode) (places p : Nat) :
    (if decimalValue m places p = 10 ^ places then 0 else decimalValue m places p) < 10 ^ places := by
  have := decimalValue_le m places p
  split
  next => exact Nat.pow_pos (by decide)
  next h => omega

/-! ## Replaced styles (R8) -/

/-- In whole ticks nothing is rounded (R7). -/
theorem noneParts_decimal0 (p : Nat) : noneParts .decimal0 p = ⟨[], decimal p, []⟩ := by
  have h : (2 * p + 1) / (2 * 1) = p := by omega
  rw [noneParts, Mode.ticks, h]

/-- A style that suits no DECIMAL mode is replaced by the places of the mode. -/
theorem priceParts_of_places {m : Mode} {k : Nat} (h : m.places = some k) {st : Style} (hst : st = .digits ∨ st = .glyph)
    (p : Nat) : priceParts m st p = if k = 0 then ⟨[], decimal p, []⟩ else decimalParts m k p := by
  have h0 := noneParts_decimal0 p
  cases m <;> obtain rfl | rfl := hst <;> cases h
  · exact h0
  · exact h0
  all_goals rfl

theorem priceParts_of_fraction {m : Mode} (h : m.places = none) (p : Nat) :
    priceParts m .digits p = digitsParts m p ∧ priceParts m .glyph p = glyphParts m p := by
  simp only [priceParts, Style.resolve, h, and_self]

/-- DIGITS stays DIGITS in the FRACTION modes alone (R8). -/
theorem resolve_eq_digits_iff (m : Mode) (st : Style) : st.resolve m = .digits ↔ st = .digits ∧ m.places = none := by
  cases st with
  | digits => cases m <;> simp [Style.resolve, Mode.places]
  | glyph => cases m <;> simp [Style.resolve, Mode.places]
  | decimal k => simp [Style.resolve]
  | none => simp [Style.resolve]

end Sys2Proof.Machine
end

section
/-! PROOF. Fields of a board and columns of a terminal (R8 to R19, R83, R84): what each function of the model shows, and that
it fills its width. -/

namespace Sys2Proof.Machine

/-! ## Fitting (R14 to R17) -/

/-- What the model fits is what R14, R16 and R17 say. -/
theorem fit_fitted (w : Nat) (t : Parts) : Fitted w t (fit w t) := by
  unfold Fitted fit
  dsimp only
  split
  next => rfl
  next hlong =>
    split
    next hroom =>
      simp only [Parts.text, List.length_append] at hlong
      refine ⟨t.whole.take (t.whole.length - (w - (1 + t.sign.length + t.frac.length))), _,
        (List.take_append_drop _ _).symm, ?_, ?_, rfl⟩
      · rw [List.length_take]; omega
      · rw [List.length_drop]; omega
    next => rfl

/-- A fitted text fills its field. -/
theorem Fitted.length {w : Nat} {t : Parts} {row : List Byte} (h : Fitted w t row) : row.length = w := by
  unfold Fitted at h
  dsimp only at h
  split at h
  next hs => rw [h, List.length_append, List.length_replicate]; omega
  next =>
    split at h
    next =>
      obtain ⟨given, shown, -, -, hw, rfl⟩ := h
      simp only [List.length_append, List.length_singleton]
      omega
    next => rw [h, List.length_replicate]

/-- A price on a board is shown by R14 to R17, with R15 for a DIGITS text that is too wide. -/
theorem fitBoardPrice_shows (m : Mode) (st : Style) (w p : Nat) (sign : List Byte) :
    BoardPrice m st w p sign (fitBoardPrice m st w p sign) := by
  unfold BoardPrice fitBoardPrice
  dsimp only
  by_cases hs : (⟨sign, (priceParts m st p).whole, (priceParts m st p).frac⟩ : Parts).text.length ≤ w
  · rw [if_pos hs, if_neg (by omega)]
    exact fit_fitted _ _
  · rw [if_neg hs]
    by_cases hd : st = .digits ∧ m.places = none
    · rw [if_pos ((resolve_eq_digits_iff m st).2 hd), if_pos ⟨by omega, hd⟩, (priceParts_of_fraction hd.2 p).2]
      exact fit_fitted _ _
    · rw [if_neg (mt (resolve_eq_digits_iff m st).1 hd), if_neg fun h => hd h.2]
      exact fit_fitted _ _

theorem BoardPrice.length {m : Mode} {st : Style} {w p : Nat} {sign row : List Byte} (h : BoardPrice m st w p sign row) :
    row.length = w := by
  unfold BoardPrice at h
  dsimp only at h
  split at h <;> exact h.length

/-! ## Prices that may be absent (R12) -/

theorem boardPriceField_shows (m : Mode) (f : Format) (w : Nat) (x : Option Price) :
    PriceOr w f.fill (BoardPrice m f.style w) x (boardPriceField m f w x) := by
  cases x with
  | none => rfl
  | some p => exact fitBoardPrice_shows m f.style w p.val []

theorem terminalPriceField_shows (m : Mode) (w : Nat) (x : Option Price) :
    PriceOr w 0x20 (TerminalPrice m w) x (terminalPriceField m w x) := by
  cases x with
  | none => rfl
  | some p => exact fit_fitted w _

/-- A price that may be absent fills its field when a price does. -/
theorem PriceOr.length {w : Nat} {fill : Byte} {shows : Nat → List Byte → List Byte → Prop} {x : Option Price}
    {row : List Byte} (h : PriceOr w fill shows x row) (hs : ∀ p sign row, shows p sign row → row.length = w) :
    row.length = w := by
  cases x with
  | none => exact (congrArg List.length h).trans List.length_replicate
  | some p => exact hs _ _ _ h

/-! ## Net changes (R9, R10) -/

theorem netChange_eq_zero_iff (last prev : Price) : netChange last prev = 0 ↔ last = prev := by
  rw [netChange, Fin.ext_iff]
  omega

theorem netChange_pos_iff (last prev : Price) : 0 < netChange last prev ↔ prev < last := by
  rw [netChange, Fin.lt_def]
  omega

theorem netChange_neg_iff (last prev : Price) : netChange last prev < 0 ↔ last < prev := by
  rw [netChange, Fin.lt_def]
  omega

theorem natAbs_netChange (last prev : Price) :
    (netChange last prev).natAbs = if prev < last then last.val - prev.val else prev.val - last.val := by
  simp only [netChange, Fin.lt_def]
  split <;> omega

theorem signCell_arrow (last prev : Price) :
    signCell .arrow (netChange last prev) = [if prev < last then 0x01 else 0x02] := by
  simp only [signCell, netChange_pos_iff]
  split <;> rfl

theorem signCell_sign (last prev : Price) : signCell .sign (netChange last prev) = [if prev < last then 0x2B else 0x2D] := by
  simp only [signCell, netChange_pos_iff]
  split <;> rfl

theorem zeroParts_unch : zeroParts .unch = ⟨[], [], chars "UNCH".toList⟩ := by decide

/-- A net change is the text of the zero style, or its magnitude as `shows` has it behind the sign cell. -/
theorem changeShown_of {w : Nat} {shows : Nat → List Byte → List Byte → Prop} {st : SignStyle} {z : ZeroStyle}
    {last prev : Price} {row : List Byte} (h0 : netChange last prev = 0 → row = fit w (zeroParts z))
    (h : netChange last prev ≠ 0 → shows (netChange last prev).natAbs (signCell st (netChange last prev)) row) :
    ChangeShown w shows st z last prev row := by
  unfold ChangeShown
  split
  next heq =>
    rw [h0 ((netChange_eq_zero_iff last prev).2 heq)]
    cases z with
    | unch => exact zeroParts_unch ▸ fit_fitted w (zeroParts .unch)
    | zero => exact fit_fitted w (zeroParts .zero)
  next hne =>
    have hs := h (mt (netChange_eq_zero_iff last prev).1 hne)
    rw [natAbs_netChange] at hs
    cases st with
    | arrow => exact signCell_arrow last prev ▸ hs
    | sign => exact signCell_sign last prev ▸ hs
    | none => exact hs

theorem fitBoardChange_shows (m : Mode) (f : Format) (w : Nat) (last prev : Price) :
    ChangeShown w (BoardPrice m f.style w) f.sign f.zero last prev (fitBoardChange m f w (netChange last prev)) :=
  changeShown_of (fun h => if_pos h) fun h => by
    rw [fitBoardChange, if_neg h]
    exact fitBoardPrice_shows _ _ _ _ _

theorem fitTerminalChange_shows (m : Mode) (w : Nat) (last prev : Price) :
    ChangeShown w (TerminalPrice m w) .sign .unch last prev (fitTerminalChange m w (netChange last prev)) :=
  changeShown_of (fun h => if_pos h) fun h => by
    rw [fitTerminalChange, if_neg h]
    exact fit_fitted _ _

theorem ChangeShown.length {w : Nat} {shows : Nat → List Byte → List Byte → Prop} {st : SignStyle} {z : ZeroStyle}
    {last prev : Price} {row : List Byte} (h : ChangeShown w shows st z last prev row)
    (hs : ∀ p sign row, shows p sign row → row.length = w) : row.length = w := by
  unfold ChangeShown at h
  split at h
  · exact h.length
  · exact hs _ _ _ h

/-! ## Volumes and texts (R11, R13) -/

theorem volumeField_shows (w unit : Nat) (v : Volume) : VolumeShown w unit v (volumeField w unit v) := rfl

theorem VolumeShown.length {w unit : Nat} {v : Volume} {row : List Byte} (h : VolumeShown w unit v row) : row.length = w := by
  unfold VolumeShown at h
  dsimp only at h
  split at h
  next => rw [h, List.length_replicate]
  next => rw [h, List.length_append, List.length_replicate]; omega

theorem leftIn_eq_atLeft (w : Nat) (t : List Byte) : leftIn w t = atLeft w t := by
  rw [leftIn, atLeft, spaces, List.take_append, List.take_replicate, Nat.min_eq_left (Nat.sub_le _ _)]
  rfl

theorem atLeft_length (w : Nat) (t : List Byte) : (atLeft w t).length = w := by
  rw [atLeft, List.length_take, List.length_append, List.length_replicate]
  omega

theorem spaces_eq_atLeft (w : Nat) : spaces w = atLeft w [] := by
  rw [← leftIn_eq_atLeft, leftIn, List.take_nil, List.nil_append, List.length_nil, Nat.sub_zero]

end Sys2Proof.Machine
end

section
/-! PROOF. Placements of a board (R83, R84) and rows of a terminal (R156 to R158). -/

namespace Sys2Proof.Machine

theorem boardPriceField_length (m : Mode) (f : Format) (w : Nat) (x : Option Price) : (boardPriceField m f w x).length = w :=
  (boardPriceField_shows m f w x).length fun _ _ _ => BoardPrice.length

theorem terminalPriceField_length (m : Mode) (w : Nat) (x : Option Price) : (terminalPriceField m w x).length = w :=
  (terminalPriceField_shows m w x).length fun _ _ _ => Fitted.length

theorem leftIn_length (w : Nat) (t : List Byte) : (leftIn w t).length = w := by rw [leftIn_eq_atLeft, atLeft_length]

theorem spaces_length (w : Nat) : (spaces w).length = w := List.length_replicate

/-! ## Placements (R83) -/

/-- The last price and the previous close whose difference a CHANGE placement shows (R9, R24, R83). -/
def changeOperands (r : Record) (st : SessionState) : Option (Price × Price) :=
  if st = .preOpen then none
  else
    match r.lastPx, r.prevClose with
    | some last, some prev => some (last, prev)
    | _, _ => none

theorem shownChange_eq (r : Record) (st : SessionState) :
    shownChange r st = (changeOperands r st).map fun c => netChange c.1 c.2 := by
  unfold shownChange changeOperands
  split
  next => rfl
  next => cases r.lastPx <;> cases r.prevClose <;> rfl

/-- What a CHANGE placement shows of its operands. -/
theorem changeGlyphs_shows (r : Record) (st : SessionState) (f : Format) (w : Nat) :
    (∀ last prev, changeOperands r st = some (last, prev) →
      ChangeShown w (BoardPrice r.mode f.style w) f.sign f.zero last prev (definedGlyphs r st f w .change)) ∧
    (changeOperands r st = none → definedGlyphs r st f w .change = List.replicate w f.fill) := by
  refine ⟨fun last prev h => ?_, fun h => ?_⟩ <;> simp only [definedGlyphs, shownChange_eq, h, Option.map_some, Option.map_none]
  · exact fitBoardChange_shows _ _ _ _ _
  · rfl

theorem changeGlyphs_length (r : Record) (st : SessionState) (f : Format) (w : Nat) :
    (definedGlyphs r st f w .change).length = w := by
  obtain ⟨hsome, hnone⟩ := changeGlyphs_shows r st f w
  cases h : changeOperands r st with
  | none => rw [hnone h, List.length_replicate]
  | some c => exact (hsome c.1 c.2 h).length fun _ _ _ => BoardPrice.length

theorem tickGlyphs_eq (r : Record) (st : SessionState) (f : Format) (w : Nat) :
    definedGlyphs r st f w .tick = List.replicate (w - 1) 0x20 ++ [tickGlyph r.tick] := rfl

theorem statusGlyphs_eq (r : Record) (st : SessionState) (f : Format) (w : Nat) :
    definedGlyphs r st f w .status = atLeft w (if r.state = .halted then chars "HALT".toList else []) := by
  have e : chars ['H', 'A', 'L', 'T'] = chars "HALT".toList := by decide
  simp only [definedGlyphs, e, leftIn_eq_atLeft, spaces_eq_atLeft]
  split <;> rfl

/-- What each kind of placement of a defined instrument shows (R83). -/
theorem definedGlyphs_shows (r : Record) (st : SessionState) (f : Format) (w : Nat) (kind : FieldKind) :
    let row := definedGlyphs r st f w kind
    let price (x : Option Price) : Prop := PriceOr w f.fill (BoardPrice r.mode f.style w) x row
    match kind with
    | .symbol => row = atLeft w r.symbol
    | .last => price (if st = .preOpen then r.prevClose else r.lastPx)
    | .change =>
      match changeOperands r st with
      | some (last, prev) => ChangeShown w (BoardPrice r.mode f.style w) f.sign f.zero last prev row
      | none => row = List.replicate w f.fill
    | .tick => row = List.replicate (w - 1) 0x20 ++ [tickGlyph r.tick]
    | .bid => price r.bidPx
    | .ask => price r.askPx
    | .volume => VolumeShown w f.unit r.volume row
    | .high => price r.highPx
    | .low => price r.lowPx
    | .opening => price r.openPx
    | .status => row = atLeft w (if r.state = .halted then chars "HALT".toList else []) := by
  dsimp only
  cases kind with
  | symbol => exact leftIn_eq_atLeft _ _
  | last | bid | ask | high | low | opening => exact boardPriceField_shows _ _ _ _
  | change =>
    obtain ⟨hsome, hnone⟩ := changeGlyphs_shows r st f w
    dsimp only
    split
    next last prev e => exact hsome last prev e
    next e => exact hnone e
  | tick => rfl
  | volume => exact volumeField_shows _ _ _
  | status => exact statusGlyphs_eq r st f w

/-- Every field of a placement fills its width. -/
theorem definedGlyphs_length (r : Record) (st : SessionState) (f : Format) {w : Nat} (hw : 1 ≤ w) (kind : FieldKind) :
    (definedGlyphs r st f w kind).length = w := by
  cases kind with
  | symbol => exact leftIn_length _ _
  | last | bid | ask | high | low | opening => exact boardPriceField_length _ _ _ _
  | change => exact changeGlyphs_length r st f w
  | tick => rw [tickGlyphs_eq, List.length_append, List.length_replicate, List.length_singleton]; omega
  | volume => exact (volumeField_shows w f.unit r.volume).length
  | status => rw [statusGlyphs_eq, atLeft_length]

theorem placementGlyphs_of_undefined {r : Record} (h : r.state = .undefined) (st : SessionState) (f : Format) (p : Placement) :
    placementGlyphs r st f p = List.replicate p.width (if p.kind = .symbol then 0x20 else f.fill) := by
  rw [placementGlyphs, if_pos h]
  split <;> rfl

theorem placementGlyphs_of_defined {r : Record} (h : r.state ≠ .undefined) (st : SessionState) (f : Format) (p : Placement) :
    placementGlyphs r st f p = definedGlyphs r st f p.width p.kind := if_neg h

theorem placementGlyphs_length (r : Record) (st : SessionState) (f : Format) {p : Placement} (hw : 1 ≤ p.width) :
    (placementGlyphs r st f p).length = p.width := by
  by_cases h : r.state = .undefined
  · rw [placementGlyphs_of_undefined h, List.length_replicate]
  · rw [placementGlyphs_of_defined h, definedGlyphs_length r st f hw]

/-! ## Colours (R84) -/

theorem lively_eq (kind : FieldKind) : kind.lively = (kind = .last || kind = .change || kind = .tick) := by
  cases kind <;> rfl

/-- The colour of the last row of R84: that of the sign for a CHANGE placement that shows a net change. -/
theorem plainColour_eq (r : Record) (st : SessionState) (f : Format) (kind : FieldKind) :
    plainColour r st f kind =
      match (if kind = .change then changeOperands r st else none) with
      | some (last, prev) => if prev < last then .green else if last < prev then .red else f.base
      | none => f.base := by
  unfold plainColour
  split
  next =>
    rw [shownChange_eq]
    cases changeOperands r st with
    | none => rfl
    | some c =>
      simp only [Option.map_some, Option.bind_some, signColour, netChange_pos_iff, netChange_neg_iff]
      split
      · rfl
      · split <;> rfl
  next => rfl

/-! ## Terminal rows (R19, R156 to R158) -/

theorem showOr_terminalGlyph (c : Byte) :
    showOr terminalGlyph c = if commonGlyph c = true ∨ c = 0x03 then c else 0x20 := by
  simp only [showOr, terminalGlyph, Bool.or_eq_true, beq_iff_eq]
  rfl

/-- The session as a text (R156). -/
theorem sessionHeader_eq (st : SessionState) :
    st.header =
      chars (match st with | .preOpen => "PRE-OPEN" | .opened => "OPEN" | .marketHalt => "HALT" | .closed => "CLOSED").toList := by
  cases st <;> decide

/-- Two digits of a number below 100 (R156). -/
theorem padded_two {v : Nat} (h : v < 100) : padded 2 v = [byte (0x30 + v / 10), byte (0x30 + v % 10)] := by
  have e : v / 10 % 10 = v / 10 := Nat.mod_eq_of_lt (by omega)
  simp only [padded, List.nil_append, List.cons_append, e, Glyph.digit]

theorem clockText_length (t : Option Tod) : (clockText t).length = 5 := by
  cases t with
  | none => rfl
  | some t => simp only [clockText, List.length_append, padded_length, List.length_singleton]

theorem clockText_some (t : Tod) :
    clockText (some t) = [byte (0x30 + t.val / 36000 / 10), byte (0x30 + t.val / 36000 % 10)] ++ [0x3A] ++
      [byte (0x30 + t.val % 36000 / 600 / 10), byte (0x30 + t.val % 36000 / 600 % 10)] := by
  have ht := t.isLt
  rw [clockText, padded_two (by omega), padded_two (by omega)]
  rfl

/-- The header with its texts at the left of their fields (R156). -/
theorem State.headerRow_eq (s : State) (x : Terminal) :
    s.headerRow x =
      (if x.page = none then spaces 24 else atLeft 24 (x.title.map (showOr terminalGlyph))) ++ spaces 1 ++
        atLeft 8 s.session.state.header ++ spaces 1 ++
        (if s.session.stage = .live then spaces 7 else chars "DELAYED".toList) ++ spaces 2 ++ clockText s.session.tod := by
  have e : chars ['D', 'E', 'L', 'A', 'Y', 'E', 'D'] = chars "DELAYED".toList := by decide
  rw [State.headerRow, e, leftIn_eq_atLeft, leftIn_eq_atLeft]
  cases x.page <;> rfl

theorem State.headerRow_length (s : State) (x : Terminal) : (s.headerRow x).length = 48 := by
  have htitle : (if x.page = none then spaces 24 else atLeft 24 (x.title.map (showOr terminalGlyph))).length = 24 := by
    split
    · exact spaces_length _
    · exact atLeft_length _ _
  have hdelay : (if s.session.stage = .live then spaces 7 else chars "DELAYED".toList).length = 7 := by split <;> decide
  simp only [State.headerRow_eq, List.length_append, htitle, hdelay, atLeft_length, spaces_length, clockText_length]

theorem messageRow_eq (x : Terminal) :
    messageRow x = atLeft 40 ((x.message.getD []).map (showOr terminalGlyph)) ++ spaces 2 ++
      (if x.locked = true then chars "LOCKED".toList else spaces 6) := by
  have e : chars ['L', 'O', 'C', 'K', 'E', 'D'] = chars "LOCKED".toList := by decide
  unfold messageRow
  rw [e, ← leftIn_eq_atLeft]
  cases x.message <;> rfl

theorem messageRow_length (x : Terminal) : (messageRow x).length = 48 := by
  have h : (if x.locked = true then chars "LOCKED".toList else spaces 6).length = 6 := by split <;> decide
  rw [messageRow_eq, List.length_append, List.length_append, atLeft_length, spaces_length, h]

/-- The Change column: blank in PRE-OPEN, HALTED, or the net change of two prices that are present (R157). -/
theorem changeColumn_shows (r : Record) (st : SessionState) :
    if st = .preOpen then changeColumn r st = spaces 9
    else if r.state = .halted then changeColumn r st = spaces 3 ++ chars "HALTED".toList
    else
      match r.lastPx, r.prevClose with
      | some last, some prev => ChangeShown 9 (TerminalPrice r.mode 9) .sign .unch last prev (changeColumn r st)
      | _, _ => changeColumn r st = spaces 9 := by
  have e : rightIn 9 (chars ['H', 'A', 'L', 'T', 'E', 'D']) = spaces 3 ++ chars "HALTED".toList := by decide
  unfold changeColumn
  split
  next => rfl
  next =>
    split
    next => exact e
    next =>
      cases r.lastPx with
      | none => rfl
      | some last =>
        cases r.prevClose with
        | none => rfl
        | some prev => exact fitTerminalChange_shows r.mode 9 last prev

theorem changeColumn_length (r : Record) (st : SessionState) : (changeColumn r st).length = 9 := by
  unfold changeColumn
  split
  next => rfl
  next =>
    split
    next => rfl
    next =>
      split
      next => exact (fitTerminalChange_shows _ _ _ _).length fun _ _ _ => Fitted.length
      next => rfl

theorem instrumentRow_of_undefined {r : Record} (h : r.state = .undefined) (st : SessionState) :
    instrumentRow r st = chars "----".toList ++ spaces 44 := by
  have e : List.replicate 4 Glyph.minus = chars "----".toList := by decide
  rw [instrumentRow, if_pos h, e]

theorem instrumentRow_of_defined {r : Record} (h : r.state ≠ .undefined) (st : SessionState) :
    instrumentRow r st =
      atLeft 6 r.symbol ++ terminalPriceField r.mode 10 (if st = .preOpen then r.prevClose else r.lastPx) ++
        changeColumn r st ++ terminalPriceField r.mode 9 r.bidPx ++ terminalPriceField r.mode 9 r.askPx ++
        volumeField 5 100 r.volume := by
  rw [instrumentRow, if_neg h, leftIn_eq_atLeft]

theorem instrumentRow_length (r : Record) (st : SessionState) : (instrumentRow r st).length = 48 := by
  by_cases h : r.state = .undefined
  · rw [instrumentRow_of_undefined h]; rfl
  · simp only [instrumentRow_of_defined h, List.length_append, atLeft_length, terminalPriceField_length,
      changeColumn_length, (volumeField_shows 5 100 r.volume).length]

/-- The row of a list entry (R157). -/
theorem State.rowChars_entry (s : State) (x : Terminal) {i : Fin 18} (h0 : i ≠ 0) (h17 : i ≠ 17) :
    s.rowChars x i =
      ((x.pageList[i.val - 1]?).join).elim (spaces 48) fun ix => instrumentRow (s.record ix) s.session.state := by
  have e0 : i.val ≠ 0 := fun e => h0 (Fin.ext e)
  have e17 : i.val ≠ 17 := fun e => h17 (Fin.ext e)
  rw [State.rowChars, if_neg e0, if_neg e17]
  cases x.pageList[i.val - 1]? with
  | none => rfl
  | some e => cases e <;> rfl

/-- Every row of a terminal has 48 characters (R156 to R158). -/
theorem State.rowChars_length (s : State) (x : Terminal) (i : Fin 18) : (s.rowChars x i).length = 48 := by
  by_cases h0 : i = 0
  · subst h0; exact s.headerRow_length x
  · by_cases h17 : i = 17
    · subst h17; exact messageRow_length x
    · rw [s.rowChars_entry x h0 h17]
      cases (x.pageList[i.val - 1]?).join with
      | none => rfl
      | some ix => exact instrumentRow_length _ _

end Sys2Proof.Machine
end

section
/-! PROOF. Tape prices are exact (R20): a price can be read back from its text, so two prices of a mode with one text are the
same price. -/

namespace Sys2Proof.Machine

/-- A whole part is digits, and spells the whole even where it is empty (R3). -/
theorem wholePart_digits {w : Nat} (frac : List Byte) (h : w < 10 ^ 10) :
    (wholePart w frac).all isDigit = true ∧ digitsValue (wholePart w frac) = w := by
  unfold wholePart
  split
  next hw => exact ⟨rfl, by rw [hw.1, digitsValue_nil]⟩
  next => exact ⟨decimal_all_isDigit w, digitsValue_decimal h⟩

/-- A text splits in one way into a whole part and a fraction part that begins with no digit. -/
theorem wholePart_append_inj {w v : Nat} {c d : List Byte} (hw : w < 10 ^ 10) (hv : v < 10 ^ 10)
    (hc : ∀ x ∈ c.head?, isDigit x = false) (hd : ∀ x ∈ d.head?, isDigit x = false)
    (h : wholePart w c ++ c = wholePart v d ++ d) : w = v ∧ c = d := by
  obtain ⟨aw, ew⟩ := wholePart_digits c hw
  obtain ⟨av, ev⟩ := wholePart_digits d hv
  obtain ⟨hwhole, hfrac⟩ := digits_append_inj aw av hc hd h
  exact ⟨by rw [← ew, hwhole, ev], hfrac⟩

/-- A price is its whole units and its remainder. -/
theorem price_eq_of_parts {m : Mode} {p q : Nat} (hw : p / m.ticks = q / m.ticks) (hr : p % m.ticks = q % m.ticks) : p = q := by
  rw [← Nat.div_add_mod p m.ticks, hw, hr, Nat.div_add_mod]

/-- The units of a price have at most eight digits. -/
theorem price_div_lt (p : Price) (d : Nat) : p.val / d < 10 ^ 10 :=
  (Nat.div_le_self _ _).trans_lt (p.isLt.trans (by decide))

/-! ## GLYPH on halves, quarters and eighths -/

/-- In a mode whose ticks divide the eighths nothing is rounded, and no eighths count is a whole unit. -/
theorem eighths_exact {m : Mode} {k : Nat} (hk : m.ticks * k = 8) (p : Nat) :
    eighths m p = p % m.ticks * k ∧ eighths m p < 8 := by
  have hr := Nat.mod_lt p m.ticks_pos
  have e : eighths m p = p % m.ticks * k := by
    rw [eighths_eq, ← hk]
    refine Nat.div_eq_of_lt_le ?_ ?_
    · calc p % m.ticks * k * (2 * m.ticks) = 2 * (m.ticks * k * (p % m.ticks)) := by ring
        _ ≤ _ := Nat.le_add_right _ _
    · calc 2 * (m.ticks * k * (p % m.ticks)) + m.ticks < 2 * (m.ticks * k * (p % m.ticks)) + 2 * m.ticks := by omega
        _ = (p % m.ticks * k + 1) * (2 * m.ticks) := by ring
  refine ⟨e, ?_⟩
  rw [e, ← hk]
  exact Nat.mul_lt_mul_of_pos_right hr (Nat.pos_of_ne_zero fun h => by rw [h] at hk; cases hk)

/-- The fraction part of GLYPH below one whole. -/
def glyphFrac (e : Nat) : List Byte := if e = 0 then [] else [Glyph.eighths e]

theorem glyphFrac_head {e : Nat} (h : e < 8) : ∀ x ∈ (glyphFrac e).head?, isDigit x = false := by
  interval_cases e <;> decide

theorem glyphFrac_inj {a b : Nat} (ha : a < 8) (hb : b < 8) (h : glyphFrac a = glyphFrac b) : a = b := by
  have key : ∀ a : Fin 8, ∀ b : Fin 8, glyphFrac a = glyphFrac b → a = b := by decide
  exact congrArg Fin.val (key ⟨a, ha⟩ ⟨b, hb⟩ h)

theorem glyphParts_text {m : Mode} {p : Nat} (h : eighths m p < 8) :
    (glyphParts m p).text = wholePart (p / m.ticks) (glyphFrac (eighths m p)) ++ glyphFrac (eighths m p) := by
  have h8 : eighths m p ≠ 8 := by omega
  simp only [glyphParts, Parts.text, h8, or_false, if_false, List.nil_append, glyphFrac]

theorem glyphParts_inj {m : Mode} {k : Nat} (hk : m.ticks * k = 8) {p q : Price}
    (h : (glyphParts m p.val).text = (glyphParts m q.val).text) : p = q := by
  obtain ⟨ep, lp⟩ := eighths_exact hk p.val
  obtain ⟨eq, lq⟩ := eighths_exact hk q.val
  rw [glyphParts_text lp, glyphParts_text lq] at h
  obtain ⟨hw, hf⟩ := wholePart_append_inj (price_div_lt p _) (price_div_lt q _) (glyphFrac_head lp) (glyphFrac_head lq) h
  have he := glyphFrac_inj lp lq hf
  rw [ep, eq] at he
  have hk0 : 0 < k := Nat.pos_of_ne_zero fun h => by rw [h] at hk; cases hk
  exact Fin.ext (price_eq_of_parts hw (Nat.mul_right_cancel hk0 he))

/-! ## DECIMAL in the places of the mode -/

/-- In the places of its mode a remainder is its own value. -/
theorem decimalValue_exact {m : Mode} {k : Nat} (hk : m.ticks = 10 ^ k) (p : Nat) : decimalValue m k p = p % m.ticks := by
  have h0 := m.ticks_pos
  rw [decimalValue_eq, ← hk]
  refine Nat.div_eq_of_lt_le ?_ ?_
  · calc p % m.ticks * (2 * m.ticks) = 2 * (m.ticks * (p % m.ticks)) := by ring
      _ ≤ _ := Nat.le_add_right _ _
  · calc 2 * (m.ticks * (p % m.ticks)) + m.ticks < 2 * (m.ticks * (p % m.ticks)) + 2 * m.ticks := by omega
      _ = (p % m.ticks + 1) * (2 * m.ticks) := by ring

theorem decimalParts_text {m : Mode} {k : Nat} (hk : m.ticks = 10 ^ k) (p : Nat) :
    (decimalParts m k p).text =
      wholePart (p / m.ticks) (Glyph.point :: padded k (p % m.ticks)) ++ Glyph.point :: padded k (p % m.ticks) := by
  have hr : p % m.ticks ≠ 10 ^ k := hk ▸ (Nat.mod_lt p m.ticks_pos).ne
  simp only [decimalParts, decimalValue_exact hk, hr, if_false, Parts.text, List.nil_append]

theorem decimalParts_inj {m : Mode} {k : Nat} (hk : m.ticks = 10 ^ k) {p q : Price}
    (h : (decimalParts m k p.val).text = (decimalParts m k q.val).text) : p = q := by
  have point : ∀ t, ∀ x ∈ (Glyph.point :: t).head?, isDigit x = false := fun t x hx => by
    obtain rfl : Glyph.point = x := Option.some.inj hx
    decide
  have value : ∀ n, digitsValue (padded k (n % m.ticks)) = n % m.ticks := fun n =>
    digitsValue_padded (hk ▸ Nat.mod_lt n m.ticks_pos)
  rw [decimalParts_text hk, decimalParts_text hk] at h
  obtain ⟨hw, hf⟩ := wholePart_append_inj (price_div_lt p _) (price_div_lt q _) (point _) (point _) h
  have hr := congrArg digitsValue (List.cons.inj hf).2
  rw [value, value] at hr
  exact Fin.ext (price_eq_of_parts hw hr)

/-! ## DIGITS -/

/-- A fraction as DIGITS writes it: numerator, stroke, denominator. -/
def fractionText (n d : Nat) : List Byte := decimal n ++ 0x2F :: decimal d

/-- Two fractions with one text are the same. -/
theorem fractionText_inj {n d n' d' : Nat} (hn : n < 10 ^ 10) (hn' : n' < 10 ^ 10) (hd : d < 10 ^ 10) (hd' : d' < 10 ^ 10)
    (h : fractionText n d = fractionText n' d') : n = n' ∧ d = d' := by
  have stroke : ∀ t, ∀ x ∈ ((0x2F : Byte) :: t).head?, isDigit x = false := fun t x hx => by
    obtain rfl : (0x2F : Byte) = x := Option.some.inj hx
    decide
  obtain ⟨ha, hb⟩ := digits_append_inj (decimal_all_isDigit n) (decimal_all_isDigit n') (stroke _) (stroke _) h
  exact ⟨decimal_inj hn hn' ha, decimal_inj hd hd' (List.cons.inj hb).2⟩

/-- The text of a remainder that is not 0, in lowest terms. -/
def remainderText (m : Mode) (r : Nat) : List Byte := fractionText (halve 6 r m.ticks).1 (halve 6 r m.ticks).2

/-- Two remainders with one text are the same. -/
theorem remainderText_inj {m : Mode} (hm : m.places = none) {r r' : Nat} (h0 : 0 < r) (h0' : 0 < r') (hr : r < m.ticks)
    (hr' : r' < m.ticks) (h : remainderText m r = remainderText m r') : r = r' := by
  obtain ⟨k, hk, e⟩ := Mode.ticks_of_fraction hm
  have ht : m.ticks < 10 ^ 10 := by
    rw [e]
    exact (Nat.pow_le_pow_right (by decide) hk).trans_lt (by decide)
  have small : ∀ {a}, a < m.ticks → (halve 6 a m.ticks).1 < 10 ^ 10 ∧ (halve 6 a m.ticks).2 < 10 ^ 10 := fun {a} ha =>
    ⟨(halve_le 6 a m.ticks).1.trans_lt (ha.trans ht), (halve_le 6 a m.ticks).2.trans_lt ht⟩
  obtain ⟨hn, hd⟩ := fractionText_inj (small hr).1 (small hr').1 (small hr).2 (small hr').2 h
  obtain ⟨-, hdvd, hval⟩ := halve_ticks hm h0 hr
  obtain ⟨-, -, hval'⟩ := halve_ticks hm h0' hr'
  rw [hn, hval', ← hd] at hval
  exact (Nat.mul_right_cancel (Nat.pos_of_dvd_of_pos hdvd m.ticks_pos) hval).symm

/-- How the text of a price in DIGITS splits at the end of its first digits: into the number `a` and the text `b`. -/
inductive DigitsSplit (m : Mode) (w r : Nat) : Nat → List Byte → Prop
  | whole : r = 0 → DigitsSplit m w r w []
  | fraction : r ≠ 0 → w = 0 → DigitsSplit m w r (halve 6 r m.ticks).1 (0x2F :: decimal (halve 6 r m.ticks).2)
  | both : r ≠ 0 → w ≠ 0 → DigitsSplit m w r w (0x20 :: remainderText m r)

theorem digitsParts_split (m : Mode) (p : Nat) :
    ∃ a b, DigitsSplit m (p / m.ticks) (p % m.ticks) a b ∧ (digitsParts m p).text = decimal a ++ b := by
  by_cases hr : p % m.ticks = 0
  · exact ⟨_, _, .whole hr, by rw [digitsParts_of_zero hr]; rfl⟩
  · by_cases hw : p / m.ticks = 0
    · exact ⟨_, _, .fraction hr hw, by simp [digitsParts_of_ne hr, hw, Parts.text]⟩
    · exact ⟨_, _, .both hr hw, by simp [digitsParts_of_ne hr, hw, Parts.text, remainderText, fractionText]⟩

/-- What follows the first digits is no digit, and the number they spell is that of a price. -/
theorem DigitsSplit.bounds {m : Mode} {w r a : Nat} {b : List Byte} (h : DigitsSplit m w r a b) (hw : w < 10 ^ 10)
    (hr : r < 10 ^ 10) : a < 10 ^ 10 ∧ ∀ x ∈ b.head?, isDigit x = false := by
  cases h with
  | whole => exact ⟨hw, fun x hx => nomatch hx⟩
  | fraction => exact ⟨(halve_le 6 r m.ticks).1.trans_lt hr, fun x hx => by obtain rfl := Option.some.inj hx; decide⟩
  | both => exact ⟨hw, fun x hx => by obtain rfl := Option.some.inj hx; decide⟩

theorem DigitsSplit.inj {m : Mode} (hm : m.places = none) {w r w' r' a : Nat} {b : List Byte} (hr : r < m.ticks)
    (hr' : r' < m.ticks) (h : DigitsSplit m w r a b) (h' : DigitsSplit m w' r' a b) : w = w' ∧ r = r' := by
  generalize ea : a = c at h'
  generalize eb : b = d at h'
  cases h with
  | whole h0 =>
    cases h' with
    | whole h0' => exact ⟨ea, h0.trans h0'.symm⟩
    | fraction => cases eb
    | both => cases eb
  | fraction h0 hw =>
    cases h' with
    | whole => cases eb
    | fraction h0' hw' =>
      have e : remainderText m r = remainderText m r' := by rw [remainderText, remainderText, fractionText, fractionText, ea, eb]
      exact ⟨hw.trans hw'.symm, remainderText_inj hm (Nat.pos_of_ne_zero h0) (Nat.pos_of_ne_zero h0') hr hr' e⟩
    | both => exact absurd (List.cons.inj eb).1 (by decide)
  | both h0 hw =>
    cases h' with
    | whole => cases eb
    | fraction => exact absurd (List.cons.inj eb).1 (by decide)
    | both h0' hw' =>
      exact ⟨ea, remainderText_inj hm (Nat.pos_of_ne_zero h0) (Nat.pos_of_ne_zero h0') hr hr' (List.cons.inj eb).2⟩

theorem digitsParts_inj {m : Mode} (hm : m.places = none) {p q : Price}
    (h : (digitsParts m p.val).text = (digitsParts m q.val).text) : p = q := by
  have rem_lt : ∀ x : Price, x.val % m.ticks < 10 ^ 10 := fun x => (Nat.mod_le _ _).trans_lt (x.isLt.trans (by decide))
  obtain ⟨a, b, sp, ep⟩ := digitsParts_split m p.val
  obtain ⟨a', b', sq, eq⟩ := digitsParts_split m q.val
  obtain ⟨la, hb⟩ := sp.bounds (price_div_lt p _) (rem_lt p)
  obtain ⟨la', hb'⟩ := sq.bounds (price_div_lt q _) (rem_lt q)
  rw [ep, eq] at h
  obtain ⟨hd, rfl⟩ := digits_append_inj (decimal_all_isDigit a) (decimal_all_isDigit a') hb hb' h
  obtain rfl := decimal_inj la la' hd
  obtain ⟨hw, hr⟩ := sp.inj hm (Nat.mod_lt _ m.ticks_pos) (Nat.mod_lt _ m.ticks_pos) sq
  exact Fin.ext (price_eq_of_parts hw hr)

/-! ## Every mode -/

/-- Two prices of a mode with one tape text are the same price (R20). -/
theorem tapePrice_inj {m : Mode} {p q : Price} (h : (tapePrice m p).text = (tapePrice m q).text) : p = q := by
  cases m
  case fraction2 => exact glyphParts_inj (m := .fraction2) (k := 4) rfl h
  case fraction4 => exact glyphParts_inj (m := .fraction4) (k := 2) rfl h
  case fraction8 => exact glyphParts_inj (m := .fraction8) (k := 1) rfl h
  case fraction16 => exact digitsParts_inj (m := .fraction16) rfl h
  case fraction32 => exact digitsParts_inj (m := .fraction32) rfl h
  case fraction64 => exact digitsParts_inj (m := .fraction64) rfl h
  case decimal0 =>
    have text : ∀ x : Price, (tapePrice .decimal0 x).text = decimal x.val := fun x => by
      show (noneParts .decimal0 x.val).text = _
      rw [noneParts_decimal0, Parts.text, List.append_nil, List.nil_append]
    have lt : ∀ x : Price, x.val < 10 ^ 10 := fun x => x.isLt.trans (by decide)
    rw [text, text] at h
    exact Fin.ext (decimal_inj (lt p) (lt q) h)
  case decimal1 => exact decimalParts_inj (m := .decimal1) (k := 1) rfl h
  case decimal2 => exact decimalParts_inj (m := .decimal2) (k := 2) rfl h
  case decimal3 => exact decimalParts_inj (m := .decimal3) (k := 3) rfl h

end Sys2Proof.Machine
end

section
/-! PROOF. What board fields, terminal rows and tape prices show, assembled. -/

namespace Sys2Proof.Machine

/-- DIGITS on a FRACTION mode: the whole alone, or the common fraction in lowest terms (R3, R4). -/
theorem digitsParts_lowest {m : Mode} (hm : m.places = none) (p : Nat) :
    (digitsParts m p).sign = [] ∧
      if p % m.ticks = 0 then (digitsParts m p).whole = decimal (p / m.ticks) ∧ (digitsParts m p).frac = []
      else ∃ n d, n % 2 = 1 ∧ d ∣ m.ticks ∧ n * m.ticks = p % m.ticks * d ∧
        (digitsParts m p).whole = (if p / m.ticks = 0 then [] else decimal (p / m.ticks)) ∧
        (digitsParts m p).frac = (if p / m.ticks = 0 then [] else [0x20]) ++ decimal n ++ [0x2F] ++ decimal d := by
  split
  next h => rw [digitsParts_of_zero h]; exact ⟨rfl, rfl, rfl⟩
  next h =>
    rw [digitsParts_of_ne h]
    obtain ⟨hodd, hdvd, hval⟩ := halve_ticks hm (Nat.pos_of_ne_zero h) (Nat.mod_lt p m.ticks_pos)
    exact ⟨rfl, _, _, hodd, hdvd, hval, rfl, rfl⟩

/-- DECIMAL: the whole with its carry, and as many digits as places, which spell the value (R6). -/
theorem decimalParts_shows (m : Mode) (places p : Nat) :
    let carries : Bool := decimalValue m places p = 10 ^ places
    let whole := if carries then p / m.ticks + 1 else p / m.ticks
    (decimalParts m places p).sign = [] ∧ (decimalParts m places p).whole = (if whole = 0 then [] else decimal whole) ∧
      ∃ digits, (decimalParts m places p).frac = [0x2E] ++ digits ∧ digits.length = places ∧
        digits.all isDigit = true ∧ digitsValue digits = if carries then 0 else decimalValue m places p := by
  have hlt := decimalValue_shown_lt m places p
  simp only [decimalParts_eq, decide_eq_true_eq, true_and]
  exact ⟨_, rfl, padded_length _ _, padded_all_isDigit _ _, digitsValue_padded hlt⟩

/-- Settles O55, part by part: numbers, roundings and styles, ticks, replaced styles, placements, terminal rows, tape prices. -/
theorem pricesFitTheirFields : Obligations.PricesFitTheirFields := by
  refine ⟨fun n hn => ⟨decimal_all_isDigit n, digitsValue_decimal hn, fun h => decimal_head?_ne_zero hn (by omega),
      decimal_length_one⟩,
    fun m p places => ⟨eighths_nearest m p, eighths_le m p, decimalValue_nearest m places p, decimalValue_le m places p,
      fun hm => digitsParts_lowest hm p, decimalParts_shows m places p, noneParts_eq m p, rfl⟩,
    fun m => by cases m <;> rfl, ?styles, ?board, ?terminal, fun m p q => tapePrice_inj⟩
  case styles =>
    intro m st p
    cases st with
    | decimal k => rfl
    | none => rfl
    | digits =>
      cases h : m.places with
      | none => exact (priceParts_of_fraction h p).1
      | some k => rw [priceParts_of_places h (.inl rfl)]; cases k <;> rfl
    | glyph =>
      cases h : m.places with
      | none => exact (priceParts_of_fraction h p).2
      | some k => rw [priceParts_of_places h (.inr rfl)]; cases k <;> rfl
  case board =>
    intro r st f p hw
    refine ⟨placementGlyphs r st f p, ?_, placementGlyphs_length r st f hw, ?_⟩
    · unfold placementCells placementAttr lowerAttr
      rw [lively_eq, plainColour_eq]
      rfl
    · split
      next h => exact placementGlyphs_of_undefined h st f p
      next h =>
        rw [placementGlyphs_of_defined h]
        have hshows := definedGlyphs_shows r st f p.width p.kind
        cases hk : p.kind <;> rw [hk] at hshows
        case tick => rw [hshows]; cases r.tick <;> rfl
        all_goals exact hshows
  case terminal =>
    intro s x
    have e : (fun c => if commonGlyph c = true ∨ c = 0x03 then c else 0x20) = showOr terminalGlyph :=
      funext fun c => (showOr_terminalGlyph c).symm
    dsimp only
    rw [e]
    refine ⟨s.rowChars_length x, ?_, messageRow_eq x, fun i h0 h17 => ?_⟩
    · refine (s.headerRow_eq x).trans ?_
      congr 1
      · congr 5
        exact sessionHeader_eq _
      · cases s.session.tod with
        | none => rfl
        | some t => exact clockText_some t
    · rw [s.rowChars_entry x h0 h17]
      split
      next e => rw [e]; rfl
      next ix e =>
        rw [e, Option.elim]
        split
        next hu => exact instrumentRow_of_undefined hu _
        next hd =>
          refine ⟨_, _, _, _, _, instrumentRow_of_defined hd _, terminalPriceField_length _ _ _, changeColumn_length _ _,
            terminalPriceField_length _ _ _, terminalPriceField_length _ _ _, (volumeField_shows _ _ _).length,
            terminalPriceField_shows _ _ _, terminalPriceField_shows _ _ _, terminalPriceField_shows _ _ _,
            volumeField_shows _ _ _, changeColumn_shows _ _⟩

end Sys2Proof.Machine
end

section
/-! PROOF. What most operations leave as it was: the price store, the placement table, the watches and page list of every
terminal, and the canonical form of host memory. -/

namespace Sys2Proof.Machine

/-! ## Host memory through the accesses of the part (R164, R165) -/

/-- Host memory, where it is in canonical form, stays so. -/
structure Bus.KeepsForm (b b' : Bus) : Prop where
  wf : Memory.wf b.mem = true → Memory.wf b'.mem = true

namespace Bus.KeepsForm

theorem refl (b : Bus) : b.KeepsForm b := ⟨id⟩

theorem trans {a b c : Bus} (h : a.KeepsForm b) (g : b.KeepsForm c) : a.KeepsForm c := ⟨g.wf ∘ h.wf⟩

theorem of_mem {b b' : Bus} (h : b'.mem = b.mem) : b.KeepsForm b' := ⟨fun w => h ▸ w⟩

theorem of_access {b b' : Bus} (h : b.Access (fun _ => True) b') : b.KeepsForm b' := ⟨h.wf⟩

/-- An operation that answers with a bus and more, from its answer. -/
theorem fst {α : Type} {b b' : Bus} {r : Bus × α} {x : α} (h : b.KeepsForm r.1) (e : r = (b', x)) : b.KeepsForm b' := by
  rw [e] at h; exact h

theorem read (o : Word) (b : Bus) : b.KeepsForm (b.read o).1 := of_access (.read _ o b)
theorem readChain (o : Word) (b : Bus) : b.KeepsForm (b.readChain o).1 := of_access (.readChain _ o b)
theorem readAll (ws : List Word) (b : Bus) : b.KeepsForm (b.readAll ws).1 := of_access (.readAll _ ws b)
theorem write (o w : Word) (b : Bus) : b.KeepsForm (b.write o w).1 := of_access (.write trivial w b)
theorem writeAll (ws : List (Word × Word)) (b : Bus) : b.KeepsForm (b.writeAll ws).1 :=
  of_access (.writeAll ws (fun _ _ => trivial) b)
theorem writeStatus (x : StatusWord) (w : Word) (b : Bus) : b.KeepsForm (b.writeStatus x w) :=
  of_access (.writeStatus x trivial w b)
theorem cycle (o : Word) (f : Word → Word) (b : Bus) : b.KeepsForm (b.cycle o f).1 := of_access (.cycle trivial f b)
theorem setError (f : ErrorFlag) (b : Bus) : b.KeepsForm (b.setError f) := of_mem (by simp)

theorem setErrors (fs : List ErrorFlag) (b : Bus) : b.KeepsForm (b.setErrors fs) := by
  induction fs generalizing b with
  | nil => exact refl b
  | cons f fs ih => exact (setError f b).trans (ih _)

theorem hostWrites (h : List HostWrite) (b : Bus) : b.KeepsForm (b.hostWrites h) := ⟨b.wf_hostWrites h⟩

/-- The search of the bitmap (R182). -/
theorem claim (p : Params) (cs : List (List Nat)) (b : Bus) : b.KeepsForm (b.claim p cs).1 := by
  induction cs generalizing b with
  | nil => exact refl b
  | cons c cs ih =>
    unfold Bus.claim
    split
    next e => exact (cycle ..).fst e
    next e =>
      split
      · exact (cycle ..).fst e
      · exact ((cycle ..).fst e).trans (ih _)

theorem readFormat (o : Word) (b : Bus) : b.KeepsForm (b.readFormat o).1 := by
  unfold Bus.readFormat
  split <;> (rename_i e; exact (readAll ..).fst e)

theorem readPage (o : Word) (b : Bus) : b.KeepsForm (b.readPage o).1 := by
  unfold Bus.readPage
  split
  next e =>
    have h1 := (readAll ..).fst e
    dsimp only
    split
    next e =>
      have h2 := h1.trans ((readAll ..).fst e)
      split <;> (rename_i e; exact h2.trans ((readAll ..).fst e))
    next e => exact h1.trans ((readAll ..).fst e)
  next e => exact (readAll ..).fst e

theorem readBody (at_ : Nat → Word) (ks : List Nat) (body : Body) (b : Bus) : b.KeepsForm (b.readBody at_ ks body).1 := by
  unfold Bus.readBody
  split <;> (rename_i e; exact (readAll ..).fst e)

theorem readBodies (at_ : Nat → Word) (kind : Word) (fs : List (Body → List Nat)) (body : Body) (b : Bus) :
    b.KeepsForm (b.readBodies at_ kind fs body).1 := by
  induction fs generalizing body b with
  | nil => exact refl b
  | cons f fs ih =>
    unfold Bus.readBodies
    split
    next e => exact ((readBody ..).fst e).trans (ih _ _)
    · exact readBody ..

/-- The reading of a posting (R41 step 1). -/
theorem readPosting (at_ : Nat → Word) (b : Bus) : b.KeepsForm (b.readPosting at_).1 := by
  unfold Bus.readPosting
  split
  next e => exact (read ..).fst e
  next b1 _ _ e =>
    have h1 := ((read ..).fst e).trans (read (at_ 3) b1)
    clear e
    generalize b1.read (at_ 3) = r at h1 ⊢
    split
    case h_2 => split <;> (rename_i e; exact h1.trans ((readBodies ..).fst e))
    all_goals exact h1

theorem readSlots (base : Word) (ks : List Nat) (b : Bus) : b.KeepsForm (b.readSlots base ks).1 := by
  induction ks generalizing b with
  | nil => exact refl b
  | cons k ks ih =>
    unfold Bus.readSlots
    split
    next e =>
      have h1 := (read ..).fst e
      split
      · split
        next e =>
          have h2 := h1.trans ((readAll ..).fst e)
          have h3 := h2.trans (ih _)
          split
          next e => exact h2.trans ((ih _).fst e)
          · exact h3
        next e => exact h1.trans ((readAll ..).fst e)
      · exact h1.trans (ih _)
    next e => exact (read ..).fst e

theorem readMap (base : Word) (b : Bus) : b.KeepsForm (b.readMap base).1 := by
  unfold Bus.readMap
  split
  next e =>
    have h1 := (read ..).fst e
    split
    · split
      · unfold Bus.readMapBody
        split
        next e =>
          have h2 := h1.trans ((read ..).fst e)
          split <;> (rename_i e; exact h2.trans ((readSlots ..).fst e))
        next e => exact h1.trans ((read ..).fst e)
      · exact h1
    · exact h1
  next e => exact (read ..).fst e

theorem readMaps (p : Params) (line : Fin 4) (ms : List (Fin 32)) (b : Bus) : b.KeepsForm (b.readMaps p line ms).1 := by
  induction ms generalizing b with
  | nil => exact refl b
  | cons m ms ih => exact (readMap ..).trans (ih _)

theorem startCells (p : Params) (cs : List Nat) (b : Bus) : b.KeepsForm (b.startCells p cs).1 := by
  induction cs generalizing b with
  | nil => exact refl b
  | cons c cs ih =>
    unfold Bus.startCells
    split
    · split
      next e => exact (ih _).fst e
      · exact ih _
    · split
      next e =>
        have h1 := (read ..).fst e
        split
        next e => exact h1.trans ((ih _).fst e)
        · exact h1.trans (ih _)
      next e => exact (read ..).fst e

theorem readAnchor (b : Bus) : b.KeepsForm b.readAnchor.1 := by
  unfold Bus.readAnchor
  split
  next b1 levels e =>
    have h1 : b.KeepsForm (b1.takeLevels levels) := ((read ..).fst e).trans (of_mem rfl)
    split <;> (rename_i e; exact h1.trans ((readAll ..).fst e))
  next e => exact (read ..).fst e

/-- Anchor validation writes nothing (R166). -/
theorem validate (b : Bus) : b.KeepsForm b.validate.1 := by
  unfold Bus.validate
  split
  next e => exact (readAnchor b).fst e
  next ws e =>
    have h1 := ((readAnchor b).fst e).trans (setErrors (layoutFlags ws ++ parameterFlags ws) _)
    dsimp only
    split
    · exact h1
    · split
      next e => exact h1.trans ((startCells ..).fst e)
      next e =>
        have h2 := h1.trans ((startCells ..).fst e)
        split
        · exact h2
        · exact h2.trans (setError ..)

theorem writeInitial (p : Params) (b : Bus) : b.KeepsForm (b.writeInitial p) := by
  unfold Bus.writeInitial
  generalize initialStatus p = es
  induction es generalizing b with
  | nil => exact refl b
  | cons e es ih => exact (writeStatus ..).trans (ih _)

end Bus.KeepsForm

/-! ## The frame -/

/-- A terminal context with the same watches and the same page list. -/
structure Terminal.SameLists (x y : Terminal) : Prop where
  watches : y.watches = x.watches
  pageList : y.pageList = x.pageList

/-- The same host memory, price store, placement table and terminal contexts. -/
def State.SameData (s t : State) : Prop :=
  t.bus.mem = s.bus.mem ∧ t.store = s.store ∧ t.fmt.table = s.fmt.table ∧ t.terms = s.terms

/-- The price store, the placement table and the watches and page lists of the terminals are as they were, and host memory has kept
its canonical form. -/
structure Untouched (s t : State) : Prop where
  mem : s.bus.KeepsForm t.bus
  store : t.store = s.store
  table : t.fmt.table = s.fmt.table
  lists : ∀ k, (s.term k).SameLists (t.term k)

namespace Untouched

variable {s t u v : State}

theorem refl (s : State) : Untouched s s := ⟨.refl _, rfl, rfl, fun _ => ⟨rfl, rfl⟩⟩

theorem trans (h : Untouched s t) (g : Untouched t u) : Untouched s u :=
  ⟨h.mem.trans g.mem, g.store.trans h.store, g.table.trans h.table,
    fun k => ⟨(g.lists k).watches.trans (h.lists k).watches, (g.lists k).pageList.trans (h.lists k).pageList⟩⟩

/-- A change of other blocks, or of other fields of these. -/
theorem same (h : s.SameData v) : Untouched s v := by
  obtain ⟨hm, hs, ht, hl⟩ := h
  exact ⟨.of_mem hm, hs, ht, fun k => by unfold State.term; rw [hl]; exact ⟨rfl, rfl⟩⟩

theorem elsewhere (h : Untouched s u) (g : u.SameData v) : Untouched s v := h.trans (same g)

/-! One rule per update of a block that holds none of the four. -/

theorem withIntake (s : State) (x : Intake) : Untouched s (s.withIntake x) := same ⟨rfl, rfl, rfl, rfl⟩
theorem withSession (s : State) (x : SessionUnit) : Untouched s (s.withSession x) := same ⟨rfl, rfl, rfl, rfl⟩
theorem withLines (s : State) (x : Vector BoardLine 4) : Untouched s (s.withLines x) := same ⟨rfl, rfl, rfl, rfl⟩
theorem withTapes (s : State) (x : Vector Tape 2) : Untouched s (s.withTapes x) := same ⟨rfl, rfl, rfl, rfl⟩
theorem withTlines (s : State) (x : Vector TermLine 2) : Untouched s (s.withTlines x) := same ⟨rfl, rfl, rfl, rfl⟩
theorem withNotices (s : State) (x : NoticeUnit) : Untouched s (s.withNotices x) := same ⟨rfl, rfl, rfl, rfl⟩

theorem withFmt (s : State) {x : Formatter} (h : x.table = s.fmt.table) : Untouched s (s.withFmt x) := same ⟨rfl, rfl, h, rfl⟩

theorem withChanges (s : State) (l : List ChangeEvent) : Untouched s (s.withFmt { s.fmt with changes := l }) := withFmt s rfl
theorem withSessionEvents (s : State) (l : List SessionState) :
    Untouched s (s.withFmt { s.fmt with sessionEvents := l }) := withFmt s rfl
theorem withStageEvents (s : State) (l : List FeedStage) : Untouched s (s.withFmt { s.fmt with stageEvents := l }) :=
  withFmt s rfl
theorem withRemap (s : State) (job : Option RemapJob) : Untouched s (s.withFmt { s.fmt with remap := job }) := withFmt s rfl

theorem modifyIntake (s : State) (f : Intake → Intake) : Untouched s (s.modifyIntake f) := withIntake s _
theorem setIntake (s : State) (st : IntakeState) : Untouched s (s.setIntake st) := withIntake s _
theorem modifyLine (s : State) (n : Fin 4) (f : BoardLine → BoardLine) : Untouched s (s.modifyLine n f) := withLines s _
theorem modifyTape (s : State) (d : TapeId) (f : Tape → Tape) : Untouched s (s.modifyTape d f) := withTapes s _
theorem modifyTline (s : State) (l : Fin 2) (f : TermLine → TermLine) : Untouched s (s.modifyTline l f) := withTlines s _
theorem sendFrame (s : State) (l : Fin 2) (f : TermFrame) : Untouched s (s.sendFrame l f) := withTlines s _
theorem freeLine (s : State) (l : Fin 2) : Untouched s (s.freeLine l) := withTlines s _
theorem modifyUnit (s : State) (f : NoticeUnit → NoticeUnit) : Untouched s (s.modifyUnit f) := withNotices s _
theorem setHand (s : State) (x : InHand) : Untouched s (s.setHand x) := withNotices s _
theorem handParts (s : State) (parts : List NoticeBody) : Untouched s (s.handParts parts) := withNotices s _
theorem handTape (s : State) (d : TapeId) (a : Arrival) : Untouched s (s.handTape d a) := withTapes s _
theorem hand (s : State) (n : NoticeBody) : Untouched s (s.hand n) := withNotices s _

theorem withBus {b : Bus} (h : s.bus.KeepsForm b) : Untouched s (s.withBus b) := ⟨h, rfl, rfl, fun _ => ⟨rfl, rfl⟩⟩

theorem hostWrites (h : List HostWrite) (s : State) : Untouched s (s.hostWrites h) := withBus (.hostWrites h _)

theorem setError (s : State) (f : ErrorFlag) : Untouched s (s.withBus (s.bus.setError f)) := withBus (.setError ..)

theorem accept (s : State) : Untouched s s.accept := same ⟨rfl, rfl, rfl, rfl⟩

theorem refuse (s : State) : Untouched s s.refuse := withBus (.of_mem (by simp [Bus.refuseCommand]))

/-- Every terminal context changed in other fields. -/
theorem mapTerms (s : State) {f : Fin 16 → Terminal → Terminal} (h : ∀ k x, Terminal.SameLists x (f k x)) :
    Untouched s (s.withTerms (Bank.mapAll s.terms f)) :=
  ⟨.refl _, rfl, rfl, fun k => by rw [State.term_withTerms, Bank.get_mapAll]; exact h k _⟩

/-- One terminal context changed in other fields. -/
theorem modifyTerm (s : State) (k : Fin 16) {f : Terminal → Terminal} (h : (s.term k).SameLists (f (s.term k))) :
    Untouched s (s.modifyTerm k f) :=
  ⟨.refl _, rfl, rfl, fun j => by
    rw [(changesTerm_modify s k f).2 j]
    split
    next e => exact e ▸ h
    next => exact ⟨rfl, rfl⟩⟩

/-- Steps made one after another, each leaving the four as they were. -/
theorem foldl {α : Type} {f : State → α → State} (h : ∀ s a, Untouched s (f s a)) (l : List α) (s : State) :
    Untouched s (l.foldl f s) := by
  induction l generalizing s with
  | nil => exact refl s
  | cons a l ih => exact (h s a).trans (ih _)

theorem handAll (s : State) (ns : List NoticeBody) : Untouched s (s.handAll ns) :=
  foldl hand ns s

end Untouched

/-! ## Terminal contexts (chapter 08) -/

@[simp] theorem Terminal.markRows_watches (x : Terminal) (p : Fin 18 → Bool) : (x.markRows p).watches = x.watches := by
  unfold Terminal.markRows; rfl
@[simp] theorem Terminal.markRows_pageList (x : Terminal) (p : Fin 18 → Bool) : (x.markRows p).pageList = x.pageList := by
  unfold Terminal.markRows; rfl
@[simp] theorem Terminal.markMessageRow_watches (x : Terminal) : x.markMessageRow.watches = x.watches :=
  x.markRows_watches _
@[simp] theorem Terminal.markMessageRow_pageList (x : Terminal) : x.markMessageRow.pageList = x.pageList :=
  x.markRows_pageList _
@[simp] theorem Terminal.markAllRows_watches (x : Terminal) : x.markAllRows.watches = x.watches := x.markRows_watches _
@[simp] theorem Terminal.markAllRows_pageList (x : Terminal) : x.markAllRows.pageList = x.pageList := x.markRows_pageList _
@[simp] theorem Terminal.markInstrument_watches (x : Terminal) (i : Ix) : (x.markInstrument i).watches = x.watches :=
  x.markRows_watches _
@[simp] theorem Terminal.markInstrument_pageList (x : Terminal) (i : Ix) : (x.markInstrument i).pageList = x.pageList :=
  x.markRows_pageList _
@[simp] theorem Terminal.wake_watches (x : Terminal) : x.wake.watches = x.watches := by simp [Terminal.wake]
@[simp] theorem Terminal.wake_pageList (x : Terminal) : x.wake.pageList = x.pageList := by simp [Terminal.wake]
@[simp] theorem Terminal.goOffline_watches (x : Terminal) (ends : Nat) : (x.goOffline ends).watches = x.watches := rfl
@[simp] theorem Terminal.goOffline_pageList (x : Terminal) (ends : Nat) : (x.goOffline ends).pageList = x.pageList := rfl

namespace Terminal.SameLists

variable {x y z : Terminal}

theorem refl (x : Terminal) : x.SameLists x := ⟨rfl, rfl⟩

theorem trans (h : x.SameLists y) (g : y.SameLists z) : x.SameLists z := ⟨g.watches.trans h.watches, g.pageList.trans h.pageList⟩

theorem giveBeep (x : Terminal) : x.SameLists x.giveBeep := by unfold Terminal.giveBeep; split <;> exact ⟨by simp, by simp⟩
theorem endWork (x : Terminal) : x.SameLists x.endWork := by unfold Terminal.endWork; split <;> exact ⟨by simp, by simp⟩
theorem endWithBeep (x : Terminal) : x.SameLists x.endWithBeep := (giveBeep x).trans (endWork _)

theorem setText (half : Half) (text : List Byte) (x : Terminal) : x.SameLists (x.setText half text) := by
  unfold Terminal.setText; exact ⟨by simp, by simp⟩

theorem setLock (flag : Bool) (x : Terminal) : x.SameLists (x.setLock flag) := by
  unfold Terminal.setLock; exact ⟨by simp, by simp⟩

theorem askPage (p : Word) (x : Terminal) : x.SameLists (x.askPage p) := by
  unfold Terminal.askPage; split <;> exact ⟨by simp, by simp⟩

theorem takeChange (x : Terminal) : x.SameLists x.takeChange := by unfold Terminal.takeChange; split <;> exact ⟨by simp, by simp⟩
theorem takeSession (x : Terminal) : x.SameLists x.takeSession := by unfold Terminal.takeSession; split <;> exact ⟨by simp, by simp⟩
theorem takeStage (x : Terminal) : x.SameLists x.takeStage := by unfold Terminal.takeStage; split <;> exact ⟨by simp, by simp⟩
theorem takeTime (x : Terminal) : x.SameLists x.takeTime := by unfold Terminal.takeTime; split <;> exact ⟨by simp, by simp⟩

theorem fallAsleep (x : Terminal) : x.SameLists x.fallAsleep := by
  unfold Terminal.fallAsleep; dsimp only; split <;> exact ⟨by simp, by simp⟩

theorem nightOver (x : Terminal) : x.SameLists x.nightOver := by
  unfold Terminal.nightOver; dsimp only; split <;> exact ⟨by simp, by simp⟩

theorem takeNightSet (x : Terminal) : x.SameLists x.takeNightSet := by
  unfold Terminal.takeNightSet
  split
  · next r _ => exact (SameLists.mk rfl rfl : x.SameLists { x with events := r }).trans (fallAsleep _)
  · exact refl x

theorem takeNightClear (x : Terminal) : x.SameLists x.takeNightClear := by
  unfold Terminal.takeNightClear
  split
  · next r _ => exact (SameLists.mk rfl rfl : x.SameLists { x with events := r }).trans (nightOver _)
  · exact refl x

theorem pollAgain (x : Terminal) (stopped : Bool) : x.SameLists (x.pollAgain stopped) := by
  unfold Terminal.pollAgain; split <;> exact ⟨by simp, by simp⟩

theorem comeBack (x : Terminal) : x.SameLists x.comeBack := by
  unfold Terminal.comeBack; dsimp only; split <;> exact ⟨by simp, by simp⟩

theorem idleTaken (x : Terminal) (visited : TermState) (now : Nat) : x.SameLists (x.idleTaken visited now) := by
  unfold Terminal.idleTaken
  split
  · exact comeBack x
  · exact ⟨by simp, by simp⟩
  · exact ⟨by simp, by simp⟩

theorem keyTaken (x : Terminal) (key : Fin 64) : x.SameLists (x.keyTaken key) := by
  unfold Terminal.keyTaken
  split
  · exact comeBack x
  · exact ⟨by simp, by simp⟩
  · dsimp only; split <;> exact ⟨by simp, by simp⟩

theorem noReply (x : Terminal) (visited : TermState) (ends : Nat) : x.SameLists (x.noReply visited ends) := by
  unfold Terminal.noReply
  split
  · exact ⟨by simp, by simp⟩
  · split <;> exact ⟨by simp, by simp⟩
  · split
    · split <;> exact ⟨by simp, by simp⟩
    · exact ⟨by simp, by simp⟩

end Terminal.SameLists

end Sys2Proof.Machine
end

section
/-! PROOF. The frame of `Untouched` through the operations of every block, in the order of the model's files. -/

namespace Sys2Proof.Machine.Untouched

/-! ## What one block hands to another -/

theorem handChange (s : State) (i : Ix) (fields : List ChangedField) (mark : Option TickDir) :
    Untouched s (s.handChange i fields mark) := by
  unfold State.handChange
  split
  · exact refl s
  · dsimp only
    split
    · exact (withChanges s _).trans (mapTerms _ fun _ _ => by split <;> exact ⟨rfl, rfl⟩)
    · exact same ⟨rfl, rfl, rfl, rfl⟩

theorem handAssigned (s : State) (d : Option TapeId) (a : Arrival) : Untouched s (s.handAssigned d a) := by
  cases d <;> exact same ⟨rfl, rfl, rfl, rfl⟩

theorem handTerms (s : State) (e : TermEvent) : Untouched s (s.handTerms e) := mapTerms s fun _ _ => ⟨rfl, rfl⟩

theorem handNight (s : State) (flag : Bool) : Untouched s (s.handNight flag) :=
  (withLines s _).trans (handTerms _ _)

theorem handSession (s : State) (st : SessionState) : Untouched s (s.handSession st) :=
  (withSessionEvents s _).trans (handTerms _ _)

theorem handStage (s : State) (st : FeedStage) : Untouched s (s.handStage st) :=
  (withStageEvents s _).trans (handTerms _ _)

theorem handWatchCheck (s : State) (i : Ix) (last : Price) : Untouched s (s.handWatchCheck i last) :=
  mapTerms s fun _ _ => by split <;> exact ⟨rfl, rfl⟩

/-! ## The session unit (chapter 04) -/

theorem setTime (s : State) (time : Option Tod) : Untouched s (s.setTime time) := by
  cases time with
  | none => exact refl s
  | some time => exact (withSession s _).trans (handTerms _ _)

theorem setNight (s : State) : Untouched s s.setNight := (withSession s _).trans (handNight _ _)

theorem enterClosed (s : State) : Untouched s s.enterClosed := by
  unfold State.enterClosed
  split
  · exact setNight s
  · exact same ⟨rfl, rfl, rfl, rfl⟩

theorem leaveClosed (s : State) : Untouched s s.leaveClosed := by
  unfold State.leaveClosed
  dsimp only
  split
  · exact (withSession s _).trans (handNight _ _)
  · exact same ⟨rfl, rfl, rfl, rfl⟩

theorem feedResumed (s : State) (seq : Option Word) : Untouched s (s.feedResumed seq) := by
  unfold State.feedResumed
  split
  · exact refl s
  · exact ((withSession s _).trans (handStage _ _)).trans (hand _ _)

theorem nightAtChange (s : State) (old new : SessionState) : Untouched s (s.nightAtChange old new) := by
  have h : Untouched s (if old = .closed then s.leaveClosed else s) := by
    split
    · exact leaveClosed s
    · exact refl s
  unfold State.nightAtChange
  dsimp only
  split
  · exact h.trans (enterClosed _)
  · exact h

theorem feedAtChange (s : State) (old new : SessionState) : Untouched s (s.feedAtChange old new) := by
  unfold State.feedAtChange
  split
  · exact feedResumed s _
  · split
    · exact same ⟨rfl, rfl, rfl, rfl⟩
    · exact refl s

theorem textAtChange (s : State) (old new : SessionState) : Untouched s (s.textAtChange old new) := by
  unfold State.textAtChange
  split
  · exact same ⟨rfl, rfl, rfl, rfl⟩
  · exact refl s

theorem changeSession (s : State) (new : SessionState) : Untouched s (s.changeSession new) := by
  unfold State.changeSession
  dsimp only
  split
  · exact refl s
  · exact ((((withSession s _).trans (nightAtChange _ _ _)).trans (feedAtChange _ _ _)).trans
      (textAtChange _ _ _)).trans (handSession _ _)

theorem signalTaken (s : State) (seq : Word) : Untouched s (s.signalTaken seq) :=
  (feedResumed s _).trans (withSession _ _)

theorem advanceTime (s : State) : Untouched s s.advanceTime := by
  unfold State.advanceTime
  split
  · exact refl s
  · dsimp only
    split
    · exact (withSession s _).trans (handTerms _ _)
    · exact same ⟨rfl, rfl, rfl, rfl⟩

theorem becomeQuiet (s : State) : Untouched s s.becomeQuiet :=
  ((withSession s _).trans (handStage _ _)).trans (hand _ _)

theorem announceDelay (s : State) : Untouched s s.announceDelay := by
  unfold State.announceDelay
  split
  · exact refl s
  · exact same ⟨rfl, rfl, rfl, rfl⟩

theorem becomeLost (s : State) : Untouched s s.becomeLost :=
  (((withSession s _).trans (handStage _ _)).trans (announceDelay _)).trans (hand _ _)

/-! ## Terminal contexts and terminal lines (chapter 08) -/

theorem runtimeFault (s : State) (t : Fin 16) (first : Word) : Untouched s (s.runtimeFault t first) :=
  (setError s _).elsewhere ⟨rfl, rfl, rfl, rfl⟩

theorem endDispatch (s : State) (t : Fin 16) (beep : Bool) : Untouched s (s.endDispatch t beep) :=
  modifyTerm s t (by
    split
    · exact .endWithBeep _
    · exact .endWork _)

theorem beginLoad (s : State) (t : Fin 16) (page : Word) (origin : LoadOrigin) : Untouched s (s.beginLoad t page origin) :=
  modifyTerm s t ⟨rfl, rfl⟩

theorem loadIfCounted (s : State) (t : Fin 16) (page : Word) (origin : LoadOrigin) :
    Untouched s (s.loadIfCounted t page origin) := by
  unfold State.loadIfCounted
  split
  next e =>
    have h := withBus ((Bus.KeepsForm.read ..).fst e)
    split
    · exact h.trans (endDispatch _ _ _)
    · exact h.trans (beginLoad _ _ _ _)
  next e => exact (withBus ((Bus.KeepsForm.read ..).fst e)).trans (endDispatch _ _ _)

theorem directKey (s : State) (t : Fin 16) (page : Word) : Untouched s (s.directKey t page) := by
  unfold State.directKey
  split
  · exact endDispatch _ _ _
  · exact loadIfCounted _ _ _ _

theorem showPage (s : State) (t : Fin 16) (page : Word) (push : Bool) (bits : PageMask) :
    Untouched s (s.showPage t page push bits) := by
  unfold State.showPage
  split
  · exact endDispatch _ _ _
  · exact loadIfCounted _ _ _ _

theorem backPage (s : State) (t : Fin 16) : Untouched s (s.backPage t) := by
  unfold State.backPage
  split
  · exact endDispatch _ _ _
  · split
    · exact endDispatch _ _ _
    · exact beginLoad _ _ _ _

theorem notifyKey (s : State) (t : Fin 16) (key : Fin 64) (a : Action) (flags : Word) :
    Untouched s (s.notifyKey t key a flags) := by
  unfold State.notifyKey
  split
  · exact same ⟨rfl, rfl, rfl, rfl⟩
  · exact refl s

theorem failLoad (s : State) (t : Fin 16) (origin : LoadOrigin) : Untouched s (s.failLoad t origin) :=
  modifyTerm s t (by
    split
    · exact .endWithBeep _
    · exact .endWork _)

theorem beginVisit (s : State) (l : Fin 2) (a : Fin 8) : Untouched s (s.beginVisit l a) := by
  unfold State.beginVisit
  dsimp only
  refine (modifyTline s l fun x => { x with roundRobin := some a }).trans ?_
  split
  · unfold State.visitOnline
    dsimp only
    split
    · exact (sendFrame _ _ _).trans (modifyTerm _ _ ⟨rfl, rfl⟩)
    · exact sendFrame _ _ _
  · unfold State.visitAsleep
    dsimp only
    split <;> exact (sendFrame _ _ _).trans (modifyTerm _ _ ⟨rfl, rfl⟩)
  · exact (sendFrame _ _ _).trans (modifyTerm _ _ ⟨rfl, rfl⟩)

theorem termFrameSent (s : State) (l : Fin 2) : Untouched s (s.termFrameSent l) := by
  unfold State.termFrameSent
  split
  · split
    · split
      · exact same ⟨rfl, rfl, rfl, rfl⟩
      · unfold State.afterScreen
        dsimp only
        split
        · exact (freeLine s l).trans (modifyTerm _ _ (.pollAgain _ _))
        · exact same ⟨rfl, rfl, rfl, rfl⟩
    · exact refl s
  · exact refl s

theorem pollOutcome (s : State) (l : Fin 2) (t : Fin 16) {f : Terminal → Terminal} (h : ∀ x, Terminal.SameLists x (f x)) :
    Untouched s (s.pollOutcome l t f) :=
  (freeLine s l).trans (modifyTerm _ _ ⟨(h _).watches, (h _).pageList⟩)

theorem reportReturn (s : State) (l : Fin 2) (t : Fin 16) (before : TermState) : Untouched s (s.reportReturn l t before) := by
  unfold State.reportReturn
  split
  · unfold State.reportOnline
    split <;> exact same ⟨rfl, rfl, rfl, rfl⟩
  · exact refl s

theorem reportOffline (s : State) (t : Fin 16) (before : TermState) : Untouched s (s.reportOffline t before) := by
  unfold State.reportOffline
  split
  · exact same ⟨rfl, rfl, rfl, rfl⟩
  · exact refl s

/-! ## Tape units (chapter 07) -/

theorem setTape (s : State) (id : TapeId) (r : Tape × List NoticeBody) : Untouched s (s.setTape id r) :=
  (modifyTape s id _).trans (handAll _ _)

theorem takePrint (s : State) (id : TapeId) : Untouched s (s.takePrint id) := by
  unfold State.takePrint
  split
  · exact setTape _ _ _
  · exact refl s

theorem takeCancel (s : State) (id : TapeId) : Untouched s (s.takeCancel id) := by
  unfold State.takeCancel
  split
  · exact setTape _ _ _
  · exact refl s

theorem takeNote (s : State) (id : TapeId) : Untouched s (s.takeNote id) := by
  unfold State.takeNote
  split
  · exact setTape _ _ _
  · exact refl s

theorem takeText (s : State) (id : TapeId) (from_ : Supplier) : Untouched s (s.takeText id from_) := by
  unfold State.takeText
  split <;> (split; exacts [setTape _ _ _, refl s])

/-! ## The board formatter and the board lines (chapters 05 and 06) -/

theorem renderOne (s : State) (p : Placement) : Untouched s (s.renderOne p) := by
  unfold State.renderOne
  split
  next e => exact (withBus ((Bus.KeepsForm.readFormat ..).fst e)).elsewhere ⟨rfl, rfl, rfl, rfl⟩

theorem renderEntry (s : State) (k : Nat) : Untouched s (s.renderEntry k) := by
  unfold State.renderEntry
  split
  · exact renderOne s _
  · exact refl s

theorem renderEntries (s : State) (ks : List Nat) : Untouched s (s.renderEntries ks) := foldl renderEntry ks s

theorem formatSession (s : State) : Untouched s s.formatSession := by
  unfold State.formatSession
  split
  · exact refl s
  · exact (withSessionEvents s _).trans (renderEntries _ _)

theorem formatStage (s : State) : Untouched s s.formatStage := by
  unfold State.formatStage
  split
  · exact refl s
  · exact same ⟨rfl, rfl, rfl, rfl⟩

theorem repaintLine (s : State) (job : RemapJob) (found : List (Fin 32 × Found)) : Untouched s (s.repaintLine job found) :=
  (modifyLine s _ _).trans (renderEntries _ _)

theorem reportRemap (s : State) (cause : RemapCause) (n : NoticeBody) : Untouched s (s.reportRemap cause n) := by
  cases cause <;> exact same ⟨rfl, rfl, rfl, rfl⟩

theorem reportTally (s : State) (job : RemapJob) (t : Tally) : Untouched s (s.reportTally job t) := by
  have h : Untouched s (if t.faults = 0 then s
      else (s.withBus (s.bus.setError .tableFault)).reportRemap job.cause (.tableFaultRemap job.line t.faults)) := by
    split
    · exact refl s
    · exact (setError s _).trans (reportRemap _ _ _)
  unfold State.reportTally
  dsimp only
  split
  · exact h
  · exact h.trans (reportRemap _ _ _)

theorem reportModule (s : State) (n : Fin 4) (body : NoticeBody) : Untouched s (s.reportModule n body) := by
  unfold State.reportModule
  split <;> exact same ⟨rfl, rfl, rfl, rfl⟩

theorem writeFailed (s : State) (n : Fin 4) (m : Fin 32) (at_ : Nat) : Untouched s (s.writeFailed n m at_) := by
  unfold State.writeFailed
  dsimp only
  split
  · exact (modifyLine s _ _).trans (reportModule _ _ _)
  · exact same ⟨rfl, rfl, rfl, rfl⟩

/-! ## The notice unit (chapter 10) -/

theorem writeStatus (s : State) (x : StatusWord) (w : Word) : Untouched s (s.withBus (s.bus.writeStatus x w)) :=
  withBus (.writeStatus ..)

theorem joinHolding (s : State) (x : Item) : Untouched s (s.joinHolding x) := by
  unfold State.joinHolding
  split
  · exact same ⟨rfl, rfl, rfl, rfl⟩
  · split
    · exact same ⟨rfl, rfl, rfl, rfl⟩
    · unfold State.loseItem State.writeLost
      dsimp only
      split
      · exact ((modifyUnit s _).trans (writeStatus _ _ _)).trans (setError _ _)
      · exact (modifyUnit s _).trans (setError _ _)

theorem claimStart (s : State) (x : InHand) : Untouched s (s.claimStart x).1 := by
  unfold State.claimStart
  split <;> (rename_i e; exact (withBus ((Bus.KeepsForm.cycle ..).fst e)).elsewhere ⟨rfl, rfl, rfl, rfl⟩)

theorem claimCell (s : State) (x : InHand) : Untouched s (s.claimCell x).1 := by
  unfold State.claimCell
  split <;> (rename_i e; exact (withBus ((Bus.KeepsForm.claim ..).fst e)).elsewhere ⟨rfl, rfl, rfl, rfl⟩)

theorem linked (s : State) (x : InHand) (body : NoticeBody) (c : Nat) : Untouched s (s.linked x body c) :=
  ((modifyUnit s _).trans (writeStatus _ .noticeCount _)).elsewhere ⟨rfl, rfl, rfl, rfl⟩

theorem writeCell (s : State) (x : InHand) (body : NoticeBody) (c : Nat) : Untouched s (s.writeCell x body c).1 := by
  unfold State.writeCell
  split <;> rename_i e <;> have h := withBus ((Bus.KeepsForm.writeAll ..).fst e)
  · split
    · exact (h.trans (linked _ _ _ _)).elsewhere ⟨rfl, rfl, rfl, rfl⟩
    · exact h.elsewhere ⟨rfl, rfl, rfl, rfl⟩
  · exact h.elsewhere ⟨rfl, rfl, rfl, rfl⟩

theorem restartChain (s : State) (x : InHand) (body : NoticeBody) (c tail : Nat) (read : Option Word) (reason : BreakReason) :
    Untouched s (s.restartChain x body c tail read reason) := by
  unfold State.restartChain
  dsimp only
  refine .trans (.trans (.trans (.trans (writeStatus s .noticeRestart (word c)) ?_)
    (withBus ((Bus.KeepsForm.writeStatus ..).trans (.setError ..)))) (linked _ x body c)) (joinHolding _ _)
  exact same ⟨rfl, rfl, rfl, rfl⟩

theorem linkFrom (s : State) (x : InHand) (body : NoticeBody) (c tail : Nat) (bitmap : Word) :
    Untouched s (s.linkFrom x body c tail bitmap).1 := by
  unfold State.linkFrom
  split <;> rename_i e <;> have h := (Bus.KeepsForm.read ..).fst e
  · exact (withBus h).elsewhere ⟨rfl, rfl, rfl, rfl⟩
  · exact (withBus h).trans (restartChain _ _ _ _ _ _ _)
  · split
    · exact (withBus h).trans (restartChain _ _ _ _ _ _ _)
    · split <;> (rename_i e; have h := withBus (h.trans ((Bus.KeepsForm.write ..).fst e)))
      · exact h.trans (linked _ _ _ _)
      · exact h.elsewhere ⟨rfl, rfl, rfl, rfl⟩

theorem linkCell (s : State) (x : InHand) (body : NoticeBody) (c : Nat) : Untouched s (s.linkCell x body c).1 := by
  unfold State.linkCell
  split
  · exact linked s _ _ _
  · split <;> rename_i e <;> have h := withBus ((Bus.KeepsForm.read ..).fst e)
    · exact h.trans (linkFrom _ _ _ _ _ _)
    · exact h.elsewhere ⟨rfl, rfl, rfl, rfl⟩

theorem nextItem (s : State) : Untouched s s.nextItem.1 := by
  unfold State.nextItem
  split <;> exact same ⟨rfl, rfl, rfl, rfl⟩

theorem workOn (s : State) (x : InHand) : Untouched s (s.workOn x).1 := by
  unfold State.workOn
  split
  · exact nextItem s
  · split
    · split
      · exact claimStart s x
      · exact claimCell s x
    · split
      · split
        · exact linkCell s x _ _
        · exact writeCell s x _ _
      · exact nextItem s

theorem work (f : Nat) (s : State) : Untouched s (s.work f) := by
  induction f generalizing s with
  | zero => exact refl s
  | succ f ih =>
    unfold State.work
    split
    · exact refl s
    · next x _ =>
      have h := workOn s x
      split <;> (rename_i e; rw [e] at h)
      · exact h.trans (ih _)
      · exact h

theorem runUnit (s : State) : Untouched s s.runUnit := (modifyUnit s _).trans (work _ _)

theorem noticeRetry (s : State) : Untouched s s.noticeRetry := by
  unfold State.noticeRetry
  split
  · exact runUnit s
  · exact refl s

theorem takeNotice (s : State) : Untouched s s.takeNotice := by
  unfold State.takeNotice
  split
  · exact refl s
  · unfold State.arrive
    split
    · exact (modifyUnit s _).trans (joinHolding _ _)
    · exact ((modifyUnit s _).trans (setHand _ _)).trans (runUnit _)

/-! ## Feed intake (chapter 09) -/

theorem breakChain (s : State) (c : Nat) (read : Option Word) (reason : BreakReason) :
    Untouched s (s.breakChain c read reason) := (setError s _).elsewhere ⟨rfl, rfl, rfl, rfl⟩

theorem stateStep (s : State) (c : Nat) : Untouched s (s.stateStep c).1 := by
  unfold State.stateStep
  split <;> rename_i e <;> have h := withBus ((Bus.KeepsForm.readChain ..).fst e)
  · exact h
  · exact h.trans (breakChain _ _ _ _)
  · dsimp only
    split
    · exact h
    · split
      · exact h.elsewhere ⟨rfl, rfl, rfl, rfl⟩
      · split
        · exact h.elsewhere ⟨rfl, rfl, rfl, rfl⟩
        · exact h.trans (breakChain _ _ _ _)

theorem moveTo (s : State) (d : Nat) : Untouched s (s.moveTo d) :=
  (modifyIntake s _).trans (writeStatus _ .currentCell _)

theorem followLink (s : State) (c d : Nat) : Untouched s (s.followLink c d).1 := by
  unfold State.followLink
  split <;> rename_i e <;> have h := (Bus.KeepsForm.read ..).fst e
  · split
    · unfold State.freeAndMove
      split <;> (rename_i e; have h := withBus (h.trans ((Bus.KeepsForm.cycle ..).fst e)))
      · exact h.trans (moveTo _ _)
      · exact h
    · exact (withBus h).trans (breakChain _ _ _ _)
  · exact withBus h

theorem linkStep (s : State) (c : Nat) : Untouched s (s.linkStep c).1 := by
  unfold State.linkStep
  split <;> rename_i e <;> have h := withBus ((Bus.KeepsForm.readChain ..).fst e)
  · exact h
  · exact h.trans (breakChain _ _ _ _)
  · dsimp only
    split
    · exact h
    · split
      · exact h.trans (breakChain _ _ _ _)
      · split
        · exact h.trans (breakChain _ _ _ _)
        · exact h.trans (followLink _ _ _)

theorem lookLoop (f : Nat) (s : State) : Untouched s (s.lookLoop f) := by
  induction f generalizing s with
  | zero => exact refl s
  | succ f ih =>
    unfold State.lookLoop
    split
    · exact refl s
    · next c _ =>
      have h : Untouched s (if s.intake.taken then s.linkStep c else s.stateStep c).1 := by
        split
        · exact linkStep s c
        · exact stateStep s c
      split <;> (rename_i e; rw [e] at h)
      · exact h.trans (ih _)
      · exact h

theorem look (s : State) : Untouched s s.look := lookLoop _ s

theorem waitAndLook (s : State) : Untouched s s.waitAndLook := (setIntake s _).trans (look _)

theorem restartAt (s : State) (c : Nat) (quiesced : Bool) : Untouched s (s.restartAt c quiesced) := by
  have h : Untouched s ((s.modifyIntake fun x =>
      { x with current := some c, taken := false, lastSeq := none, quiescePending := false }).writeCurrent c) :=
    (modifyIntake s _).trans (writeStatus _ .currentCell _)
  unfold State.restartAt
  dsimp only
  split
  · exact h.elsewhere ⟨rfl, rfl, rfl, rfl⟩
  · exact h.trans (waitAndLook _)

theorem restartRefused (s : State) : Untouched s s.restartRefused := (setError s _).elsewhere ⟨rfl, rfl, rfl, rfl⟩

theorem readRestart (s : State) (quiesced : Bool) : Untouched s (s.readRestart quiesced) := by
  unfold State.readRestart
  split <;> rename_i e <;> have h := (Bus.KeepsForm.read ..).fst e
  · dsimp only
    split <;> (rename_i e; have h := withBus (h.trans ((Bus.KeepsForm.read ..).fst e)))
    · split
      · exact h.trans (restartAt _ _ _)
      · exact h.trans (restartRefused _)
    · exact h.elsewhere ⟨rfl, rfl, rfl, rfl⟩
  · exact (withBus h).elsewhere ⟨rfl, rfl, rfl, rfl⟩

theorem restartIntake (s : State) : Untouched s s.restartIntake :=
  (modifyIntake s _).trans (readRestart _ _)

theorem writeCounts (s : State) : Untouched s s.writeCounts := by
  unfold State.writeCounts
  dsimp only
  split
  · exact (writeStatus s .postingsTaken _).trans (writeStatus _ _ _)
  · exact writeStatus s .postingsTaken _

theorem afterTaken (s : State) : Untouched s s.afterTaken := by
  unfold State.afterTaken
  split
  · exact restartIntake s
  · split
    · exact same ⟨rfl, rfl, rfl, rfl⟩
    · exact look s

theorem postingTaken (s : State) : Untouched s s.postingTaken :=
  (((modifyIntake s _).trans (writeCounts _)).trans (signalTaken _ _)).trans (afterTaken _)

theorem writeTaken (s : State) : Untouched s s.writeTaken := by
  unfold State.writeTaken
  split
  · exact refl s
  · split <;> rename_i e <;> have h := withBus ((Bus.KeepsForm.write ..).fst e)
    · exact h.trans (postingTaken _)
    · exact h.elsewhere ⟨rfl, rfl, rfl, rfl⟩

theorem pollIntake (s : State) : Untouched s s.pollIntake := by
  unfold State.pollIntake
  split
  · exact look s
  · split
    · exact writeTaken s
    · exact refl s

theorem nudge (h : List HostWrite) (s : State) :
    Untouched s (match (s.hostWrites h).bus.phase with
      | .unset | .ready => (s.hostWrites h).refuse
      | .checking => (s.hostWrites h).accept.modifyIntake fun x => { x with nudged := true }
      | .running => (s.hostWrites h).accept.pollIntake) := by
  have h0 := hostWrites h s
  split
  · exact h0.trans (refuse _)
  · exact h0.trans (refuse _)
  · exact h0.elsewhere ⟨rfl, rfl, rfl, rfl⟩
  · exact (h0.trans (accept _)).trans (pollIntake _)

theorem quiesce (s : State) : Untouched s s.quiesce := by
  unfold State.quiesce
  split
  · exact refuse s
  all_goals exact same ⟨rfl, rfl, rfl, rfl⟩

theorem resume (s : State) : Untouched s s.resume := by
  unfold State.resume
  dsimp only
  split
  · exact ((accept s).trans (modifyIntake _ _)).trans (waitAndLook _)
  · exact same ⟨rfl, rfl, rfl, rfl⟩

theorem restart (s : State) : Untouched s s.restart := by
  unfold State.restart
  split
  · exact same ⟨rfl, rfl, rfl, rfl⟩
  · exact same ⟨rfl, rfl, rfl, rfl⟩
  all_goals exact (accept s).trans (restartIntake _)

/-! ## Postings (chapter 03) -/

theorem refusePosting (s : State) (seq kind : Word) (reason : Reason) : Untouched s (s.refusePosting seq kind reason) :=
  hand s _

theorem holdSequence (s : State) (seq : Word) : Untouched s (s.holdSequence seq) := modifyIntake s _

theorem leavePosting (s : State) : Untouched s s.leavePosting := setIntake s _

theorem noteSequence (s : State) (seq : Word) : Untouched s (s.noteSequence seq) := by
  unfold State.noteSequence
  dsimp only
  split
  · split <;> exact same ⟨rfl, rfl, rfl, rfl⟩
  · exact same ⟨rfl, rfl, rfl, rfl⟩

/-! ## START's completion (chapters 09 and 10) -/

theorem startTimers (s : State) : Untouched s s.startTimers := by
  unfold State.startTimers
  dsimp only
  split
  · exact (withSession s _).trans (enterClosed _)
  · exact same ⟨rfl, rfl, rfl, rfl⟩

theorem writeStartDone (s : State) : Untouched s s.writeStartDone := (modifyUnit s _).trans (runUnit _)

theorem startClocks (s : State) (x : Vector Tape 2) : Untouched s (s.startTimers.withTapes x) :=
  (startTimers s).trans (withTapes _ _)

theorem handHeld (s : State) : Untouched s (s.dropHeld.handAll s.heldNotices) :=
  (same ⟨rfl, rfl, rfl, rfl⟩ : Untouched s s.dropHeld).trans (handAll _ _)

theorem completeStart (s : State) : Untouched s s.completeStart := by
  unfold State.completeStart
  dsimp only
  split
  · refine .trans (.trans (.trans ?_ (startClocks _ _)) (handHeld _)) (look _)
    exact same ⟨rfl, rfl, rfl, rfl⟩
  · refine .trans (.trans ?_ (startClocks _ _)) (handHeld _)
    exact same ⟨rfl, rfl, rfl, rfl⟩

end Sys2Proof.Machine.Untouched
end

section
/-! PROOF. The canonical forms (R21, R79, R161) and the soundness of records and masks (R22, R23, R25, R29, R51, R155, R160)
through the operations that do change the price store, the placement table, watches or page lists. -/

namespace Sys2Proof.Machine

/-- The canonical forms, and the soundness of records and masks, hold after where they held before. -/
structure Preserves (s t : State) : Prop where
  canonical : s.Canonical → t.Canonical
  masks : s.MasksSound → t.MasksSound

/-! ## Records and masks -/

/-- The context holds an ARMED watch on an instrument (R160). -/
def Terminal.Arms (x : Terminal) (i : Ix) : Prop := ∃ w ∈ x.watches, w.instr = i ∧ w.tripped = false

/-- Every record is sound and every mask bit exact, but for the watch bits of one terminal on the instruments of `p`. -/
def State.MasksSoundBut (s : State) (t : Fin 16) (p : Ix → Prop) : Prop :=
  ∀ i, (s.record i).Sound ∧
    ∀ k, ((k = t → ¬ p i) → (Bank.get (s.record i).watchMask k = true ↔ (s.term k).Arms i)) ∧
      (Bank.get (s.record i).interest k = true ↔ some i ∈ (s.term k).pageList)

theorem State.masksSoundBut_none {s : State} {t : Fin 16} {p : Ix → Prop} (hp : ∀ i, ¬ p i) :
    s.MasksSoundBut t p ↔ s.MasksSound := by
  unfold State.MasksSoundBut State.MasksSound Terminal.Arms
  simp [hp]

theorem Terminal.SameLists.arms {x y : Terminal} (h : x.SameLists y) (i : Ix) : y.Arms i ↔ x.Arms i := by
  unfold Terminal.Arms; rw [h.watches]

theorem Terminal.any_armedOn (x : Terminal) (i : Ix) : x.watches.any (·.armedOn i) = true ↔ x.Arms i := by
  simp [Terminal.Arms, Watch.armedOn]

theorem State.record_of_store {s t : State} (h : t.store = s.store) (i : Ix) : t.record i = s.record i := by
  unfold State.record; rw [h]

theorem Untouched.masksSoundBut {s t : State} (h : Untouched s t) {k : Fin 16} {p : Ix → Prop} (hs : s.MasksSoundBut k p) :
    t.MasksSoundBut k p := by
  intro i
  rw [State.record_of_store h.store i]
  obtain ⟨hsound, hbits⟩ := hs i
  refine ⟨hsound, fun j => ?_⟩
  rw [(h.lists j).arms, (h.lists j).pageList]
  exact hbits j

theorem Untouched.preserves {s t : State} (h : Untouched s t) : Preserves s t where
  canonical := fun ⟨hmem, hstore, htable⟩ => ⟨h.mem.wf hmem, h.store ▸ hstore, h.table ▸ htable⟩
  masks := fun hs => (State.masksSoundBut_none (t := 0) (p := fun _ => False) fun _ => id).1
    (h.masksSoundBut ((State.masksSoundBut_none fun _ => id).2 hs))

namespace Preserves

theorem refl (s : State) : Preserves s s := ⟨id, id⟩

theorem trans {s t u : State} (h : Preserves s t) (g : Preserves t u) : Preserves s u :=
  ⟨g.canonical ∘ h.canonical, g.masks ∘ h.masks⟩

theorem foldl {α : Type} {f : State → α → State} (h : ∀ s a, Preserves s (f s a)) (l : List α) (s : State) :
    Preserves s (l.foldl f s) := by
  induction l generalizing s with
  | nil => exact refl s
  | cons a l ih => exact (h s a).trans (ih _)

end Preserves

/-! ## One record replaced (R21) -/

theorem State.record_set (s : State) (i j : Ix) (r : Record) : (s.setRecord i r).record j = if j = i then r else s.record j :=
  State.record_setRecord s i j r

theorem State.Canonical.setRecord {s : State} (h : s.Canonical) (i : Ix) (r : Record) : (s.setRecord i r).Canonical := by
  obtain ⟨hmem, hstore, htable⟩ := h
  exact ⟨hmem, Sparse.wf_set _ _ _ _ hstore, htable⟩

/-- A record replaced by one that is sound where it was sound, with the same ⟨rfl, rfl, rfl, rfl⟩ masks. -/
theorem Preserves.setRecord (s : State) (i : Ix) {r : Record} (hr : (s.record i).Sound → r.Sound)
    (hw : r.watchMask = (s.record i).watchMask) (hi : r.interest = (s.record i).interest) : Preserves s (s.setRecord i r) where
  canonical := fun h => h.setRecord i r
  masks := fun h j => by
    rw [State.record_set]
    split
    · next e =>
      subst e
      obtain ⟨hsound, hbits⟩ := h j
      refine ⟨hr hsound, ?_⟩
      rw [hw, hi]
      exact hbits
    · exact h j

/-- One update of a record and its change event (R21, R40). -/
theorem Preserves.updateRecord (s : State) (i : Ix) {r : Record} (fields : List ChangedField) (mark : Option TickDir)
    (hr : (s.record i).Sound → r.Sound) (hw : r.watchMask = (s.record i).watchMask)
    (hi : r.interest = (s.record i).interest) : Preserves s (s.updateRecord i r fields mark) :=
  (setRecord s i hr hw hi).trans (Untouched.handChange _ _ _ _).preserves

theorem Preserves.writeRef (s : State) (id : TapeId) (i : Ix) (m : Mode) (p : Price) : Preserves s (s.writeRef id i m p) := by
  unfold State.writeRef
  dsimp only
  split
  · exact setRecord s i (fun h => h) rfl rfl
  · exact refl s

/-! ## Soundness of a record through its updates (chapter 02) -/

theorem Record.sound_reset : Record.reset.Sound := by
  refine ⟨?_, rfl, ?_, ?_, rfl, ?_⟩ <;> simp [Record.reset]

theorem Record.rangeOk_iff (r : Record) :
    r.rangeOk = true ↔ ∀ l h, r.lowPx = some l → r.highPx = some h → l ≤ h := by
  unfold Record.rangeOk
  cases r.lowPx <;> cases r.highPx <;> simp

theorem Record.lowPx_trade_le {r : Record} {f : TradeFields} {now : Option Tod} {l : Price}
    (h : (r.trade f now).lowPx = some l) : l ≤ f.price := by
  unfold Record.trade at h
  dsimp only at h
  split at h
  · cases h; exact le_refl _
  · next hn => simpa [h, lowersLow] using hn

theorem Record.le_highPx_trade {r : Record} {f : TradeFields} {now : Option Tod} {h : Price}
    (hh : (r.trade f now).highPx = some h) : f.price ≤ h := by
  unfold Record.trade at hh
  dsimp only at hh
  split at hh
  · cases hh; exact le_refl _
  · next hn => simpa [hh, raisesHigh] using hn

/-- After a trade the price traded lies between the low and the high (R25). -/
theorem Record.rangeOk_trade (r : Record) (f : TradeFields) (now : Option Tod) : (r.trade f now).rangeOk = true :=
  (Record.rangeOk_iff _).2 fun _ _ hl hh => (Record.lowPx_trade_le hl).trans (Record.le_highPx_trade hh)

theorem Record.Sound.trade {r : Record} (h : r.Sound) (f : TradeFields) (now : Option Tod) : (r.trade f now).Sound := by
  obtain ⟨hhalt, -, -, hlen, hchars, hundef⟩ := h
  exact ⟨hhalt, Record.rangeOk_trade r f now, by simp [Record.trade, Config.historyCapacity], hlen, hchars, hundef⟩

/-- A CANCEL marks an entry of the history and drops none (R30). -/
theorem cancelIn_length {id : Word} {h h' : List PrintEntry} {e : PrintEntry} {newest : Bool}
    (hc : cancelIn id h = some (e, h', newest)) : h'.length = h.length := by
  induction h generalizing h' newest with
  | nil => cases hc
  | cons x r ih =>
    unfold cancelIn at hc
    split at hc
    · cases hc; rfl
    · split at hc
      · cases hc
      · next hr => cases hc; simp [ih hr]

theorem Record.cancel_masks (r : Record) (id : Word) :
    (r.cancel id).1.watchMask = r.watchMask ∧ (r.cancel id).1.interest = r.interest := by
  unfold Record.cancel
  split
  · exact ⟨rfl, rfl⟩
  · dsimp only; split <;> exact ⟨rfl, rfl⟩

theorem Record.Sound.cancel {r : Record} (h : r.Sound) (id : Word) : (r.cancel id).1.Sound := by
  obtain ⟨hhalt, hrange, hhist, hlen, hchars, hundef⟩ := h
  unfold Record.cancel
  split
  · exact ⟨hhalt, hrange, hhist, hlen, hchars, hundef⟩
  · next e h' newest hc =>
    have hhist' : h'.length ≤ 4 := cancelIn_length hc ▸ hhist
    dsimp only
    split <;> exact ⟨hhalt, hrange, hhist', hlen, hchars, hundef⟩

theorem Record.Sound.summary {r : Record} (h : r.Sound) {f : SummaryFields} (hf : (r.summary f).rangeOk = true) :
    (r.summary f).Sound := by
  obtain ⟨hhalt, -, hhist, hlen, hchars, hundef⟩ := h
  exact ⟨hhalt, hf, hhist, hlen, hchars, hundef⟩

/-- A halted record has a symbol, as the HALT found it defined (R51). -/
theorem Record.Sound.halt {r : Record} (h : r.Sound) (hd : r.state ≠ .undefined) (reason : HaltReason) :
    (r.halt reason).Sound := by
  obtain ⟨-, hrange, hhist, hlen, hchars, hundef⟩ := h
  refine ⟨by simp [Record.halt], hrange, hhist, hlen, hchars, ?_⟩
  show r.symbol = [] ↔ RecState.halted = .undefined
  simp [hundef, hd]

theorem Record.Sound.resume {r : Record} (h : r.Sound) (hd : r.state ≠ .undefined) : r.resume.Sound := by
  obtain ⟨-, hrange, hhist, hlen, hchars, hundef⟩ := h
  refine ⟨by simp [Record.resume], hrange, hhist, hlen, hchars, ?_⟩
  show r.symbol = [] ↔ RecState.active = .undefined
  simp [hundef, hd]

theorem Record.sound_redefine (r : Record) {f : DefineFields} (hne : f.symbol ≠ []) (hlen : f.symbol.length ≤ 5)
    (hchars : f.symbol.all symbolChar = true) : (r.redefine f).Sound :=
  ⟨by simp [Record.redefine, Record.reset], rfl, by simp [Record.redefine, Record.reset], hlen, hchars,
    by simp [Record.redefine, hne]⟩

theorem Record.sound_remove (r : Record) : r.remove.Sound := Record.sound_reset

theorem Body.chars_length (body : Body) (k n : Nat) : (body.chars k n).length = n := by
  unfold Body.chars charsOf
  rw [List.length_take, flatMap_bytes_length, List.length_map, List.length_range]
  unfold wordsFor
  omega

/-- The symbol of a DEFINE that is not a removal has 1 to 5 legal characters (R23, R53). -/
theorem defineFields_symbol {body : Body} {f : DefineFields} (h : defineFields body = some f) (hn : body.at 5 ≠ 0) :
    f.symbol ≠ [] ∧ f.symbol.length ≤ 5 ∧ f.symbol.all symbolChar = true := by
  unfold defineFields at h
  dsimp only at h
  split at h
  · split at h
    · next hok =>
      cases h
      have hlen := body.chars_length 6 (body.at 5).toNat
      refine ⟨fun e => hn ?_, by rw [hlen]; exact hok.1, hok.2⟩
      have hz : (body.at 5).toNat = 0 := hlen.symm.trans (List.length_eq_zero_iff.2 e)
      exact BitVec.eq_of_toNat_eq hz
    · cases h
  · cases h

/-! ## Watches (R159, R160) -/

/-- The watches of one terminal changed, on the instruments of `p` alone. -/
theorem State.MasksSound.modifyTerm {s : State} (h : s.MasksSound) {t : Fin 16} {f : Terminal → Terminal} {p : Ix → Prop}
    (hp : (f (s.term t)).pageList = (s.term t).pageList) (ha : ∀ i, ¬ p i → ((f (s.term t)).Arms i ↔ (s.term t).Arms i)) :
    (s.modifyTerm t f).MasksSoundBut t p := by
  intro i
  obtain ⟨hsound, hbits⟩ := h i
  refine ⟨hsound, fun k => ?_⟩
  rw [(changesTerm_modify s t f).2 k]
  split
  · next e =>
    subst e
    rw [hp]
    exact ⟨fun hk => (hbits k).1.trans (ha i (hk rfl)).symm, (hbits k).2⟩
  · exact ⟨fun _ => (hbits k).1, (hbits k).2⟩

/-- The watch bit of one instrument made exact (R160). -/
theorem State.MasksSoundBut.refreshWatchBit {s : State} {t : Fin 16} {p : Ix → Prop} (h : s.MasksSoundBut t p) (i : Ix) :
    (s.refreshWatchBit t i).MasksSoundBut t fun j => p j ∧ j ≠ i := by
  intro j
  obtain ⟨hsound, hbits⟩ := h j
  unfold State.refreshWatchBit
  rw [State.record_set]
  split
  · next e =>
    subst e
    refine ⟨hsound, fun k => ⟨fun _ => ?_, (hbits k).2⟩⟩
    dsimp only
    rw [Bank.get_set]
    split
    · next e => subst e; exact Terminal.any_armedOn _ _
    · next e => exact (hbits k).1 fun e' => absurd e'.symm e
  · next hj => exact ⟨hsound, fun k => ⟨fun hk => (hbits k).1 fun e hpj => hk e ⟨hpj, hj⟩, (hbits k).2⟩⟩

theorem State.Canonical.refreshWatchBit {s : State} (h : s.Canonical) (t : Fin 16) (i : Ix) :
    (s.refreshWatchBit t i).Canonical := h.setRecord _ _

namespace Preserves

/-- A change of one terminal that keeps its page list and which instruments it arms. -/
theorem modifyTerm {s : State} {t : Fin 16} {f : Terminal → Terminal} (hp : (f (s.term t)).pageList = (s.term t).pageList)
    (ha : ∀ i, (f (s.term t)).Arms i ↔ (s.term t).Arms i) : Preserves s (s.modifyTerm t f) where
  canonical := id
  masks := fun h => (State.masksSoundBut_none (p := fun _ => False) fun _ => id).1 (h.modifyTerm hp fun i _ => ha i)

/-- The watches of a terminal on one instrument changed, and its bit in the watch mask with them (R160). -/
theorem rearm {s u : State} {t : Fin 16} {f : Terminal → Terminal} {i : Ix} (hu : Untouched (s.modifyTerm t f) u)
    (hp : (f (s.term t)).pageList = (s.term t).pageList) (ha : ∀ j, j ≠ i → ((f (s.term t)).Arms j ↔ (s.term t).Arms j)) :
    Preserves s (u.refreshWatchBit t i) where
  canonical := fun h => (hu.preserves.canonical h).refreshWatchBit t i
  masks := fun h => (State.masksSoundBut_none fun _ hj => hj.2 hj.1).1
    ((hu.masksSoundBut (h.modifyTerm (p := (· = i)) hp ha)).refreshWatchBit i)

theorem addWatch (s : State) (t : Fin 16) (i : Ix) (level : Price) (dir : Direction) :
    Preserves s (s.addWatch t i level dir) :=
  rearm (.refl _) rfl fun j hj => by simp [Terminal.Arms, hj.symm]

/-- A watch check trips watches on its instrument alone (R159). -/
theorem arms_alerted (x : Terminal) {i j : Ix} (hj : j ≠ i) (last : Price) (message : List Byte) :
    (x.alerted i last message).Arms j ↔ x.Arms j := by
  unfold Terminal.alerted
  rw [(Terminal.SameLists.giveBeep _).arms]
  unfold Terminal.Arms
  rw [Terminal.markMessageRow_watches]
  simp only [List.mem_map, exists_exists_and_eq_and]
  refine exists_congr fun w => and_congr_right fun _ => ?_
  split
  · next ht =>
    have hw : w.instr = i := by simp [Watch.trips] at ht; exact ht.1.1
    simp [hw, hj.symm]
  · rfl

theorem checkWatches (s : State) (t : Fin 16) (i : Ix) (last : Price) : Preserves s (s.checkWatches t i last) := by
  unfold State.checkWatches
  dsimp only
  split
  · refine rearm (.handAll _ _) ?_ fun j hj => arms_alerted _ hj _ _
    unfold Terminal.alerted
    rw [(Terminal.SameLists.giveBeep _).pageList]
    simp
  · exact refl s

theorem takeChecks (s : State) (t : Fin 16) : Preserves s (s.takeChecks t) :=
  (Untouched.modifyTerm s t ⟨rfl, rfl⟩).preserves.trans (foldl (fun _ _ => checkWatches _ _ _ _) _ _)

theorem takeCheck (s : State) (t : Fin 16) : Preserves s (s.takeCheck t) := by
  unfold State.takeCheck
  split
  · exact refl s
  · exact (Untouched.modifyTerm s t ⟨rfl, rfl⟩).preserves.trans (checkWatches _ _ _ _)

theorem finishChecks (s : State) : Preserves s s.finishChecks := foldl takeChecks _ s

/-- Only tripped watches are removed (R149). -/
theorem clearAlert (s : State) (t : Fin 16) : Preserves s (s.modifyTerm t Terminal.clearAlert) := by
  have hl : ∀ x : Terminal, x.clearAlert.watches = x.watches.filter (fun w => !w.tripped) ∧
      x.clearAlert.pageList = x.pageList := fun x => by
    unfold Terminal.clearAlert
    dsimp only
    split
    · exact ⟨Terminal.markMessageRow_watches _, Terminal.markMessageRow_pageList _⟩
    · exact ⟨rfl, rfl⟩
  refine modifyTerm (hl _).2 fun i => ?_
  unfold Terminal.Arms
  rw [(hl _).1]
  simp only [List.mem_filter, Bool.not_eq_true']
  exact exists_congr fun w => ⟨fun ⟨⟨hm, _⟩, hi, ht⟩ => ⟨hm, hi, ht⟩, fun ⟨hm, hi, ht⟩ => ⟨⟨hm, ht⟩, hi, ht⟩⟩

/-- The bits of several instruments made exact, one after another (R160). -/
theorem masksSoundBut_refreshed {t : Fin 16} (ws : List Watch) {s : State} {p : Ix → Prop} (h : s.MasksSoundBut t p) :
    (ws.foldl (fun s w => s.refreshWatchBit t w.instr) s).MasksSoundBut t fun j => p j ∧ ∀ w ∈ ws, j ≠ w.instr := by
  induction ws generalizing s p with
  | nil => simpa using h
  | cons w ws ih =>
    have := ih (h.refreshWatchBit w.instr)
    simpa [and_assoc] using this

theorem clearWatches (s : State) (t : Fin 16) : Preserves s (s.clearWatches t) where
  canonical := fun h => List.foldlRecOn _ _ (motive := State.Canonical) (b := s.modifyTerm t fun x => { x with watches := [] }) h
    fun _ hs w _ => hs.refreshWatchBit t w.instr
  masks := fun h => by
    have hw : (s.modifyTerm t fun x => { x with watches := [] }).MasksSoundBut t
        fun i => ∃ w ∈ (s.term t).watches, i = w.instr := by
      refine h.modifyTerm rfl fun i hi => ?_
      simp only [Terminal.Arms, List.not_mem_nil, false_and, exists_false, false_iff]
      exact fun ⟨w, hm, hwi, _⟩ => hi ⟨w, hm, hwi.symm⟩
    exact (State.masksSoundBut_none fun _ ⟨⟨w, hm, e⟩, hno⟩ => hno w hm e).1 (masksSoundBut_refreshed _ hw)

/-- An instrument removed: its watches are gone from every context and its watch mask is clear (R38, R160). -/
theorem removed (s : State) (i : Ix) :
    Preserves s ((s.withTerms (Bank.mapAll s.terms fun _ x => x.dropWatches i)).setRecord i (s.record i).remove) where
  canonical := fun h => State.Canonical.setRecord (s := s.withTerms _) h i _
  masks := fun h j => by
    have ht : ∀ k, ((s.withTerms (Bank.mapAll s.terms fun _ x => x.dropWatches i)).setRecord i (s.record i).remove).term k =
        (s.term k).dropWatches i := fun k => by
      rw [State.setRecord_eq, State.withStore_term, State.term_withTerms, Bank.get_mapAll]
      rfl
    obtain ⟨hsound, hbits⟩ := h j
    rw [State.record_set, State.withTerms_record]
    split
    · next e =>
      subst e
      refine ⟨Record.sound_remove _, fun k => ⟨?_, ?_⟩⟩
      · rw [ht]
        simp only [Record.remove, Record.reset, Terminal.dropWatches, Bank.get_replicate, List.mem_filter, decide_eq_true_eq]
        simp only [Bool.false_eq_true, false_iff]
        exact fun ⟨_, ⟨_, hne⟩, hi, _⟩ => hne hi
      · rw [ht]
        exact (hbits k).2
    · next hj =>
      refine ⟨hsound, fun k => ⟨(hbits k).1.trans ?_, ?_⟩⟩
      · rw [ht]
        simp only [Terminal.dropWatches, List.mem_filter, decide_eq_true_eq, ne_eq]
        exact exists_congr fun w => ⟨fun ⟨hm, hwj, htr⟩ => ⟨⟨hm, fun e => hj (hwj ▸ e)⟩, hwj, htr⟩,
          fun ⟨⟨hm, _⟩, hwj, htr⟩ => ⟨hm, hwj, htr⟩⟩
      · rw [ht]
        exact (hbits k).2

/-! ## Page loads (R155) -/

end Preserves

theorem State.record_setInterest (s : State) (t : Fin 16) (flag : Bool) (i j : Ix) :
    (s.setInterest t flag i).record j =
      if j = i then { s.record i with interest := Bank.set (s.record i).interest t flag } else s.record j :=
  State.record_set ..

theorem Bank.set_set {α : Type} {n : Nat} (v : Vector α n) (i : Fin n) (a b : α) :
    Bank.set (Bank.set v i a) i b = Bank.set v i b :=
  Bank.ext fun j => by simp only [Bank.get_set]; split <;> rfl

/-- The interest bits of several instruments written, one after another. -/
theorem State.record_foldl_setInterest (t : Fin 16) (flag : Bool) (l : List Ix) (s : State) (j : Ix) :
    (l.foldl (fun s i => s.setInterest t flag i) s).record j =
      { s.record j with
        interest := if j ∈ l then Bank.set (s.record j).interest t flag else (s.record j).interest } := by
  induction l generalizing s with
  | nil => rfl
  | cons i l ih =>
    rw [List.foldl_cons, ih, State.record_setInterest]
    by_cases hj : j = i
    · subst hj
      by_cases hl : j ∈ l <;> simp [hl, Bank.set_set]
    · simp [hj]

theorem State.terms_foldl_setInterest (t : Fin 16) (flag : Bool) (l : List Ix) (s : State) :
    (l.foldl (fun s i => s.setInterest t flag i) s).terms = s.terms := by
  induction l generalizing s with
  | nil => rfl
  | cons i l ih => rw [List.foldl_cons, ih]; rfl

theorem State.Canonical.foldl_setInterest {s : State} (h : s.Canonical) (t : Fin 16) (flag : Bool) (l : List Ix) :
    (l.foldl (fun s i => s.setInterest t flag i) s).Canonical :=
  List.foldlRecOn _ _ (motive := State.Canonical) h fun _ hs i _ => hs.setRecord i _

theorem mem_filterMap_id {l : List (Option Ix)} {i : Ix} : i ∈ l.filterMap id ↔ some i ∈ l := by simp

/-- The interest bit of the terminal whose page changes: set for the instruments listed now, cleared for those listed before alone,
and as it was for the rest; no other bit changes (R155 steps 2 and 3). -/
theorem State.record_moveInterest (s : State) (t : Fin 16) (old new : List (Option Ix)) (j : Ix) :
    ∃ v, (s.moveInterest t old new).record j = { s.record j with interest := v } ∧
      (∀ k, k ≠ t → Bank.get v k = Bank.get (s.record j).interest k) ∧
      Bank.get v t = (decide (some j ∈ new) || (!decide (some j ∈ old) && Bank.get (s.record j).interest t)) := by
  unfold State.moveInterest
  dsimp only
  rw [State.record_foldl_setInterest, State.record_foldl_setInterest]
  simp only [mem_filterMap_id, List.mem_filter, List.contains_iff_mem, Bool.not_eq_true', ← Bool.not_eq_true]
  refine ⟨_, rfl, fun k hk => ?_, ?_⟩
  · by_cases hn : some j ∈ new <;> by_cases ho : some j ∈ old <;> simp [hn, ho, Bank.get_set_ne _ _ hk.symm]
  · by_cases hn : some j ∈ new <;> by_cases ho : some j ∈ old <;> simp [hn, ho]

theorem Terminal.showLoaded_lists (x : Terminal) (page : Word) (origin : LoadOrigin) (r : PageRecord) :
    (x.showLoaded page origin r).watches = x.watches ∧ (x.showLoaded page origin r).pageList = r.entries := by
  unfold Terminal.showLoaded
  rw [(Terminal.SameLists.endWork _).watches, (Terminal.SameLists.endWork _).pageList]
  simp

namespace Preserves

/-- A page load that completes moves the interest bits with the page list (R155). -/
theorem completeLoad (s : State) (t : Fin 16) (page : Word) (origin : LoadOrigin) (r : PageRecord) :
    Preserves s (s.completeLoad t page origin r) where
  canonical := fun h => (h.foldl_setInterest t false _).foldl_setInterest t true _
  masks := fun h j => by
    obtain ⟨hsound, hbits⟩ := h j
    have ht : (s.moveInterest t (s.term t).pageList r.entries).terms = s.terms :=
      (State.terms_foldl_setInterest ..).trans (State.terms_foldl_setInterest ..)
    have hk : ∀ k, (s.moveInterest t (s.term t).pageList r.entries).term k = s.term k := fun k =>
      congrArg (Bank.get · k) ht
    obtain ⟨v, hv, hother, hself⟩ := s.record_moveInterest t (s.term t).pageList r.entries j
    unfold State.completeLoad
    show (State.record (s.moveInterest t (s.term t).pageList r.entries) j).Sound ∧ ∀ k, _
    rw [State.modifyTerm_eq, State.withTerms_record, ← State.modifyTerm_eq, hv]
    refine ⟨hsound, fun k => ?_⟩
    rw [(changesTerm_modify _ t _).2 k]
    split
    · next e =>
      subst e
      obtain ⟨hw, hp⟩ := (s.term k).showLoaded_lists page origin r
      rw [hk, hw, hp]
      refine ⟨(hbits k).1, ?_⟩
      rw [hself, ← Bool.not_eq_false, Bool.eq_false_iff]
      by_cases ho : some j ∈ (s.term k).pageList <;> simp [(hbits k).2, ho]
    · next e =>
      rw [hk, hother k e]
      exact hbits k

theorem finishLoad (s : State) (t : Fin 16) (page : Word) (origin : LoadOrigin) (r : PageRecord) :
    Preserves s (s.finishLoad t page origin r) := by
  unfold State.finishLoad
  split
  · exact (Untouched.failLoad s t origin).preserves
  · exact completeLoad s t page origin r

theorem loadPage (s : State) (t : Fin 16) (page : Word) (origin : LoadOrigin) : Preserves s (s.loadPage t page origin) := by
  unfold State.loadPage
  split <;> rename_i e <;> have h := (Bus.KeepsForm.readAll ..).fst e
  · split
    · exact ((Untouched.withBus h).trans (.failLoad _ _ _)).preserves
    · unfold State.loadRecord
      split
      · exact (((Untouched.withBus h).trans (.runtimeFault _ _ _)).trans (.failLoad _ _ _)).preserves
      · split <;> (rename_i e; have h := Untouched.withBus (h.trans ((Bus.KeepsForm.readPage ..).fst e)))
        · exact h.preserves.trans (finishLoad _ _ _ _ _)
        · exact (h.trans (.failLoad _ _ _)).preserves
  · exact ((Untouched.withBus h).trans (.failLoad _ _ _)).preserves

/-! ## Key dispatch (R144 to R149) -/

theorem actOn (s : State) (t : Fin 16) (key : Fin 64) (action flags page attrs : Word) :
    Preserves s (s.actOn t key action flags page attrs) := by
  have h := Untouched.notifyKey s t key (actionOf action) flags
  unfold State.actOn
  dsimp only
  split
  · exact (h.trans (.showPage _ _ _ _ _)).preserves
  · exact (h.trans (.backPage _ _)).preserves
  · exact (h.preserves.trans (clearAlert _ t)).trans (Untouched.endDispatch _ _ _).preserves
  · exact (h.trans (.endDispatch _ _ _)).preserves
  · exact (h.trans (.endDispatch _ _ _)).preserves

theorem dispatchKey (s : State) (t : Fin 16) (key : Fin 64) : Preserves s (s.dispatchKey t key) := by
  unfold State.dispatchKey
  split <;> rename_i e <;> have h := (Bus.KeepsForm.read ..).fst e
  · dsimp only
    split
    · exact ((Untouched.withBus h).trans (.directKey _ _ _)).preserves
    · split
      · exact ((Untouched.withBus h).trans (.endDispatch _ _ _)).preserves
      · unfold State.actionKey
        split
        · exact (((Untouched.withBus h).trans (.runtimeFault _ _ _)).trans (.endDispatch _ _ _)).preserves
        · split <;> (rename_i e; have h := Untouched.withBus (h.trans ((Bus.KeepsForm.readAll ..).fst e)))
          · exact h.preserves.trans (actOn _ _ _ _ _ _ _)
          · exact (h.trans (.endDispatch _ _ _)).preserves
  · exact ((Untouched.withBus h).trans (.endDispatch _ _ _)).preserves

end Preserves

end Sys2Proof.Machine
end

section
/-! PROOF. The canonical forms and the soundness of records and masks through the tape renderer, the placement table, the postings
and the control commands, and so through every step. -/

namespace Sys2Proof.Machine

/-! ## The placement table (R79) -/

/-- The placement table, where it is in canonical form, stays so. -/
def Formatter.KeepsTable (x y : Formatter) : Prop := Sparse.wf none x.table = true → Sparse.wf none y.table = true

namespace Formatter.KeepsTable

variable {x y z : Formatter}

theorem trans (h : x.KeepsTable y) (g : y.KeepsTable z) : x.KeepsTable z := g ∘ h

theorem setPlacement (x : Formatter) (k : Nat) (p : Option Placement) : x.KeepsTable (x.setPlacement k p) :=
  Sparse.wf_set _ _ _ _

theorem setHighlight (x : Formatter) (k : Nat) (d : Option TickDir) : x.KeepsTable (x.setHighlight k d) := by
  unfold Formatter.setHighlight
  split
  · exact setPlacement _ _ _
  · exact id

theorem startHighlight (x : Formatter) (d : TickDir) (expiry k : Nat) : x.KeepsTable (x.startHighlight d expiry k) :=
  setHighlight (x.dropTimer k) k (some d)

theorem endHighlight (x : Formatter) (k : Nat) : x.KeepsTable (x.endHighlight k) := setHighlight (x.dropTimer k) k none

theorem foldl {α : Type} {f : Formatter → α → Formatter} (h : ∀ (x : Formatter) a, x.KeepsTable (f x a)) (l : List α)
    (x : Formatter) : x.KeepsTable (l.foldl f x) := by
  induction l generalizing x with
  | nil => exact id
  | cons a l ih => exact (h x a).trans (ih _)

/-- A change of the values of a table that makes none absent keeps its keys. -/
theorem wf_map {f : Nat × Option Placement → Option Placement} (hf : ∀ e, e.2 ≠ none → f e ≠ none)
    {m : List (Nat × Option Placement)} (h : Sparse.wf none m = true) : Sparse.wf none (m.map fun e => (e.1, f e)) = true := by
  induction m with
  | nil => rfl
  | cons e r ih =>
    obtain ⟨hne, hlt, hr⟩ := (Sparse.wf_cons none e.1 e.2 r).1 h
    refine (Sparse.wf_cons none _ _ _).2 ⟨hf e hne, ?_, ih hr⟩
    intro a ha
    obtain ⟨b, hb, rfl⟩ := List.mem_map.1 ha
    exact hlt b hb

theorem linkPast (x : Formatter) (k : Nat) (next : Option Nat) : x.KeepsTable (x.linkPast k next) :=
  wf_map fun e he => by
    obtain ⟨_, _ | q⟩ := e
    · exact absurd rfl he
    · exact Option.some_ne_none _

end Formatter.KeepsTable

namespace Preserves

theorem withFmt {s : State} {x : Formatter} (h : s.fmt.KeepsTable x) : Preserves s (s.withFmt x) where
  canonical := fun ⟨hmem, hstore, htable⟩ => ⟨hmem, hstore, h htable⟩
  masks := id

/-! ## Highlights (R89 to R91) -/

theorem highlightChange (s : State) (e : ChangeEvent) : Preserves s (s.highlightChange e) := by
  unfold State.highlightChange
  split
  · exact withFmt (.foldl (fun _ _ => .startHighlight _ _ _ _) _ _)
  · split
    · exact withFmt (.foldl (fun _ _ => .endHighlight _ _) _ _)
    · exact refl s

theorem formatChange (s : State) : Preserves s s.formatChange := by
  unfold State.formatChange
  split
  · exact refl s
  · exact ((Untouched.withChanges s _).preserves.trans (highlightChange _ _)).trans
      (Untouched.renderEntries _ _).preserves

theorem expireHighlights (s : State) : Preserves s s.expireHighlights :=
  (withFmt (.foldl (fun _ _ => .endHighlight _ _) _ _)).trans (Untouched.renderEntries _ _).preserves

/-! ## REMAP (R79, R80, R92) -/

theorem unlink (s : State) (k : Nat) (p : Placement) : Preserves s (s.unlink k p) := by
  unfold State.unlink
  dsimp only
  split
  · exact setRecord s _ (fun h => h) rfl rfl
  · exact withFmt (.linkPast _ _ _)

theorem removePlacement (s : State) (k : Nat) : Preserves s (s.removePlacement k) := by
  unfold State.removePlacement
  split
  · exact (unlink s k _).trans (withFmt (.setPlacement (Formatter.dropTimer _ k) k none))
  · exact refl s

theorem beginLine (s : State) (job : RemapJob) : Preserves s (s.beginLine job) :=
  (foldl removePlacement _ s).trans
    ((Untouched.withRemap _ _).trans (.modifyLine _ _ _)).preserves

theorem build (s : State) (k : Nat) (p : Placement) : Preserves s (s.build k p) :=
  (setRecord s p.instr (r := { s.record p.instr with chainHead := some k }) (fun h => h) rfl rfl).trans
    (withFmt (.setPlacement s.fmt k _))

theorem buildSlots (line : Fin 4) (m : Fin 32) (w : Width) (xs kept : List Slot) (s : State) (t : Tally) :
    Preserves s (State.buildSlots line m w xs kept (s, t)).1 := by
  induction xs generalizing kept s t with
  | nil => exact refl s
  | cons x xs ih =>
    unfold State.buildSlots
    split
    · exact ih _ _ _
    · dsimp only
      split <;> rename_i e <;> have h := (Untouched.withBus ((Bus.KeepsForm.readAll ..).fst e)).preserves
      · split
        · exact (h.trans (build _ _ _)).trans (ih _ _ _)
        · exact h.trans (ih _ _ _)
      · exact h.trans (ih _ _ _)

theorem buildModule (s : State) (line : Fin 4) (m : Fin 32) (t : Tally) (r : MapRead) :
    Preserves s (s.buildModule line m t r).1 := by
  cases r with
  | absent => exact refl s
  | illegalWidth => exact refl s
  | module r =>
    have h := buildSlots line m r.width r.slots [] s t
    unfold State.buildModule
    dsimp only
    split <;> exact h

theorem buildModules (line : Fin 4) (rs : List (Fin 32 × MapRead)) (s : State) (t : Tally) :
    Preserves s (State.buildModules line rs s t).1 := by
  induction rs generalizing s t with
  | nil => exact refl s
  | cons r rs ih => exact (buildModule s line r.1 t r.2).trans (ih _ _)

theorem mapModules (s : State) (line : Fin 4) : Preserves s (s.mapModules line).1 := by
  unfold State.mapModules
  split
  next e => exact (Untouched.withBus ((Bus.KeepsForm.readMaps ..).fst e)).preserves.trans (buildModules _ _ _ _)

theorem finishLine (s : State) (job : RemapJob) : Preserves s (s.finishLine job) := by
  have h := mapModules s job.line
  unfold State.finishLine
  split
  next e =>
    rw [e] at h
    exact h.trans ((Untouched.repaintLine _ _ _).trans (.reportTally _ _ _)).preserves

theorem nextLine (s : State) (job : RemapJob) : Preserves s (s.nextLine job) := by
  unfold State.nextLine
  split
  · exact beginLine s _
  · exact (Untouched.withRemap s _).preserves

theorem remapFinished (s : State) : Preserves s s.remapFinished := by
  unfold State.remapFinished
  split
  · exact refl s
  · next job _ =>
    have h := (finishLine s job).trans (nextLine _ job)
    dsimp only
    split
    · exact h.trans (Untouched.writeTaken _).preserves
    · exact h

/-! ## The renderer of a tape (R126, R130) -/

theorem showEntry (s : State) (id : TapeId) (e : Entry) : Preserves s (s.showEntry id e) := by
  cases e with
  | trade i m _ op oos merged => exact (Untouched.modifyTape s id _).preserves.trans (writeRef _ _ _ _ _)
  | cancel i m price =>
    cases price with
    | none => exact (Untouched.modifyTape s id _).preserves
    | some p => exact (Untouched.modifyTape s id _).preserves.trans (writeRef _ _ _ _ _)
  | haltNote i => exact (Untouched.modifyTape s id _).preserves
  | resumeNote i => exact (Untouched.modifyTape s id _).preserves
  | text cs urgent => exact (Untouched.modifyTape s id _).preserves

theorem takeEntry (s : State) (id : TapeId) (e : Entry) (rest : List Entry) : Preserves s (s.takeEntry id e rest) :=
  ((Untouched.modifyTape s id _).trans (.handAll _ _)).preserves.trans (showEntry _ _ _)

theorem render (s : State) (id : TapeId) : Preserves s (s.render id) := by
  unfold State.render
  split
  · split
    · unfold State.renderHead
      dsimp only
      split
      · split
        · exact (Untouched.modifyTape s id _).preserves
        · exact takeEntry s id _ _
      · exact takeEntry s id _ _
    · exact refl s
  · exact refl s

end Preserves

/-- The watches on the instrument are dropped, and its record removed (R38). -/
theorem Preserves.applyRemove (s : State) (i : Ix) : Preserves s (s.applyRemove i) := by
  unfold State.applyRemove State.updateRecord
  dsimp only
  rw [State.withTerms_record]
  exact ((finishChecks s).trans (removed _ i)).trans (Untouched.handChange _ _ _ _).preserves

theorem Record.redefine_masks (r : Record) (f : DefineFields) :
    (r.redefine f).watchMask = r.watchMask ∧ (r.redefine f).interest = r.interest := ⟨rfl, rfl⟩

theorem Preserves.applyDefine (s : State) (i : Ix) {f : DefineFields} (hne : f.symbol ≠ []) (hlen : f.symbol.length ≤ 5)
    (hchars : f.symbol.all symbolChar = true) : Preserves s (s.applyDefine i f) := by
  obtain ⟨hw, hi⟩ := (s.finishChecks.record i).redefine_masks f
  exact (finishChecks s).trans
    (updateRecord _ i ChangedField.all none (fun _ => Record.sound_redefine _ hne hlen hchars) hw hi)

/-! ## Postings (chapter 03) -/

/-- A verdict on a posting reached from a state keeps what `Preserves` says, and host memory in canonical form. -/
def Verdict.Keeps (s : State) : Verdict → Prop
  | .refuse _ => True
  | .refuseOn b _ => s.bus.KeepsForm b
  | .apply u => Preserves s u
  | .remap u => Preserves s u
  | .unread b => s.bus.KeepsForm b

namespace Verdict.Keeps

theorem withInstrument {s : State} {body : Body} {k : Nat} {f : Ix → Verdict} (h : ∀ i, (f i).Keeps s) :
    (withInstrument body k f).Keeps s := by
  unfold Machine.withInstrument
  split
  · exact h _
  · trivial

theorem whenDefined {s : State} {i : Ix} {v : Verdict} (h : (s.record i).state ≠ .undefined → v.Keeps s) :
    (whenDefined s i v).Keeps s := by
  unfold Machine.whenDefined
  split
  · trivial
  · next hd => exact h hd

theorem trade (seq : Word) (body : Body) (s : State) : (judgeTrade seq body s).Keeps s := by
  refine withInstrument fun i => ?_
  split
  · trivial
  · next f _ =>
    refine whenDefined fun _ => ?_
    split
    · trivial
    · split
      · have h1 : ∀ mark, Preserves s (s.updateRecord i ((s.record i).trade f s.session.tod) (tradeChanged (s.record i) f) mark) :=
          fun mark => .updateRecord s i _ mark (fun h => h.trade f _) rfl rfl
        have h2 : ∀ u : State, Untouched u
            (if f.oddLot then u else u.handAssigned (s.record i).tape (printOf i (s.record i).mode f (f.time.or s.session.tod))) :=
          fun u => by
            split
            · exact .refl u
            · exact .handAssigned _ _ _
        have h3 : ∀ u : State, Untouched u (if f.outOfSeq then u else u.handWatchCheck i f.price) := fun u => by
          split
          · exact .refl u
          · exact .handWatchCheck _ _ _
        exact (h1 _).trans ((h2 _).trans (h3 _)).preserves
      · trivial

theorem quote (seq : Word) (body : Body) (s : State) : (judgeQuote seq body s).Keeps s :=
  withInstrument fun i => whenDefined fun _ => .updateRecord s i _ _ (fun h => h) rfl rfl

theorem cancel (seq : Word) (body : Body) (s : State) : (judgeCancel seq body s).Keeps s := by
  refine withInstrument fun i => whenDefined fun _ => ?_
  obtain ⟨hw, hi⟩ := (s.record i).cancel_masks (body.at 5)
  have h : Preserves s (if ((s.record i).cancel (body.at 5)).2.1 = [] then s
      else s.updateRecord i ((s.record i).cancel (body.at 5)).1 ((s.record i).cancel (body.at 5)).2.1 none) := by
    split
    · exact .refl s
    · exact .updateRecord s i _ _ (fun h => h.cancel _) hw hi
  exact h.trans (Untouched.handAssigned _ _ _).preserves

theorem summary (seq : Word) (body : Body) (s : State) : (judgeSummary seq body s).Keeps s := by
  refine withInstrument fun i => whenDefined fun _ => ?_
  split
  · next hr =>
    show Preserves s (s.applySummary i (summaryFields body))
    unfold State.applySummary
    split
    · exact .refl s
    · exact .updateRecord s i _ _ (fun h => h.summary hr) rfl rfl
  · trivial

theorem halt (seq : Word) (body : Body) (s : State) : (judgeHalt seq body s).Keeps s := by
  refine withInstrument fun i => ?_
  split
  · trivial
  · next reason _ =>
    refine whenDefined fun hd => ?_
    have h : ∀ fields, Preserves s (s.updateRecord i ((s.record i).halt reason) fields none) := fun fields =>
      .updateRecord s i fields none (fun h => h.halt hd reason) rfl rfl
    show Preserves s (s.applyHalt i reason)
    unfold State.applyHalt
    dsimp only
    split
    · exact h _
    · exact (h _).trans (Untouched.handAssigned _ _ _).preserves

theorem resume (seq : Word) (body : Body) (s : State) : (judgeResume seq body s).Keeps s := by
  refine withInstrument fun i => whenDefined fun hd => ?_
  show Preserves s (s.applyResume i)
  unfold State.applyResume
  dsimp only
  split
  · exact (Preserves.updateRecord s i _ none (fun h => h.resume hd) rfl rfl).trans (Untouched.handAssigned _ _ _).preserves
  · exact .refl s

theorem define (seq : Word) (body : Body) (s : State) : (judgeDefine seq body s).Keeps s := by
  refine withInstrument fun i => ?_
  split
  · exact Preserves.applyRemove s i
  · next hn =>
    split
    · next f hf =>
      obtain ⟨hne, hlen, hchars⟩ := defineFields_symbol hf hn
      exact Preserves.applyDefine s i hne hlen hchars
    · trivial

theorem session (seq : Word) (body : Body) (s : State) : (judgeSession seq body s).Keeps s := by
  unfold judgeSession
  split
  · trivial
  · trivial
  · exact ((Untouched.setTime s _).trans (.changeSession _ _)).preserves

theorem tapeText (seq : Word) (body : Body) (s : State) : (judgeTapeText seq body s).Keeps s := by
  unfold judgeTapeText
  split
  · split
    · trivial
    · exact (Untouched.foldl (fun _ _ => .handTape _ _ _) _ s).preserves
  · trivial

/-- A subcommand, after the watch checks of each context it names (R56, log 17). -/
theorem command {f : State → Fin 16 → State} (hf : ∀ s t, Preserves s (f s t)) (s : State) (ts : List (Fin 16)) :
    Preserves s (s.command ts f) := .foldl (fun s t => (Preserves.takeChecks s t).trans (hf _ t)) ts s

/-- A subcommand that changes other fields of the contexts it names. -/
theorem commandTerm {f : Terminal → Terminal} (hf : ∀ x, Terminal.SameLists x (f x)) (s : State) (ts : List (Fin 16)) :
    Preserves s (s.command ts fun s t => s.modifyTerm t f) :=
  command (fun s t => (Untouched.modifyTerm s t (hf _)).preserves) s ts

theorem judgeCommand {f : State → Fin 16 → State} (hf : ∀ s t, Preserves s (f s t)) (seq : Word) (body : Body) (s : State) :
    (judgeCommand f seq body s).Keeps s := by
  unfold Machine.judgeCommand
  split
  · exact command hf s _
  · trivial

theorem text (seq : Word) (body : Body) (s : State) : (judgeText seq body s).Keeps s := by
  unfold judgeText
  split
  · dsimp only
    split
    · trivial
    · exact commandTerm (fun x => .setText _ _ x) s _
  · trivial

theorem setPage (seq : Word) (body : Body) (s : State) : (judgeSetPage seq body s).Keeps s := by
  unfold judgeSetPage
  split
  · trivial
  · split <;> rename_i e <;> have h := (Bus.KeepsForm.read ..).fst e
    · split
      · exact h
      · exact (Untouched.withBus h).preserves.trans (commandTerm (fun x => .askPage _ x) _ _)
    · exact h

theorem setWatch (seq : Word) (body : Body) (s : State) : (judgeSetWatch seq body s).Keeps s := by
  unfold judgeSetWatch
  split
  · refine withInstrument fun i => ?_
    unfold judgeWatch
    split
    · refine whenDefined fun _ => ?_
      split
      · exact command (fun _ _ => .addWatch _ _ _ _ _) s _
      · trivial
    · trivial
  · trivial

theorem remap (seq : Word) (body : Body) (s : State) : (judgeRemap seq body s).Keeps s := by
  unfold judgeRemap
  split
  · exact .beginLine s _
  · trivial

theorem snapshot (seq : Word) (body : Body) (s : State) : (judgeSnapshot seq body s).Keeps s :=
  withInstrument fun _ => (Untouched.handParts s _).preserves

theorem mark (seq : Word) (body : Body) (s : State) : (judgeMark seq body s).Keeps s := by
  show Preserves s (if _ then _ else _)
  split
  · exact (Untouched.hand s _).preserves
  · exact .refl s

end Verdict.Keeps

namespace Preserves

theorem judgePosting {judge : Judge} (hj : ∀ seq body s, (judge seq body s).Keeps s) (s : State) (seq kind : Word)
    (body : Body) : Preserves s (s.judgePosting judge seq kind body) := by
  unfold State.judgePosting
  split
  · exact (((Untouched.holdSequence s seq).trans (.refusePosting _ _ _ _)).trans (.writeTaken _)).preserves
  · have ht : Untouched s ((s.holdSequence seq).noteSequence seq) :=
      (Untouched.holdSequence s seq).trans (.noteSequence _ _)
    have h := hj seq body ((s.holdSequence seq).noteSequence seq)
    dsimp only
    split <;> rename_i e <;> rw [e] at h
    · exact ((ht.trans (.refusePosting _ _ _ _)).trans (.writeTaken _)).preserves
    · exact (((ht.trans (.withBus h)).trans (.refusePosting _ _ _ _)).trans (.writeTaken _)).preserves
    · exact (ht.preserves.trans h).trans (Untouched.writeTaken _).preserves
    · exact (ht.preserves.trans h).trans (Untouched.setIntake _ .applying).preserves
    · exact ((Untouched.withBus (ht.mem.trans h)).trans (.leavePosting _)).preserves

/-- A posting step, whichever way it ends (R41). -/
theorem posting {row : Row} {judge : Judge} (hj : ∀ seq body s, (judge seq body s).Keeps s) (h : List HostWrite)
    (s : State) : Preserves s ((s.hostWrites h).takePosting row judge) := by
  refine (Untouched.hostWrites h s).preserves.trans ?_
  generalize s.hostWrites h = s
  unfold State.takePosting
  split
  · exact refl s
  · split
    · next j hn =>
      have hj' : ∀ seq body s, (j seq body s).Keeps s := by
        unfold judgeAs at hn
        split at hn
        · cases hn; exact fun _ _ _ => trivial
        · cases hn; exact fun _ _ _ => trivial
        · split at hn
          · cases hn; exact hj
          · cases hn
      unfold State.finishPosting
      split <;> rename_i e <;> have hb := Untouched.withBus ((Bus.KeepsForm.readPosting ..).fst e)
      · exact (hb.trans (.leavePosting _)).preserves
      · exact (((hb.trans (.holdSequence _ _)).trans (.refusePosting _ _ _ _)).trans (.writeTaken _)).preserves
      · exact hb.preserves.trans (judgePosting hj' _ _ _ _)
    · exact refl s

end Preserves

end Sys2Proof.Machine
end

section
/-! PROOF. Every command, and so every step, keeps the canonical forms and the soundness of records and masks. -/

namespace Sys2Proof.Machine

/-! ## START (R34, R134, R163, R168) -/

/-- The store that START builds anew is in canonical form, whatever it was (R34). -/
theorem wf_clearRefs (store : List (Nat × Record)) : Sparse.wf Record.reset (clearRefs store) = true :=
  List.foldlRecOn _ _ (motive := fun m => Sparse.wf Record.reset m = true) rfl fun _ hm _ _ => Sparse.wf_set _ _ _ _ hm

theorem State.Canonical.loadAnchor {s : State} (h : s.Canonical) (ws : List Word) : (s.loadAnchor ws).Canonical := by
  obtain ⟨hmem, -, htable⟩ := h
  exact ⟨hmem, wf_clearRefs _, htable⟩

/-- With nothing stored and every context as a reset leaves it, there is no mask bit and no watch. -/
theorem State.masksSound_of_fresh {s : State} (hs : s.store = []) (ht : ∀ k, Terminal.reset.SameLists (s.term k)) :
    s.MasksSound := by
  intro i
  have hr : s.record i = Record.reset := by unfold State.record; rw [hs]; rfl
  rw [hr]
  refine ⟨Record.sound_reset, fun k => ?_⟩
  rw [(ht k).watches, (ht k).pageList]
  simp [Record.reset, Terminal.reset]

theorem State.masksSound_loadAnchor {s : State} (hs : s.store = []) (ws : List Word) : (s.loadAnchor ws).MasksSound :=
  State.masksSound_of_fresh (by simp [State.loadAnchor, hs, clearRefs]) fun k => by
    show Terminal.reset.SameLists (Bank.get (Vector.replicate 16 Terminal.atStart) k)
    rw [Bank.get_replicate]
    exact ⟨rfl, rfl⟩

/-- START keeps the canonical forms, and the masks sound from a store that holds nothing (R63). -/
theorem State.start_keeps (s : State) :
    (s.Canonical → s.start.Canonical) ∧ (s.store = [] → s.MasksSound → s.start.MasksSound) := by
  have hv := Bus.KeepsForm.validate { s.bus.acceptCommand with phase := .checking }
  unfold State.start
  split <;> rename_i e <;> have hb := hv.fst e
  · next b ws =>
    have hi : Untouched s ((s.withBus b).withBus (b.writeInitial (paramsOf ws))) :=
      .withBus ((⟨hb.wf⟩ : s.bus.KeepsForm b).trans (.writeInitial _ _))
    refine ⟨fun h => ?_, fun h _ => ?_⟩
    · exact (Preserves.beginLine _ _).canonical ((hi.preserves.canonical h).loadAnchor ws)
    · exact (Preserves.beginLine _ _).masks (State.masksSound_loadAnchor (hi.store.trans h) ws)
  · have h : Untouched s (State.startFailed (s.withBus _)) :=
      (Untouched.withBus (⟨hb.wf⟩ : s.bus.KeepsForm _)).elsewhere ⟨rfl, rfl, rfl, rfl⟩
    exact ⟨h.preserves.canonical, fun _ => h.preserves.masks⟩

/-! ## Every command -/

/-- A result, where it is a next state, satisfies a predicate. -/
def Ensures (p : State → Prop) : Result → Prop
  | .next t => p t
  | _ => True

theorem Ensures.next {p : State → Prop} {r : Result} {t : State} (h : Ensures p r) (e : r = .next t) : p t := by
  rw [e] at h; exact h

theorem Untouched.ite {s u v : State} {c : Prop} [Decidable c] (hu : Untouched s u) (hv : Untouched s v) :
    Untouched s (if c then u else v) := by
  split
  · exact hu
  · exact hv

namespace Preserves

theorem ite {s u v : State} {c : Prop} [Decidable c] (hu : Preserves s u) (hv : Preserves s v) :
    Preserves s (if c then u else v) := by
  split
  · exact hu
  · exact hv

theorem resetWith (s : State) {b : Bus} (h : b.mem = s.bus.mem) : Preserves s (s.resetWith b) where
  canonical := fun ⟨hmem, _, _⟩ => ⟨by show Memory.wf b.mem = true; rw [h]; exact hmem, rfl, rfl⟩
  masks := fun _ => State.masksSound_of_fresh rfl fun k => by
    show Terminal.reset.SameLists (Bank.get (Vector.replicate 16 Terminal.reset) k)
    rw [Bank.get_replicate]
    exact .refl _

theorem ensures_unknownCommand (w : Word) (s : State) : Ensures (Preserves s) (execUnknownCommand w s) := by
  unfold execUnknownCommand
  split
  · exact (Untouched.refuse s).preserves
  · trivial

theorem ensures_setBase (w : Word) (s : State) : Ensures (Preserves s) (execSetBase w s) := by
  unfold execSetBase
  split
  · exact (Untouched.same ⟨rfl, rfl, rfl, rfl⟩ : Untouched s (s.withBus (s.bus.setVectorBase w))).preserves
  · trivial

theorem ensures_acknowledgeGroup (w : Word) (s : State) : Ensures (Preserves s) (execAcknowledgeGroup w s) := by
  unfold execAcknowledgeGroup
  split
  · trivial
  · split
    · exact (Untouched.same ⟨rfl, rfl, rfl, rfl⟩ : Untouched s (s.withBus (s.bus.acknowledge _))).preserves
    · exact (Untouched.setError s _).preserves

theorem ensures_interruptAcknowledge (level : Fin 8) (s : State) :
    Ensures (Preserves s) (execInterruptAcknowledge level s) := by
  have h : s.bus.KeepsForm (s.bus.answer level) := by
    unfold Bus.answer
    split <;> exact .of_mem rfl
  unfold execInterruptAcknowledge
  split
  · trivial
  · exact (Untouched.withBus h).preserves

theorem areaBase (w : Word) (s : State) :
    Preserves s (s.withBus (if s.bus.area.isSome then s.bus.setError .commandRefused else s.bus.setArea w)) := by
  split
  · exact (Untouched.setError s _).preserves
  · exact (Untouched.same ⟨rfl, rfl, rfl, rfl⟩ : Untouched s (s.withBus (s.bus.setArea w))).preserves

theorem feedPollTick (noticeFirst : Bool) (s : State) : Untouched s
    (if s.tickDue then
      if noticeFirst then s.armTick.noticeRetry.pollIntake else s.armTick.pollIntake.noticeRetry
    else s) := by
  have h : Untouched s s.armTick := .same ⟨rfl, rfl, rfl, rfl⟩
  exact .ite (.ite ((h.trans (.noticeRetry _)).trans (.pollIntake _)) ((h.trans (.pollIntake _)).trans (.noticeRetry _)))
    (.refl s)

theorem ensures_chooseNextFrame (n : Fin 4) (s : State) : Ensures (Preserves s) (execChooseNextFrame n s) := by
  show Preserves s (match s.nextFrame n with | some k => s.modifyLine n fun l => l.begin k | none => s)
  split
  · exact (Untouched.modifyLine s _ _).preserves
  · exact refl s

theorem ensures_accept (n : Fin 4) (address check : Byte) (s : State) :
    Ensures (Preserves s) (execAccept n address check s) := by
  unfold execAccept Ensures
  dsimp only
  split
  · exact (Untouched.modifyLine s _ _).preserves
  · exact refl s

theorem ensures_reject (n : Fin 4) (address check : Byte) (s : State) :
    Ensures (Preserves s) (execReject n address check s) := by
  unfold execReject Ensures
  dsimp only
  split
  · exact (Untouched.writeFailed s _ _ _).preserves
  · exact refl s

theorem ensures_statusReply (n : Fin 4) (address width check : Byte) (s : State) :
    Ensures (Preserves s) (execStatusReply n address width check s) := by
  unfold execStatusReply Ensures
  dsimp only
  split
  · next m _ =>
    have h : Untouched s (s.modifyLine n fun l => l.answered m) := .same ⟨rfl, rfl, rfl, rfl⟩
    exact (Untouched.ite (h.trans (.reportModule _ _ _)) h).preserves
  · exact refl s

theorem ensures_replyWindow (n : Fin 4) (s : State) : Ensures (Preserves s) (execReplyWindow n s) := by
  unfold execReplyWindow Ensures
  dsimp only
  split
  · exact (Untouched.writeFailed s _ _ _).preserves
  · exact (Untouched.modifyLine s _ _).preserves
  · exact refl s

theorem ensures_visit (l : Fin 2) (s : State) : Ensures (Preserves s) (execVisit l s) := by
  unfold execVisit Ensures
  dsimp only
  split
  · exact (Untouched.beginVisit s _ _).preserves
  · exact refl s

theorem ensures_key (l : Fin 2) (address keyByte check : Byte) (s : State) :
    Ensures (Preserves s) (execKey l address keyByte check s) := by
  unfold execKey Ensures
  dsimp only
  split
  · exact ((Untouched.pollOutcome s _ _ fun x => .keyTaken x _).trans (.reportReturn _ _ _ _)).preserves
  · exact refl s

theorem ensures_idle (l : Fin 2) (address check : Byte) (s : State) :
    Ensures (Preserves s) (execIdle l address check s) := by
  unfold execIdle Ensures
  dsimp only
  split
  · exact ((Untouched.pollOutcome s _ _ fun x => .idleTaken x _ _).trans (.reportReturn _ _ _ _)).preserves
  · exact refl s

theorem ensures_pollReplyWindow (l : Fin 2) (s : State) : Ensures (Preserves s) (execPollReplyWindow l s) := by
  unfold execPollReplyWindow Ensures
  dsimp only
  split
  · exact ((Untouched.pollOutcome s _ _ fun x => .noReply x _ _).trans (.reportOffline _ _ _)).preserves
  · exact refl s

theorem ensures_pageLoadComplete (t : Fin 16) (h : List HostWrite) (s : State) :
    Ensures (Preserves s) (execPageLoadComplete t h s) := by
  have h0 := (Untouched.hostWrites h s).preserves
  unfold execPageLoadComplete Ensures
  dsimp only
  split
  · exact h0.trans (loadPage _ _ _ _)
  · exact h0

theorem ensures_keyEntryRead (t : Fin 16) (h : List HostWrite) (s : State) :
    Ensures (Preserves s) (execKeyEntryRead t h s) := by
  have h0 := (Untouched.hostWrites h s).preserves
  unfold execKeyEntryRead Ensures
  dsimp only
  split
  · exact h0.trans (dispatchKey _ _ _)
  · exact h0

/-- Every command but START keeps the canonical forms and the soundness of records and masks. -/
theorem ensures_exec {c : Instr} (hc : ∀ h, c ≠ .start h) (s : State) : Ensures (Preserves s) (exec c s) := by
  have hw := fun h => (Untouched.hostWrites h s).preserves
  cases c with
  | start h => exact absurd rfl (hc h)
  | powerOnReset => exact resetWith s rfl
  | pinReset => exact resetWith s rfl
  | softReset => exact ite (resetWith s rfl) (Untouched.refuse s).preserves
  | areaBase w => exact areaBase w s
  | nudge h => exact (Untouched.nudge h s).preserves
  | quiesce => exact (Untouched.ite (.quiesce s) (.refuse s)).preserves
  | resume h => exact (hw h).trans (Untouched.ite (.resume _) (.refuse _)).preserves
  | restartIntake h => exact (hw h).trans (Untouched.ite (.restart _) (.refuse _)).preserves
  | unknownCommand w => exact ensures_unknownCommand w s
  | errorFlagClear w => exact (Untouched.same ⟨rfl, rfl, rfl, rfl⟩ : Untouched s (s.withBus (s.bus.clearErrors w))).preserves
  | setBase w => exact ensures_setBase w s
  | acknowledgeGroup w => exact ensures_acknowledgeGroup w s
  | interruptAcknowledge level => exact ensures_interruptAcknowledge level s
  | busTimeout attempts =>
    exact (Untouched.same ⟨rfl, rfl, rfl, rfl⟩ :
      Untouched s (s.withBus { s.bus with script := s.bus.script ++ attempts })).preserves
  | feedPollTick h first => exact (hw h).trans (feedPollTick first _).preserves
  | trade h => exact posting Verdict.Keeps.trade h s
  | quote h => exact posting Verdict.Keeps.quote h s
  | cancel h => exact posting Verdict.Keeps.cancel h s
  | summary h => exact posting Verdict.Keeps.summary h s
  | halt h => exact posting Verdict.Keeps.halt h s
  | resumePosting h => exact posting Verdict.Keeps.resume h s
  | define h => exact posting Verdict.Keeps.define h s
  | session h => exact posting Verdict.Keeps.session h s
  | tapeText h => exact posting Verdict.Keeps.tapeText h s
  | text h => exact posting Verdict.Keeps.text h s
  | setPage h => exact posting Verdict.Keeps.setPage h s
  | lock h => exact posting (Verdict.Keeps.judgeCommand fun s t => (Untouched.modifyTerm s t (.setLock true _)).preserves) h s
  | unlock h => exact posting (Verdict.Keeps.judgeCommand fun s t => (Untouched.modifyTerm s t (.setLock false _)).preserves) h s
  | clearStack h => exact posting (Verdict.Keeps.judgeCommand fun s t => (Untouched.modifyTerm s t ⟨rfl, rfl⟩).preserves) h s
  | setWatch h => exact posting Verdict.Keeps.setWatch h s
  | clearWatches h => exact posting (Verdict.Keeps.judgeCommand clearWatches) h s
  | remap h => exact posting Verdict.Keeps.remap h s
  | remapLineFinished h => exact (hw h).trans (ite (remapFinished _) (refl _))
  | snapshot h => exact posting Verdict.Keeps.snapshot h s
  | mark h => exact posting Verdict.Keeps.mark h s
  | timeOfDayAdvance => exact (Untouched.ite (.advanceTime s) (.refl s)).preserves
  | nightTimer => exact (Untouched.ite (.setNight s) (.refl s)).preserves
  | feedQuiet => exact (Untouched.ite (.becomeQuiet s) (.refl s)).preserves
  | feedLost => exact (Untouched.ite (.becomeLost s) (.refl s)).preserves
  | changeEvent h => exact (hw h).trans (formatChange _)
  | sessionEvent h => exact (hw h).trans (Untouched.formatSession _).preserves
  | feedStageEvent => exact (Untouched.formatStage s).preserves
  | highlightExpiry h => exact (hw h).trans (ite (expireHighlights _) (refl _))
  | nightSet n => exact (Untouched.modifyLine s _ _).preserves
  | nightClear n => exact (Untouched.modifyLine s _ _).preserves
  | chooseNextFrame n => exact ensures_chooseNextFrame n s
  | boardFrameSent n => exact (Untouched.modifyLine s _ _).preserves
  | accept n address check => exact ensures_accept n address check s
  | reject n address check => exact ensures_reject n address check s
  | statusReply n address width check => exact ensures_statusReply n address width check s
  | replyWindow n => exact ensures_replyWindow n s
  | pollTimer n m => exact (Untouched.ite (.modifyLine s _ _) (.refl s)).preserves
  | printArrival id => exact (Untouched.takePrint s id).preserves
  | cancelArrival id => exact (Untouched.takeCancel s id).preserves
  | noteArrival id => exact (Untouched.takeNote s id).preserves
  | textArrival id supplier => exact (Untouched.takeText s id supplier).preserves
  | renderEntry id => exact render s id
  | ribbonCharacter id => exact (Untouched.ite (.modifyTape s _ _) (.refl s)).preserves
  | terminalChangeEvent t => exact (Untouched.modifyTerm s t (.takeChange _)).preserves
  | terminalSessionEvent t => exact (Untouched.modifyTerm s t (.takeSession _)).preserves
  | terminalFeedStageEvent t => exact (Untouched.modifyTerm s t (.takeStage _)).preserves
  | timeEvent t => exact (Untouched.modifyTerm s t (.takeTime _)).preserves
  | terminalNightSet t => exact (Untouched.modifyTerm s t (.takeNightSet _)).preserves
  | terminalNightClear t => exact (Untouched.modifyTerm s t (.takeNightClear _)).preserves
  | watchCheck t => exact takeCheck s t
  | visit l => exact ensures_visit l s
  | terminalFrameSent l => exact (Untouched.termFrameSent s l).preserves
  | key l address keyByte check => exact ensures_key l address keyByte check s
  | idle l address check => exact ensures_idle l address check s
  | pollReplyWindow l => exact ensures_pollReplyWindow l s
  | terminalPollTimer t => exact (Untouched.ite (.modifyTerm s t ⟨rfl, rfl⟩) (.refl s)).preserves
  | pageLoadComplete t h => exact ensures_pageLoadComplete t h s
  | startDone h =>
    exact (hw h).trans (Untouched.ite ((Untouched.writeStartDone _).trans (.completeStart _)) (.refl _)).preserves
  | notice h => exact (hw h).trans (Untouched.ite (.takeNotice _) (.refl _)).preserves
  | keyEntryRead t h => exact ensures_keyEntryRead t h s

end Preserves

/-- The host's stores change host memory alone. -/
theorem Bus.hostWrites_phase (b : Bus) (h : List HostWrite) : (b.hostWrites h).phase = b.phase := by
  unfold Bus.hostWrites
  split
  · exact List.foldlRecOn h (fun b x => b.poke x.offset x.value) (motive := fun c : Bus => c.phase = b.phase) rfl
      fun _ hb _ _ => hb
  · rfl

/-- START from READY, and its refusal elsewhere (R177). -/
theorem execStart_keeps (h : List HostWrite) (s : State) :
    Ensures (fun t => (s.Canonical → t.Canonical) ∧ (s.IdleBeforeStart → s.MasksSound → t.MasksSound)) (execStart h s) := by
  have hw := Untouched.hostWrites h s
  unfold execStart Ensures
  dsimp only
  split
  · next hp =>
    obtain ⟨hcanonical, hmasks⟩ := (s.hostWrites h).start_keeps
    refine ⟨hcanonical ∘ hw.preserves.canonical, fun hidle hm => hmasks ?_ (hw.preserves.masks hm)⟩
    have hready : s.bus.phase = .ready := (s.bus.hostWrites_phase h).symm.trans hp
    obtain ⟨-, -, hreset⟩ := hidle
    obtain ⟨-, hstore, -⟩ := hreset (.inr hready)
    exact hw.store.trans hstore
  · have hr := hw.trans (.refuse _)
    exact ⟨hr.preserves.canonical, fun _ => hr.preserves.masks⟩

theorem exec_keeps (c : Instr) (s : State) :
    Ensures (fun t => (s.Canonical → t.Canonical) ∧ (s.IdleBeforeStart → s.MasksSound → t.MasksSound)) (exec c s) := by
  by_cases hc : ∃ h, c = .start h
  · obtain ⟨h, rfl⟩ := hc
    exact execStart_keeps h s
  · have h := Preserves.ensures_exec (fun h e => hc ⟨h, e⟩) s
    revert h
    cases exec c s with
    | next t => exact fun h => ⟨h.canonical, fun _ => h.masks⟩
    | fault r => exact fun _ => trivial
    | refused r => exact fun _ => trivial

theorem tickMs_preserves (s : State) : Preserves s s.tickMs := by
  unfold State.tickMs
  dsimp only
  have h : Untouched s { s with now := s.now + 1 } := .same ⟨rfl, rfl, rfl, rfl⟩
  split
  · exact (h.trans (.withSession _ _)).preserves
  · exact h.preserves

/-- A step is a command of the queue, a step of the part that is due, or one millisecond (log 1). -/
theorem step_keeps (s : State) :
    Ensures (fun t => (s.Canonical → t.Canonical) ∧ (s.IdleBeforeStart → s.MasksSound → t.MasksSound)) (step s) := by
  unfold step
  split
  · next c rest _ => exact exec_keeps c (s.withPending rest)
  · unfold State.idle
    split
    · exact exec_keeps _ s
    · exact ⟨(tickMs_preserves s).canonical, fun _ => (tickMs_preserves s).masks⟩

/-- Settles O56: every command rewrites host memory, the price store and the placement table through operations that keep the
canonical form, and START builds the store anew. -/
theorem canonicalFormsKept : Obligations.CanonicalFormsKept := fun s _ hs e => ((step_keeps s).next e).1 hs

/-- Settles O58: each command that changes a record, a watch or a page list changes the mask bits with it; START finds the
store empty, as IdleBeforeStart says. -/
theorem recordsAndMasksKept : Obligations.RecordsAndMasksKept := fun s _ hidle hs e => ((step_keeps s).next e).2 hidle hs

/-! ## The resets (R178) -/

theorem resetWith_record (s : State) (b : Bus) (i : Ix) : (s.resetWith b).record i = Record.reset := rfl

theorem resetWith_line (s : State) (b : Bus) (n : Fin 4) : (s.resetWith b).line n = BoardLine.reset := Bank.get_replicate _ _

theorem resetWith_tape (s : State) (b : Bus) (d : TapeId) : (s.resetWith b).tape d = Tape.reset := Bank.get_replicate _ _

theorem resetWith_tline (s : State) (b : Bus) (l : Fin 2) : (s.resetWith b).tline l = TermLine.reset := Bank.get_replicate _ _

theorem resetWith_term (s : State) (b : Bus) (k : Fin 16) : (s.resetWith b).term k = Terminal.reset := Bank.get_replicate _ _

/-- Settles O29: each reset puts every block at `State.reset`'s, and differs from the others in the bus interface alone. -/
theorem resetsRestoreEveryBlock : Obligations.ResetsRestoreEveryBlock := by
  intro s
  dsimp only
  have hrec := resetWith_record s
  have hline := resetWith_line s
  have htape := resetWith_tape s
  have htline := resetWith_tline s
  have hterm := resetWith_term s
  refine ⟨⟨_, rfl, ⟨rfl, rfl, rfl, rfl, rfl, hrec _, rfl, rfl, hline _, htape _, htline _, hterm _, rfl⟩, rfl, rfl, rfl, rfl⟩,
    ⟨_, rfl, ⟨rfl, rfl, rfl, rfl, rfl, hrec _, rfl, rfl, hline _, htape _, htline _, hterm _, rfl⟩, rfl, rfl, rfl, rfl⟩,
    fun hs => ⟨s.resetWith s.bus.softReset, ?_,
      ⟨rfl, rfl, rfl, rfl, rfl, hrec _, rfl, rfl, hline _, htape _, htline _, hterm _, rfl⟩, rfl, rfl, rfl, rfl⟩⟩
  show execSoftReset s = _
  unfold execSoftReset
  rw [if_pos hs]

/-! ## The invariants at reset -/

theorem reset_masksSound : State.reset.MasksSound :=
  State.masksSound_of_fresh rfl fun k => by
    show Terminal.reset.SameLists (Bank.get (Vector.replicate 16 Terminal.reset) k)
    rw [Bank.get_replicate]
    exact .refl _

theorem reset_groupsSound : State.reset.bus.GroupsSound := by
  refine ⟨rfl, fun i h => ?_⟩
  revert h i
  decide

theorem Module.sound_reset : Module.reset.Sound := by
  simp [Module.Sound, Module.reset]

theorem Tape.sound_reset : Tape.reset.Sound := by
  simp [Tape.Sound, Tape.reset]

theorem Terminal.sound_reset : Terminal.reset.Sound := by
  simp [Terminal.Sound, Terminal.reset]

theorem Formatter.sound_reset : Formatter.reset.Sound := by
  simp [Formatter.Sound, Formatter.reset, Formatter.placement, Sparse.get]

theorem reset_bounded : State.reset.Bounded := by
  refine ⟨by simp [Intake.Sound, State.reset, Intake.reset], Formatter.sound_reset, fun n m => ?_, fun d => ?_, fun k => ?_,
    Nat.zero_le _, fun _ => Nat.zero_le _⟩
  · show (BoardLine.module (Bank.get (Vector.replicate 4 BoardLine.reset) n) m).Sound
    rw [Bank.get_replicate]
    show (Bank.get (Vector.replicate 32 Module.reset) m).Sound
    rw [Bank.get_replicate]
    exact Module.sound_reset
  · show (Bank.get (Vector.replicate 2 Tape.reset) (slotOfTape d)).Sound
    rw [Bank.get_replicate]
    exact Tape.sound_reset
  · show (Bank.get (Vector.replicate 16 Terminal.reset) k).Sound
    rw [Bank.get_replicate]
    exact Terminal.sound_reset

theorem reset_cellsSound : State.reset.CellsSound :=
  ⟨fun _ h => (Option.some_ne_none _ h.symm).elim, fun h => Bool.noConfusion h⟩

theorem reset_chainsSound : State.reset.ChainsSound := fun _ =>
  ⟨[], ⟨List.nodup_nil, trivial, by simp⟩, fun _ _ h => (Option.some_ne_none _ h.symm).elim⟩

theorem reset_idleBeforeStart : State.reset.IdleBeforeStart := by
  exact ⟨by simp [State.reset, Bus.reset], fun _ => ⟨rfl, rfl, rfl, rfl, rfl⟩,
    fun _ => ⟨rfl, rfl, rfl, rfl, rfl, rfl, rfl, rfl, rfl⟩⟩

/-- Settles O60: the part right after reset meets each invariant. -/
theorem invariantsHoldAtReset : Obligations.InvariantsHoldAtReset :=
  ⟨⟨rfl, rfl, rfl⟩, reset_idleBeforeStart, by simp [SessionUnit.Sound, State.reset, SessionUnit.reset], reset_groupsSound,
    reset_masksSound, reset_bounded, reset_cellsSound, reset_chainsSound⟩

end Sys2Proof.Machine
end

section
/-! PROOF. A CANCEL posting (R30, R31, R50): the search of the history, the record it leaves, and what the tape gets. -/

namespace Sys2Proof.Machine

/-! ## The search of the history (R30) -/

/-- An entry that a CANCEL of an id takes: of that id, and not yet cancelled. -/
def takesCancel (id : Word) (e : PrintEntry) : Bool := e.id = id && !e.cancelled

theorem takesCancel_iff (id : Word) (e : PrintEntry) : takesCancel id e = true ↔ e.id = id ∧ e.cancelled = false := by
  simp [takesCancel]

theorem cancelIn_eq_none {id : Word} {h : List PrintEntry} (hn : h.findIdx? (takesCancel id) = none) : cancelIn id h = none := by
  induction h with
  | nil => rfl
  | cons e r ih =>
    rw [List.findIdx?_cons] at hn
    split at hn
    · cases hn
    · next he =>
      rw [takesCancel_iff] at he
      simp only [Option.map_eq_none_iff] at hn
      simp [cancelIn, he, ih hn]

/-- The search finds the newest entry that a CANCEL takes; it was the newest standing print when every entry before it is
cancelled (R31). -/
theorem cancelIn_eq_some {id : Word} {h : List PrintEntry} {n : Nat} (hn : h.findIdx? (takesCancel id) = some n) :
    ∃ e, h[n]? = some e ∧
      cancelIn id h = some (e, h.modify n (fun e => { e with cancelled := true }), (h.take n).all (·.cancelled)) := by
  induction h generalizing n with
  | nil => cases hn
  | cons e r ih =>
    rw [List.findIdx?_cons] at hn
    split at hn
    · next he =>
      cases hn
      exact ⟨e, rfl, by simp [cancelIn, (takesCancel_iff id e).1 he]⟩
    · next he =>
      rw [takesCancel_iff] at he
      obtain ⟨m, hm, rfl⟩ := Option.map_eq_some_iff.1 hn
      obtain ⟨x, hx, hc⟩ := ih hm
      exact ⟨x, by simpa using hx, by simp [cancelIn, he, hc, Bool.and_comm]⟩

theorem standingPrice_isSome (h : List PrintEntry) : (standingPrice h).isSome = h.any fun e => !e.cancelled := by
  unfold standingPrice
  rw [Option.isSome_map, Bool.eq_iff_iff, List.find?_isSome, List.any_eq_true]

/-! ## The record (R27, R30, R31, R39) -/

theorem Record.cancel_notFound {r : Record} {id : Word} (hn : r.history.findIdx? (takesCancel id) = none) :
    r.cancel id = (r, [], none) := by
  unfold Record.cancel
  rw [cancelIn_eq_none hn]

/-- A CANCEL that finds an entry, when the last price reverts and when it does not. -/
theorem Record.cancel_found {r : Record} {id : Word} {n : Nat} (hn : r.history.findIdx? (takesCancel id) = some n) :
    ∃ e, r.history[n]? = some e ∧ ∃ (last : Option Price) (fields : List ChangedField),
      fields ≠ [] ∧
      (¬ ((r.history.take n).all (·.cancelled) = true ∧
          (r.history.modify n fun e => { e with cancelled := true }).any (fun e => !e.cancelled) = true) →
        last = r.lastPx ∧ fields = [.volume, .history]) ∧
      ((r.history.take n).all (·.cancelled) = true ∧
          (r.history.modify n fun e => { e with cancelled := true }).any (fun e => !e.cancelled) = true →
        last = standingPrice (r.history.modify n fun e => { e with cancelled := true }) ∧
          fields = [.last, .volume, .history]) ∧
      r.cancel id =
        ({ r with history := r.history.modify n (fun e => { e with cancelled := true }),
                  volume := r.volume.clampSub e.volume, lastPx := last }, fields, some e.price) := by
  obtain ⟨e, he, hc⟩ := cancelIn_eq_some hn
  refine ⟨e, he, ?_⟩
  unfold Record.cancel
  rw [hc]
  dsimp only
  generalize r.history.modify n (fun e => { e with cancelled := true }) = h
  have hs := standingPrice_isSome h
  split
  · next p hnewest hp =>
    rw [hp] at hs
    rw [hnewest, ← hs]
    exact ⟨some p, _, List.cons_ne_nil _ _, by simp, fun _ => ⟨hp.symm, rfl⟩, rfl⟩
  · next hno =>
    refine ⟨r.lastPx, _, List.cons_ne_nil _ _, fun _ => ⟨rfl, rfl⟩, fun ⟨hnewest, hany⟩ => ?_, rfl⟩
    rw [hany] at hs
    obtain ⟨p, hp⟩ := Option.isSome_iff_exists.1 hs
    exact (hno p hnewest hp).elim

/-! ## The posting -/

/-- No kind but 3 names the row CANCEL. -/
theorem kind_of_namedBy_cancel {kind first : Word} (h : namedBy kind first = .row .cancel) : kind.toNat = 3 := by
  unfold namedBy at h
  split at h
  case h_3 e => exact e
  case h_10 => unfold subcommandOf at h; split at h <;> cases h
  all_goals cases h

/-- The words that intake reads of a CANCEL (R50). -/
theorem bodyOf_cancel {kind : Word} (hk : kind.toNat = 3) (f : Nat → Word) :
    Body.at (bodyOf kind f) 4 = f 4 ∧ Body.at (bodyOf kind f) 5 = f 5 := by
  simp [Body.at_bodyOf, readWords, firstWords, moreWords, lastWords, hk]

/-- The verdict of a CANCEL whose index is in range (R42, R50). -/
theorem judgeCancel_bodyOf {kind seq : Word} (hk : kind.toNat = 3) {f : Nat → Word} {i : Ix} {s : State}
    (hi : Ix.ofNat? (f 4).toNat = some i) :
    judgeCancel seq (bodyOf kind f) s =
      if (s.record i).state = .undefined then .refuse .undefinedInstrument else .apply (s.applyCancel i (f 5)) := by
  obtain ⟨h4, h5⟩ := bodyOf_cancel hk f
  simp only [judgeCancel, withInstrument, whenDefined, h4, h5, hi]

/-- The input to a tape that follows an update of a record is no part of the update. -/
theorem Updates.handAssigned {s u : State} {i : Ix} {r : Record} {fields : List ChangedField} {mark : Option TickDir}
    (h : Updates s u i r fields mark) (d : Option TapeId) (a : Arrival) : Updates s (u.handAssigned d a) i r fields mark := by
  obtain ⟨rest, record, others⟩ := h
  cases d with
  | none => exact ⟨rest, record, others⟩
  | some d =>
    refine ⟨?_, record, others⟩
    show { u with tapes := _ } = _
    rw [rest]
    rfl

theorem State.handAssigned_terms (s : State) (d : Option TapeId) (a : Arrival) : (s.handAssigned d a).terms = s.terms := by
  cases d <;> rfl

/-- The update of a CANCEL, before the tape is told: none when no entry was found (R50). -/
def State.cancelled (s : State) (i : Ix) (id : Word) : State :=
  if ((s.record i).cancel id).2.1 = [] then s
  else s.updateRecord i ((s.record i).cancel id).1 ((s.record i).cancel id).2.1 none

theorem State.applyCancel_eq (s : State) (i : Ix) (id : Word) :
    s.applyCancel i id = (s.cancelled i id).handAssigned (s.record i).tape
      (.cancel i id (s.record i).mode ((s.record i).cancel id).2.2 s.session.tod) := rfl

/-- The update of a CANCEL tells no tape and leaves the bus, intake and the parameters. -/
theorem State.cancelled_rest (s : State) (i : Ix) (id : Word) :
    (s.cancelled i id).tapes = s.tapes ∧ (s.cancelled i id).bus = s.bus ∧ (s.cancelled i id).intake = s.intake ∧
      (s.cancelled i id).params = s.params := by
  unfold State.cancelled
  split
  · exact ⟨rfl, rfl, rfl, rfl⟩
  · next h =>
    exact ⟨State.updateRecord_tapes .., State.updateRecord_bus .., State.updateRecord_intake .., State.updateRecord_params _ _ _ _ h⟩

/-- The tape of the instrument gets the cancel (R50). -/
theorem State.tape_applyCancel (s : State) (i : Ix) (id : Word) (d : TapeId) :
    (s.applyCancel i id).tape d =
      if (s.record i).tape = some d then
        (s.tape d).given (.cancel i id (s.record i).mode ((s.record i).cancel id).2.2 s.session.tod)
      else s.tape d := by
  obtain ⟨ht, -⟩ := s.cancelled_rest i id
  have hd : (s.cancelled i id).tape d = s.tape d := by unfold State.tape; rw [ht]
  rw [State.applyCancel_eq, State.tape_handAssigned, hd]

/-- With no entry found nothing but the tapes may change (R50). -/
theorem State.applyCancel_notFound {s : State} {i : Ix} {id : Word}
    (hn : (s.record i).history.findIdx? (takesCancel id) = none) :
    s.applyCancel i id = { s with tapes := (s.applyCancel i id).tapes } := by
  have hc : s.cancelled i id = s := by
    unfold State.cancelled
    rw [Record.cancel_notFound hn]
    exact if_pos rfl
  rw [State.applyCancel_eq, hc]
  exact State.handAssigned_rest _ _ _

/-- With an entry found the record is updated, and the contexts are told (R31, R40). -/
theorem State.applyCancel_found {s : State} {i : Ix} {id : Word} {r : Record} {fields : List ChangedField} {price : Option Price}
    (hc : (s.record i).cancel id = (r, fields, price)) (hf : fields ≠ []) :
    Updates s (s.applyCancel i id) i r fields none ∧ ToldTerms s (s.applyCancel i id) i fields := by
  have hu : s.cancelled i id = s.updateRecord i r fields none := by
    unfold State.cancelled
    rw [hc]
    exact if_neg hf
  have hi : r.interest = (s.record i).interest := by
    have h := ((s.record i).cancel_masks id).2
    rwa [hc] at h
  rw [State.applyCancel_eq, hu]
  refine ⟨(Updates.updateRecord s i r none hf).handAssigned _ _, fun k => ?_⟩
  refine Eq.trans ?_ (ToldTerms.updateRecord s i none hf hi k)
  unfold State.term
  rw [State.handAssigned_terms]

/-- The price that the tape gets is that of the entry found, and is absent with none (R50). -/
theorem Record.cancel_price (r : Record) (id : Word) :
    (r.cancel id).2.2 = (r.history.findIdx? (takesCancel id)).bind fun n => (r.history[n]?).map (·.price) := by
  cases hn : r.history.findIdx? (takesCancel id) with
  | none => rw [Record.cancel_notFound hn]; rfl
  | some n =>
    obtain ⟨e, he, last, fields, -, -, -, hc⟩ := Record.cancel_found hn
    rw [hc, Option.bind_some, he]
    rfl

/-- Settles O4: by the state of the instrument a CANCEL is refused or taken, and by the search of its history it updates the record
or leaves it; the tape gets the cancel either way. -/
theorem cancelTaken : Obligations.CancelTaken := by
  intro h before s c i hs hh hi
  have hk := kind_of_namedBy_cancel hh.named
  have hj := judgeCancel_bodyOf hk (seq := s.posted c 2) (f := s.posted c) (s := s.received c) hi
  dsimp only
  split
  · next hu =>
    rw [State.received_record, if_pos hu] at hj
    exact refuses_of_judge (by subst hs; rfl) hh hj
  · next hu =>
    rw [State.received_record, if_neg hu] at hj
    obtain ⟨-, hb, hx, hp⟩ := (s.received c).cancelled_rest i (s.posted c 5)
    refine applies_of_judge (by subst hs; rfl) hh hj ?_ ?_ ?_ ⟨?_, fun d => ?_⟩
    · rw [State.applyCancel_eq, State.handAssigned_rest]
      exact (congrArg Bus.script hb).trans hh.quiet
    · rw [State.applyCancel_eq, State.handAssigned_rest]
      exact (congrArg Intake.current hx).trans hh.current
    · rw [State.applyCancel_eq, State.handAssigned_rest]
      exact (congrArg Params.cellCount hp).symm ▸ hh.cell
    · split
      · next hn => exact State.applyCancel_notFound (s := s.received c) hn
      · next n hn =>
        obtain ⟨e, he, last, fields, hf, hkeep, hrevert, hc⟩ := Record.cancel_found hn
        obtain ⟨hupd, htold⟩ := State.applyCancel_found (s := s.received c) hc hf
        exact ⟨(s.record i).volume.clampSub e.volume, last, fields, by rw [he]; rfl, hkeep, hrevert, hupd, htold⟩
    · have ht := (s.received c).tape_applyCancel i (s.posted c 5) d
      rw [State.received_record, Record.cancel_price] at ht
      exact ht

end Sys2Proof.Machine
end

section
/-! PROOF. A change event (R40, R87, R89, R91): the highlights it starts or ends, and the placements of the chain it renders. -/

namespace Sys2Proof.Machine

/-! ## Renderings over a bus that completes every access (R81, R86) -/

theorem Bus.readFormat_quiet {b : Bus} (h : b.script = []) (o : Word) :
    b.readFormat o = (b, formatOf [b.peek o, b.peek (o + 1), b.peek (o + 2), b.peek (o + 3)]) := by
  unfold Bus.readFormat
  rw [Bus.readAll_quiet h]
  rfl

theorem State.shownOn_append (t : State) (n : Fin 4) (m : Fin 32) (ks ls : List Nat) (x : Module) :
    t.shownOn n m (ks ++ ls) x = t.shownOn n m ls (t.shownOn n m ks x) := List.foldl_append

theorem State.shownOn_none {t : State} {k : Nat} (h : t.fmt.placement k = none) (n : Fin 4) (m : Fin 32) (x : Module) :
    t.shownOn n m [k] x = x := by
  simp [State.shownOn, h]

/-- Renderings made one after another. -/
theorem Renders.trans {s t u : State} {ks ls : List Nat} (h : Renders s t ks) (g : Renders t u ls) : Renders s u (ks ++ ls) := by
  obtain ⟨hrest, hlines, hmodules⟩ := h
  obtain ⟨grest, glines, gmodules⟩ := g
  have hshown : ∀ n m x, t.shownOn n m ls x = s.shownOn n m ls x := fun n m x => by rw [hrest]; rfl
  refine ⟨by rw [grest, hrest], fun n => by rw [glines n, hlines n], fun n m => ?_⟩
  rw [gmodules n m, hshown, hmodules n m, State.shownOn_append]

theorem Renders.nil (s : State) : Renders s s [] := ⟨rfl, fun _ => rfl, fun _ _ => rfl⟩

/-- One entry is rendered onto the module that its placement names, and onto no other (R86). -/
theorem Renders.entry {s : State} (h : s.bus.script = []) (k : Nat) : Renders s (s.renderEntry k) [k] := by
  unfold State.renderEntry
  split
  · next p hp =>
    unfold State.renderOne
    rw [Bus.readFormat_quiet h]
    dsimp only
    rw [State.withBus_self]
    unfold State.modifyModule
    obtain ⟨hrest, hlines⟩ := changesLine_modify s p.line fun l => l.modifyModule p.module fun x =>
      x.showCells p.start (placementCells (s.record p.instr) s.session.state
        (formatOf [s.bus.peek (s.params.formatEntry p.format.val), s.bus.peek (s.params.formatEntry p.format.val + 1),
          s.bus.peek (s.params.formatEntry p.format.val + 2), s.bus.peek (s.params.formatEntry p.format.val + 3)]) p)
    refine ⟨hrest, fun n => ?_, fun n m => ?_⟩
    · rw [hlines n]
      split
      · next e => subst e; rfl
      · rfl
    · rw [hlines n]
      simp only [State.shownOn, List.foldl_cons, List.foldl_nil, hp]
      by_cases hn : n = p.line
      · subst hn
        rw [if_pos rfl, BoardLine.modifyModule_eq, BoardLine.module_having]
        by_cases hm : p.module = m
        · subst hm; simp
        · simp [hm]
      · simp [hn, Ne.symm hn]
  · next hp => exact ⟨rfl, fun _ => rfl, fun n m => (State.shownOn_none hp n m _).symm⟩

/-- Several entries are rendered in order (R87). -/
theorem Renders.entries {s : State} (h : s.bus.script = []) (ks : List Nat) : Renders s (s.renderEntries ks) ks := by
  induction ks generalizing s with
  | nil => exact .nil s
  | cons k ks ih =>
    have hk := Renders.entry h k
    have hq : (s.renderEntry k).bus.script = [] := by rw [hk.1]; exact h
    exact hk.trans (ih hq)

/-! ## Highlights and their timers (R89 to R91) -/

theorem mem_insertTimer {e x : TimerEntry} {l : List TimerEntry} : x ∈ insertTimer e l ↔ x = e ∨ x ∈ l := by
  induction l with
  | nil => simp [insertTimer]
  | cons y l ih =>
    unfold insertTimer
    split
    · simp only [List.mem_cons, ih]
      exact or_left_comm
    · simp

theorem Formatter.placement_setPlacement (x : Formatter) (k j : Nat) (p : Option Placement) :
    (x.setPlacement k p).placement j = if j = k then p else x.placement j := Sparse.get_set _ _ _ _ _

theorem Formatter.placement_setHighlight (x : Formatter) (k j : Nat) (d : Option TickDir) :
    (x.setHighlight k d).placement j =
      if j = k then (x.placement j).map fun p => { p with highlight := d } else x.placement j := by
  unfold Formatter.setHighlight
  split
  · next p hp =>
    rw [Formatter.placement_setPlacement]
    split
    · next e => rw [e, hp]; rfl
    · rfl
  · next hp =>
    split
    · next e => rw [e, hp]; rfl
    · rfl

theorem Formatter.setHighlight_rest (x : Formatter) (k : Nat) (d : Option TickDir) :
    x.setHighlight k d = { x with table := (x.setHighlight k d).table } := by
  unfold Formatter.setHighlight
  split <;> rfl

/-- The links of a chain are read from the placements, whatever their highlights are. -/
theorem Formatter.Links.of_placements {x y : Formatter}
    (h : ∀ k p, x.placement k = some p → ∃ c, y.placement k = some { p with highlight := c }) {ls : List Nat}
    {head : Option Nat} (hl : x.Links head ls) : y.Links head ls := by
  induction ls generalizing head with
  | nil => cases head <;> exact hl
  | cons j ls ih =>
    cases head with
    | none => exact hl
    | some k =>
      obtain ⟨rfl, p, hp, hnext⟩ := hl
      obtain ⟨c, hc⟩ := h _ _ hp
      exact ⟨rfl, _, hc, ih hnext⟩

theorem State.ChainIs.withFmt {s : State} {y : Formatter} {i : Ix} {chain : List Nat} (hc : s.ChainIs i chain)
    (h : ∀ k p, s.fmt.placement k = some p → ∃ c, y.placement k = some { p with highlight := c }) :
    (s.withFmt y).ChainIs i chain := by
  obtain ⟨hnodup, hlinks, hmem⟩ := hc
  refine ⟨hnodup, hlinks.of_placements h, fun k hk => ?_⟩
  obtain ⟨hlt, p, hp, hi⟩ := hmem k hk
  obtain ⟨c, hpc⟩ := h k p hp
  exact ⟨hlt, _, hpc, hi⟩

/-- The highlights of the placements in some entries have become `d`, their timer entries are replaced by entries of an expiry time,
where there is one, and nothing else has changed. -/
structure Relit (ks : List Nat) (d : Option TickDir) (expiry : Option Nat) (x y : Formatter) : Prop where
  rest : y = { x with table := y.table, timers := y.timers }
  placements : ∀ k, y.placement k = if k ∈ ks then (x.placement k).map fun p => { p with highlight := d } else x.placement k
  timers : ∀ e, e ∈ y.timers ↔ (e ∈ x.timers ∧ e.placement ∉ ks) ∨ (e.placement ∈ ks ∧ some e.expiry = expiry)

namespace Relit

variable {x y z : Formatter} {ks : List Nat} {d : Option TickDir} {expiry : Option Nat}

theorem nil (d : Option TickDir) (expiry : Option Nat) (x : Formatter) : Relit [] d expiry x x :=
  ⟨rfl, fun _ => by simp, fun _ => by simp⟩

theorem cons {k : Nat} (h : Relit [k] d expiry x y) (g : Relit ks d expiry y z) : Relit (k :: ks) d expiry x z where
  rest := by rw [g.rest, h.rest]
  placements := fun j => by
    rw [g.placements j, h.placements j]
    by_cases hk : j = k
    · subst hk
      by_cases hks : j ∈ ks <;> simp [hks, Function.comp_def]
    · simp [hk]
  timers := fun e => by
    rw [g.timers e, h.timers e]
    simp only [List.mem_cons]
    have hnil := List.not_mem_nil (a := e.placement)
    tauto

theorem foldl {f : Formatter → Nat → Formatter} (hf : ∀ x k, Relit [k] d expiry x (f x k)) (ks : List Nat) (x : Formatter) :
    Relit ks d expiry x (ks.foldl f x) := by
  induction ks generalizing x with
  | nil => exact nil d expiry x
  | cons k ks ih => exact (hf x k).cons (ih _)

theorem startHighlight (d : TickDir) (expiry : Nat) (x : Formatter) (k : Nat) :
    Relit [k] (some d) (some expiry) x (x.startHighlight d expiry k) := by
  have hr := (x.dropTimer k).setHighlight_rest k (some d)
  refine ⟨?_, fun j => ?_, fun e => ?_⟩
  · unfold Formatter.startHighlight
    rw [hr]
    rfl
  · simp only [List.mem_singleton]
    exact (x.dropTimer k).placement_setHighlight k j (some d)
  · have ht : (x.startHighlight d expiry k).timers = insertTimer ⟨k, expiry⟩ (x.dropTimer k).timers := by
      unfold Formatter.startHighlight
      rw [hr]
    rw [ht, mem_insertTimer]
    obtain ⟨p, t⟩ := e
    simp [Formatter.dropTimer, or_comm]

theorem endHighlight (x : Formatter) (k : Nat) : Relit [k] none none x (x.endHighlight k) := by
  have hr := (x.dropTimer k).setHighlight_rest k none
  refine ⟨?_, fun j => ?_, fun e => ?_⟩
  · unfold Formatter.endHighlight
    rw [hr]
    rfl
  · simp only [List.mem_singleton]
    exact (x.dropTimer k).placement_setHighlight k j none
  · have ht : (x.endHighlight k).timers = (x.dropTimer k).timers := by
      unfold Formatter.endHighlight
      rw [hr]
    rw [ht]
    simp [Formatter.dropTimer]

/-- A placement is the same but for its highlight. -/
theorem placement_eq (h : Relit ks d expiry x y) {k : Nat} {p : Placement} (hp : x.placement k = some p) :
    ∃ c, y.placement k = some { p with highlight := c } := by
  rw [h.placements k, hp]
  split
  · exact ⟨d, rfl⟩
  · exact ⟨p.highlight, rfl⟩

theorem kind (h : Relit ks d expiry x y) (p : FieldKind → Bool) (k : Nat) :
    (y.placement k).any (fun q => p q.kind) = (x.placement k).any fun q => p q.kind := by
  rw [h.placements k]
  split
  · cases x.placement k <;> rfl
  · rfl

/-- The chain of an instrument is the same list of entries (R80). -/
theorem chainIs {s : State} (h : Relit ks d expiry s.fmt y) {i : Ix} {chain : List Nat} (hc : s.ChainIs i chain) :
    (s.withFmt y).ChainIs i chain := hc.withFmt fun _ _ hp => h.placement_eq hp

end Relit

/-! ## The change event (R40, R87, R89, R91) -/

theorem State.chainOf_eq {s : State} {i : Ix} {chain : List Nat} (h : s.ChainIs i chain) (p : FieldKind → Bool) :
    s.chainOf i p = chain.filter fun k => (s.fmt.placement k).any fun q => p q.kind := by
  unfold State.chainOf
  rw [h.chain_eq]

theorem FieldKind.lively_eq (kind : FieldKind) :
    kind.lively = (decide (kind = .last) || decide (kind = .change) || decide (kind = .tick)) := by
  cases kind <;> rfl

theorem FieldKind.reaches_eq (fields : List ChangedField) (kind : FieldKind) :
    (kind.fields.any fun f => fields.contains f) = fields.any fun f => decide (f ∈ placementFields kind) := by
  rw [FieldKind.fields_eq, Bool.eq_iff_iff]
  simp only [List.any_eq_true, List.contains_iff_mem, decide_eq_true_eq]
  exact exists_congr fun f => and_comm

/-- The entries whose highlights a change event changes: those of the kinds that take one for a trade, all of the chain for the set
ALL, and none else (R89, R91). -/
def relitEntries (s : State) (e : ChangeEvent) (chain : List Nat) : List Nat :=
  if e.mark.isSome = true then chain.filter fun k => (s.fmt.placement k).any fun q => q.kind.lively
  else if e.fields = ChangedField.all then chain
  else []

theorem mem_relitEntries {s : State} {e : ChangeEvent} {chain : List Nat} {k : Nat} :
    k ∈ relitEntries s e chain ↔
      (e.mark.isSome = true ∧ k ∈ chain ∧
        ((s.fmt.placement k).any fun q => decide (q.kind = .last) || decide (q.kind = .change) || decide (q.kind = .tick)) = true) ∨
      ((e.mark.isNone && decide (e.fields = ChangedField.all)) = true ∧ k ∈ chain) := by
  unfold relitEntries
  cases e.mark with
  | some d => simp [FieldKind.lively_eq]
  | none => by_cases hf : e.fields = ChangedField.all <;> simp [hf]

/-- The highlights that a change event starts or ends, with their timers. -/
theorem State.highlightChange_relit {s : State} {e : ChangeEvent} {chain : List Nat} (h : s.ChainIs e.instr chain) :
    ∃ y, s.highlightChange e = s.withFmt y ∧
      Relit (relitEntries s e chain) e.mark (e.mark.map fun _ => s.now + s.params.highlight * 1000) s.fmt y := by
  unfold State.highlightChange relitEntries
  cases e.mark with
  | some d =>
    rw [State.chainOf_eq h]
    exact ⟨_, rfl, .foldl (.startHighlight d _) _ _⟩
  | none =>
    dsimp only
    rw [h.chain_eq]
    by_cases hf : e.fields = ChangedField.all
    · simp only [hf, if_true]
      exact ⟨_, rfl, .foldl .endHighlight _ _⟩
    · simp only [hf, if_false]
      exact ⟨s.fmt, rfl, .nil _ _ _⟩

/-- A change event that is taken: the highlights first, then the renderings (R87). -/
theorem State.formatChange_renders {s : State} (hq : s.bus.script = []) {e : ChangeEvent} {rest : List ChangeEvent}
    {chain : List Nat} (hs : s.fmt.changes = e :: rest) (hc : s.ChainIs e.instr chain) :
    ∃ y, Relit (relitEntries s e chain) e.mark (e.mark.map fun _ => s.now + s.params.highlight * 1000)
        { s.fmt with changes := rest } y ∧
      Renders (s.withFmt y) s.formatChange
        (chain.filter fun k => (s.fmt.placement k).any fun q => e.fields.any fun f => decide (f ∈ placementFields q.kind)) := by
  have hc' : (s.withFmt { s.fmt with changes := rest }).ChainIs e.instr chain :=
    hc.withFmt fun k p hp => ⟨p.highlight, hp⟩
  obtain ⟨y, hy, hrelit⟩ := State.highlightChange_relit hc'
  refine ⟨y, hrelit, ?_⟩
  have hchain := State.chainOf_eq (hrelit.chainIs hc') fun kind => kind.fields.any fun f => e.fields.contains f
  have hkind : ∀ k, ((y.placement k).any fun q => q.kind.fields.any fun f => e.fields.contains f) =
      (s.fmt.placement k).any fun q => e.fields.any fun f => decide (f ∈ placementFields q.kind) := fun k => by
    rw [hrelit.kind (fun kind => kind.fields.any fun f => e.fields.contains f) k]
    simp only [FieldKind.reaches_eq]
    rfl
  unfold State.formatChange
  rw [hs]
  unfold State.takeChange
  dsimp only
  rw [hy, hchain]
  simp only [State.withFmt_fmt, hkind]
  exact Renders.entries (s := s.withFmt y) hq _

/-- Settles O36: the entries whose highlights change are those of the statement, in each of the three cases of the mark and the
changed-field set, and the entries rendered are those that the table of R40 names. -/
theorem changeEventRendersTheChain : Obligations.ChangeEventRendersTheChain := by
  intro h before s hs hq
  have hx : exec (.changeEvent h) before = .next s.formatChange := by subst hs; rfl
  refine ⟨fun hnone => ?_, fun e rest chain hcons hc => ?_⟩
  · rw [hx]
    unfold State.formatChange
    rw [hnone]
  · obtain ⟨y, hrelit, hrenders⟩ := State.formatChange_renders hq hcons hc
    dsimp only
    refine ⟨s.withFmt y, s.formatChange, hx, hrenders, ?_, ?_⟩
    · exact congrArg s.withFmt hrelit.rest
    · refine ⟨fun k => ⟨fun hk => ?_, fun hk => ?_, fun hstart hstop => ?_⟩, fun x => ?_⟩
      · exact (hrelit.placements k).trans (if_pos (mem_relitEntries.mpr (.inl hk)))
      · have hnone : e.mark = none := Option.isNone_iff_eq_none.mp (Bool.and_eq_true_iff.mp hk.1).1
        rw [← hnone]
        exact (hrelit.placements k).trans (if_pos (mem_relitEntries.mpr (.inr hk)))
      · exact (hrelit.placements k).trans (if_neg fun hk => (mem_relitEntries.mp hk).elim hstart hstop)
      · refine (hrelit.timers x).trans ?_
        rw [mem_relitEntries]
        cases e.mark <;> simp

end Sys2Proof.Machine
end

section
/-! PROOF. START (R163, R166, R168): the anchor as it is read and checked, the blocks it sets, and step 1 of the REMAP it begins. -/

namespace Sys2Proof.Machine

/-! ## The tape references cleared (R34) -/

/-- A table built anew from the entries of one in canonical form, each value passed through `f`. -/
theorem Sparse.get_foldl_set {α : Type} [DecidableEq α] (d : α) (f : α → α) {l : List (Nat × α)} (h : Sparse.wf d l = true)
    (m : List (Nat × α)) (k : Nat) :
    Sparse.get d (l.foldl (fun m e => Sparse.set d m e.1 (f e.2)) m) k =
      if k ∈ Sparse.keys l then f (Sparse.get d l k) else Sparse.get d m k := by
  induction l generalizing m with
  | nil => simp [Sparse.keys]
  | cons e r ih =>
    obtain ⟨a, x⟩ := e
    rw [Sparse.wf_cons] at h
    obtain ⟨-, hlt, hwf⟩ := h
    have hkeys : ∀ j ∈ Sparse.keys r, a < j := fun j hj => by
      obtain ⟨e, he, rfl⟩ := List.mem_map.mp hj
      exact hlt e he
    rw [List.foldl_cons, ih hwf, Sparse.get_set]
    have hcons : k ∈ Sparse.keys ((a, x) :: r) ↔ k = a ∨ k ∈ Sparse.keys r := by simp [Sparse.keys]
    simp only [hcons, Sparse.get]
    by_cases hk : k = a
    · subst hk
      have hn : k ∉ Sparse.keys r := fun hm => lt_irrefl k (hkeys k hm)
      simp [hn]
    · by_cases hm : k ∈ Sparse.keys r
      · have := hkeys k hm
        simp [hk, hm, Nat.not_lt_of_gt this]
      · simp [hk, hm]

theorem Sparse.get_of_not_mem_keys {α : Type} {d : α} {m : List (Nat × α)} {k : Nat} (h : k ∉ Sparse.keys m) :
    Sparse.get d m k = d :=
  (Sparse.get_mem d m k).resolve_right fun ⟨e, he, hk, _⟩ => h (List.mem_map.mpr ⟨e, he, hk⟩)

theorem get_clearRefs {store : List (Nat × Record)} (h : Sparse.wf Record.reset store = true) (k : Nat) :
    Sparse.get Record.reset (clearRefs store) k = { Sparse.get Record.reset store k with tapeRef := none } := by
  unfold clearRefs
  rw [Sparse.get_foldl_set Record.reset (fun r : Record => { r with tapeRef := none }) h]
  split
  · rfl
  · next hk => rw [Sparse.get_of_not_mem_keys hk]; rfl

/-! ## Step 1 of a REMAP (R92, R93) -/

/-- Some entries of the table are freed, and nothing but links and timers has changed besides (R92 step 1). -/
structure Frees (ks : List Nat) (s t : State) : Prop where
  rest : t = { s with store := t.store, fmt := { s.fmt with table := t.fmt.table, timers := t.fmt.timers } }
  gone : ∀ k, t.fmt.placement k = none ↔ k ∈ ks ∨ s.fmt.placement k = none
  records : ChainHeadsOnly s t

namespace Frees

variable {s t u : State} {ks : List Nat}

theorem nil (s : State) : Frees [] s s := ⟨rfl, fun _ => by simp, fun _ => rfl⟩

theorem cons {k : Nat} (h : Frees [k] s t) (g : Frees ks t u) : Frees (k :: ks) s u where
  rest := by rw [g.rest, h.rest]
  gone := fun j => by
    rw [g.gone j, h.gone j, List.mem_singleton, List.mem_cons]
    tauto
  records := fun j => by rw [g.records j, h.records j]

end Frees

theorem Formatter.placement_linkPast (x : Formatter) (k : Nat) (next : Option Nat) (j : Nat) :
    (x.linkPast k next).placement j =
      (x.placement j).map fun q => if q.next = some k then { q with next := next } else q := by
  unfold Formatter.placement Formatter.linkPast
  dsimp only
  induction x.table with
  | nil => rfl
  | cons e r ih =>
    obtain ⟨a, p⟩ := e
    simp only [List.map_cons, Sparse.get, ih]
    split
    · rfl
    · split <;> rfl

theorem State.unlink_frees (s : State) (k : Nat) (p : Placement) : Frees [] s (s.unlink k p) := by
  unfold State.unlink
  dsimp only
  split
  · refine ⟨rfl, fun _ => by simp, fun j => ?_⟩
    rw [State.record_set]
    split
    · next e => subst e; rfl
    · rfl
  · refine ⟨rfl, fun j => ?_, fun _ => rfl⟩
    have hp := s.fmt.placement_linkPast k p.next j
    simp [State.withFmt_fmt, hp]

theorem State.removePlacement_frees (s : State) (k : Nat) : Frees [k] s (s.removePlacement k) := by
  unfold State.removePlacement
  split
  · next p hp =>
    obtain ⟨hrest, hgone, hrecords⟩ := s.unlink_frees k p
    refine ⟨?_, fun j => ?_, hrecords⟩
    · rw [hrest]; rfl
    · have hj := ((s.unlink k p).fmt.dropTimer k).placement_setPlacement k j none
      rw [State.withFmt_fmt, hj, List.mem_singleton]
      split
      · next e => simp [e]
      · next e =>
        rw [or_iff_right e]
        exact (hgone j).trans (or_iff_right List.not_mem_nil)
  · next hp =>
    refine ⟨rfl, fun j => ?_, fun _ => rfl⟩
    rw [List.mem_singleton]
    exact ⟨.inr, fun h => h.elim (fun e => e ▸ hp) id⟩

theorem State.foldl_removePlacement_frees (ks : List Nat) (s : State) : Frees ks s (ks.foldl State.removePlacement s) := by
  induction ks generalizing s with
  | nil => exact .nil s
  | cons k ks ih => exact (s.removePlacement_frees k).cons (ih _)

theorem Formatter.mem_entries {x : Formatter} {p : Placement → Bool} {k : Nat} :
    k ∈ x.entries p ↔ (x.placement k).any p = true := by
  unfold Formatter.entries
  rw [List.mem_filter, and_iff_right_iff_imp]
  intro h
  by_contra hk
  rw [Formatter.placement, Sparse.get_of_not_mem_keys hk] at h
  simp at h

/-- The REMAP of a line begins: what changes, and what becomes of lines, table and records (R92 step 1, R93). -/
theorem State.beginLine_rest (s : State) (job : RemapJob) :
    s.beginLine job = { s with
      store := (s.beginLine job).store
      lines := (s.beginLine job).lines
      fmt := { s.fmt with
        table := (s.beginLine job).fmt.table, timers := (s.beginLine job).fmt.timers, remap := some job } } := by
  have h := (State.foldl_removePlacement_frees (s.fmt.entries fun p => p.line = job.line) s).rest
  unfold State.beginLine
  dsimp only
  rw [h]
  rfl

theorem State.beginLine_bus (s : State) (job : RemapJob) : (s.beginLine job).bus = s.bus := by
  rw [State.beginLine_rest]

theorem State.beginLine_tapes (s : State) (job : RemapJob) : (s.beginLine job).tapes = s.tapes := by
  rw [State.beginLine_rest]

theorem State.beginLine_line (s : State) (job : RemapJob) (n : Fin 4) :
    (s.beginLine job).line n = if n = job.line then { s.line n with underRemap := true } else s.line n := by
  have h := (State.foldl_removePlacement_frees (s.fmt.entries fun p => p.line = job.line) s).rest
  have hlines : ∀ k, ((s.fmt.entries fun p => p.line = job.line).foldl State.removePlacement s).line k = s.line k := fun k => by
    rw [h]; rfl
  refine ((changesLine_modify _ job.line fun l => { l with underRemap := true }).2 n).trans ?_
  split
  · next e => rw [e, ← hlines job.line]; rfl
  · exact hlines n

theorem State.beginLine_gone (s : State) (job : RemapJob) (k : Nat) :
    (s.beginLine job).fmt.placement k = none ↔ (s.fmt.placement k).all (fun p => p.line == job.line) = true := by
  refine ((State.foldl_removePlacement_frees (s.fmt.entries fun p => p.line = job.line) s).gone k).trans ?_
  rw [Formatter.mem_entries]
  cases s.fmt.placement k <;> simp

theorem State.beginLine_records (s : State) (job : RemapJob) : ChainHeadsOnly s (s.beginLine job) :=
  (State.foldl_removePlacement_frees (s.fmt.entries fun p => p.line = job.line) s).records

end Sys2Proof.Machine
end

section
/-! PROOF. START on a sound anchor: the words read, the checks that pass, and the blocks as the statement puts them. -/

namespace Sys2Proof.Machine

/-! ## The anchor as START reads it (R163, R180) -/

/-- Words 0 to 37 of the anchor. -/
def Bus.anchorWords (b : Bus) : List Word := (List.range 38).map fun k => b.peek (word k)

theorem Bus.anchorAt_anchorWords (b : Bus) {k : Nat} (h : k < 38) : anchorAt b.anchorWords k = b.peek (word k) := by
  simp [anchorAt, Bus.anchorWords, List.getD_eq_getElem?_getD, List.getElem?_range h]

/-- On a bus that completes every access, word 11 sets the levels, and every word is read (R180, log 11). -/
theorem Bus.readAnchor_quiet {b : Bus} (h : b.script = []) : b.readAnchor = (b.takeLevels (b.peek 11), some b.anchorWords) := by
  have hq : (b.takeLevels (b.peek 11)).script = [] := h
  unfold Bus.readAnchor
  rw [Bus.read_quiet h]
  dsimp only
  rw [Bus.readAll_quiet hq]
  rfl

/-! ## The checks (R166) -/

/-- A region of R161 as the model has it. -/
def Bus.region (b : Bus) (i : Fin 7) : Region := ⟨(regionAt b.anchor i).1, (regionAt b.anchor i).2⟩

theorem Bus.regionsOf_anchorWords (b : Bus) :
    regionsOf b.anchorWords = ((List.finRange 7).map b.region).filter fun r => 0 < r.length := rfl

theorem anyMeet_eq_false {rs : List Region} (h : rs.Pairwise fun a b => a.meets b = false) : anyMeet rs = false := by
  induction h with
  | nil => rfl
  | cons hr _ ih =>
    rw [anyMeet, ih, Bool.or_false, List.any_eq_false]
    exact fun a ha => by simp [hr a ha]

theorem Bus.layoutRange_eq_false {b : Bus} (h : ¬ BadRange b.anchor) : layoutRange b.anchorWords = false := by
  simp only [BadRange, not_or, not_not, not_lt, not_exists, not_and] at h
  obtain ⟨h0, h2, hcount, hpages, hregion⟩ := h
  have hbeyond : (regionsOf b.anchorWords).tail.any Region.beyond = false := by
    rw [List.any_eq_false, Bus.regionsOf_anchorWords]
    intro r hr hb
    obtain ⟨hr, hlen⟩ := List.mem_filter.mp (List.mem_of_mem_tail hr)
    obtain ⟨i, -, rfl⟩ := List.mem_map.mp hr
    have hlast := hregion i ((b.region i).first + (b.region i).length - 1)
    have hpos : 0 < (b.region i).length := of_decide_eq_true hlen
    have hlt : 65536 < (b.region i).first + (b.region i).length := of_decide_eq_true hb
    simp only [inRegion, Bus.region] at hlast hpos hlt
    omega
  have hversion : anchorAt b.anchorWords 0 = 1 := BitVec.eq_of_toNat_eq h0
  have hsome : anchorAt b.anchorWords 2 ≠ 0#16 := fun e => h2 (congrArg BitVec.toNat e)
  have hfew : ¬ 2048 < (anchorAt b.anchorWords 2).toNat := Nat.not_lt.mpr hcount
  have hshort : ¬ 256 < (anchorAt b.anchorWords 9).toNat := Nat.not_lt.mpr hpages
  simp [layoutRange, hbeyond, hversion, hsome, hfew, hshort]

theorem Bus.layoutConflict_eq_false {b : Bus} (h : ¬ BadLayout b.anchor) : layoutConflict b.anchorWords = false := by
  refine anyMeet_eq_false ?_
  rw [Bus.regionsOf_anchorWords, List.pairwise_filter, List.pairwise_map]
  refine (List.nodup_finRange 7).imp fun {i j} hij hi hj => ?_
  by_contra hmeet
  have hi' : 0 < (b.region i).length := of_decide_eq_true hi
  have hj' : 0 < (b.region j).length := of_decide_eq_true hj
  simp only [Region.meets, Bool.not_eq_false, decide_eq_true_eq] at hmeet
  refine h ⟨i, j, hij, max (b.region i).first (b.region j).first, ?_, ?_⟩ <;>
    simp only [inRegion, Bus.region] at * <;> omega

theorem Bus.badTape_eq_false {b : Bus} {k : Nat} (hk : k = 18 ∨ k = 26) (h : ¬ BadParameter b.anchor) :
    badTape b.anchorWords k = false := by
  have hat : ∀ j, j ≤ 6 → (anchorAt b.anchorWords (k + j)).toNat = b.anchor (k + j) := fun j hj => by
    rw [b.anchorAt_anchorWords (by omega)]; rfl
  unfold badTape
  rw [decide_eq_false_iff_not]
  simp only [hat _ (show 1 ≤ 6 by omega), hat _ (show 2 ≤ 6 by omega), hat _ (show 3 ≤ 6 by omega),
    hat _ (show 4 ≤ 6 by omega), hat _ (show 5 ≤ 6 by omega), hat _ (show 6 ≤ 6 by omega)]
  rintro (e | e | e | e | e | e | e)
  · exact h ⟨k, hk, .inl e⟩
  · exact h ⟨k, hk, .inr (.inl e)⟩
  · exact h ⟨k, hk, .inr (.inr (.inl e))⟩
  · exact h ⟨k, hk, .inr (.inr (.inr (.inl e)))⟩
  · exact h ⟨k, hk, .inr (.inr (.inr (.inr ⟨1, .inl rfl, e⟩)))⟩
  · exact h ⟨k, hk, .inr (.inr (.inr (.inr ⟨2, .inr (.inl rfl), e⟩)))⟩
  · exact h ⟨k, hk, .inr (.inr (.inr (.inr ⟨3, .inr (.inr rfl), e⟩)))⟩

/-- A start cell below the cell count whose bit is set passes. -/
theorem Bus.startCells_cons_ok {b : Bus} (h : b.script = []) (p : Params) {c : Nat} (hc : c < p.cellCount)
    (hused : cellUsed (b.peek (p.bitmapWord c)) c = true) {cs : List Nat} (hcs : b.startCells p cs = (b, some true)) :
    b.startCells p (c :: cs) = (b, some true) := by
  unfold Bus.startCells
  rw [if_neg (Nat.not_le_of_lt hc), Bus.read_quiet h]
  simp only [hcs, hused, Bool.and_self]

/-! ## The parameters (R163, R167) -/

theorem clampTo_eq {lo hi : Nat} (h : lo ≤ hi) (n : Nat) : clampTo lo hi n = if n < lo then lo else if hi < n then hi else n := by
  unfold clampTo
  split
  · omega
  · split <;> omega

theorem clampTo_le {lo hi : Nat} (h : lo ≤ hi) (n : Nat) : clampTo lo hi n ≤ hi := by
  unfold clampTo
  omega

/-- The parameters that START takes from the anchor. -/
theorem Bus.paramsOf_anchorWords (b : Bus) : paramsOf b.anchorWords =
    { poolOffset := b.peek 1
      cellCount := b.anchor 2
      bitmapOffset := b.peek 3
      postingStart := b.anchor 4
      noticeStart := b.anchor 5
      boardMap := b.peek 6
      formatTable := b.peek 7
      keyTable := b.peek 10
      feedPoll := clampTo 1 50 (b.anchor 13)
      t1 := clampTo 2 60 (b.anchor 14)
      t2 := clampTo (clampTo 2 60 (b.anchor 14) + 1) 600 (b.anchor 15)
      highlight := clampTo 1 15 (b.anchor 16)
      nightDelay := clampTo 0 255 (b.anchor 17) } := rfl

/-- A tape unit with the parameters from word `k` on (R112, R167). -/
theorem Bus.tapeOf_anchorWords (b : Bus) {k : Nat} (hk : k = 18 ∨ k = 26) : tapeOf b.anchorWords k =
    { Tape.reset with
      rate := if b.anchor k < 4 then 4 else if 24 < b.anchor k then 24 else b.anchor k
      e1 := b.anchor (k + 1)
      e2 := b.anchor (k + 2)
      e3 := b.anchor (k + 3)
      x1 := b.anchor (k + 4)
      x2 := b.anchor (k + 5)
      x3 := b.anchor (k + 6)
      block := if b.anchor (k + 7) < 10 then 10 else if 999 < b.anchor (k + 7) then 999 else b.anchor (k + 7) } := by
  rw [← clampTo_eq (show 4 ≤ 24 by omega), ← clampTo_eq (show 10 ≤ 999 by omega)]
  obtain rfl | rfl := hk <;> rfl

/-- The session state of START is that of word 12, and CLOSED for a word that names none (R64). -/
theorem Bus.sessionOf_anchorWords (b : Bus) : (sessionOf (anchorAt b.anchorWords 12)).getD .closed =
    if b.anchor 12 = 0 then .preOpen else if b.anchor 12 = 1 then .opened else if b.anchor 12 = 2 then .marketHalt else .closed := by
  have h : (anchorAt b.anchorWords 12).toNat = b.anchor 12 := rfl
  unfold sessionOf
  rw [h]
  split <;> simp_all

/-- The level of a group is its three bits of word 11 (R180). -/
theorem Group.levelled_eq (w : Word) (i : Fin 5) (g : Group) : { g with level := levelOf w i } = g.levelled w.toNat i := by
  unfold Group.levelled levelOf Word.bits
  congr 1
  apply Fin.ext
  show w.toNat / 2 ^ (3 * i.val) % 2 ^ 3 = w.toNat / 8 ^ i.val % 8
  rw [pow_mul]
  norm_num

/-! ## START succeeds (R166, R168) -/

theorem Bus.takeLevels_peek (b : Bus) (w o : Word) : (b.takeLevels w).peek o = b.peek o := rfl

/-- Two start cells that the host has placed in the pool pass. -/
theorem Bus.startCells_sound {b : Bus} (h : (b.takeLevels (b.peek 11)).script = []) (hpost : b.anchor 4 < b.anchor 2)
    (hnotice : b.anchor 5 < b.anchor 2) (hpostUsed : b.cellSet (b.anchor 4)) (hnoticeUsed : b.cellSet (b.anchor 5)) :
    (b.takeLevels (b.peek 11)).startCells (paramsOf b.anchorWords) [b.anchor 4, b.anchor 5] =
      (b.takeLevels (b.peek 11), some true) := by
  rw [Bus.paramsOf_anchorWords]
  refine Bus.startCells_cons_ok h _ hpost ?_ (Bus.startCells_cons_ok h _ hnotice ?_ rfl)
  · rw [Bus.takeLevels_peek]; exact hpostUsed
  · rw [Bus.takeLevels_peek]; exact hnoticeUsed

/-- Validation of a sound anchor changes the levels and what the groups request, and gives the words (R166, R180). -/
theorem Bus.validate_sound {b : Bus} (h : b.script = [])
    (hsound : ¬ (BadRange b.anchor ∨ BadLayout b.anchor ∨ BadParameter b.anchor ∨ b.BadStartCell)) :
    b.validate = (b.takeLevels (b.peek 11), some b.anchorWords) := by
  simp only [not_or] at hsound
  obtain ⟨hrange, hlayout, hparameter, hcell⟩ := hsound
  have hflags : layoutFlags b.anchorWords = [] := by
    simp [layoutFlags, Bus.layoutRange_eq_false hrange, Bus.layoutConflict_eq_false hlayout]
  have hparam : parameterFlags b.anchorWords = [] := by
    simp [parameterFlags, tapeWord, Bus.badTape_eq_false (.inl rfl) hparameter, Bus.badTape_eq_false (.inr rfl) hparameter]
  simp only [Bus.BadStartCell, not_or, not_not, Nat.not_le] at hcell
  obtain ⟨hpost, hnotice, hpostUsed, hnoticeUsed, hne⟩ := hcell
  have hq : (b.takeLevels (b.peek 11)).script = [] := h
  have hcells := b.startCells_sound hq hpost hnotice hpostUsed hnoticeUsed
  have hdiffer : b.anchor 4 ≠ b.anchor 5 := fun e => hne (BitVec.eq_of_toNat_eq e)
  unfold Bus.validate
  rw [Bus.readAnchor_quiet h]
  simp only [hflags, hparam, Bus.setErrors, List.append_nil, List.foldl_nil, Bus.paramsOf_anchorWords] at hcells ⊢
  rw [hcells]
  simp [hdiffer]

/-- The status words get their initial values, and no other word of the area changes (R163, R168). -/
theorem Bus.writeInitial_quiet {b : Bus} (h : b.script = []) : b.writeInitial (paramsOf b.anchorWords) =
    b.pokes [(48, 0), (50, b.peek 4), (51, 0), (52, 0), (53, 0xFFFF), (54, 0)] := by
  have hstart : word (paramsOf b.anchorWords).postingStart = b.peek 4 := by
    show word (b.peek 4).toNat = b.peek 4
    simp
  simp [Bus.writeInitial, initialStatus, h, hstart, Bus.pokes, StatusWord.offset, Config.endLink]

end Sys2Proof.Machine
end

section
/-! PROOF. START succeeds on a sound anchor (R166, R168). -/

namespace Sys2Proof.Machine

/-- The bus as START leaves it: the levels taken, then the initial status words (R163, R180). -/
def Bus.started (b : Bus) : Bus :=
  (({ b.acceptCommand with phase := .checking } : Bus).takeLevels (b.peek 11)).pokes
    [(48, 0), (50, b.peek 4), (51, 0), (52, 0), (53, 0xFFFF), (54, 0)]

theorem State.start_sound {s : State} (hq : s.bus.script = [])
    (hsound : ¬ (BadRange s.bus.anchor ∨ BadLayout s.bus.anchor ∨ BadParameter s.bus.anchor ∨ s.bus.BadStartCell)) :
    s.start = ((s.withBus s.bus.started).loadAnchor s.bus.anchorWords).beginLine ⟨0, [1, 2, 3], .start⟩ := by
  have hv : ({ s.bus.acceptCommand with phase := .checking } : Bus).validate =
      (({ s.bus.acceptCommand with phase := .checking } : Bus).takeLevels (s.bus.peek 11), some s.bus.anchorWords) :=
    Bus.validate_sound hq hsound
  have hw := Bus.writeInitial_quiet
    (b := ({ s.bus.acceptCommand with phase := .checking } : Bus).takeLevels (s.bus.peek 11)) hq
  unfold State.start
  rw [hv]
  exact congrArg (fun b => ((s.withBus b).loadAnchor s.bus.anchorWords).beginLine ⟨0, [1, 2, 3], .start⟩) hw

theorem Bus.started_eq (b : Bus) :
    b.started = { b.pokes [(48, 0), (50, b.peek 4), (51, 0), (52, 0), (53, 0xFFFF), (54, 0)] with
      phase := .checking, refused := false, groups := b.started.groups } := rfl

theorem Bus.started_groups (b : Bus) (i : Fin 5) : Bank.get b.started.groups i =
    Group.settle b.vectorBase.isSome ((Bank.get b.groups i).levelled (b.anchor 11) i) := by
  have h : b.started.groups = ((({ b.acceptCommand with phase := .checking } : Bus).takeLevels (b.peek 11))).groups := rfl
  rw [h]
  simp only [Bus.takeLevels, Bus.settle, Bank.get_mapAll, Group.levelled_eq]
  congr 1
  simp [Bus.mayRequest, Bus.acceptCommand]

/-- Settles O31: validation of a sound anchor passes, and what follows it is read off the blocks that START sets and off step 1 of
the REMAP that it begins. -/
theorem startSucceeds : Obligations.StartSucceeds := by
  intro h before s hs hq hready hwf
  dsimp only
  intro hsound
  have hx : exec (.start h) before = .next s.start := by
    subst hs
    exact congrArg _ (if_pos hready)
  rw [hx, State.start_sound hq hsound]
  refine ⟨_, rfl, ?_, fun i => ?_, fun j => ?_, fun k => ?_, fun n => ?_, fun d => ?_⟩
  · refine (State.beginLine_rest _ _).trans ?_
    rw [State.mk.injEq]
    refine ⟨rfl, ?_, ?_, rfl, rfl, ?_, rfl, rfl, (State.beginLine_tapes _ _).symm, rfl, rfl, rfl, rfl⟩
    · rw [State.beginLine_bus]
      exact s.bus.started_eq
    · have ht1 : clampTo 2 60 (s.bus.anchor 14) + 1 ≤ 600 := by
        have := clampTo_le (show 2 ≤ 60 by omega) (s.bus.anchor 14)
        omega
      refine s.bus.paramsOf_anchorWords.trans ?_
      rw [clampTo_eq ht1, clampTo_eq (show 1 ≤ 50 by omega), clampTo_eq (show 2 ≤ 60 by omega), clampTo_eq (show 1 ≤ 15 by omega),
        clampTo_eq (show 0 ≤ 255 by omega)]
    · exact congrArg (fun x => { s.session with state := x }) s.bus.sessionOf_anchorWords
  · rw [State.beginLine_bus]
    exact s.bus.started_groups i
  · have hr : (State.loadAnchor (s.withBus s.bus.started) s.bus.anchorWords).record j = { s.record j with tapeRef := none } :=
      get_clearRefs hwf j.val
    rw [State.beginLine_records _ _ j, hr]
  · exact State.beginLine_gone _ _ k
  · have hn : (State.loadAnchor (s.withBus s.bus.started) s.bus.anchorWords).line n =
        { BoardLine.reset with priority := min 32 (s.bus.anchor (34 + n.val)) } := by
      refine (Bank.get_tabulate _ n).trans ?_
      rw [Bus.anchorAt_anchorWords _ (by omega)]
      rfl
    rw [State.beginLine_line, hn]
    by_cases h0 : n = 0 <;> simp [h0, BoardLine.reset]
  · rw [State.tape, State.beginLine_tapes]
    refine (Bank.get_tabulate _ _).trans ?_
    cases d
    · exact s.bus.tapeOf_anchorWords (.inl rfl)
    · exact s.bus.tapeOf_anchorWords (.inr rfl)

end Sys2Proof.Machine
end

section
/-! PROOF. What the statements about postings share (chapters 03 and 11): the kind and subcommand words of each row, the words intake
reads, and the command of a row with the verdict it comes to. -/

namespace Sys2Proof.Machine

/-! ## The rows of the posting table (chapter 11, Posting cells) -/

/-- The kind word of a row, as a number. -/
def Row.kind : Row → Nat
  | .trade => 1
  | .quote => 2
  | .cancel => 3
  | .summary => 4
  | .halt => 5
  | .resume => 6
  | .define => 7
  | .session => 8
  | .tapeText => 9
  | .text | .setPage | .lock | .unlock | .clearStack | .setWatch | .clearWatches => 10
  | .remap => 11
  | .snapshot => 12
  | .mark => 13

/-- The subcommand byte of a row of TERMINAL, as a number; 0 for every other row. -/
def Row.subcommand : Row → Nat
  | .text => 1
  | .setPage => 2
  | .lock => 3
  | .unlock => 4
  | .clearStack => 5
  | .setWatch => 6
  | .clearWatches => 7
  | _ => 0

theorem subcommandOf_eq_row {b : Byte} {r : Row} (h : subcommandOf b = .row r) : r.kind = 10 ∧ b.toNat = r.subcommand := by
  unfold subcommandOf at h
  split at h <;> cases h <;> exact ⟨rfl, by assumption⟩

theorem kind_of_namedBy {kind first : Word} {r : Row} (h : namedBy kind first = .row r) : kind.toNat = r.kind := by
  unfold namedBy at h
  split at h
  case h_10 e => exact e.trans (subcommandOf_eq_row h).1.symm
  all_goals cases h <;> assumption

theorem subcommand_of_namedBy {kind first : Word} {r : Row} (h : namedBy kind first = .row r) (hk : r.kind = 10) :
    first.low.toNat = r.subcommand := by
  have hkind := kind_of_namedBy h
  rw [hk] at hkind
  unfold namedBy at h
  rw [hkind] at h
  exact (subcommandOf_eq_row h).2

theorem State.Holds.kind {s : State} {r : Row} {c : Nat} (h : s.Holds (.row r) c) : (s.posted c 3).toNat = r.kind :=
  kind_of_namedBy h.named

theorem State.Holds.subcommand {s : State} {r : Row} {c : Nat} (h : s.Holds (.row r) c) (hk : r.kind = 10) :
    (s.posted c 4).low.toNat = r.subcommand := subcommand_of_namedBy h.named hk

/-! ## The words of the posting in a cell -/

/-- The body words of the posting in a cell, as intake reads them over a bus that completes every access. -/
def State.body (s : State) (c : Nat) : Body := bodyOf (s.posted c 3) (s.posted c)

/-- A word that intake reads of a posting stands in the body as it stands in the cell. -/
theorem State.body_at {s : State} {c k : Nat} (h : k ∈ readWords (s.posted c 3) (s.posted c)) :
    (s.body c).at k = s.posted c k := by
  unfold State.body
  rw [Body.at_bodyOf, if_pos h]

theorem mem_readWords_first {kind : Word} {k : Nat} (h : k ∈ firstWords kind) (f : Nat → Word) : k ∈ readWords kind f :=
  List.mem_append_left _ (List.mem_append_left _ h)

/-- The words intake reads of a posting at once are those of its row. -/
theorem State.Holds.body_first {s : State} {r : Row} {c : Nat} (h : s.Holds (.row r) c) {k : Nat}
    (hk : ∀ w : Word, w.toNat = r.kind → k ∈ firstWords w) : (s.body c).at k = s.posted c k :=
  State.body_at (mem_readWords_first (hk _ h.kind) _)

/-- Every row has its first body word read. -/
theorem State.Holds.body_four {s : State} {r : Row} {c : Nat} (h : s.Holds (.row r) c) : (s.body c).at 4 = s.posted c 4 :=
  h.body_first fun w hw => by
    unfold firstWords
    rw [hw]
    cases r <;> simp [Row.kind]

/-- The characters of a posting, when intake reads the words that hold them and they stand in a field of `m` words (R192). -/
theorem State.body_chars {s : State} {c k n m : Nat} (h : ∀ j ∈ charWords k n, j ∈ readWords (s.posted c 3) (s.posted c))
    (hm : n ≤ 2 * m) : (s.body c).chars k n = charsOf ((List.range m).map fun j => s.posted c (k + j)) n := by
  unfold State.body
  rw [Body.chars_bodyOf h]
  exact charsOf_wordsFor hm _

/-! ## The command of a row -/

/-- The checks and the effect of a row. -/
def Row.judge : Row → Judge
  | .trade => judgeTrade
  | .quote => judgeQuote
  | .cancel => judgeCancel
  | .summary => judgeSummary
  | .halt => judgeHalt
  | .resume => judgeResume
  | .define => judgeDefine
  | .session => judgeSession
  | .tapeText => judgeTapeText
  | .text => judgeText
  | .setPage => judgeSetPage
  | .lock => judgeCommand fun s t => s.modifyTerm t (Terminal.setLock true)
  | .unlock => judgeCommand fun s t => s.modifyTerm t (Terminal.setLock false)
  | .clearStack => judgeCommand fun s t => s.modifyTerm t Terminal.clearStack
  | .setWatch => judgeSetWatch
  | .clearWatches => judgeCommand State.clearWatches
  | .remap => judgeRemap
  | .snapshot => judgeSnapshot
  | .mark => judgeMark

/-- A row's command stores what the host stored, and intake takes the posting in hand when it is of the row (log 26). -/
theorem exec_withStores (row : Row) (h : List HostWrite) (before : State) :
    exec (row.withStores h) before = .next ((before.hostWrites h).takePosting row row.judge) := by
  cases row <;> rfl

/-- The results of a posting leave to the TAKEN write the bus, intake and the parameters. -/
structure Results (s u : State) : Prop where
  bus : u.bus = s.bus
  intake : u.intake = s.intake
  params : u.params = s.params

theorem Results.refl (s : State) : Results s s := ⟨rfl, rfl, rfl⟩

theorem Results.trans {s t u : State} (h : Results s t) (g : Results t u) : Results s u :=
  ⟨g.bus.trans h.bus, g.intake.trans h.intake, g.params.trans h.params⟩

theorem Updates.results {s u : State} {i : Ix} {r : Record} {fields : List ChangedField} {mark : Option TickDir}
    (h : Updates s u i r fields mark) : Results s u :=
  ⟨by rw [h.rest], by rw [h.rest], by rw [h.rest]⟩

section

variable {h : List HostWrite} {before s u : State} {c : Nat} {row : Row}

/-- The posting in hand is refused, when its row's checks refuse it. -/
theorem refuses_row {reason : Reason} (hs : s = before.hostWrites h) (hh : s.Holds (.row row) c)
    (hj : row.judge (s.posted c 2) (s.body c) (s.received c) = .refuse reason) :
    Refuses (row.withStores h) before s c reason :=
  refuses_of_judge (by rw [exec_withStores, ← hs]) hh hj

/-- The posting in hand is applied, when its row's checks pass. -/
theorem applies_row {result : State → Prop} (hs : s = before.hostWrites h) (hh : s.Holds (.row row) c)
    (hj : row.judge (s.posted c 2) (s.body c) (s.received c) = .apply u) (hu : Results (s.received c) u) (hr : result u) :
    Applies (row.withStores h) before c result := by
  refine applies_of_judge (by rw [exec_withStores, ← hs]) hh hj ?_ ?_ ?_ hr
  · rw [hu.bus]; exact hh.quiet
  · rw [hu.intake]; exact hh.current
  · rw [hu.params]; exact hh.cell

end

end Sys2Proof.Machine
end

section
/-! PROOF. A TRADE posting (chapter 03, R45 to R47): its checks in their order, the record it leaves, the print to the tape and the
watch checks. -/

namespace Sys2Proof.Machine

/-! ## The checks (R45) -/

/-- The words of a TRADE are read at once. -/
theorem State.Holds.body_trade {s : State} {c : Nat} (h : s.Holds (.row .trade) c) {k : Nat} (hk : 4 ≤ k ∧ k ≤ 12) :
    (s.body c).at k = s.posted c k :=
  h.body_first fun w hw => by
    simp only [firstWords, hw, Row.kind, List.mem_cons, List.not_mem_nil, or_false]
    omega

/-- The fields of the TRADE in a cell, with its price. -/
def State.tradeAt (s : State) (c : Nat) (price : Price) : TradeFields where
  price := price
  volume := volumeOfDouble (s.posted c 7) (s.posted c 8)
  time := (timeOfDouble (s.posted c 9) (s.posted c 10)).toOption
  opening := (s.posted c 11).bit 0
  outOfSeq := (s.posted c 11).bit 1
  oddLot := (s.posted c 11).bit 2
  id := s.posted c 12

/-- A TRADE has no fields to go on with when its price or its time of day is out of range (R45). -/
theorem tradeFields_bad {s : State} {c : Nat} (h : s.Holds (.row .trade) c)
    (hbad : priceOfDouble (s.posted c 5) (s.posted c 6) = none ∨ timeOfDouble (s.posted c 9) (s.posted c 10) = .outOfRange) :
    tradeFields (s.body c) = none := by
  rw [tradeFields, h.body_trade (by omega : 4 ≤ 5 ∧ 5 ≤ 12), h.body_trade (by omega : 4 ≤ 6 ∧ 6 ≤ 12),
    h.body_trade (by omega : 4 ≤ 9 ∧ 9 ≤ 12), h.body_trade (by omega : 4 ≤ 10 ∧ 10 ≤ 12)]
  rcases hbad with e | e <;> rw [e]
  split <;> simp_all

theorem tradeFields_legal {s : State} {c : Nat} {price : Price} (h : s.Holds (.row .trade) c)
    (hp : priceOfDouble (s.posted c 5) (s.posted c 6) = some price)
    (ht : timeOfDouble (s.posted c 9) (s.posted c 10) ≠ .outOfRange) : tradeFields (s.body c) = some (s.tradeAt c price) := by
  rw [tradeFields]
  simp only [h.body_trade (by omega : 4 ≤ 5 ∧ 5 ≤ 12), h.body_trade (by omega : 4 ≤ 6 ∧ 6 ≤ 12),
    h.body_trade (by omega : 4 ≤ 7 ∧ 7 ≤ 12), h.body_trade (by omega : 4 ≤ 8 ∧ 8 ≤ 12),
    h.body_trade (by omega : 4 ≤ 9 ∧ 9 ≤ 12), h.body_trade (by omega : 4 ≤ 10 ∧ 10 ≤ 12),
    h.body_trade (by omega : 4 ≤ 11 ∧ 11 ≤ 12), h.body_trade (by omega : 4 ≤ 12 ∧ 12 ≤ 12), hp]
  rfl

/-- The session takes a TRADE exactly when R45 does not refuse it WRONG SESSION. -/
theorem takesTrade_eq_false (st : SessionState) (late : Bool) :
    st.takesTrade late = false ↔ st = .preOpen ∨ st = .marketHalt ∨ (st = .closed ∧ late = false) := by
  cases st <;> simp [SessionState.takesTrade]

/-- The verdict of a TRADE whose index is in range, by its fields, the instrument and the session (R45). -/
theorem judgeTrade_body {s : State} {c : Nat} {i : Ix} {seq : Word} (h : s.Holds (.row .trade) c)
    (hi : Ix.ofNat? (s.posted c 4).toNat = some i) :
    judgeTrade seq (s.body c) (s.received c) =
      (tradeFields (s.body c)).elim (.refuse .badField) fun x =>
        if (s.record i).state = .undefined then .refuse .undefinedInstrument
        else if (s.record i).state = .halted then .refuse .halted
        else if s.session.state.takesTrade x.outOfSeq then .apply ((s.received c).applyTrade i x)
        else .refuse .wrongSession := by
  rw [judgeTrade, withInstrument, h.body_four, hi]
  cases tradeFields (s.body c) <;> rfl

/-! ## The record (R25 to R27, R29, R32, R46) -/

theorem mem_tradeChanged (r : Record) (x : TradeFields) (f : ChangedField) :
    f ∈ tradeChanged r x ↔
      f = .volume ∨ f = .history ∨ f = .printTime ∨ (x.outOfSeq = false ∧ (f = .last ∨ f = .tick)) ∨
      (f = .opening ∧ (r.openPx = none ∨ x.opening = true)) ∨
      (f = .high ∧ ∀ p, r.highPx = some p → p < x.price) ∨ (f = .low ∧ ∀ p, r.lowPx = some p → x.price < p) := by
  have hopen : setsOpen r x = true ↔ r.openPx = none ∨ x.opening = true := by simp [setsOpen]
  have hhigh : raisesHigh r.highPx x.price = true ↔ ∀ p, r.highPx = some p → p < x.price := by
    cases r.highPx <;> simp [raisesHigh]
  have hlow : lowersLow r.lowPx x.price = true ↔ ∀ p, r.lowPx = some p → x.price < p := by
    cases r.lowPx <;> simp [lowersLow]
  rw [← hopen, ← hhigh, ← hlow]
  cases f <;> simp [tradeChanged]

theorem tradeChanged_ne_nil (r : Record) (x : TradeFields) : tradeChanged r x ≠ [] :=
  List.ne_nil_of_mem ((mem_tradeChanged r x .volume).2 (.inl rfl))

/-- The volume is among the changed fields, so that a terminal row shows one of them (R40, R46). -/
theorem tradeChanged_onRow (r : Record) (x : TradeFields) : (tradeChanged r x).any (fun f => decide (f ∈ rowFields)) = true :=
  List.any_eq_true.2 ⟨.volume, (mem_tradeChanged r x .volume).2 (.inl rfl), by decide⟩

/-- The traded price widens the high to the greater of the two (R25). -/
theorem raisesHigh_eq_max (high : Option Price) (p : Price) :
    (if raisesHigh high p then some p else high) = some (high.elim p fun q => max q p) := by
  cases high with
  | none => rfl
  | some q =>
    by_cases h : q < p
    · simp [raisesHigh, h, max_eq_right h.le]
    · simp [raisesHigh, h, max_eq_left (not_lt.1 h)]

/-- The traded price widens the low to the lesser of the two (R25). -/
theorem lowersLow_eq_min (low : Option Price) (p : Price) :
    (if lowersLow low p then some p else low) = some (low.elim p fun q => min q p) := by
  cases low with
  | none => rfl
  | some q =>
    by_cases h : p < q
    · simp [lowersLow, h, min_eq_right h.le]
    · simp [lowersLow, h, min_eq_left (not_lt.1 h)]

/-- The record after a TRADE, as R46 puts it. -/
theorem Record.trade_eq (r : Record) (x : TradeFields) (now : Option Tod) :
    r.trade x now = { r with
      volume := r.volume.satAdd x.volume
      highPx := some (r.highPx.elim x.price fun p => max p x.price)
      lowPx := some (r.lowPx.elim x.price fun p => min p x.price)
      openPx := if r.openPx = none ∨ x.opening = true then some x.price else r.openPx
      lastPx := if x.outOfSeq then r.lastPx else some x.price
      tick := if x.outOfSeq then r.tick else nextTick r x.price
      history := (⟨x.id, x.price, x.volume, false⟩ :: r.history).take 4
      printTime := x.time.or now } := by
  unfold Record.trade
  rw [raisesHigh_eq_max, lowersLow_eq_min]
  simp [setsOpen, Config.historyCapacity]

/-! ## The effect (R46, R47) -/

theorem State.record_handWatchCheck (s : State) (i : Ix) (p : Price) (j : Ix) :
    (s.handWatchCheck i p).record j = s.record j := by
  simp [State.handWatchCheck]

/-- A watch check handed on after an update of a record is no part of the update. -/
theorem Updates.handWatchCheck {s u : State} {i : Ix} {r : Record} {fields : List ChangedField} {mark : Option TickDir}
    (h : Updates s u i r fields mark) (p : Price) : Updates s (u.handWatchCheck i p) i r fields mark := by
  obtain ⟨rest, record, others⟩ := h
  refine ⟨?_, (u.record_handWatchCheck i p i).trans record, fun j hj => (u.record_handWatchCheck i p j).trans (others j hj)⟩
  rw [State.handWatchCheck_eq, rest]

theorem State.term_handWatchCheck (s : State) (i : Ix) (p : Price) (k : Fin 16) :
    (s.handWatchCheck i p).term k =
      if Bank.get (s.record i).watchMask k then { s.term k with checks := (s.term k).checks ++ [(i, p)] } else s.term k := by
  rw [State.handWatchCheck_eq]
  exact Bank.get_mapAll _ _ _

/-- The update and the print of a TRADE, before the watch checks: no print for an ODD LOT (R47). -/
def State.printed (s : State) (i : Ix) (x : TradeFields) : State :=
  (s.updateRecord i ((s.record i).trade x s.session.tod) (tradeChanged (s.record i) x)
    (if x.outOfSeq then none else some ((s.record i).trade x s.session.tod).tick)).handAssigned
    (if x.oddLot then none else (s.record i).tape)
    (printOf i (s.record i).mode x (x.time.or s.session.tod))

theorem State.applyTrade_eq (s : State) (i : Ix) (x : TradeFields) :
    s.applyTrade i x = if x.outOfSeq then s.printed i x else (s.printed i x).handWatchCheck i x.price := by
  unfold State.applyTrade State.printed
  cases x.oddLot <;> rfl

theorem State.printed_updates (s : State) (i : Ix) (x : TradeFields) :
    Updates s (s.printed i x) i ((s.record i).trade x s.session.tod) (tradeChanged (s.record i) x)
      (if x.outOfSeq then none else some ((s.record i).trade x s.session.tod).tick) :=
  (Updates.updateRecord s i _ _ (tradeChanged_ne_nil _ _)).handAssigned _ _

theorem State.applyTrade_updates (s : State) (i : Ix) (x : TradeFields) :
    Updates s (s.applyTrade i x) i ((s.record i).trade x s.session.tod) (tradeChanged (s.record i) x)
      (if x.outOfSeq then none else some ((s.record i).trade x s.session.tod).tick) := by
  have hu := s.printed_updates i x
  rw [State.applyTrade_eq]
  generalize (if x.outOfSeq then none else some ((s.record i).trade x s.session.tod).tick) = mark at hu ⊢
  split
  · exact hu
  · exact hu.handWatchCheck x.price

/-- The tape that the instrument is assigned to gets the print, unless it is an ODD LOT (R47). -/
theorem State.tape_applyTrade (s : State) (i : Ix) (x : TradeFields) (d : TapeId) :
    (s.applyTrade i x).tape d =
      if (s.record i).tape = some d ∧ x.oddLot = false then
        (s.tape d).given (printOf i (s.record i).mode x (x.time.or s.session.tod))
      else s.tape d := by
  have hprinted : (s.applyTrade i x).tape d = (s.printed i x).tape d := by
    rw [State.applyTrade_eq]
    split <;> rfl
  have hupdated : (s.updateRecord i ((s.record i).trade x s.session.tod) (tradeChanged (s.record i) x)
      (if x.outOfSeq then none else some ((s.record i).trade x s.session.tod).tick)).tape d = s.tape d := by
    unfold State.tape
    rw [State.updateRecord_tapes]
  rw [hprinted, State.printed, State.tape_handAssigned, hupdated]
  cases x.oddLot <;> simp

/-- The contexts are told of a TRADE, and those that watch the instrument get a watch check unless it is OUT-OF-SEQUENCE (R40,
R47). -/
theorem State.term_applyTrade (s : State) (i : Ix) (x : TradeFields) (k : Fin 16) :
    (s.applyTrade i x).term k =
      let y := (s.term k).toldOf i (Bank.get (s.record i).interest k)
      if x.outOfSeq = false ∧ Bank.get (s.record i).watchMask k = true then { y with checks := y.checks ++ [(i, x.price)] }
      else y := by
  have htold : (s.printed i x).term k = (s.term k).toldOf i (Bank.get (s.record i).interest k) := by
    unfold State.printed State.term
    rw [State.handAssigned_terms]
    refine (State.term_updateRecord s i _ _ (tradeChanged_ne_nil _ _) k).trans ?_
    rw [tradeChanged_onRow, Bool.true_and]
    rfl
  have hmask : ((s.printed i x).record i).watchMask = (s.record i).watchMask := by
    rw [(s.printed_updates i x).record]
    rfl
  rw [State.applyTrade_eq]
  cases x.outOfSeq with
  | true => simpa using htold
  | false => simp [State.term_handWatchCheck, htold, hmask]

/-! ## The posting -/

/-- Settles O1: each check of R45 in its turn decides the verdict, and a TRADE that passes them all updates its record. -/
theorem tradeChecksInOrder : Obligations.TradeChecksInOrder := by
  intro h before s c i hs hh hi
  have hj := judgeTrade_body (seq := s.posted c 2) hh hi
  dsimp only
  split
  · next hbad =>
    rw [tradeFields_bad hh hbad] at hj
    exact refuses_row (row := .trade) hs hh hj
  next hok =>
  rw [not_or] at hok
  obtain ⟨price, hp⟩ := Option.ne_none_iff_exists'.1 hok.1
  rw [tradeFields_legal hh hp hok.2, Option.elim] at hj
  split
  · next hu =>
    rw [if_pos hu] at hj
    exact refuses_row (row := .trade) hs hh hj
  next hu =>
  rw [if_neg hu] at hj
  split
  · next hhalted =>
    rw [if_pos hhalted] at hj
    exact refuses_row (row := .trade) hs hh hj
  next hhalted =>
  rw [if_neg hhalted] at hj
  split
  · next hsession =>
    rw [if_neg (by rw [(takesTrade_eq_false _ (s.tradeAt c price).outOfSeq).2 hsession]; exact Bool.false_ne_true)] at hj
    exact refuses_row (row := .trade) hs hh hj
  · next hsession =>
    rw [if_pos (by rwa [← takesTrade_eq_false, Bool.not_eq_false] at hsession)] at hj
    have hu := (s.received c).applyTrade_updates i (s.tradeAt c price)
    exact ⟨_, _, _, applies_row (row := .trade) hs hh hj hu.results hu⟩

/-- Settles O2: a TRADE that passes the checks is applied, and the record, the changed fields, the print and the watch checks are read
off its effect. -/
theorem tradeTaken : Obligations.TradeTaken := by
  intro h before s c i price hs hh hi hp ht hactive hsession
  have hj := judgeTrade_body (seq := s.posted c 2) hh hi
  have htakes : s.session.state.takesTrade (s.tradeAt c price).outOfSeq = true := by
    rcases hsession with e | ⟨e, hlate⟩
    · rw [e]; rfl
    · rw [e]; exact hlate
  rw [tradeFields_legal hh hp ht, Option.elim, hactive, if_neg (by decide), if_neg (by decide), if_pos htakes] at hj
  have hu := (s.received c).applyTrade_updates i (s.tradeAt c price)
  have hrecord := hu.record
  refine applies_row (row := .trade) hs hh hj hu.results ⟨_, hrecord.symm ▸ hu, mem_tradeChanged _ _, ?_, ?_, ?_⟩
  · refine ⟨(s.record i).volume.satAdd (s.tradeAt c price).volume, rfl, hrecord.trans ?_⟩
    refine (Record.trade_eq (s.record i) (s.tradeAt c price) s.session.tod).trans ?_
    cases (s.record i).highPx <;> cases (s.record i).lowPx <;> rfl
  · exact (s.received c).tape_applyTrade i (s.tradeAt c price)
  · exact (s.received c).term_applyTrade i (s.tradeAt c price)

end Sys2Proof.Machine
end

section
/-! PROOF. QUOTE and SUMMARY (R48, R49), HALT and RESUME (R51, R52), SNAPSHOT and MARK (R61, R62). -/

namespace Sys2Proof.Machine

/-! ## What an update with an input to the tape does (R40, R43) -/

/-- Sets of fields that agree on showing in a terminal row reach the same contexts (R40). -/
theorem ToldTerms.of_any {s u : State} {i : Ix} {fields fields' : List ChangedField} (h : ToldTerms s u i fields)
    (e : fields.any (fun f => decide (f ∈ rowFields)) = fields'.any fun f => decide (f ∈ rowFields)) :
    ToldTerms s u i fields' := fun k => by rw [h k, e]

/-- An update that keeps the interest mask, and an input to a tape after it. -/
theorem updates_and_hands (s : State) (i : Ix) {r : Record} {fields : List ChangedField} (mark : Option TickDir)
    (d : Option TapeId) (a : Arrival) (hf : fields ≠ []) (hi : r.interest = (s.record i).interest) :
    Updates s ((s.updateRecord i r fields mark).handAssigned d a) i r fields mark ∧
      ToldTerms s ((s.updateRecord i r fields mark).handAssigned d a) i fields ∧
      ∀ e, ((s.updateRecord i r fields mark).handAssigned d a).tape e = if d = some e then (s.tape e).given a else s.tape e := by
  refine ⟨(Updates.updateRecord s i r mark hf).handAssigned d a, fun k => ?_, fun e => ?_⟩
  · refine Eq.trans ?_ (ToldTerms.updateRecord s i mark hf hi k)
    unfold State.term
    rw [State.handAssigned_terms]
  · have he : (s.updateRecord i r fields mark).tape e = s.tape e := by
      unfold State.tape
      rw [State.updateRecord_tapes]
    rw [State.tape_handAssigned, he]

/-! ## QUOTE (R28, R48) -/

/-- The words that intake reads of a QUOTE (R48, R192). -/
theorem readWords_quote {kind : Word} (hk : kind.toNat = 2) (f : Nat → Word) :
    readWords kind f =
      [4, 5, 9, 10] ++ ((if (f 5).bit 8 then [] else [6]) ++ if (f 5).bit 9 then [] else [7, 8]) := by
  have h5 : Body.at [(4, f 4), (5, f 5), (9, f 9), (10, f 10)] 5 = f 5 := rfl
  simp [readWords, firstWords, moreWords, lastWords, hk, h5]

/-- The record after the QUOTE in a cell (R28, R48). -/
def State.quoted (s : State) (c : Nat) (r : Record) : Record :=
  { r with
    bidPx := quotePrice ((s.posted c 5).bit 8) (s.posted c 5).low (s.posted c 6)
    askPx := quotePrice ((s.posted c 5).bit 9) (s.posted c 7).low (s.posted c 8)
    bidSize := s.posted c 9
    askSize := s.posted c 10 }

/-- A price whose absence flag is set is absent, whatever is read in its place. -/
theorem quotePrice_congr {absent : Bool} {hi hi' : Byte} {lo lo' : Word} (h : absent = false → hi = hi' ∧ lo = lo') :
    quotePrice absent hi lo = quotePrice absent hi' lo' := by
  cases absent with
  | true =>
    unfold quotePrice
    rw [if_pos rfl, if_pos rfl]
  | false =>
    obtain ⟨ehi, elo⟩ := h rfl
    rw [ehi, elo]

theorem State.applyQuote_body {s : State} {c : Nat} (h : s.Holds (.row .quote) c) (i : Ix) :
    (s.received c).applyQuote i (s.body c) =
      (s.received c).updateRecord i (s.quoted c (s.record i)) [.bid, .ask, .bidSize, .askSize] none := by
  have hread := readWords_quote h.kind (s.posted c)
  have hfirst : ∀ k ∈ [4, 5, 9, 10], (s.body c).at k = s.posted c k := fun k hk =>
    State.body_at (hread ▸ List.mem_append_left _ hk)
  have hbid := quotePrice_congr (absent := (s.posted c 5).bit 8) (hi := (s.posted c 5).low) (hi' := (s.posted c 5).low)
    (lo := (s.body c).at 6) (lo' := s.posted c 6) fun hb => ⟨rfl, State.body_at (by rw [hread, hb]; simp)⟩
  have hask := quotePrice_congr (absent := (s.posted c 5).bit 9) (hi := ((s.body c).at 7).low) (hi' := (s.posted c 7).low)
    (lo := (s.body c).at 8) (lo' := s.posted c 8) fun hb =>
      ⟨congrArg Word.low (State.body_at (by rw [hread, hb]; simp)), State.body_at (by rw [hread, hb]; simp)⟩
  unfold State.applyQuote
  rw [hfirst 5 (by simp), hfirst 9 (by simp), hfirst 10 (by simp), hbid, hask]
  rfl

/-- The verdict of a QUOTE whose index is in range (R48). -/
theorem judgeQuote_body {s : State} {c : Nat} {i : Ix} {seq : Word} (h : s.Holds (.row .quote) c)
    (hi : Ix.ofNat? (s.posted c 4).toNat = some i) :
    judgeQuote seq (s.body c) (s.received c) =
      if (s.record i).state = .undefined then .refuse .undefinedInstrument
      else .apply ((s.received c).updateRecord i (s.quoted c (s.record i)) [.bid, .ask, .bidSize, .askSize] none) := by
  rw [← State.applyQuote_body h]
  simp only [judgeQuote, withInstrument, whenDefined, h.body_four, hi]
  rfl

/-! ## SUMMARY (R49) -/

/-- The words that intake reads of a SUMMARY: those of the fields whose presence flags are set (R49, R192). -/
theorem readWords_summary {kind : Word} (hk : kind.toNat = 4) (f : Nat → Word) :
    readWords kind f =
      [4, 5] ++ (List.range 5).flatMap fun j => if (f 5).bit j then [6 + 2 * j, 7 + 2 * j] else [] := by
  have h5 : Body.at [(4, f 4), (5, f 5)] 5 = f 5 := rfl
  simp [readWords, firstWords, moreWords, lastWords, hk, h5]

/-- A price of the SUMMARY in a cell: none when its presence flag is clear. -/
def State.summaryPriceAt (s : State) (c j : Nat) : Option (Option Price) :=
  if (s.posted c 5).bit j then some (priceOfDouble (s.posted c (6 + 2 * j)) (s.posted c (7 + 2 * j))) else none

/-- The fields of the SUMMARY in a cell (R49). -/
def State.summaryAt (s : State) (c : Nat) : SummaryFields where
  openPx := s.summaryPriceAt c 0
  highPx := s.summaryPriceAt c 1
  lowPx := s.summaryPriceAt c 2
  prevClose := s.summaryPriceAt c 3
  volume := if (s.posted c 5).bit 4 then some (volumeOfDouble (s.posted c 14) (s.posted c 15)) else none

theorem summaryFields_body {s : State} {c : Nat} (h : s.Holds (.row .summary) c) :
    summaryFields (s.body c) = s.summaryAt c := by
  have hread := readWords_summary h.kind (s.posted c)
  have h5 : (s.body c).at 5 = s.posted c 5 := State.body_at (by rw [hread]; simp)
  have hnamed : ∀ j < 5, (s.posted c 5).bit j = true →
      (s.body c).at (6 + 2 * j) = s.posted c (6 + 2 * j) ∧ (s.body c).at (7 + 2 * j) = s.posted c (7 + 2 * j) := by
    intro j hj hb
    constructor <;> refine State.body_at (hread ▸ List.mem_append_right _ (List.mem_flatMap.2 ⟨j, List.mem_range.2 hj, ?_⟩)) <;>
      simp [hb]
  have hprice : ∀ j < 5, summaryPrice (s.body c) j = s.summaryPriceAt c j := by
    intro j hj
    unfold summaryPrice State.summaryPriceAt
    rw [h5]
    split
    · next hb => rw [(hnamed j hj hb).1, (hnamed j hj hb).2]
    · rfl
  have hvolume : summaryFields (s.body c) = { summaryFields (s.body c) with volume := (s.summaryAt c).volume } := by
    unfold summaryFields State.summaryAt
    rw [h5]
    split
    · next hb => rw [(hnamed 4 (by omega) hb).1, (hnamed 4 (by omega) hb).2]
    · rfl
  rw [hvolume]
  simp only [summaryFields, hprice 0 (by omega), hprice 1 (by omega), hprice 2 (by omega), hprice 3 (by omega)]
  rfl

theorem getD_ite_some {α : Type} (b : Bool) (x y : α) : (if b then some x else none).getD y = if b then x else y := by
  cases b <;> rfl

/-- A price after the SUMMARY in a cell: the one it names, or the old one. -/
def State.summaryPriceAfter (s : State) (c j : Nat) (was : Option Price) : Option Price :=
  if (s.posted c 5).bit j then priceOfDouble (s.posted c (6 + 2 * j)) (s.posted c (7 + 2 * j)) else was

/-- The record after the SUMMARY in a cell (R49). -/
theorem Record.summary_summaryAt (s : State) (c : Nat) (r : Record) :
    r.summary (s.summaryAt c) = { r with
      openPx := s.summaryPriceAfter c 0 r.openPx
      highPx := s.summaryPriceAfter c 1 r.highPx
      lowPx := s.summaryPriceAfter c 2 r.lowPx
      prevClose := s.summaryPriceAfter c 3 r.prevClose
      volume := if (s.posted c 5).bit 4 then volumeOfDouble (s.posted c 14) (s.posted c 15) else r.volume } := by
  simp only [Record.summary, State.summaryAt, State.summaryPriceAt, State.summaryPriceAfter, getD_ite_some]

/-- A SUMMARY leaves the low above the high exactly when both are present and out of order (R25, R49). -/
theorem Record.rangeOk_eq_false (r : Record) : r.rangeOk = false ↔ ∃ l t, r.lowPx = some l ∧ r.highPx = some t ∧ t < l := by
  unfold Record.rangeOk
  cases r.lowPx <;> cases r.highPx <;> simp

theorem Record.rangeOk_summaryAt (s : State) (c : Nat) (r : Record) : (r.summary (s.summaryAt c)).rangeOk = false ↔
    ∃ l t, s.summaryPriceAfter c 2 r.lowPx = some l ∧ s.summaryPriceAfter c 1 r.highPx = some t ∧ t < l := by
  rw [Record.rangeOk_eq_false, Record.summary_summaryAt]

theorem mem_summaryChanged (s : State) (c : Nat) (x : ChangedField) :
    x ∈ summaryChanged (s.summaryAt c) ↔
      (x = .opening ∧ (s.posted c 5).bit 0 = true) ∨ (x = .high ∧ (s.posted c 5).bit 1 = true) ∨
      (x = .low ∧ (s.posted c 5).bit 2 = true) ∨ (x = .previousClose ∧ (s.posted c 5).bit 3 = true) ∨
      (x = .volume ∧ (s.posted c 5).bit 4 = true) := by
  cases x <;> simp [summaryChanged, State.summaryAt, State.summaryPriceAt]

/-- A SUMMARY changes no field exactly when it names none (R49). -/
theorem summaryChanged_eq_nil (s : State) (c : Nat) :
    summaryChanged (s.summaryAt c) = [] ↔ (List.range 5).all (fun j => !(s.posted c 5).bit j) = true := by
  simp [summaryChanged, State.summaryAt, State.summaryPriceAt, List.range_succ]

/-- The verdict of a SUMMARY whose index is in range (R49). -/
theorem judgeSummary_body {s : State} {c : Nat} {i : Ix} {seq : Word} (h : s.Holds (.row .summary) c)
    (hi : Ix.ofNat? (s.posted c 4).toNat = some i) :
    judgeSummary seq (s.body c) (s.received c) =
      if (s.record i).state = .undefined then .refuse .undefinedInstrument
      else if ((s.record i).summary (s.summaryAt c)).rangeOk then .apply ((s.received c).applySummary i (s.summaryAt c))
      else .refuse .badSummary := by
  simp only [judgeSummary, withInstrument, whenDefined, h.body_four, hi, State.received_record, summaryFields_body h]

theorem State.applySummary_results (s : State) (i : Ix) (x : SummaryFields) : Results s (s.applySummary i x) := by
  unfold State.applySummary
  split
  · exact .refl s
  · next h => exact (Updates.updateRecord s i _ none h).results

/-- Settles O3: a QUOTE by the state of the instrument alone, a SUMMARY by its range check too. -/
theorem quoteAndSummaryTaken : Obligations.QuoteAndSummaryTaken := by
  constructor
  · intro h before s c i hs hh hi
    have hj := judgeQuote_body (seq := s.posted c 2) hh hi
    dsimp only
    split
    · next hu =>
      rw [if_pos hu] at hj
      exact refuses_row (row := .quote) hs hh hj
    · next hu =>
      rw [if_neg hu] at hj
      have hupd := Updates.updateRecord (s.received c) i (s.quoted c (s.record i)) none
        (List.cons_ne_nil ChangedField.bid [.ask, .bidSize, .askSize])
      have htold := ToldTerms.updateRecord (s.received c) i (r := s.quoted c (s.record i)) none
        (List.cons_ne_nil ChangedField.bid [.ask, .bidSize, .askSize]) rfl
      exact applies_row (row := .quote) hs hh hj hupd.results
        ⟨hupd, htold.of_any (by decide), State.updateRecord_tapes _ _ _ _ _⟩
  · intro h before s c i hs hh hi
    have hj := judgeSummary_body (seq := s.posted c 2) hh hi
    have hrange := (s.record i).rangeOk_summaryAt s c
    simp only [State.summaryPriceAfter] at hrange
    dsimp only
    split
    · next hu =>
      rw [if_pos hu] at hj
      exact refuses_row (row := .summary) hs hh hj
    next hu =>
    rw [if_neg hu] at hj
    cases hok : ((s.record i).summary (s.summaryAt c)).rangeOk with
    | false =>
      rw [hok, if_neg Bool.false_ne_true] at hj
      rw [if_pos (hrange.1 hok)]
      exact refuses_row (row := .summary) hs hh hj
    | true =>
    rw [hok, if_pos rfl] at hj
    rw [if_neg fun hbad => Bool.false_ne_true ((hrange.2 hbad).symm.trans hok)]
    refine applies_row (row := .summary) hs hh hj (State.applySummary_results _ _ _) ?_
    have hnil := summaryChanged_eq_nil s c
    unfold State.applySummary
    split
    · next hnone => exact if_pos (hnil.2 hnone)
    · next hsome =>
      have hf : summaryChanged (s.summaryAt c) ≠ [] := fun e => hsome (hnil.1 e)
      rw [if_neg hf]
      refine ⟨_, mem_summaryChanged s c, ?_, ToldTerms.updateRecord (s.received c) i none hf rfl, State.updateRecord_tapes _ _ _ _ _⟩
      have hupd := Updates.updateRecord (s.received c) i ((s.record i).summary (s.summaryAt c)) none hf
      rw [Record.summary_summaryAt] at hupd ⊢
      exact hupd

/-! ## HALT and RESUME (R51, R52) -/

/-- The fields that a HALT changes (R51). -/
def haltChanged (r : Record) : List ChangedField := if r.state = .halted then [.haltReason] else [.state, .haltReason]

theorem haltChanged_ne_nil (r : Record) : haltChanged r ≠ [] := by
  unfold haltChanged
  split <;> exact List.cons_ne_nil _ _

theorem State.session_updateRecord (s : State) (i : Ix) (r : Record) {fields : List ChangedField} (mark : Option TickDir)
    (h : fields ≠ []) : (s.updateRecord i r fields mark).session = s.session := by
  rw [(Updates.updateRecord s i r mark h).rest]

/-- A note after an update names what the updated record says (R51, R52). -/
theorem State.handNote_updateRecord (s : State) (i : Ix) (r : Record) {fields : List ChangedField} (mark : Option TickDir)
    (h : fields ≠ []) (resumed : Bool) :
    (s.updateRecord i r fields mark).handNote i resumed =
      (s.updateRecord i r fields mark).handAssigned r.tape (.note resumed i r.mode s.session.tod) := by
  unfold State.handNote
  rw [(Updates.updateRecord s i r mark h).record, State.session_updateRecord s i r mark h]

/-- A HALT is one update, and a note when the instrument was not HALTED (R51). -/
theorem State.applyHalt_eq (s : State) (i : Ix) (reason : HaltReason) :
    s.applyHalt i reason =
      (s.updateRecord i ((s.record i).halt reason) (haltChanged (s.record i)) none).handAssigned
        (if (s.record i).state = .halted then none else (s.record i).tape) (.note false i (s.record i).mode s.session.tod) := by
  unfold State.applyHalt haltChanged
  dsimp only
  split
  · rfl
  · exact s.handNote_updateRecord i _ none (List.cons_ne_nil _ _) false

/-- The verdict of a HALT whose index is in range (R51). -/
theorem judgeHalt_body {s : State} {c : Nat} {i : Ix} {seq : Word} (h : s.Holds (.row .halt) c)
    (hi : Ix.ofNat? (s.posted c 4).toNat = some i) :
    judgeHalt seq (s.body c) (s.received c) =
      (haltReasonOf (s.posted c 5)).elim (.refuse .badField) fun reason =>
        if (s.record i).state = .undefined then .refuse .undefinedInstrument
        else .apply ((s.received c).applyHalt i reason) := by
  have h5 : (s.body c).at 5 = s.posted c 5 := h.body_first fun w hw => by simp [firstWords, hw, Row.kind]
  simp only [judgeHalt, withInstrument, whenDefined, h.body_four, h5, hi, State.received_record]
  cases haltReasonOf (s.posted c 5) <;> rfl

/-- The verdict of a RESUME whose index is in range (R52). -/
theorem judgeResume_body {s : State} {c : Nat} {i : Ix} {seq : Word} (h : s.Holds (.row .resume) c)
    (hi : Ix.ofNat? (s.posted c 4).toNat = some i) :
    judgeResume seq (s.body c) (s.received c) =
      if (s.record i).state = .undefined then .refuse .undefinedInstrument else .apply ((s.received c).applyResume i) := by
  simp only [judgeResume, withInstrument, whenDefined, h.body_four, hi]
  rfl

/-- Settles O5: a HALT is one update and a note to the tape of an instrument that was not HALTED; a RESUME of a HALTED instrument is one
update and a note, and of an ACTIVE one nothing. -/
theorem haltAndResumeTaken : Obligations.HaltAndResumeTaken := by
  constructor
  · intro h before s c i hs hh hi
    have hj := judgeHalt_body (seq := s.posted c 2) hh hi
    dsimp only
    split
    · next hbad =>
      rw [hbad] at hj
      exact refuses_row (row := .halt) hs hh hj
    next reason hreason =>
    rw [hreason, Option.elim] at hj
    split
    · next hu =>
      rw [if_pos hu] at hj
      exact refuses_row (row := .halt) hs hh hj
    next hu =>
    rw [if_neg hu, State.applyHalt_eq] at hj
    obtain ⟨hupd, htold, htape⟩ := updates_and_hands (s.received c) i (r := (s.record i).halt reason) none
      (if (s.record i).state = .halted then none else (s.record i).tape) (.note false i (s.record i).mode s.session.tod)
      (haltChanged_ne_nil (s.record i)) rfl
    refine applies_row (row := .halt) hs hh hj hupd.results ⟨hupd, htold, fun d => (htape d).trans ?_⟩
    by_cases hhalted : (s.record i).state = .halted <;> simp [hhalted]
  · intro h before s c i hs hh hi
    have hj := judgeResume_body (seq := s.posted c 2) hh hi
    dsimp only
    split
    · next hu =>
      rw [if_pos hu] at hj
      exact refuses_row (row := .resume) hs hh hj
    next hu =>
    rw [if_neg hu] at hj
    unfold State.applyResume at hj
    split
    · next hhalted =>
      rw [State.received_record, if_pos hhalted, State.handNote_updateRecord _ _ _ _ (List.cons_ne_nil _ _)] at hj
      obtain ⟨hupd, htold, htape⟩ := updates_and_hands (s.received c) i (r := (s.record i).resume) none (s.record i).tape
        (.note true i (s.record i).mode s.session.tod) (List.cons_ne_nil ChangedField.state [.haltReason]) rfl
      exact applies_row (row := .resume) hs hh hj hupd.results ⟨hupd, htold.of_any (by decide), htape⟩
    · next hactive =>
      rw [State.received_record, if_neg hactive] at hj
      exact applies_row (row := .resume) hs hh hj (.refl _) rfl

/-! ## SNAPSHOT and MARK (R61, R62) -/

/-- The verdict of a MARK (R62). -/
theorem judgeMark_body {s : State} {c : Nat} (h : s.Holds (.row .mark) c) (seq : Word) (t : State) :
    judgeMark seq (s.body c) t =
      .apply (t.handed (if (s.posted c 5).bit 0 then [.markReached (s.posted c 4) seq] else [])) := by
  have h5 : (s.body c).at 5 = s.posted c 5 := h.body_first fun w hw => by simp [firstWords, hw, Row.kind]
  unfold judgeMark
  rw [h.body_four, h5]
  split
  · rfl
  · rw [State.handed_nil]

/-- Settles O12: a SNAPSHOT hands on one item with the two notices, a MARK one notice when its report flag is set. -/
theorem snapshotAndMarkTaken : Obligations.SnapshotAndMarkTaken := by
  constructor
  · intro h before s c i hs hh hi
    have hj : judgeSnapshot (s.posted c 2) (s.body c) (s.received c) =
        .apply ((s.received c).handParts (snapshotOf i (s.record i))) := by
      simp only [judgeSnapshot, withInstrument, hh.body_four, hi, State.received_record]
    exact applies_row (row := .snapshot) hs hh hj ⟨rfl, rfl, rfl⟩ rfl
  · intro h before s c hs hh
    exact applies_row (row := .mark) hs hh (judgeMark_body hh _ _) ⟨rfl, rfl, rfl⟩ rfl

end Sys2Proof.Machine
end

section
/-! PROOF. A SESSION posting (R54, R65 to R70, R74): the time, then the night flag and timer, the feed watch, the texts and the events of
the change. -/

namespace Sys2Proof.Machine

/-! ## Events handed to every context or line -/

theorem Bank.mapAll_mapAll {α : Type} {n : Nat} (v : Vector α n) (f g : Fin n → α → α) :
    Bank.mapAll (Bank.mapAll v f) g = Bank.mapAll v fun i x => g i (f i x) := Bank.ext fun i => by simp

/-- The terminal contexts with events of the session unit handed to each. -/
def withEvents (v : Vector Terminal 16) (es : List TermEvent) : Vector Terminal 16 :=
  Bank.mapAll v fun _ x => { x with events := x.events ++ es }

@[simp] theorem withEvents_nil (v : Vector Terminal 16) : withEvents v [] = v := Bank.mapAll_id _ fun _ _ => by simp

@[simp] theorem withEvents_withEvents (v : Vector Terminal 16) (es fs : List TermEvent) :
    withEvents (withEvents v es) fs = withEvents v (es ++ fs) := by simp [withEvents, Bank.mapAll_mapAll]

@[simp] theorem get_withEvents (v : Vector Terminal 16) (es : List TermEvent) (k : Fin 16) :
    Bank.get (withEvents v es) k = { Bank.get v k with events := (Bank.get v k).events ++ es } := Bank.get_mapAll _ _ _

/-- The board lines with night events handed to each. -/
def withNights (v : Vector BoardLine 4) (flags : List Bool) : Vector BoardLine 4 :=
  Bank.mapAll v fun _ x => { x with nights := x.nights ++ flags }

@[simp] theorem withNights_nil (v : Vector BoardLine 4) : withNights v [] = v := Bank.mapAll_id _ fun _ _ => by simp

theorem State.handTerms_eq (s : State) (e : TermEvent) : s.handTerms e = s.withTerms (withEvents s.terms [e]) := rfl

/-- A night event goes to the board lines and the contexts (R69). -/
theorem State.handNight_eq (s : State) (flag : Bool) :
    s.handNight flag = (s.withLines (withNights s.lines [flag])).withTerms (withEvents s.terms [.night flag]) := rfl

/-- The tape units with arrivals of intake handed to each. -/
def withArrivals (v : Vector Tape 2) (as : List Arrival) : Vector Tape 2 :=
  Bank.mapAll v fun _ x => { x with inbox := x.inbox ++ as }

@[simp] theorem withArrivals_nil (v : Vector Tape 2) : withArrivals v [] = v := Bank.mapAll_id _ fun _ _ => by simp

/-- A text of a session change goes to both tapes (R66). -/
theorem State.handSessionText_eq (s : State) (text : List Byte) :
    s.handSessionText text = s.withTapes (withArrivals s.tapes [.text text true s.session.tod]) := by
  refine congrArg s.withTapes (Bank.ext fun i => ?_)
  fin_cases i <;> simp [State.handTape, Bank.get_modify, slotOfTape, withArrivals]

/-! ## The parts of a session change (R65) -/

/-- The time of a SESSION: the time of day, and a time event when it has one (R54, R70). -/
theorem State.setTime_eq (s : State) (time : Option Tod) :
    s.setTime time = { s with
      session := { s.session with
        tod := time.or s.session.tod, fraction := if time.isSome then 0 else s.session.fraction }
      terms := withEvents s.terms (if time.isSome then [.time] else []) } := by
  cases time with
  | none => simp [State.setTime]
  | some t => rfl

/-- A change to CLOSED with a night delay of 0 sets the night flag at once (R68). -/
def State.darkens (s : State) (new : SessionState) : Bool := new = .closed && s.params.nightDelay == 0

/-- The night events of a session change: a clear on leaving CLOSED by night, and a set at once (R68, R69). -/
def State.nightsAt (s : State) (old new : SessionState) : List Bool :=
  (if old = .closed ∧ s.session.night = true then [false] else []) ++ if s.darkens new then [true] else []

/-- The night flag and timer at a session change, with their events (R65, R68, R69). -/
theorem State.nightAtChange_eq (s : State) {old new : SessionState} (h : new ≠ old) :
    s.nightAtChange old new = { s with
      session := { s.session with
        night := if s.darkens new then true else if old = .closed then false else s.session.night
        nightTimer := if new = .closed then (if s.darkens new then none else some 0)
          else if old = .closed then none else s.session.nightTimer }
      lines := withNights s.lines (s.nightsAt old new)
      terms := withEvents s.terms ((s.nightsAt old new).map .night) } := by
  unfold State.nightAtChange State.nightsAt State.darkens
  by_cases ho : old = .closed
  · have hn : new ≠ .closed := fun e => h (e.trans ho.symm)
    cases hnight : s.session.night <;> simp [ho, hn, State.leaveClosed, hnight, State.handNight_eq] <;> rfl
  · by_cases hn : new = .closed
    · by_cases hd : s.params.nightDelay = 0 <;>
        simp [ho, hn, hd, State.enterClosed, State.setNight, State.handNight_eq] <;> rfl
    · simp [ho, hn]

/-- A feed that is QUIET or LOST returns to LIVE at a session change (R74). -/
def resumesAt (old new : SessionState) (stage : FeedStage) : Bool := old.watched && !new.watched && decide (stage ≠ .live)

/-- The feed watch at a session change (R71, R74). -/
theorem State.feedAtChange_eq (s : State) (old new : SessionState) :
    s.feedAtChange old new = { s with
      session := { s.session with
        feedTimer := if !old.watched && new.watched then some 0 else s.session.feedTimer
        stage := if resumesAt old new s.session.stage then .live else s.session.stage
        delayAnnounced := s.session.delayAnnounced && !resumesAt old new s.session.stage }
      fmt := { s.fmt with
        stageEvents := s.fmt.stageEvents ++ if resumesAt old new s.session.stage then [.live] else [] }
      terms := withEvents s.terms (if resumesAt old new s.session.stage then [.feedStage .live] else [])
      notices := { s.notices with
        inbox := s.notices.inbox ++ if resumesAt old new s.session.stage then
          [⟨[.feedResumed (min (s.session.feedTimer.getD 0 / 1000) 65535) none], s.session.tod, 0⟩] else [] } } := by
  unfold State.feedAtChange resumesAt State.feedResumed
  cases old.watched with
  | false =>
    cases new.watched with
    | false => simp
    | true => simp; rfl
  | true =>
    cases new.watched with
    | true => simp
    | false =>
      by_cases hl : s.session.stage = .live
      · simp [hl]
        rw [← hl]
      · simp [hl, State.handStage, State.handTerms_eq]
        rfl

/-- The texts of a session change at a time of day (R66). -/
def textsAt (old new : SessionState) (tod : Option Tod) : List Arrival :=
  (sessionText old new).toList.map fun t => .text t true tod

theorem State.textAtChange_eq (s : State) (old new : SessionState) :
    s.textAtChange old new = s.withTapes (withArrivals s.tapes (textsAt old new s.session.tod)) := by
  unfold State.textAtChange textsAt
  cases sessionText old new with
  | none => simp
  | some t => exact s.handSessionText_eq t

/-- A session change, whole (R65 to R69, R71, R74; the order at a context is log 36). -/
theorem State.changeSession_eq (s : State) {old new : SessionState} (hold : s.session.state = old) (h : new ≠ old) :
    s.changeSession new = { s with
      session := { s.session with
        state := new
        night := if s.darkens new then true else if old = .closed then false else s.session.night
        nightTimer := if new = .closed then (if s.darkens new then none else some 0)
          else if old = .closed then none else s.session.nightTimer
        feedTimer := if !old.watched && new.watched then some 0 else s.session.feedTimer
        stage := if resumesAt old new s.session.stage then .live else s.session.stage
        delayAnnounced := s.session.delayAnnounced && !resumesAt old new s.session.stage }
      fmt := { s.fmt with
        sessionEvents := s.fmt.sessionEvents ++ [new]
        stageEvents := s.fmt.stageEvents ++ if resumesAt old new s.session.stage then [.live] else [] }
      lines := withNights s.lines (s.nightsAt old new)
      tapes := withArrivals s.tapes (textsAt old new s.session.tod)
      terms := withEvents s.terms
        ((s.nightsAt old new).map .night ++ (if resumesAt old new s.session.stage then [.feedStage .live] else []) ++ [.session new])
      notices := { s.notices with
        inbox := s.notices.inbox ++ if resumesAt old new s.session.stage then
          [⟨[.feedResumed (min (s.session.feedTimer.getD 0 / 1000) 65535) none], s.session.tod, 0⟩] else [] } } := by
  unfold State.changeSession
  dsimp only
  rw [hold, if_neg h, State.nightAtChange_eq _ h, State.feedAtChange_eq, State.textAtChange_eq]
  simp only [State.handSession, State.handTerms_eq, State.withFmt_terms, State.withTapes_terms, withEvents_withEvents]
  rfl

/-! ## The posting -/

/-- The texts of R66, word for word. -/
theorem textsAt_eq {old new : SessionState} (h : new ≠ old) (tod : Option Tod) :
    textsAt old new tod =
      (let say (text : String) : List Arrival := [.text (chars text.toList) true tod]
      if old = .preOpen ∧ new = .opened then say "MARKET OPEN"
      else if new = .marketHalt then say "MARKET HALTED"
      else if old = .marketHalt ∧ new = .opened then say "TRADING RESUMED"
      else if new = .closed then say "MARKET CLOSED"
      else []) := by
  cases old <;> cases new <;> first | exact absurd rfl h | rfl

/-- The verdict of a SESSION, by its code and its time (R54). -/
theorem judgeSession_body {s : State} {c : Nat} {seq : Word} (h : s.Holds (.row .session) c) :
    judgeSession seq (s.body c) (s.received c) =
      (sessionOf (s.posted c 4)).elim (.refuse .badField) fun st =>
        if timeOfDouble (s.posted c 5) (s.posted c 6) = .outOfRange then .refuse .badField
        else .apply ((s.received c).applySession st (timeOfDouble (s.posted c 5) (s.posted c 6)).toOption) := by
  have h5 : (s.body c).at 5 = s.posted c 5 := h.body_first fun w hw => by simp [firstWords, hw, Row.kind]
  have h6 : (s.body c).at 6 = s.posted c 6 := h.body_first fun w hw => by simp [firstWords, hw, Row.kind]
  unfold judgeSession
  rw [h.body_four, h5, h6]
  cases sessionOf (s.posted c 4) <;> cases timeOfDouble (s.posted c 5) (s.posted c 6) <;> rfl

theorem State.setTime_state (s : State) (time : Option Tod) : (s.setTime time).session.state = s.session.state := by
  rw [State.setTime_eq]

/-- A SESSION that names the current state sets the time alone (R54). -/
theorem State.applySession_same (s : State) {new : SessionState} (h : new = s.session.state) (time : Option Tod) :
    s.applySession new time = s.setTime time := by
  unfold State.applySession State.changeSession
  dsimp only
  rw [State.setTime_state, if_pos h]

/-- A SESSION leaves to the TAKEN write what it needs. -/
theorem State.applySession_results (s : State) (new : SessionState) (time : Option Tod) :
    Results s (s.applySession new time) := by
  by_cases h : new = s.session.state
  · rw [s.applySession_same h, State.setTime_eq]
    exact ⟨rfl, rfl, rfl⟩
  · unfold State.applySession
    rw [State.changeSession_eq _ (s.setTime_state time) h, State.setTime_eq]
    exact ⟨rfl, rfl, rfl⟩

/-- Settles O7: the time is set, and then the parts of R65 are put together; a SESSION that names the current state stops at the time. -/
theorem sessionTaken : Obligations.SessionTaken := by
  intro h before s c hs hh
  have hj := judgeSession_body (seq := s.posted c 2) hh
  split
  · next hnone =>
    rw [hnone] at hj
    exact refuses_row (row := .session) hs hh hj
  · next hsome hrange =>
    rw [hsome, hrange] at hj
    exact refuses_row (row := .session) hs hh hj
  next new hnew hrange =>
  rw [hnew, Option.elim, if_neg hrange] at hj
  refine applies_row (row := .session) hs hh hj (State.applySession_results _ _ _) ?_
  generalize (timeOfDouble (s.posted c 5) (s.posted c 6)).toOption = time
  dsimp only
  split
  · next hsame =>
    rw [State.applySession_same (s.received c) hsame, State.setTime_eq]
    exact ⟨rfl, get_withEvents _ _⟩
  · next hother =>
    unfold State.applySession
    rw [State.changeSession_eq _ (State.setTime_state (s.received c) time) hother, State.setTime_eq]
    refine ⟨rfl, fun n => Bank.get_mapAll _ _ _, fun d => ?_, fun k => ?_⟩
    · rw [← textsAt_eq hother]
      exact Bank.get_mapAll _ _ _
    · refine (get_withEvents _ _ _).trans ?_
      rw [get_withEvents]
      simp only [← List.append_assoc]
      rfl

end Sys2Proof.Machine
end

section
/-! PROOF. TAPE TEXT (R55) and the subcommands of TERMINAL (R56 to R58): the contexts they name, and TERMINAL TEXT. -/

namespace Sys2Proof.Machine

/-! ## TAPE TEXT (R55) -/

/-- The words that intake reads of a TAPE TEXT: its codes, its length, and the words of up to 20 characters. -/
theorem readWords_tapeText {kind : Word} (hk : kind.toNat = 9) (f : Nat → Word) :
    readWords kind f = [4, 5] ++ charWords 6 (min (f 5).toNat 20) := by
  have h5 : Body.at [(4, f 4), (5, f 5)] 5 = f 5 := rfl
  simp [readWords, firstWords, moreWords, lastWords, hk, h5]

theorem textTapesOf_eq_none {b : Byte} : textTapesOf b = none ↔ b.toNat = 0 ∨ 3 < b.toNat := by
  unfold textTapesOf
  split <;> simp_all
  omega

/-- The tapes that a TAPE TEXT names, each once. -/
theorem textTapesOf_eq_some {b : Byte} {ds : List TapeId} (h : textTapesOf b = some ds) :
    ds.Nodup ∧ ∀ d, d ∈ ds ↔ b.toNat = 3 ∨ (d = .a ∧ b.toNat = 1) ∨ (d = .b ∧ b.toNat = 2) := by
  unfold textTapesOf at h
  split at h <;> cases h <;> refine ⟨by decide, fun d => ?_⟩ <;> cases d <;> simp_all

theorem urgencyOf_eq_none {b : Byte} : urgencyOf b = none ↔ 1 < b.toNat := by
  unfold urgencyOf
  split <;> simp_all
  omega

theorem urgencyOf_eq_some {b : Byte} {u : Bool} (h : urgencyOf b = some u) : u = (b.toNat == 1) := by
  unfold urgencyOf at h
  split at h <;> cases h <;> simp_all

/-- An arrival handed to each of some tapes changes nothing but the tapes. -/
theorem State.foldl_handTape_rest (ds : List TapeId) (a : Arrival) (s : State) :
    ds.foldl (fun t d => t.handTape d a) s = { s with tapes := (ds.foldl (fun t d => t.handTape d a) s).tapes } := by
  induction ds generalizing s with
  | nil => rfl
  | cons d ds ih => exact ih (s.handTape d a)

theorem State.tape_handTape (s : State) (e d : TapeId) (a : Arrival) :
    (s.handTape e a).tape d = if d = e then (s.tape d).given a else s.tape d := State.tape_modifyTape _ _ _ _

theorem State.tape_foldl_handTape {ds : List TapeId} (hn : ds.Nodup) (a : Arrival) (s : State) (d : TapeId) :
    (ds.foldl (fun t e => t.handTape e a) s).tape d = if d ∈ ds then (s.tape d).given a else s.tape d := by
  induction ds generalizing s with
  | nil => rfl
  | cons e ds ih =>
    obtain ⟨he, hn⟩ := List.nodup_cons.1 hn
    rw [List.foldl_cons, ih hn, State.tape_handTape]
    by_cases h : d = e
    · subst h; simp [he]
    · simp [h]

/-- The text of a TAPE TEXT: at most 20 characters (R55). -/
def State.tapeTextAt (s : State) (c : Nat) : List Byte :=
  charsOf ((List.range 10).map fun j => s.posted c (6 + j)) (min (s.posted c 5).toNat 20)

/-- The verdict of a TAPE TEXT (R55). -/
theorem judgeTapeText_body {s : State} {c : Nat} {seq : Word} (h : s.Holds (.row .tapeText) c) :
    judgeTapeText seq (s.body c) (s.received c) =
      (textTapesOf (s.posted c 4).high).elim (.refuse .badField) fun ds =>
        (urgencyOf (s.posted c 4).low).elim (.refuse .badField) fun urgent =>
          if s.posted c 5 = 0 then .refuse .badField
          else .apply (ds.foldl (fun t d => t.handTape d (.text (s.tapeTextAt c) urgent s.session.tod)) (s.received c)) := by
  have hread := readWords_tapeText h.kind (s.posted c)
  have h5 : (s.body c).at 5 = s.posted c 5 := h.body_first fun w hw => by simp [firstWords, hw, Row.kind]
  have htext : (s.body c).chars 6 (min (s.posted c 5).toNat 20) = s.tapeTextAt c :=
    State.body_chars (m := 10) (fun j hj => hread ▸ List.mem_append_right _ hj) (by omega)
  unfold judgeTapeText
  rw [h.body_four, h5, htext]
  cases textTapesOf (s.posted c 4).high <;> cases urgencyOf (s.posted c 4).low <;> rfl

/-- A TAPE TEXT is refused for its codes or its length, or goes to the tapes it names (R55). -/
theorem tapeTextTaken {h : List HostWrite} {before s : State} {c : Nat} (hs : s = before.hostWrites h)
    (hh : s.Holds (.row .tapeText) c) :
    let tapes := (s.posted c 4).high.toNat
    let urgent := (s.posted c 4).low.toNat
    if tapes = 0 ∨ 3 < tapes ∨ 1 < urgent ∨ (s.posted c 5).toNat = 0 then Refuses (.tapeText h) before s c .badField
    else Applies (.tapeText h) before c fun u =>
      u = { s.received c with tapes := u.tapes } ∧
      ∀ d, u.tape d =
        if tapes = 3 ∨ (d = .a ∧ tapes = 1) ∨ (d = .b ∧ tapes = 2) then
          (s.tape d).given (.text (s.tapeTextAt c) (urgent == 1) s.session.tod)
        else s.tape d := by
  have hj := judgeTapeText_body (seq := s.posted c 2) hh
  have hzero : s.posted c 5 = 0 ↔ (s.posted c 5).toNat = 0 := BitVec.toNat_inj.symm
  dsimp only
  cases htapes : textTapesOf (s.posted c 4).high with
  | none =>
    rw [htapes] at hj
    rw [if_pos (by have := textTapesOf_eq_none.1 htapes; omega)]
    exact refuses_row (row := .tapeText) hs hh hj
  | some ds =>
  cases hurgent : urgencyOf (s.posted c 4).low with
  | none =>
    rw [htapes, hurgent] at hj
    rw [if_pos (by have := urgencyOf_eq_none.1 hurgent; omega)]
    exact refuses_row (row := .tapeText) hs hh hj
  | some urgent =>
  rw [htapes, hurgent, Option.elim, Option.elim] at hj
  have h1 : ¬ ((s.posted c 4).high.toNat = 0 ∨ 3 < (s.posted c 4).high.toNat) := fun e => by
    rw [textTapesOf_eq_none.2 e] at htapes; cases htapes
  have h2 : ¬ 1 < (s.posted c 4).low.toNat := fun e => by
    rw [urgencyOf_eq_none.2 e] at hurgent; cases hurgent
  by_cases h3 : (s.posted c 5).toNat = 0
  · rw [if_pos (hzero.2 h3)] at hj
    rw [if_pos (by omega)]
    exact refuses_row (row := .tapeText) hs hh hj
  · rw [if_neg (mt hzero.1 h3)] at hj
    rw [if_neg (by omega)]
    obtain ⟨hn, hmem⟩ := textTapesOf_eq_some htapes
    have hrest := State.foldl_handTape_rest ds (.text (s.tapeTextAt c) urgent s.session.tod) (s.received c)
    refine applies_row (row := .tapeText) hs hh hj ⟨by rw [hrest], by rw [hrest], by rw [hrest]⟩ ⟨hrest, fun d => ?_⟩
    rw [State.tape_foldl_handTape hn, urgencyOf_eq_some hurgent]
    simp only [hmem, State.received_tape]

/-! ## Subcommands of the contexts they name (R56, log 17) -/

theorem terminalsOf_nodup {b : Byte} {ts : List (Fin 16)} (h : terminalsOf b = some ts) : ts.Nodup := by
  unfold terminalsOf at h
  split at h
  · cases h; exact List.nodup_finRange 16
  · split at h <;> cases h
    exact List.nodup_singleton _

/-- A terminal that is neither 0 to 15 nor ALL names no context (R56). -/
theorem terminalsOf_eq_none {b : Byte} (h : 15 < b.toNat) (hall : b ≠ 0xFF) : terminalsOf b = none := by
  unfold terminalsOf
  rw [if_neg hall, dif_neg (by omega)]

/-- With no watch check waiting, a subcommand reaches the contexts it names one after another (R56, log 17). -/
theorem State.command_cons {s : State} {t : Fin 16} {ts : List (Fin 16)} (hc : s.checksTaken (t :: ts))
    (f : State → Fin 16 → State) : s.command (t :: ts) f = (f s t).command ts f := by
  unfold State.command
  rw [List.foldl_cons, State.takeChecks_none (hc t List.mem_cons_self)]

/-- A subcommand that changes each context it names by `f`, and nothing else (R56). -/
theorem Commands.command {s : State} {ts : List (Fin 16)} (hn : ts.Nodup) (hc : s.checksTaken ts) (f : Terminal → Terminal) :
    Commands s (s.command ts fun s t => s.modifyTerm t f) ts f := by
  induction ts generalizing s with
  | nil => exact ⟨rfl, fun k => by simp [State.command]⟩
  | cons t ts ih =>
    obtain ⟨ht, hn⟩ := List.nodup_cons.1 hn
    obtain ⟨hrest, hterm⟩ := changesTerm_modify s t f
    have hc' : (s.modifyTerm t f).checksTaken ts := fun k hk => by
      rw [hterm k, if_neg (fun e : k = t => ht (e ▸ hk))]
      exact hc k (List.mem_cons_of_mem t hk)
    obtain ⟨hrest', hterm'⟩ := ih hn hc'
    rw [State.command_cons hc]
    refine ⟨by rw [hrest', hrest], fun k => ?_⟩
    rw [hterm' k, hterm k]
    by_cases hk : k = t
    · subst hk; simp [ht]
    · simp [hk]

theorem Commands.results {s u : State} {ts : List (Fin 16)} {f : Terminal → Terminal} (h : Commands s u ts f) : Results s u :=
  ⟨by rw [h.1], by rw [h.1], by rw [h.1]⟩

theorem Terminal.markMessageRow_eq (x : Terminal) : x.markMessageRow = x.messageDirty := by
  refine congrArg (fun d => { x with dirty := d }) (Bank.ext fun r => ?_)
  rw [Bank.get_mapAll, Bank.get_set]
  by_cases h : r = 17
  · simp [h]
  · simp [h, Ne.symm h]

/-- The words that intake reads of a TERMINAL posting: its terminal and subcommand, and the fields of that subcommand. -/
theorem readWords_terminal {kind : Word} (hk : kind.toNat = 10) (f : Nat → Word) :
    (∀ n, (f 4).low.toNat = 1 → (f 5).low.toNat = n → readWords kind f = [4, 5] ++ if n ≤ 20 then charWords 6 n else []) ∧
    ((f 4).low.toNat = 2 → readWords kind f = [4, 5]) ∧
    ((f 4).low.toNat = 6 → readWords kind f = [4, 5, 6, 7, 8]) := by
  have h4 : ∀ l, Body.at ((4, f 4) :: l) 4 = f 4 := fun _ => rfl
  have h5 : ∀ l, Body.at ((4, f 4) :: (5, f 5) :: l) 5 = f 5 := fun _ => rfl
  refine ⟨fun n h1 hn => ?_, fun h2 => ?_, fun h6 => ?_⟩
  · simp [readWords, firstWords, moreWords, lastWords, hk, h4, h5, h1, hn]
  · simp [readWords, firstWords, moreWords, lastWords, hk, h4, h2]
  · simp [readWords, firstWords, moreWords, lastWords, hk, h4, h6]

/-! ## TERMINAL TEXT (R57) -/

theorem halfOf_eq_none {b : Byte} : halfOf b = none ↔ b.toNat = 0 ∨ 2 < b.toNat := by
  unfold halfOf
  split <;> simp_all
  omega

theorem halfOf_eq_some {b : Byte} {half : Half} (h : halfOf b = some half) :
    b.toNat = match half with | .first => 1 | .second => 2 := by
  unfold halfOf at h
  split at h <;> cases h <;> assumption

/-- The characters of the TERMINAL TEXT in a cell. -/
def State.textAt (s : State) (c : Nat) : List Byte :=
  charsOf ((List.range 10).map fun j => s.posted c (6 + j)) (s.posted c 5).low.toNat

theorem State.textAt_length {s : State} {c : Nat} (h : (s.posted c 5).low.toNat ≤ 20) :
    (s.textAt c).length = (s.posted c 5).low.toNat := by
  unfold State.textAt charsOf
  rw [List.length_take, flatMap_bytes_length, List.length_map, List.length_range]
  omega

/-- The verdict of a TERMINAL TEXT for contexts that it names (R57). -/
theorem judgeText_body {s : State} {c : Nat} {seq : Word} {ts : List (Fin 16)} (h : s.Holds (.row .text) c)
    (ht : terminalsOf (s.posted c 4).high = some ts) :
    judgeText seq (s.body c) (s.received c) =
      (halfOf (s.posted c 5).high).elim (.refuse .badField) fun half =>
        if 20 < (s.posted c 5).low.toNat then .refuse .badField
        else .apply ((s.received c).command ts fun s' t => s'.modifyTerm t (Terminal.setText half (s.textAt c))) := by
  have hread := (readWords_terminal h.kind (s.posted c)).1 _ (h.subcommand rfl) rfl
  have h5 : (s.body c).at 5 = s.posted c 5 := State.body_at (by rw [hread]; simp)
  unfold judgeText
  rw [h.body_four, h5, ht]
  cases halfOf (s.posted c 5).high with
  | none => rfl
  | some half =>
    dsimp only [Option.elim]
    split
    · rfl
    · next hn =>
      have htext : (s.body c).chars 6 (s.posted c 5).low.toNat = s.textAt c :=
        State.body_chars (m := 10) (fun j hj => by rw [hread, if_pos (by omega)]; exact List.mem_append_right _ hj) (by omega)
      rw [htext]

/-- A text that fits its half is filled up with spaces (R57). -/
theorem leftIn_fits {w : Nat} {t : List Byte} (h : t.length ≤ w) : leftIn w t = t ++ spaces (w - t.length) := by
  unfold leftIn
  rw [List.take_of_length_le h]

/-- A context after a TERMINAL TEXT of at most 20 characters (R57). -/
theorem Terminal.setText_eq {text : List Byte} (h : text.length ≤ 20) (half : Half) (x : Terminal) :
    x.setText half text = Terminal.messageDirty { x with
      message := match half with
        | .first => if text.length = 0 then none else some (text ++ spaces (40 - text.length))
        | .second => some (leftIn 20 (x.message.getD (spaces 40)) ++ text ++ spaces (20 - text.length)) } := by
  unfold Terminal.setText
  rw [Terminal.markMessageRow_eq]
  cases half with
  | first => simp only [messageAfter, leftIn_fits (show text.length ≤ 40 by omega), List.length_eq_zero_iff]
  | second => simp only [messageAfter, leftIn_fits h, List.append_assoc]

/-- Settles O8: the codes and the length of a text decide on the refusal; a TAPE TEXT goes to its tapes, and a TERMINAL TEXT is written
into the message line of each context it names. -/
theorem tapeAndTerminalTextsTaken : Obligations.TapeAndTerminalTextsTaken := by
  refine ⟨fun h before s c hs hh => tapeTextTaken hs hh, ?_⟩
  intro h before s c ts hs hh ht hc
  have hj := judgeText_body (seq := s.posted c 2) hh ht
  dsimp only
  cases hhalf : halfOf (s.posted c 5).high with
  | none =>
    rw [hhalf] at hj
    rw [if_pos (by have := halfOf_eq_none.1 hhalf; omega)]
    exact refuses_row (row := .text) hs hh hj
  | some half =>
  rw [hhalf, Option.elim] at hj
  have hcode := halfOf_eq_some hhalf
  by_cases hn : 20 < (s.posted c 5).low.toNat
  · rw [if_pos hn] at hj
    rw [if_pos (.inl hn)]
    exact refuses_row (row := .text) hs hh hj
  · rw [if_neg hn] at hj
    rw [if_neg (by cases half <;> simp only at hcode <;> omega)]
    have hlen := State.textAt_length (not_lt.1 hn)
    have hu := Commands.command (s := s.received c) (terminalsOf_nodup ht) hc (Terminal.setText half (s.textAt c))
    refine applies_row (row := .text) hs hh hj hu.results ⟨hu.1, fun k => ?_⟩
    rw [hu.2 k, Terminal.setText_eq (hlen.trans_le (not_lt.1 hn)), hlen]
    cases half <;> simp only at hcode <;> rw [hcode] <;> rfl

end Sys2Proof.Machine
end

section
/-! PROOF. Postings over a bus whose coming attempts are told (R41, R42, R44, R164, R171): SET PAGE, LOCK, UNLOCK and CLEAR STACK (R58,
R150, R154), DUPLICATE postings, postings that cannot be read, and TAKEN writes that fail. -/

namespace Sys2Proof.Machine

/-! ## Attempts told to come (R164) -/

/-- The host's stores do not touch the attempts told to come. -/
theorem State.hostWrites_meeting (s : State) (attempts : List Attempt) (h : List HostWrite) :
    (s.meeting attempts).hostWrites h = (s.hostWrites h).meeting attempts := by
  have hfold : ∀ b : Bus, h.foldl (fun b x => b.poke x.offset x.value) { b with script := attempts } =
      { h.foldl (fun b x => b.poke x.offset x.value) b with script := attempts } := by
    induction h with
    | nil => exact fun _ => rfl
    | cons x h ih => exact fun b => ih (b.poke x.offset x.value)
  have hbus : ({ s.bus with script := attempts } : Bus).hostWrites h = { s.bus.hostWrites h with script := attempts } := by
    unfold Bus.hostWrites
    by_cases ha : s.bus.area.isSome = true
    · rw [if_pos ha, if_pos ha]
      exact hfold s.bus
    · rw [if_neg ha, if_neg ha]
  exact congrArg s.withBus hbus

theorem State.meeting_quiet {s : State} (h : s.bus.script = []) : s.meeting [] = s := by
  unfold State.meeting
  rw [← h]

theorem State.setError_meeting (s : State) (attempts : List Attempt) (f : ErrorFlag) :
    ({ s.bus with script := attempts } : Bus).setError f = { s.bus.setError f with script := attempts } := by
  unfold Bus.setError
  dsimp only
  split <;> rfl

/-- Reads that complete spend one attempt for each word. -/
theorem Bus.readAll_completes (ks : List Word) (b : Bus) (r : List Attempt) :
    ({ b with script := List.replicate ks.length .completes ++ r } : Bus).readAll ks =
      ({ b with script := r }, .words (ks.map b.peek)) := by
  induction ks with
  | nil => rfl
  | cons k ks ih =>
    rw [List.length_cons, List.replicate_succ, List.cons_append]
    simp only [Bus.readAll, Bus.read_completes, ih, List.map_cons]

theorem Bus.readBody_completes (at_ : Nat → Word) (ks : List Nat) (body : Body) (b : Bus) (r : List Attempt) :
    ({ b with script := List.replicate ks.length .completes ++ r } : Bus).readBody at_ ks body =
      ({ b with script := r }, some (some (body ++ ks.map fun k => (k, b.peek (at_ k))))) := by
  have h := Bus.readAll_completes (ks.map at_) b r
  rw [List.length_map, List.map_map] at h
  unfold Bus.readBody
  rw [h]
  dsimp only
  rw [zip_map_self]
  rfl

/-- The number of words intake reads of a posting: sequence, kind and body words. -/
def wordsRead (kind : Word) (f : Nat → Word) : Nat := 2 + (readWords kind f).length

/-- With an attempt that completes for each of its words, intake reads the posting whole (R41 step 1). -/
theorem Bus.readPosting_completes (b : Bus) (at_ : Nat → Word) (r : List Attempt) :
    ({ b with script := List.replicate (wordsRead (b.peek (at_ 3)) fun k => b.peek (at_ k)) .completes ++ r } : Bus).readPosting
        at_ =
      ({ b with script := r }, .posting (b.peek (at_ 2)) (b.peek (at_ 3)) (bodyOf (b.peek (at_ 3)) fun k => b.peek (at_ k))) := by
  unfold wordsRead readWords
  simp only [List.length_append, List.replicate_add, List.append_assoc, List.replicate_succ, List.replicate_zero,
    List.cons_append, List.nil_append, Bus.readPosting, Bus.read_completes]
  simp only [Bus.readBodies, Bus.readBody_completes, List.nil_append, bodyOf, readWords, List.map_append]

/-- A posting in hand, read with attempts that complete, comes to the verdict of its kind with the attempts that are left. -/
theorem State.takePosting_meeting {s : State} {row : Row} {c : Nat} (h : s.Holds (.row row) c) (judge : Judge) {n : Nat}
    (hn : n = wordsRead (s.posted c 3) (s.posted c)) (r : List Attempt) :
    (s.meeting (List.replicate n .completes ++ r)).takePosting row judge =
      (judge (s.posted c 2) (s.body c) ((s.received c).meeting r)).outcome (s.meeting r) ((s.received c).meeting r)
        (s.posted c 2) (s.posted c 3) := by
  subst hn
  have hin : (s.meeting (List.replicate (wordsRead (s.posted c 3) (s.posted c)) .completes ++ r)).inHand = some c := h.inHand
  have hnamed : (s.meeting (List.replicate (wordsRead (s.posted c 3) (s.posted c)) .completes ++ r)).namedAt c = .row row :=
    h.named
  have hread := Bus.readPosting_completes s.bus (s.params.cellWord c) r
  unfold State.takePosting
  rw [hin]
  dsimp only
  rw [hnamed]
  simp only [judgeAs, if_true]
  unfold State.finishPosting
  have hread' : (s.meeting (List.replicate (wordsRead (s.posted c 3) (s.posted c)) .completes ++ r)).bus.readPosting
      ((s.meeting (List.replicate (wordsRead (s.posted c 3) (s.posted c)) .completes ++ r)).params.cellWord c) =
      ({ s.bus with script := r }, .posting (s.posted c 2) (s.posted c 3) (s.body c)) := hread
  rw [hread']
  dsimp only
  have hmeet : (s.meeting (List.replicate (wordsRead (s.posted c 3) (s.posted c)) .completes ++ r)).withBus
      { s.bus with script := r } = s.meeting r := rfl
  rw [hmeet]
  unfold State.judgePosting
  rw [if_neg (show ¬ (s.meeting r).intake.lastSeq = some (s.posted c 2) from h.fresh)]
  dsimp only
  have hnote : ((s.meeting r).holdSequence (s.posted c 2)).noteSequence (s.posted c 2) = (s.received c).meeting r :=
    State.noteSequence_eq (s.meeting r) c
  rw [hnote]
  rfl

/-- A write whose two attempts time out leaves the word as they left it (R163, R164). -/
theorem Bus.write_timesOut (b : Bus) (x y : Bool) (o w : Word) (r : List Attempt) :
    ({ b with script := .timesOut x :: .timesOut y :: r } : Bus).write o w =
      (((({ b with script := r } : Bus).pokeIf x o w).pokeIf y o w).setError .busTimeout, false) := by
  cases x <;> cases y <;> rfl

/-- A TAKEN write that times out twice is owed (R164, R171). -/
theorem State.writeTaken_meeting {s : State} {c : Nat} (hq : s.bus.script = []) (hc : s.intake.current = some c) (a b : Bool) :
    (s.meeting [.timesOut a, .timesOut b]).writeTaken = s.owes c a b := by
  have hself : ({ s.bus with script := [] } : Bus) = s.bus := congrArg State.bus (State.meeting_quiet hq)
  have hw := s.bus.write_timesOut a b (s.params.cellWord c 0) stateTaken []
  rw [hself] at hw
  unfold State.writeTaken
  rw [show (s.meeting [.timesOut a, .timesOut b]).intake.current = some c from hc]
  dsimp only
  rw [show (s.meeting [.timesOut a, .timesOut b]).bus.write
    ((s.meeting [.timesOut a, .timesOut b]).params.cellWord c 0) stateTaken = _ from hw]
  rfl

/-! ## SET PAGE, LOCK, UNLOCK and CLEAR STACK (R58, R150, R154) -/

/-- A SET PAGE at a context begins a load, or waits behind the work in hand (R58, R154). -/
theorem Terminal.askPage_eq (page : Word) (x : Terminal) :
    x.askPage page = if x.work = .none then { x with work := .pageLoad page .posting } else { x with waiting := some page } := by
  unfold Terminal.askPage Terminal.busy
  by_cases h : x.work = .none <;> simp [h]

/-- The words that intake reads of a SET PAGE. -/
theorem State.Holds.readWords_setPage {s : State} {c : Nat} (h : s.Holds (.row .setPage) c) :
    readWords (s.posted c 3) (s.posted c) = [4, 5] :=
  (readWords_terminal h.kind (s.posted c)).2.1 (h.subcommand rfl)

/-- The verdict of a SET PAGE whose page count is read: compared as it is read (R58, R176, log 12). -/
theorem judgeSetPage_counted {s t : State} {c : Nat} {ts : List (Fin 16)} (h : s.Holds (.row .setPage) c)
    (ht : terminalsOf (s.posted c 4).high = some ts) (seq : Word) {b : Bus} {count : Word}
    (hread : t.bus.read pageCountWord = (b, .word count)) :
    judgeSetPage seq (s.body c) t =
      if count.toNat ≤ (s.posted c 5).toNat then .refuseOn b .badField
      else .apply ((t.withBus b).command ts fun s' k => s'.modifyTerm k (Terminal.askPage (s.posted c 5))) := by
  have h5 : (s.body c).at 5 = s.posted c 5 := State.body_at (by rw [h.readWords_setPage]; simp)
  unfold judgeSetPage
  rw [h.body_four, h5, ht]
  dsimp only
  rw [hread]

/-- The verdict of a SET PAGE whose page count cannot be read (R164, R176, logs 13 and 35). -/
theorem judgeSetPage_uncounted {s t : State} {c : Nat} {ts : List (Fin 16)} (h : s.Holds (.row .setPage) c)
    (ht : terminalsOf (s.posted c 4).high = some ts) (seq : Word) (hread : ∀ w, (t.bus.read pageCountWord).2 ≠ .word w) :
    judgeSetPage seq (s.body c) t = .unread (t.bus.read pageCountWord).1 := by
  unfold judgeSetPage
  rw [h.body_four, ht]
  dsimp only
  split
  · next b count e => exact absurd (congrArg Prod.snd e) (hread count)
  · next b out _ e => rw [e]

/-- A row whose subcommand has no check of its own is applied to the contexts it names. -/
theorem commandTaken {h : List HostWrite} {before s : State} {c : Nat} {ts : List (Fin 16)} {row : Row} {f : Terminal → Terminal}
    (hrow : row.judge = judgeCommand fun s t => s.modifyTerm t f) (hs : s = before.hostWrites h) (hh : s.Holds (.row row) c)
    (ht : terminalsOf (s.posted c 4).high = some ts) (hc : s.checksTaken ts) :
    Applies (row.withStores h) before c fun u => Commands (s.received c) u ts f := by
  have hu := Commands.command (s := s.received c) (terminalsOf_nodup ht) hc f
  refine applies_row hs hh ?_ hu.results hu
  rw [hrow, judgeCommand, hh.body_four, ht]

theorem Terminal.setLock_eq (flag : Bool) :
    Terminal.setLock flag = fun x : Terminal => { x with locked := flag }.messageDirty :=
  funext fun _ => Terminal.markMessageRow_eq _

/-- Settles O9: the page count read decides on a SET PAGE, and the two accesses that may fail are the read of it and the TAKEN write;
the other subcommands have no check. -/
theorem setPageLockAndStackTaken : Obligations.SetPageLockAndStackTaken := by
  refine ⟨?_, ?_, ?_⟩
  · intro h before s c ts hs hh ht hc
    have hread : (s.received c).bus.read pageCountWord = ((s.received c).bus, .word (s.bus.peek 9)) := Bus.read_quiet hh.quiet _
    have hj := judgeSetPage_counted hh ht (s.posted c 2) hread
    rw [State.withBus_self] at hj
    split
    · next hle =>
      rw [if_pos hle] at hj
      exact refuses_of_judgeOn (judge := judgeSetPage) (by rw [hs]; rfl) hh hj
    · next hlt =>
      rw [if_neg hlt, funext (Terminal.askPage_eq _)] at hj
      have hu := Commands.command (s := s.received c) (terminalsOf_nodup ht) hc fun x : Terminal =>
        if x.work = .none then { x with work := .pageLoad (s.posted c 5) .posting } else { x with waiting := some (s.posted c 5) }
      exact applies_row (row := .setPage) hs hh hj hu.results hu
  · intro h before s c ts hs hh ht
    have hwords : wordsRead (s.posted c 3) (s.posted c) = 4 := by
      unfold wordsRead
      rw [hh.readWords_setPage]
      rfl
    have hx : ∀ r, exec (.setPage h) (before.meeting (List.replicate 4 .completes ++ r)) =
        .next ((judgeSetPage (s.posted c 2) (s.body c) ((s.received c).meeting r)).outcome (s.meeting r)
          ((s.received c).meeting r) (s.posted c 2) (s.posted c 3)) := fun r => by
      rw [show exec (.setPage h) _ = _ from exec_withStores .setPage h _, State.hostWrites_meeting, ← hs]
      exact congrArg _ (State.takePosting_meeting hh judgeSetPage hwords.symm r)
    have hself : ({ s.bus with script := [] } : Bus) = s.bus := congrArg State.bus (State.meeting_quiet hh.quiet)
    refine ⟨fun x y f hf => ?_, fun hle a b => ?_⟩
    · obtain ⟨hbus, hword⟩ := Bus.read_fails hf s.bus pageCountWord []
      rw [hself] at hbus
      rw [hx [x, y], judgeSetPage_uncounted (t := (s.received c).meeting [x, y]) hh ht _ hword]
      rw [show (((s.received c).meeting [x, y]).bus.read pageCountWord).1 = s.bus.setError f from hbus]
      rfl
    · have hr : List.replicate 5 Attempt.completes ++ [.timesOut a, .timesOut b] =
          List.replicate 4 .completes ++ [.completes, .timesOut a, .timesOut b] := rfl
      have hread : ((s.received c).meeting [.completes, .timesOut a, .timesOut b]).bus.read pageCountWord =
          ({ s.bus with script := [.timesOut a, .timesOut b] }, .word (s.bus.peek 9)) := Bus.read_completes _ _ _
      rw [hr, hx, judgeSetPage_counted hh ht _ hread, if_pos hle]
      exact congrArg _ (State.writeTaken_meeting (s := s.refusedAs c .badField) hh.quiet hh.current a b)
  · intro h before s c ts hs ht hc
    refine ⟨fun hh => ?_, fun hh => ?_, fun hh => commandTaken (row := .clearStack) rfl hs hh ht hc⟩
    · rw [← Terminal.setLock_eq true]
      exact commandTaken (row := .lock) rfl hs hh ht hc
    · rw [← Terminal.setLock_eq false]
      exact commandTaken (row := .unlock) rfl hs hh ht hc

/-! ## DUPLICATE and unreadable postings (R41, R42, R44) -/

theorem State.inHand_eq_some {s : State} {c : Nat} (h : s.inHand = some c) : s.intake.current = some c := by
  unfold State.inHand at h
  split at h
  · exact h
  · cases h

/-- A posting that a row meets is read and finished with by some judge (log 26). -/
theorem State.metAs.judgeAs {s : State} {c : Nat} {row : Row} (h : s.metAs c row) :
    ∃ j, Sys2Proof.Machine.judgeAs row (s.namedAt c) row.judge = some j := by
  unfold State.metAs at h
  unfold Sys2Proof.Machine.judgeAs
  split
  · exact ⟨_, rfl⟩
  · exact ⟨_, rfl⟩
  · next r hr => exact ⟨_, if_pos (h r hr)⟩

theorem State.takePosting_judged {s : State} {c : Nat} {row : Row} {judge j : Judge} (h : s.inHand = some c)
    (hj : judgeAs row (s.namedAt c) judge = some j) : s.takePosting row judge = s.finishPosting j c := by
  unfold State.takePosting
  rw [h]
  dsimp only
  rw [hj]

theorem State.hostWrites_nil (s : State) : s.hostWrites [] = s := by
  have h : s.bus.hostWrites [] = s.bus := by
    unfold Bus.hostWrites
    split <;> rfl
  unfold State.hostWrites
  rw [h]
  rfl

/-- A posting whose sequence is the last one taken is refused DUPLICATE, whichever judge it has (R44). -/
theorem State.finishPosting_duplicate {s : State} {c : Nat} (hq : s.bus.script = []) (hd : s.intake.lastSeq = some (s.posted c 2))
    (j : Judge) : s.finishPosting j c = ((s.holdSequence (s.posted c 2)).refusePosting (s.posted c 2) (s.posted c 3)
      .duplicate).writeTaken := by
  unfold State.finishPosting
  rw [Bus.readPosting_quiet hq]
  dsimp only
  rw [State.withBus_self]
  exact if_pos hd

/-- A sequence met by two parity faults: PARITY, with the word as it was read (R42, R164, log 16). -/
theorem Bus.readPosting_faults {b : Bus} (hq : b.script = []) (x y : Word) (at_ : Nat → Word) :
    ({ b with script := [.faults x, .faults y] } : Bus).readPosting at_ = (b.setError .parity, .parity y (b.peek (at_ 3))) := by
  have hself : ({ b with script := [] } : Bus) = b := by rw [← hq]
  have hread : ({ b with script := [.faults x, .faults y] } : Bus).read (at_ 2) =
      (({ b with script := [] } : Bus).setError .parity, .faulted y) := rfl
  have hq' : (b.setError .parity).script = [] := (b.setError_script .parity).trans hq
  unfold Bus.readPosting
  rw [hread, hself]
  dsimp only
  rw [Bus.read_quiet hq', Bus.setError_peek]

/-- A sequence that times out twice: the posting is not read (R164, R171). -/
theorem Bus.readPosting_timesOut {b : Bus} (hq : b.script = []) (x y : Bool) (at_ : Nat → Word) :
    ({ b with script := [.timesOut x, .timesOut y] } : Bus).readPosting at_ = (b.setError .busTimeout, .unread) := by
  have hself : ({ b with script := [] } : Bus) = b := by rw [← hq]
  have hread : ({ b with script := [.timesOut x, .timesOut y] } : Bus).read (at_ 2) =
      (({ b with script := [] } : Bus).setError .busTimeout, .timedOut) := rfl
  unfold Bus.readPosting
  rw [hread, hself]

/-- One attempt that does not succeed changes nothing of the reading (R164). -/
theorem Bus.readPosting_retried {b : Bus} (hq : b.script = []) (a : Attempt) (at_ : Nat → Word) :
    ({ b with script := [a] } : Bus).readPosting at_ = b.readPosting at_ := by
  have hself : ({ b with script := [] } : Bus) = b := by rw [← hq]
  have hread : ({ b with script := [a] } : Bus).read (at_ 2) = b.read (at_ 2) := by
    rw [Bus.read_quiet hq]
    have h : ({ b with script := [a] } : Bus).read (at_ 2) =
        ({ b with script := [] }, .word (({ b with script := [] } : Bus).peek (at_ 2))) := by
      cases a <;> rfl
    rw [h, hself]
  unfold Bus.readPosting
  rw [hread]

/-- A posting refused PARITY for its sequence (R41, R42). -/
theorem State.finishPosting_faults {s : State} (hq : s.bus.script = []) (x y : Word) (j : Judge) (c : Nat) :
    (s.meeting [.faults x, .faults y]).finishPosting j c =
      (((s.withBus (s.bus.setError .parity)).holdSequence y).refusePosting y (s.posted c 3) .parity).writeTaken := by
  unfold State.finishPosting
  rw [show (s.meeting [.faults x, .faults y]).bus.readPosting _ = _ from Bus.readPosting_faults hq x y _]
  rfl

/-- A posting not taken, because its sequence times out (R41, R171, logs 13 and 35). -/
theorem State.finishPosting_timesOut {s : State} (hq : s.bus.script = []) (x y : Bool) (j : Judge) (c : Nat) :
    (s.meeting [.timesOut x, .timesOut y]).finishPosting j c = (s.withBus (s.bus.setError .busTimeout)).leavePosting := by
  unfold State.finishPosting
  rw [show (s.meeting [.timesOut x, .timesOut y]).bus.readPosting _ = _ from Bus.readPosting_timesOut hq x y _]
  rfl

theorem State.finishPosting_retried {s : State} (hq : s.bus.script = []) (a : Attempt) (j : Judge) (c : Nat) :
    (s.meeting [a]).finishPosting j c = s.finishPosting j c := by
  unfold State.finishPosting
  rw [show (s.meeting [a]).bus.readPosting _ = _ from Bus.readPosting_retried hq a _]
  rfl

/-- Settles O14: the first word read decides on DUPLICATE, PARITY and a posting not taken; a TAKEN write that fails is owed, and a posting
whose TAKEN write is owed is not in hand. -/
theorem duplicateAndUnreadablePostings : Obligations.DuplicateAndUnreadablePostings := by
  refine ⟨?_, ?_, ?_⟩
  · intro h before s c row hs hin hn hq hmet hdup
    obtain ⟨j, hj⟩ := hmet.judgeAs
    refine ⟨_, exec_withStores row h before, ?_⟩
    rw [← hs, State.takePosting_judged hin hj, State.finishPosting_duplicate hq hdup]
    exact Taken.writeTaken (s := (s.holdSequence (s.posted c 2)).refusePosting (s.posted c 2) (s.posted c 3) .duplicate) hq
      (State.inHand_eq_some hin) hn
  · intro s quiet c row hquiet hin hn hmet
    obtain ⟨j, hj⟩ := hmet.judgeAs
    have hx : exec (row.withStores []) s = .next (s.finishPosting j c) := by
      rw [exec_withStores, State.hostWrites_nil, State.takePosting_judged hin hj]
    obtain rfl : quiet = s.meeting [] := hquiet
    have hin' : (s.meeting []).inHand = some c := hin
    have hcurrent : s.intake.current = some c := State.inHand_eq_some hin
    have hmeeting : ∀ r, s.bus.script = r → s = (s.meeting []).meeting r := fun r hr => by
      rw [← hr]
      rfl
    refine ⟨fun x y hr => ⟨_, hx, ?_⟩, fun a b hr => ?_, fun a hr => ?_⟩
    · rw [congrArg (·.finishPosting j c) (hmeeting _ hr), State.finishPosting_faults rfl]
      exact Taken.writeTaken (s := ((((s.meeting []).withBus ((s.meeting []).bus.setError .parity)).holdSequence y).refusePosting y
        (s.posted c 3) .parity)) ((s.meeting []).bus.setError_script .parity) hcurrent hn
    · rw [hx, congrArg (·.finishPosting j c) (hmeeting _ hr), State.finishPosting_timesOut rfl]
      rfl
    · rw [hx, congrArg (·.finishPosting j c) (hmeeting _ hr), State.finishPosting_retried rfl, exec_withStores,
        State.hostWrites_nil, State.takePosting_judged hin' hj]
  · intro h before s c a b hs
    refine ⟨fun hh => ?_, fun htaking howed hcur => ⟨fun row => ?_, fun hservice hq => ?_⟩⟩
    · have hwords : wordsRead (s.posted c 3) (s.posted c) = 4 := by
        unfold wordsRead
        simp [readWords, firstWords, moreWords, lastWords, hh.kind, Row.kind]
      rw [show exec (.mark h) _ = _ from exec_withStores .mark h _, State.hostWrites_meeting, ← hs]
      rw [State.takePosting_meeting hh _ hwords.symm]
      rw [show Row.judge .mark = judgeMark from rfl, judgeMark_body hh]
      exact congrArg _ (State.writeTaken_meeting (s := (s.received c).handed _) hh.quiet hh.current a b)
    · have hnone : s.inHand = none := by
        unfold State.inHand
        rw [howed]
        simp
      rw [exec_withStores, ← hs, State.takePosting, hnone]
    · have hphase : s.bus.phase = .running := by simpa [State.inService] using hservice
      have hpoll : (s.accepted.meeting [.timesOut a, .timesOut b]).pollIntake =
          (s.accepted.meeting [.timesOut a, .timesOut b]).writeTaken := by
        unfold State.pollIntake
        rw [if_neg, if_pos ⟨htaking, howed⟩]
        rw [show (s.accepted.meeting [.timesOut a, .timesOut b]).intake.state = .taking from htaking]
        decide
      have hx : exec (.nudge h) (before.meeting [.timesOut a, .timesOut b]) =
          .next (s.accepted.meeting [.timesOut a, .timesOut b]).pollIntake := by
        show execNudge h _ = _
        unfold execNudge
        rw [State.hostWrites_meeting, ← hs]
        dsimp only
        rw [show (s.meeting [.timesOut a, .timesOut b]).bus.phase = .running from hphase]
        rfl
      rw [hx, hpoll]
      exact congrArg _ (State.writeTaken_meeting (s := s.accepted) hq hcur a b)

end Sys2Proof.Machine
end

section
/-! PROOF. Refusals that do not depend on the fields of a kind (R42, R56): BAD KIND, an unknown subcommand, BAD INDEX, and a terminal that
names no context. -/

namespace Sys2Proof.Machine

/-- A fresh posting comes to the verdict of its judge, whatever its kind and subcommand name (R41). -/
theorem State.finishPosting_holds {s : State} {n : Named} {c : Nat} (h : s.Holds n c) (j : Judge) :
    s.finishPosting j c =
      (j (s.posted c 2) (s.body c) (s.received c)).outcome s (s.received c) (s.posted c 2) (s.posted c 3) := by
  unfold State.finishPosting
  rw [Bus.readPosting_quiet h.quiet]
  dsimp only
  rw [State.withBus_self]
  unfold State.judgePosting
  rw [if_neg (show ¬ s.intake.lastSeq = some (s.bus.peek (s.params.cellWord c 2)) from h.fresh)]
  dsimp only
  rw [show (s.holdSequence (s.bus.peek (s.params.cellWord c 2))).noteSequence (s.bus.peek (s.params.cellWord c 2)) =
    s.received c from State.noteSequence_eq s c]
  rfl

/-- A posting that its kind and subcommand words alone refuse, under the row of any command (log 26). -/
theorem refuses_named {h : List HostWrite} {before s : State} {c : Nat} {n : Named} {reason : Reason} (row : Row)
    (hs : s = before.hostWrites h) (hh : s.Holds n c) (hn : judgeAs row n row.judge = some fun _ _ _ => .refuse reason) :
    Refuses (row.withStores h) before s c reason := by
  refine ⟨_, exec_withStores row h before, ?_⟩
  rw [← hs, State.takePosting_judged hh.inHand (hh.named ▸ hn), State.finishPosting_holds hh]
  exact Taken.writeTaken (s := s.refusedAs c reason) hh.quiet hh.current hh.cell

theorem Ix.ofNat?_eq_none {n : Nat} (h : 2048 ≤ n) : Ix.ofNat? n = none := dif_neg (Nat.not_lt.2 h)

/-- An index of 2,048 or more is refused BAD INDEX by every row that names an instrument (R42). -/
theorem Row.judge_badIndex {row : Row} (hrow : row.namesInstrument = true) {body : Body} (h : 2048 ≤ (body.at 4).toNat)
    (seq : Word) (s : State) : row.judge seq body s = .refuse .badIndex := by
  have hf : ∀ f : Ix → Verdict, withInstrument body 4 f = .refuse .badIndex := fun f => by
    unfold withInstrument
    rw [Ix.ofNat?_eq_none h]
  cases row
  case trade | quote | cancel | summary | halt | resume | define | snapshot => exact hf _
  all_goals cases hrow

/-- A terminal that names no context is refused BAD FIELD by every subcommand (R56). -/
theorem Row.judge_badTerminal {row : Row} (hrow : row.isTerminal = true) {body : Body}
    (h : terminalsOf (body.at 4).high = none) (seq : Word) (s : State) : row.judge seq body s = .refuse .badField := by
  have hcommand : ∀ f, judgeCommand f seq body s = .refuse .badField := fun f => by
    unfold judgeCommand
    rw [h]
  cases row
  case lock | unlock | clearStack | clearWatches => exact hcommand _
  case text =>
    show judgeText seq body s = _
    unfold judgeText
    rw [h]
  case setPage =>
    show judgeSetPage seq body s = _
    unfold judgeSetPage
    rw [h]
  case setWatch =>
    show judgeSetWatch seq body s = _
    unfold judgeSetWatch
    rw [h]
  all_goals cases hrow

/-- Settles O13: a kind or subcommand that names none is refused under any row, and every row that names an instrument or a context checks
the first body word before all else. -/
theorem badKindIndexAndTerminalRefused : Obligations.BadKindIndexAndTerminalRefused := by
  intro h before s c row hs
  refine ⟨fun hh => refuses_named row hs hh rfl, fun hh => refuses_named row hs hh rfl, fun hh hrow hi => ?_,
    fun hh hrow hlt hall => ?_⟩
  · exact refuses_row hs hh (Row.judge_badIndex hrow (by rw [hh.body_four]; exact hi) _ _)
  · exact refuses_row hs hh (Row.judge_badTerminal hrow (by rw [hh.body_four]; exact terminalsOf_eq_none hlt hall) _ _)

end Sys2Proof.Machine
end

section
/-! PROOF. SET WATCH and CLEAR WATCHES (R59, R159, R160): the watch lists of the contexts and the watch masks of the records. -/

namespace Sys2Proof.Machine

/-! ## One bit of a watch mask (R160) -/

/-- The bit of a context in the watch mask of an instrument, set anew, and no other record changed (R160). -/
theorem State.record_refreshWatchBit (s : State) (t : Fin 16) (i j : Ix) :
    (s.refreshWatchBit t i).record j =
      if j = i then
        { s.record j with watchMask := Bank.set (s.record j).watchMask t ((s.term t).watches.any (·.armedOn i)) }
      else s.record j := by
  unfold State.refreshWatchBit
  rw [State.setRecord_eq, State.record_setRecord]
  by_cases h : j = i
  · rw [if_pos h, if_pos h, h]
  · rw [if_neg h, if_neg h]

theorem State.term_refreshWatchBit (s : State) (t : Fin 16) (i : Ix) (k : Fin 16) :
    (s.refreshWatchBit t i).term k = s.term k := rfl

/-! ## CLEAR WATCHES (R59, R160) -/

/-- The mask of a record when the watches of some contexts are gone: the bit of such a context that watched the instrument is clear. -/
def State.clearedMask (s : State) (ts : List (Fin 16)) (j : Ix) : Vector Bool 16 :=
  Bank.tabulate fun k =>
    Bank.get (s.record j).watchMask k && !(decide (k ∈ ts) && (s.term k).watches.any fun w => w.instr = j)

/-- The watches of some contexts are gone from lists and masks, and nothing else has changed (R59, R160). -/
structure ClearsWatches (ts : List (Fin 16)) (s u : State) : Prop where
  rest : u = { s with store := u.store, terms := u.terms }
  terms : ∀ k, u.term k = if k ∈ ts then { s.term k with watches := [] } else s.term k
  records : ∀ j, u.record j = { s.record j with watchMask := s.clearedMask ts j }

theorem ClearsWatches.nil (s : State) : ClearsWatches [] s s := by
  refine ⟨rfl, fun k => by simp, fun j => ?_⟩
  have h : s.clearedMask [] j = (s.record j).watchMask := Bank.ext fun k => by simp [State.clearedMask]
  rw [h]

theorem ClearsWatches.cons {s v u : State} {t : Fin 16} {ts : List (Fin 16)} (h : ClearsWatches [t] s v)
    (g : ClearsWatches ts v u) : ClearsWatches (t :: ts) s u := by
  refine ⟨by rw [g.rest, h.rest], fun k => ?_, fun j => ?_⟩
  · rw [g.terms k, h.terms k]
    by_cases hk : k = t <;> by_cases hks : k ∈ ts <;> simp [hk, hks]
  · have hmask : v.clearedMask ts j = s.clearedMask (t :: ts) j := Bank.ext fun k => by
      simp only [State.clearedMask, Bank.get_tabulate, h.records j, h.terms k]
      by_cases hk : k = t <;> simp [hk]
    rw [g.records j, hmask, h.records j]

/-- With its list empty, a context's bits of the instruments that it watched are cleared one after another (R160). -/
theorem State.foldl_refreshWatchBit (t : Fin 16) (ws : List Watch) {s : State} (h : (s.term t).watches = []) :
    ws.foldl (fun s w => s.refreshWatchBit t w.instr) s =
        { s with store := (ws.foldl (fun s w => s.refreshWatchBit t w.instr) s).store } ∧
      ∀ j, (ws.foldl (fun s w => s.refreshWatchBit t w.instr) s).record j =
        { s.record j with
          watchMask := Bank.tabulate (fun k =>
            Bank.get (s.record j).watchMask k && !(decide (k = t) && ws.any fun w => w.instr = j)) } := by
  induction ws generalizing s with
  | nil =>
    refine ⟨rfl, fun j => ?_⟩
    have hmask : (Bank.tabulate fun k => Bank.get (s.record j).watchMask k && !(decide (k = t) && false)) =
        (s.record j).watchMask := Bank.ext fun k => by simp
    exact congrArg (fun m => { s.record j with watchMask := m }) hmask.symm
  | cons w ws ih =>
    obtain ⟨hrest, hrecords⟩ := ih (s := s.refreshWatchBit t w.instr) h
    rw [List.foldl_cons]
    refine ⟨hrest, fun j => ?_⟩
    rw [hrecords j, State.record_refreshWatchBit, h]
    by_cases hj : j = w.instr
    · rw [if_pos hj]
      refine congrArg (fun m => { s.record j with watchMask := m }) (Bank.ext fun k => ?_)
      by_cases hk : k = t
      · subst hk; simp [hj]
      · simp [hk, Bank.get_set, Ne.symm hk]
    · rw [if_neg hj]
      simp [Ne.symm hj]

theorem ClearsWatches.clearWatches (s : State) (t : Fin 16) : ClearsWatches [t] s (s.clearWatches t) := by
  obtain ⟨hrest, hterms⟩ := changesTerm_modify s t fun x => { x with watches := [] }
  obtain ⟨hrest', hrecords⟩ := State.foldl_refreshWatchBit t (s.term t).watches
    (s := s.modifyTerm t fun x => { x with watches := [] }) (by rw [hterms t, if_pos rfl])
  unfold State.clearWatches
  refine ⟨by rw [hrest', hrest], fun k => ?_, fun j => ?_⟩
  · rw [hrest']
    refine (hterms k).trans ?_
    by_cases hk : k = t <;> simp [hk]
  · refine (hrecords j).trans (congrArg (fun m => { s.record j with watchMask := m }) (Bank.ext fun k => ?_))
    simp only [State.clearedMask, Bank.get_tabulate, List.mem_singleton]
    by_cases hk : k = t
    · subst hk; rfl
    · simp [hk]

/-- CLEAR WATCHES of the contexts it names, with no watch check waiting at them (R59, log 17). -/
theorem ClearsWatches.command {s : State} {ts : List (Fin 16)} (hc : s.checksTaken ts) :
    ClearsWatches ts s (s.command ts State.clearWatches) := by
  induction ts generalizing s with
  | nil => exact .nil s
  | cons t ts ih =>
    have h := ClearsWatches.clearWatches s t
    rw [State.command_cons hc]
    refine h.cons (ih fun k hk => ?_)
    rw [h.terms k]
    split <;> exact hc k (List.mem_cons_of_mem t hk)

/-! ## SET WATCH (R59, R159, R160) -/

theorem directionOf_eq_none {w : Word} : directionOf w = none ↔ w.toNat = 0 ∨ 2 < w.toNat := by
  unfold directionOf
  split <;> simp_all
  omega

theorem directionOf_eq_some {w : Word} {dir : Direction} (h : directionOf w = some dir) :
    dir = if w.toNat = 1 then .above else .below := by
  unfold directionOf at h
  split at h <;> cases h <;> simp_all

/-- A SET WATCH that is taken adds an ARMED watch at the end of the list of one context, and sets its bit (R159, R160). -/
theorem State.addWatch_effect (s : State) (t : Fin 16) (i : Ix) (level : Price) (dir : Direction) :
    s.addWatch t i level dir =
        { s with store := (s.addWatch t i level dir).store, terms := (s.addWatch t i level dir).terms } ∧
      (∀ k, (s.addWatch t i level dir).term k =
        if k = t then { s.term k with watches := (s.term k).watches ++ [⟨i, level, dir, false⟩] } else s.term k) ∧
      ∀ j, (s.addWatch t i level dir).record j =
        if j = i then { s.record j with watchMask := Bank.set (s.record j).watchMask t true } else s.record j := by
  obtain ⟨-, hterms⟩ := changesTerm_modify s t fun x => { x with watches := x.watches ++ [⟨i, level, dir, false⟩] }
  refine ⟨rfl, fun k => (hterms k).trans ?_, fun j => ?_⟩
  · by_cases hk : k = t <;> simp [hk]
  · unfold State.addWatch
    rw [State.record_refreshWatchBit, hterms t]
    simp [Watch.armedOn]

/-- The verdict of a SET WATCH for one terminal, from its words (R59). -/
theorem judgeSetWatch_body {s : State} {c : Nat} {t : Fin 16} {seq : Word} (h : s.Holds (.row .setWatch) c)
    (ht : terminalsOf (s.posted c 4).high = some [t]) :
    judgeSetWatch seq (s.body c) (s.received c) =
      (Ix.ofNat? (s.posted c 5).toNat).elim (.refuse .badIndex) fun i =>
        (priceOfDouble (s.posted c 6) (s.posted c 7)).elim (.refuse .badField) fun level =>
          (directionOf (s.posted c 8)).elim (.refuse .badField) fun dir =>
            if (s.record i).state = .undefined then .refuse .undefinedInstrument
            else if (s.term t).watches.length < 4 then
              .apply ((s.received c).command [t] fun s' k => s'.addWatch k i level dir)
            else .refuse .badField := by
  have hread := (readWords_terminal h.kind (s.posted c)).2.2 (h.subcommand rfl)
  have hat : ∀ k ∈ [5, 6, 7, 8], (s.body c).at k = s.posted c k := fun k hk =>
    State.body_at (by rw [hread]; exact List.mem_cons_of_mem _ hk)
  rw [judgeSetWatch, h.body_four, ht]
  dsimp only
  rw [withInstrument, hat 5 (by simp)]
  cases Ix.ofNat? (s.posted c 5).toNat with
  | none => rfl
  | some i =>
    dsimp only [Option.elim]
    rw [judgeWatch, hat 6 (by simp), hat 7 (by simp), hat 8 (by simp)]
    cases priceOfDouble (s.posted c 6) (s.posted c 7) <;> cases directionOf (s.posted c 8) <;> rfl

/-- A SET WATCH whose terminal is not one context is refused (R59). -/
theorem judgeSetWatch_notOne {s : State} {c : Nat} {seq : Word} (h : s.Holds (.row .setWatch) c)
    (ht : ∀ t, terminalsOf (s.posted c 4).high ≠ some [t]) :
    judgeSetWatch seq (s.body c) (s.received c) = .refuse .badField := by
  unfold judgeSetWatch
  rw [h.body_four]
  split
  · next t e => exact absurd e (ht t)
  · rfl

/-- Settles O10: the checks of R59 in their turn decide on a SET WATCH, which then adds one watch; CLEAR WATCHES acts on one named context
after another. -/
theorem watchesSetAndCleared : Obligations.WatchesSetAndCleared := by
  constructor
  · intro h before s c hs hh
    dsimp only
    split
    next t ht =>
      intro hc
      have hj := judgeSetWatch_body (seq := s.posted c 2) hh ht
      split
      · next hi =>
        rw [hi] at hj
        exact refuses_row (row := .setWatch) hs hh hj
      next i hi =>
      rw [hi, Option.elim] at hj
      split
      · next hp =>
        rw [hp] at hj
        exact refuses_row (row := .setWatch) hs hh hj
      next level hp =>
      rw [hp, Option.elim] at hj
      cases hd : directionOf (s.posted c 8) with
      | none =>
        rw [hd] at hj
        rw [if_pos (directionOf_eq_none.1 hd)]
        exact refuses_row (row := .setWatch) hs hh hj
      | some dir =>
      rw [hd, Option.elim] at hj
      rw [if_neg fun e => by rw [directionOf_eq_none.2 e] at hd; cases hd]
      split
      · next hu =>
        rw [if_pos hu] at hj
        exact refuses_row (row := .setWatch) hs hh hj
      next hu =>
      rw [if_neg hu] at hj
      split
      · next hfull =>
        rw [if_neg (Nat.not_lt.2 hfull)] at hj
        exact refuses_row (row := .setWatch) hs hh hj
      · next hroom =>
        rw [if_pos (Nat.lt_of_not_le hroom), State.command_cons (s := s.received c) hc] at hj
        obtain ⟨hrest, hterms, hrecords⟩ := (s.received c).addWatch_effect t i level dir
        rw [← directionOf_eq_some hd]
        exact applies_row (row := .setWatch) hs hh hj ⟨rfl, rfl, rfl⟩ ⟨hrest, hterms, hrecords⟩
    next hno => exact refuses_row (row := .setWatch) hs hh (judgeSetWatch_notOne (seq := s.posted c 2) hh hno)
  · intro h before s c ts hs hh ht hc
    have hj : judgeCommand State.clearWatches (s.posted c 2) (s.body c) (s.received c) =
        .apply ((s.received c).command ts State.clearWatches) := by
      rw [judgeCommand, hh.body_four, ht]
    obtain ⟨hrest, hterms, hrecords⟩ := ClearsWatches.command (s := s.received c) hc
    exact applies_row (row := .clearWatches) hs hh hj ⟨by rw [hrest], by rw [hrest], by rw [hrest]⟩ ⟨hrest, hterms, hrecords⟩

end Sys2Proof.Machine
end

section
/-! PROOF. A REMAP posting (R60), and step 1 of R92 in full: what becomes of chains and timers when the placements of a line go. -/

namespace Sys2Proof.Machine

/-! ## One placement taken out of a chain (R80, R92 step 1) -/

/-- A link that leads to an entry leads past it. -/
def skipTo (k : Nat) (next link : Option Nat) : Option Nat := if link = some k then next else link

/-- Links that begin at an entry list it. -/
theorem Formatter.Links.mem_of_head {x : Formatter} {k : Nat} {ls : List Nat} (h : x.Links (some k) ls) : k ∈ ls := by
  cases ls with
  | nil => exact h.elim
  | cons j ls => exact h.1 ▸ List.mem_cons_self

/-- Links that never lead to `k` are as they were, when every placement with another link is. -/
theorem Formatter.Links.of_avoids {x y : Formatter} {k : Nat}
    (hxy : ∀ j q, j ≠ k → x.placement j = some q → q.next ≠ some k → y.placement j = some q) {ls : List Nat} (hk : k ∉ ls)
    {head : Option Nat} (h : x.Links head ls) : y.Links head ls := by
  induction ls generalizing head with
  | nil => cases head <;> exact h
  | cons j ls ih =>
    cases head with
    | none => exact h
    | some a =>
      obtain ⟨rfl, q, hq, hnext⟩ := h
      obtain ⟨hj, hk⟩ := not_or.1 (mt List.mem_cons.2 hk)
      have hne : q.next ≠ some k := fun e => hk (Formatter.Links.mem_of_head (e ▸ hnext))
      exact ⟨rfl, q, hxy _ q (Ne.symm hj) hq hne, ih hk hnext⟩

/-- Links that lead past an entry, once every link to it does. -/
theorem Formatter.Links.of_skips {x y : Formatter} {k : Nat} {p : Placement} (hp : x.placement k = some p)
    (hxy : ∀ j q, j ≠ k → x.placement j = some q → y.placement j = some { q with next := skipTo k p.next q.next })
    {ls : List Nat} (hn : ls.Nodup) {head : Option Nat} (h : x.Links head ls) :
    y.Links (skipTo k p.next head) (ls.filter (· ≠ k)) := by
  induction ls generalizing head with
  | nil =>
    cases head with
    | none => exact h
    | some a => exact h.elim
  | cons j ls ih =>
    cases head with
    | none => exact h.elim
    | some a =>
      obtain ⟨rfl, q, hq, hnext⟩ := h
      obtain ⟨hj, hn⟩ := List.nodup_cons.1 hn
      have htail := ih hn hnext
      by_cases hk : a = k
      · subst hk
        obtain rfl : p = q := Option.some.inj (hp.symm.trans hq)
        have hne : p.next ≠ some a := fun e => hj (Formatter.Links.mem_of_head (e ▸ hnext))
        rw [skipTo, if_neg hne] at htail
        simpa [skipTo] using htail
      · have hne : (some a : Option Nat) ≠ some k := fun e => hk (Option.some.inj e)
        rw [skipTo, if_neg hne, List.filter_cons_of_pos (by simpa using hk)]
        exact ⟨rfl, _, hxy a q hk hq, htail⟩

/-- What a placement becomes when `p` in entry `k` is unlinked: its link leads past `k`, unless `k` was the head of its chain. -/
def State.relinked (s : State) (k : Nat) (p q : Placement) : Placement :=
  if (s.record p.instr).chainHead = some k then q else { q with next := skipTo k p.next q.next }

theorem State.relinked_rest (s : State) (k : Nat) (p q : Placement) :
    s.relinked k p q = { q with next := (s.relinked k p q).next } := by
  unfold State.relinked
  split <;> rfl

theorem State.relinked_avoids (s : State) {k : Nat} (p : Placement) {q : Placement} (h : q.next ≠ some k) :
    s.relinked k p q = q := by
  unfold State.relinked
  rw [skipTo, if_neg h]
  exact ite_self q

section

variable {s : State} {k : Nat} {p : Placement}

theorem State.placement_unlink (s : State) (k : Nat) (p : Placement) (j : Nat) :
    (s.unlink k p).fmt.placement j = (s.fmt.placement j).map (s.relinked k p) := by
  unfold State.unlink State.relinked
  dsimp only
  split
  · show s.fmt.placement j = _
    cases s.fmt.placement j <;> rfl
  · refine (Formatter.placement_linkPast s.fmt k p.next j).trans ?_
    cases s.fmt.placement j with
    | none => rfl
    | some q =>
      simp only [Option.map_some, skipTo]
      split <;> rfl

/-- The placements after one is taken out. -/
theorem State.placement_removePlacement (hp : s.fmt.placement k = some p) (j : Nat) :
    (s.removePlacement k).fmt.placement j = if j = k then none else (s.fmt.placement j).map (s.relinked k p) := by
  unfold State.removePlacement
  rw [hp]
  refine (Formatter.placement_setPlacement _ k j none).trans ?_
  rw [← State.placement_unlink]
  rfl

theorem State.timers_removePlacement (hp : s.fmt.placement k = some p) :
    (s.removePlacement k).fmt.timers = s.fmt.timers.filter fun e => e.placement ≠ k := by
  have h : (s.unlink k p).fmt.timers = s.fmt.timers := by
    unfold State.unlink
    dsimp only
    split <;> rfl
  unfold State.removePlacement
  rw [hp]
  show ((s.unlink k p).fmt.timers.filter fun e => e.placement ≠ k) = _
  rw [h]

theorem State.record_removePlacement (hp : s.fmt.placement k = some p) (i : Ix) :
    (s.removePlacement k).record i =
      if i = p.instr ∧ (s.record p.instr).chainHead = some k then { s.record i with chainHead := p.next } else s.record i := by
  unfold State.removePlacement State.unlink
  rw [hp]
  dsimp only
  split
  · next hhead =>
    refine (State.record_setRecord s p.instr i _).trans ?_
    by_cases hi : i = p.instr
    · rw [if_pos hi, if_pos ⟨hi, hhead⟩, hi]
    · rw [if_neg hi, if_neg fun e => hi e.1]
  · next hhead => rw [if_neg fun e => hhead e.2]; rfl

/-- A chain that holds the entry loses it, and another chain is as it was (R80). -/
theorem State.ChainIs.removePlacement (hp : s.fmt.placement k = some p) {i : Ix} {ls : List Nat} (h : s.ChainIs i ls) :
    (s.removePlacement k).ChainIs i (ls.filter (· ≠ k)) := by
  obtain ⟨hnodup, hlinks, hmem⟩ := h
  have hplace : ∀ j q, j ≠ k → s.fmt.placement j = some q →
      (s.removePlacement k).fmt.placement j = some (s.relinked k p q) := fun j q hj hq => by
    rw [State.placement_removePlacement hp, if_neg hj, hq]
    rfl
  have havoid : ∀ j q, j ≠ k → s.fmt.placement j = some q → q.next ≠ some k →
      (s.removePlacement k).fmt.placement j = some q := fun j q hj hq hne => by
    rw [hplace j q hj hq, s.relinked_avoids p hne]
  refine ⟨hnodup.filter _, ?_, fun j hj => ?_⟩
  · rw [State.record_removePlacement hp]
    by_cases hk : k ∈ ls
    · obtain ⟨-, p', hp', rfl⟩ := hmem k hk
      obtain rfl : p = p' := Option.some.inj (hp.symm.trans hp')
      by_cases hhead : (s.record p.instr).chainHead = some k
      · rw [if_pos ⟨rfl, hhead⟩]
        rw [hhead] at hlinks
        cases ls with
        | nil => exact hlinks.elim
        | cons a ls =>
          obtain ⟨rfl, q, hq, hnext⟩ := hlinks
          obtain rfl : p = q := Option.some.inj (hp.symm.trans hq)
          obtain ⟨hnot, -⟩ := List.nodup_cons.1 hnodup
          have hfilter : (k :: ls).filter (· ≠ k) = ls := by
            simp only [ne_eq, decide_not, List.filter_cons, decide_true, Bool.not_true, Bool.false_eq_true, if_false]
            exact List.filter_eq_self.2 fun j hj => by simpa using fun e : j = k => hnot (e ▸ hj)
          rw [hfilter]
          exact hnext.of_avoids havoid hnot
      · rw [if_neg fun e => hhead e.2]
        have hskip := hlinks.of_skips (y := (s.removePlacement k).fmt) hp
          (fun j q hj hq => by rw [hplace j q hj hq, State.relinked, if_neg hhead]) hnodup
        rwa [skipTo, if_neg hhead] at hskip
    · have hhead : ¬ (i = p.instr ∧ (s.record p.instr).chainHead = some k) := fun e => by
        rw [e.1, e.2] at hlinks
        exact hk hlinks.mem_of_head
      have hfilter : ls.filter (· ≠ k) = ls :=
        List.filter_eq_self.2 fun j hj => by simpa using fun e : j = k => hk (e ▸ hj)
      rw [if_neg hhead, hfilter]
      exact hlinks.of_avoids havoid hk
  · obtain ⟨hj, hne⟩ := List.mem_filter.1 hj
    obtain ⟨hlt, q, hq, hi⟩ := hmem j hj
    refine ⟨hlt, _, hplace j q (by simpa using hne) hq, ?_⟩
    rw [s.relinked_rest k p q]
    exact hi

end

/-! ## All placements of a line (R92 step 1) -/

/-- Some entries of the table are freed, as `Frees` says, with the chains and timers that this leaves. -/
structure Unlinks (ks : List Nat) (s t : State) : Prop extends Frees ks s t where
  kept : ∀ k p, t.fmt.placement k = some p → ∃ q, s.fmt.placement k = some q ∧ p = { q with next := p.next }
  chains : ∀ i ls, s.ChainIs i ls → t.ChainIs i (ls.filter (· ∉ ks))
  timers : t.fmt.timers = s.fmt.timers.filter fun e => decide (e.placement ∉ ks ∨ s.fmt.placement e.placement = none)

theorem Unlinks.nil (s : State) : Unlinks [] s s := by
  refine ⟨.nil s, fun k p hp => ⟨p, hp, rfl⟩, fun i ls h => ?_, ?_⟩
  · simpa using h
  · simp

theorem Unlinks.cons {s t u : State} {k : Nat} {ks : List Nat} (h : Unlinks [k] s t) (g : Unlinks ks t u) :
    Unlinks (k :: ks) s u := by
  refine ⟨h.toFrees.cons g.toFrees, fun j p hp => ?_, fun i ls hc => ?_, ?_⟩
  · obtain ⟨q, hq, hpq⟩ := g.kept j p hp
    obtain ⟨r, hr, hqr⟩ := h.kept j q hq
    exact ⟨r, hr, by rw [hpq, hqr]⟩
  · have hc' := g.chains i _ (h.chains i ls hc)
    rw [List.filter_filter] at hc'
    convert hc' using 1
    refine List.filter_congr fun j _ => ?_
    simp [Bool.and_comm]
  · rw [g.timers, h.timers, List.filter_filter]
    refine List.filter_congr fun e _ => ?_
    rw [← Bool.decide_and, decide_eq_decide, h.gone e.placement]
    simp only [List.mem_cons, List.not_mem_nil]
    tauto

theorem Unlinks.removePlacement (s : State) (k : Nat) : Unlinks [k] s (s.removePlacement k) := by
  cases hp : s.fmt.placement k with
  | none =>
    have hsame : s.removePlacement k = s := by
      unfold State.removePlacement
      rw [hp]
    refine ⟨s.removePlacement_frees k, ?_, fun i ls h => ?_, ?_⟩ <;> rw [hsame]
    · exact fun j p hj => ⟨p, hj, rfl⟩
    · have hfilter : ls.filter (· ∉ [k]) = ls := List.filter_eq_self.2 fun j hj => by
        obtain ⟨-, q, hq, -⟩ := h.2.2 j hj
        have hne : j ≠ k := fun e => by rw [e, hp] at hq; cases hq
        simpa using hne
      rw [hfilter]
      exact h
    · refine (List.filter_eq_self.2 fun e _ => ?_).symm
      by_cases he : e.placement = k <;> simp [he, hp]
  | some p =>
    refine ⟨s.removePlacement_frees k, fun j q hq => ?_, fun i ls h => ?_, ?_⟩
    · rw [State.placement_removePlacement hp] at hq
      split at hq
      · cases hq
      · obtain ⟨r, hr, rfl⟩ := Option.map_eq_some_iff.1 hq
        exact ⟨r, hr, s.relinked_rest k p r⟩
    · simpa using h.removePlacement hp
    · rw [State.timers_removePlacement hp]
      refine List.filter_congr fun e _ => ?_
      by_cases he : e.placement = k <;> simp [he, hp]

theorem Unlinks.foldl (ks : List Nat) (s : State) : Unlinks ks s (ks.foldl State.removePlacement s) := by
  induction ks generalizing s with
  | nil => exact .nil s
  | cons k ks ih => exact (Unlinks.removePlacement s k).cons (ih _)

/-- A chain is read from the records and the placements. -/
theorem State.ChainIs.congr {s t : State} {i : Ix} {ls : List Nat} (h : s.ChainIs i ls) (hr : t.record i = s.record i)
    (hp : ∀ k, t.fmt.placement k = s.fmt.placement k) : t.ChainIs i ls := by
  obtain ⟨hnodup, hlinks, hmem⟩ := h
  refine ⟨hnodup, ?_, fun k hk => ?_⟩
  · rw [hr]
    exact hlinks.of_placements fun k p hk => ⟨p.highlight, by rw [hp, hk]⟩
  · rw [hp]
    exact hmem k hk

/-- The REMAP of a line begins (R92 step 1, R93, log 20). -/
theorem Begins.beginLine (s : State) (job : RemapJob) : Begins s (s.beginLine job) job := by
  have hun := Unlinks.foldl (s.fmt.entries fun p => p.line = job.line) s
  have hrecord : ∀ i, (s.beginLine job).record i =
      ((s.fmt.entries fun p => p.line = job.line).foldl State.removePlacement s).record i := fun _ => rfl
  have hplace : ∀ k, (s.beginLine job).fmt.placement k =
      ((s.fmt.entries fun p => p.line = job.line).foldl State.removePlacement s).fmt.placement k := fun _ => rfl
  refine ⟨s.beginLine_rest job, s.beginLine_gone job, fun k p hp => hun.kept k p (hplace k ▸ hp), fun i ls hc => ?_, ?_,
    s.beginLine_records job, s.beginLine_line job⟩
  · have hc' := (hun.chains i ls hc).congr (hrecord i) hplace
    convert hc' using 1
    refine List.filter_congr fun k hk => ?_
    obtain ⟨-, p, hp, -⟩ := hc.2.2 k hk
    rw [Bool.eq_iff_iff]
    simp [Formatter.mem_entries, hp]
  · refine hun.timers.trans (List.filter_congr fun e _ => ?_)
    rw [Bool.eq_iff_iff]
    cases hp : s.fmt.placement e.placement <;> simp [Formatter.mem_entries, hp]

/-! ## The posting (R60) -/

/-- The line and the lines after it that a REMAP names (R60). -/
theorem remapLines_eq_some {w : Word} {n : Fin 4} {after : List (Fin 4)} (h : remapLines w = some (n, after)) :
    (n :: after = if w = 0xFF then [0, 1, 2, 3] else [n]) ∧ (w ≠ 0xFF → w.toNat = n.val) := by
  unfold remapLines at h
  split at h
  · next hall =>
    cases h
    exact ⟨by rw [if_pos hall], fun e => absurd hall e⟩
  · next hone =>
    split at h <;> cases h
    exact ⟨by rw [if_neg hone], fun _ => rfl⟩

theorem remapLines_eq_none {w : Word} (h : remapLines w = none) : w ≠ 0xFF ∧ 3 < w.toNat := by
  unfold remapLines at h
  split at h
  · cases h
  · next hone =>
    split at h
    · cases h
    · next hlt => exact ⟨hone, by omega⟩

/-- Settles O11: a REMAP that names lines begins that of the first and leaves intake APPLYING; another is refused. -/
theorem remapTaken : Obligations.RemapTaken := by
  intro h before s c hs hh
  split
  · next hnone =>
    refine ⟨remapLines_eq_none hnone, refuses_row (row := .remap) hs hh ?_⟩
    show judgeRemap (s.posted c 2) _ _ = _
    rw [judgeRemap, hh.body_four, hnone]
  · next n after hsome =>
    obtain ⟨hlines, hcode⟩ := remapLines_eq_some hsome
    have hj : judgeRemap (s.posted c 2) (s.body c) (s.received c) = .remap ((s.received c).beginLine ⟨n, after, .posting⟩) := by
      rw [judgeRemap, hh.body_four, hsome]
    have hx : exec (.remap h) before = .next (((s.received c).beginLine ⟨n, after, .posting⟩).setIntake .applying) := by
      rw [show exec (.remap h) before = _ from exec_withStores .remap h before, ← hs, State.takePosting_holds hh]
      exact congrArg (fun v => Host.Outcome.next (v.outcome s (s.received c) (s.posted c 2) (s.posted c 3))) hj
    exact ⟨hlines, hcode, _, _, hx, Begins.beginLine _ _, rfl⟩

end Sys2Proof.Machine
end

section
/-! PROOF. The interrupt groups (R188) through every change of the bus interface that leaves the controller state and the area as they
stand. -/

namespace Sys2Proof.Machine

/-! ## R188 applied -/

theorem Bus.groupsSettled_iff (b : Bus) : b.groupsSettled = true ↔
    ∀ i, ¬ ((Bank.get b.groups i).state = .idle ∧ (Bank.get b.groups i).marked = true ∧ (Bank.get b.groups i).level ≠ 0 ∧
      b.mayRequest = true) := by
  simp only [Bus.groupsSettled, List.all_eq_true, List.mem_finRange, true_implies]
  exact forall_congr' fun i => by grind

@[simp] theorem Bus.settle_mayRequest (b : Bus) : b.settle.mayRequest = b.mayRequest := rfl

@[simp] theorem Bus.get_settle (b : Bus) (i : Fin 5) :
    Bank.get b.settle.groups i = Group.settle b.mayRequest (Bank.get b.groups i) := Bank.get_mapAll _ _ _

/-- Each group REQUESTING is marked and may request. -/
def Bus.RequestsSound (b : Bus) : Prop :=
  ∀ i, (Bank.get b.groups i).state = .requesting → (Bank.get b.groups i).marked = true ∧ b.mayRequest = true

/-- Once R188 is applied the groups agree with it, where each group REQUESTING was marked and may request. -/
theorem Bus.groupsSound_settle {b : Bus} (h : b.RequestsSound) : b.settle.GroupsSound := by
  refine ⟨(Bus.groupsSettled_iff _).2 fun i => ?_, fun i => ?_⟩ <;> rw [Bus.get_settle] <;> unfold Group.settle
  · split
    · simp
    · next hc => exact fun hi => hc hi
  · split
    next hc => exact fun _ => ⟨hc.2.1, hc.2.2.2⟩
    next => exact h i

/-- One group changed so that it requests only with its mark set, and R188 applied. -/
theorem Bus.groupsSound_modify {b : Bus} (h : b.RequestsSound) (i : Fin 5) {f : Group → Group}
    (hf : ∀ g, (f g).state = .requesting → g.state = .requesting ∧ (g.marked = true → (f g).marked = true)) :
    Bus.GroupsSound (Bus.settle { b with groups := Bank.modify b.groups i f }) := by
  refine Bus.groupsSound_settle fun j => ?_
  dsimp only
  rw [Bank.get_modify]
  split
  · intro hr
    obtain ⟨hstate, hmark⟩ := hf _ hr
    exact ⟨hmark (h j hstate).1, (h j hstate).2⟩
  · exact h j

/-! ## Changes that keep the groups sound -/

/-- The controller state and the area are as they were, and the groups, where they agreed with R188, still do. -/
structure Bus.Keeps (b b' : Bus) : Prop where
  phase : b'.phase = b.phase
  area : b'.area = b.area
  groups : b.GroupsSound → b'.GroupsSound

namespace Bus.Keeps

variable {a b c : Bus}

theorem refl (b : Bus) : b.Keeps b := ⟨rfl, rfl, id⟩

theorem trans (h : a.Keeps b) (g : b.Keeps c) : a.Keeps c :=
  ⟨g.phase.trans h.phase, g.area.trans h.area, g.groups ∘ h.groups⟩

/-- An operation that answers with a bus and more, from its answer. -/
theorem fst {α : Type} {r : Bus × α} {x : α} (h : b.Keeps r.1) (e : r = (c, x)) : b.Keeps c := by
  rw [e] at h; exact h

/-- Groups that are as they were, with what lets them request. -/
theorem of_groups (hp : c.phase = b.phase) (ha : c.area = b.area) (hg : c.groups = b.groups)
    (hv : c.vectorBase = b.vectorBase) : b.Keeps c := by
  refine ⟨hp, ha, fun h => ?_⟩
  unfold Bus.GroupsSound Bus.groupsSettled Bus.mayRequest at h ⊢
  rw [hp, hg, hv]
  exact h

theorem poke (o w : Word) (b : Bus) : b.Keeps (b.poke o w) := of_groups rfl rfl rfl rfl

theorem pokeIf (r : Bool) (o w : Word) (b : Bus) : b.Keeps (b.pokeIf r o w) := by
  cases r
  · exact refl b
  · exact poke o w b

theorem markGroup (g : GroupId) (b : Bus) : b.Keeps (b.markGroup g) :=
  ⟨rfl, rfl, fun h => Bus.groupsSound_modify h.2 g.slot fun _ hr => ⟨hr, fun _ => rfl⟩⟩

theorem setError (f : ErrorFlag) (b : Bus) : b.Keeps (b.setError f) := by
  have h : b.Keeps { b with error := b.error ||| f.mask } := of_groups rfl rfl rfl rfl
  unfold Bus.setError
  dsimp only
  split
  · exact h
  · exact h.trans (markGroup .system _)

theorem acceptCommand (b : Bus) : b.Keeps b.acceptCommand := of_groups rfl rfl rfl rfl

theorem refuseCommand (b : Bus) : b.Keeps b.refuseCommand :=
  (of_groups rfl rfl rfl rfl : b.Keeps { b with refused := true }).trans (setError _ _)

theorem clearErrors (w : Word) (b : Bus) : b.Keeps (b.clearErrors w) := of_groups rfl rfl rfl rfl

/-- Other attempts to come (log 5). -/
theorem scripted (l : List Attempt) (b : Bus) : b.Keeps { b with script := l } := of_groups rfl rfl rfl rfl

theorem setVectorBase (w : Word) (b : Bus) : b.Keeps (b.setVectorBase w) := by
  refine ⟨rfl, rfl, fun h => Bus.groupsSound_settle fun i hr => ?_⟩
  obtain ⟨hmark, hmay⟩ := h.2 i hr
  exact ⟨hmark, (Bool.and_eq_true _ _ |>.mp hmay).2⟩

theorem acknowledge (i : Fin 5) (b : Bus) : b.Keeps (b.acknowledge i) := by
  refine ⟨rfl, rfl, fun h => Bus.groupsSound_modify h.2 i fun g hr => ?_⟩
  revert hr
  unfold Group.acknowledge
  split <;> simp_all

theorem takeLevels (w : Word) (b : Bus) : b.Keeps (b.takeLevels w) := by
  refine ⟨rfl, rfl, fun h => Bus.groupsSound_settle fun i => ?_⟩
  dsimp only
  rw [Bank.get_mapAll]
  exact h.2 i

/-- A group IN SERVICE neither requests nor is due to (R190). -/
theorem answer (level : Fin 8) (b : Bus) : b.Keeps (b.answer level) := by
  unfold Bus.answer
  split
  · refine ⟨rfl, rfl, fun h => ⟨(Bus.groupsSettled_iff _).2 fun i => ?_, fun i => ?_⟩⟩ <;> dsimp only <;> rw [Bank.get_modify]
    · split
      · simp [Group.serve]
      · exact (Bus.groupsSettled_iff b).1 h.1 i
    · split
      · simp [Group.serve]
      · exact h.2 i
  · exact of_groups rfl rfl rfl rfl

/-! ## Accesses (R164, R165) -/

theorem attempt (b : Bus) : b.Keeps b.attempt.2 := by
  unfold Bus.attempt
  split
  · exact refl b
  · exact of_groups rfl rfl rfl rfl

theorem attempted {x : Attempt} (e : b.attempt = (x, c)) : b.Keeps c := by
  have h := attempt b
  rw [e] at h
  exact h

theorem readAgain (o : Word) (b : Bus) : b.Keeps (b.readAgain o).1 := by
  unfold Bus.readAgain
  split <;> rename_i e <;> have h := attempted e
  · exact h
  · exact h.trans (setError _ _)
  · exact h.trans (setError _ _)

theorem read (o : Word) (b : Bus) : b.Keeps (b.read o).1 := by
  unfold Bus.read
  split <;> rename_i e <;> have h := attempted e
  · exact h
  · exact h.trans (readAgain o _)

theorem readChain (o : Word) (b : Bus) : b.Keeps (b.readChain o).1 := by
  unfold Bus.readChain
  split <;> rename_i e <;> have h := attempted e
  · exact h
  · exact h.trans (setError _ _)
  · exact h.trans (readAgain o _)

theorem write (o w : Word) (b : Bus) : b.Keeps (b.write o w).1 := by
  unfold Bus.write
  split <;> rename_i e <;> have h := attempted e
  · split <;> rename_i e <;> have h := (h.trans (pokeIf _ o w _)).trans (attempted e)
    · exact (h.trans (pokeIf _ o w _)).trans (setError _ _)
    · exact h.trans (poke o w _)
  · exact h.trans (poke o w _)

theorem cycleAgain (o : Word) (f : Word → Word) (b : Bus) : b.Keeps (b.cycleAgain o f).1 := by
  unfold Bus.cycleAgain
  split <;> rename_i e <;> have h := attempted e
  · exact h.trans (poke o _ _)
  · exact (h.trans (pokeIf _ o _ _)).trans (setError _ _)
  · exact h.trans (setError _ _)

theorem cycle (o : Word) (f : Word → Word) (b : Bus) : b.Keeps (b.cycle o f).1 := by
  unfold Bus.cycle
  split <;> rename_i e <;> have h := attempted e
  · exact h.trans (poke o _ _)
  · exact (h.trans (pokeIf _ o _ _)).trans (cycleAgain o f _)
  · exact h.trans (cycleAgain o f _)

theorem readAll (ws : List Word) (b : Bus) : b.Keeps (b.readAll ws).1 := by
  induction ws generalizing b with
  | nil => exact refl b
  | cons o ws ih =>
    unfold Bus.readAll
    split <;> rename_i e <;> have h := (read o b).fst e
    · split
      next e => exact h.trans ((ih _).fst e)
      next => exact h.trans (ih _)
    · exact h
    · exact h

theorem writeAll (ws : List (Word × Word)) (b : Bus) : b.Keeps (b.writeAll ws).1 := by
  induction ws generalizing b with
  | nil => exact refl b
  | cons e ws ih =>
    unfold Bus.writeAll
    split <;> rename_i e <;> have h := (write ..).fst e
    · exact h.trans (ih _)
    · exact h

theorem writeStatus (x : StatusWord) (w : Word) (b : Bus) : b.Keeps (b.writeStatus x w) := write ..

theorem hostWrites (h : List HostWrite) (b : Bus) : b.Keeps (b.hostWrites h) := by
  unfold Bus.hostWrites
  split
  · exact List.foldlRecOn h _ (motive := b.Keeps) (refl b) fun c hc x _ => hc.trans (poke x.offset x.value c)
  · exact refl b

theorem setErrors (fs : List ErrorFlag) (b : Bus) : b.Keeps (b.setErrors fs) :=
  List.foldlRecOn fs _ (motive := b.Keeps) (refl b) fun c hc f _ => hc.trans (setError f c)

theorem writeInitial (p : Params) (b : Bus) : b.Keeps (b.writeInitial p) :=
  List.foldlRecOn (initialStatus p) _ (motive := b.Keeps) (refl b) fun c hc e _ => hc.trans (writeStatus e.1 e.2 c)

/-! ## What the blocks read (R76, R81, R151, R182, R192) -/

theorem claim (p : Params) (cs : List (List Nat)) (b : Bus) : b.Keeps (b.claim p cs).1 := by
  induction cs generalizing b with
  | nil => exact refl b
  | cons c cs ih =>
    unfold Bus.claim
    split <;> rename_i e <;> have h := (cycle ..).fst e
    · exact h
    · split
      · exact h
      · exact h.trans (ih _)

theorem readFormat (o : Word) (b : Bus) : b.Keeps (b.readFormat o).1 := by
  unfold Bus.readFormat
  split <;> (rename_i e; exact (readAll ..).fst e)

theorem readPage (o : Word) (b : Bus) : b.Keeps (b.readPage o).1 := by
  unfold Bus.readPage
  split <;> rename_i e <;> have h := (readAll ..).fst e
  · dsimp only
    split <;> rename_i e <;> have h := h.trans ((readAll ..).fst e)
    · split <;> (rename_i e; exact h.trans ((readAll ..).fst e))
    · exact h
  · exact h

theorem readBody (at_ : Nat → Word) (ks : List Nat) (body : Body) (b : Bus) : b.Keeps (b.readBody at_ ks body).1 := by
  unfold Bus.readBody
  split <;> (rename_i e; exact (readAll ..).fst e)

theorem readBodies (at_ : Nat → Word) (kind : Word) (fs : List (Body → List Nat)) (body : Body) (b : Bus) :
    b.Keeps (b.readBodies at_ kind fs body).1 := by
  induction fs generalizing body b with
  | nil => exact refl b
  | cons f fs ih =>
    unfold Bus.readBodies
    split
    next e => exact ((readBody ..).fst e).trans (ih _ _)
    next => exact readBody ..

theorem readPosting (at_ : Nat → Word) (b : Bus) : b.Keeps (b.readPosting at_).1 := by
  unfold Bus.readPosting
  split
  next e => exact (read ..).fst e
  next b1 _ _ e =>
    have h := ((read ..).fst e).trans (read (at_ 3) b1)
    clear e
    generalize b1.read (at_ 3) = r at h ⊢
    split
    case h_2 => split <;> (rename_i e; exact h.trans ((readBodies ..).fst e))
    all_goals exact h

theorem readSlots (base : Word) (ks : List Nat) (b : Bus) : b.Keeps (b.readSlots base ks).1 := by
  induction ks generalizing b with
  | nil => exact refl b
  | cons k ks ih =>
    unfold Bus.readSlots
    split <;> rename_i e <;> have h := (read ..).fst e
    · split
      · split <;> rename_i e <;> have h := h.trans ((readAll ..).fst e)
        · split
          next e => exact h.trans ((ih _).fst e)
          next => exact h.trans (ih _)
        · exact h
      · exact h.trans (ih _)
    · exact h

theorem readMap (base : Word) (b : Bus) : b.Keeps (b.readMap base).1 := by
  unfold Bus.readMap
  split <;> rename_i e <;> have h := (read ..).fst e
  · split
    · split
      · unfold Bus.readMapBody
        split <;> rename_i e <;> have h := h.trans ((read ..).fst e)
        · split <;> (rename_i e; exact h.trans ((readSlots ..).fst e))
        · exact h
      · exact h
    · exact h
  · exact h

theorem readMaps (p : Params) (line : Fin 4) (ms : List (Fin 32)) (b : Bus) : b.Keeps (b.readMaps p line ms).1 := by
  induction ms generalizing b with
  | nil => exact refl b
  | cons m ms ih => exact (readMap ..).trans (ih _)

/-! ## Anchor validation (R166, R180) -/

theorem readAnchor (b : Bus) : b.Keeps b.readAnchor.1 := by
  unfold Bus.readAnchor
  split
  next levels e =>
    have h := ((read ..).fst e).trans (takeLevels levels _)
    split <;> (rename_i e; exact h.trans ((readAll ..).fst e))
  next e => exact (read ..).fst e

theorem startCells (p : Params) (cs : List Nat) (b : Bus) : b.Keeps (b.startCells p cs).1 := by
  induction cs generalizing b with
  | nil => exact refl b
  | cons c cs ih =>
    unfold Bus.startCells
    split
    · split
      next e => exact (ih _).fst e
      next => exact ih _
    · split <;> rename_i e <;> have h := (read ..).fst e
      · split
        next e => exact h.trans ((ih _).fst e)
        next => exact h.trans (ih _)
      · exact h

theorem validate (b : Bus) : b.Keeps b.validate.1 := by
  unfold Bus.validate
  split
  next e => exact (readAnchor b).fst e
  next ws e =>
    have h := ((readAnchor b).fst e).trans (setErrors (layoutFlags ws ++ parameterFlags ws) _)
    dsimp only
    split
    · exact h
    · split <;> rename_i e <;> have h := h.trans ((startCells ..).fst e)
      · exact h
      · split
        · exact h
        · exact h.trans (setError ..)

end Bus.Keeps

end Sys2Proof.Machine
end

section
/-! PROOF. What most operations leave as it was: the session unit, intake, and of the bus interface what `Bus.Keeps` says. In the order
of the model's files. -/

namespace Sys2Proof.Machine

/-- The session unit and intake are as they were, and the bus interface has kept the controller state, the area and R188. -/
structure Calm (s t : State) : Prop where
  bus : s.bus.Keeps t.bus
  session : t.session = s.session
  intake : t.intake = s.intake

namespace Calm

variable {s t u v : State}

theorem refl (s : State) : Calm s s := ⟨.refl _, rfl, rfl⟩

theorem trans (h : Calm s t) (g : Calm t u) : Calm s u :=
  ⟨h.bus.trans g.bus, g.session.trans h.session, g.intake.trans h.intake⟩

/-- A change of other blocks. -/
theorem same (hb : t.bus = s.bus) (hs : t.session = s.session) (hi : t.intake = s.intake) : Calm s t :=
  ⟨by rw [hb]; exact .refl _, hs, hi⟩

theorem withBus {b : Bus} (h : s.bus.Keeps b) : Calm s (s.withBus b) := ⟨h, rfl, rfl⟩

/-- An access, and then a change of other blocks. -/
theorem accessed {b : Bus} (h : s.bus.Keeps b) (hb : t.bus = b) (hs : t.session = s.session) (hi : t.intake = s.intake) :
    Calm s t := ⟨by rw [hb]; exact h, hs, hi⟩

theorem ite {c : Prop} [Decidable c] (hu : Calm s u) (hv : Calm s v) : Calm s (if c then u else v) := by
  split
  · exact hu
  · exact hv

theorem foldl {α : Type} {f : State → α → State} (h : ∀ s a, Calm s (f s a)) (l : List α) (s : State) :
    Calm s (l.foldl f s) :=
  List.foldlRecOn l f (motive := Calm s) (refl s) fun t ht a _ => ht.trans (h t a)

/-! One rule per update of a block that holds none of the three. -/

theorem setRecord (s : State) (i : Ix) (r : Record) : Calm s (s.setRecord i r) := same rfl rfl rfl
theorem withFmt (s : State) (x : Formatter) : Calm s (s.withFmt x) := same rfl rfl rfl
theorem modifyLine (s : State) (n : Fin 4) (f : BoardLine → BoardLine) : Calm s (s.modifyLine n f) := same rfl rfl rfl
theorem modifyTape (s : State) (d : TapeId) (f : Tape → Tape) : Calm s (s.modifyTape d f) := same rfl rfl rfl
theorem modifyTerm (s : State) (k : Fin 16) (f : Terminal → Terminal) : Calm s (s.modifyTerm k f) := same rfl rfl rfl
theorem withTerms (s : State) (x : Vector Terminal 16) : Calm s (s.withTerms x) := same rfl rfl rfl
theorem hand (s : State) (n : NoticeBody) : Calm s (s.hand n) := same rfl rfl rfl

theorem handAll (s : State) (ns : List NoticeBody) : Calm s (s.handAll ns) := foldl hand ns s

theorem setError (s : State) (f : ErrorFlag) : Calm s (s.withBus (s.bus.setError f)) := withBus (.setError ..)

theorem hostWrites (h : List HostWrite) (s : State) : Calm s (s.hostWrites h) := withBus (.hostWrites ..)

theorem accept (s : State) : Calm s s.accept := withBus (.acceptCommand _)

theorem refuse (s : State) : Calm s s.refuse := withBus (.refuseCommand _)

/-! ## Hand-overs (chapters 02 and 03) -/

theorem handChange (s : State) (i : Ix) (fields : List ChangedField) (mark : Option TickDir) :
    Calm s (s.handChange i fields mark) := by
  unfold State.handChange
  exact ite (refl s) (ite (same rfl rfl rfl) (same rfl rfl rfl))

theorem updateRecord (s : State) (i : Ix) (r : Record) (fields : List ChangedField) (mark : Option TickDir) :
    Calm s (s.updateRecord i r fields mark) :=
  (setRecord s i r).trans (handChange _ _ _ _)

theorem handAssigned (s : State) (d : Option TapeId) (a : Arrival) : Calm s (s.handAssigned d a) := by
  cases d <;> exact same rfl rfl rfl

theorem handWatchCheck (s : State) (i : Ix) (last : Price) : Calm s (s.handWatchCheck i last) := same rfl rfl rfl

/-! ## Terminal contexts (chapter 08) -/

theorem checkWatches (s : State) (t : Fin 16) (i : Ix) (last : Price) : Calm s (s.checkWatches t i last) := by
  unfold State.checkWatches
  refine ite ?_ (refl s)
  exact ((modifyTerm s t _).trans (handAll _ _)).trans (same rfl rfl rfl)

theorem takeChecks (s : State) (t : Fin 16) : Calm s (s.takeChecks t) :=
  (modifyTerm s t _).trans (foldl (fun _ _ => checkWatches _ _ _ _) _ _)

theorem takeCheck (s : State) (t : Fin 16) : Calm s (s.takeCheck t) := by
  unfold State.takeCheck
  split
  · exact refl s
  · exact (modifyTerm s t _).trans (checkWatches _ _ _ _)

theorem finishChecks (s : State) : Calm s s.finishChecks := foldl takeChecks _ s

theorem addWatch (s : State) (t : Fin 16) (i : Ix) (level : Price) (dir : Direction) : Calm s (s.addWatch t i level dir) :=
  same rfl rfl rfl

theorem clearWatches (s : State) (t : Fin 16) : Calm s (s.clearWatches t) :=
  (modifyTerm s t _).trans (foldl (fun _ _ => setRecord _ _ _) _ _)

theorem runtimeFault (s : State) (t : Fin 16) (first : Word) : Calm s (s.runtimeFault t first) :=
  accessed (.setError .tableFault _) rfl rfl rfl

theorem loadIfCounted (s : State) (t : Fin 16) (page : Word) (origin : LoadOrigin) :
    Calm s (s.loadIfCounted t page origin) := by
  unfold State.loadIfCounted
  split <;> rename_i e <;> have h := (Bus.Keeps.read ..).fst e
  · exact ite (accessed h rfl rfl rfl) (accessed h rfl rfl rfl)
  · exact accessed h rfl rfl rfl

theorem directKey (s : State) (t : Fin 16) (page : Word) : Calm s (s.directKey t page) :=
  ite (same rfl rfl rfl) (loadIfCounted _ _ _ _)

theorem showPage (s : State) (t : Fin 16) (page : Word) (push : Bool) (bits : PageMask) :
    Calm s (s.showPage t page push bits) :=
  ite (same rfl rfl rfl) (loadIfCounted _ _ _ _)

theorem backPage (s : State) (t : Fin 16) : Calm s (s.backPage t) := by
  unfold State.backPage
  refine ite (same rfl rfl rfl) ?_
  split <;> exact same rfl rfl rfl

theorem notifyKey (s : State) (t : Fin 16) (key : Fin 64) (a : Action) (flags : Word) :
    Calm s (s.notifyKey t key a flags) :=
  ite (same rfl rfl rfl) (refl s)

theorem actOn (s : State) (t : Fin 16) (key : Fin 64) (action flags page attrs : Word) :
    Calm s (s.actOn t key action flags page attrs) := by
  have h := notifyKey s t key (actionOf action) flags
  unfold State.actOn
  dsimp only
  split
  · exact h.trans (showPage _ _ _ _ _)
  · exact h.trans (backPage _ _)
  all_goals exact h.trans (same rfl rfl rfl)

theorem actionKey (s : State) (t : Fin 16) (key : Fin 64) (first : Word) : Calm s (s.actionKey t key first) := by
  unfold State.actionKey
  refine ite ((runtimeFault s t first).trans (same rfl rfl rfl)) ?_
  split <;> rename_i e <;> have h := (Bus.Keeps.readAll ..).fst e
  · exact (withBus h).trans (actOn _ _ _ _ _ _ _)
  · exact accessed h rfl rfl rfl

theorem dispatchKey (s : State) (t : Fin 16) (key : Fin 64) : Calm s (s.dispatchKey t key) := by
  unfold State.dispatchKey
  split <;> rename_i e <;> have h := (Bus.Keeps.read ..).fst e
  · exact (withBus h).trans (ite (directKey _ _ _) (ite (same rfl rfl rfl) (actionKey _ _ _ _)))
  · exact accessed h rfl rfl rfl

theorem completeLoad (s : State) (t : Fin 16) (page : Word) (origin : LoadOrigin) (r : PageRecord) :
    Calm s (s.completeLoad t page origin r) := by
  have h : ∀ (flag : Bool) (is : List Ix) (s : State), Calm s (is.foldl (fun s i => s.setInterest t flag i) s) :=
    fun flag is s => foldl (fun _ _ => setRecord _ _ _) is s
  exact ((h false _ s).trans (h true _ _)).trans (same rfl rfl rfl)

theorem finishLoad (s : State) (t : Fin 16) (page : Word) (origin : LoadOrigin) (r : PageRecord) :
    Calm s (s.finishLoad t page origin r) := ite (same rfl rfl rfl) (completeLoad s t page origin r)

theorem loadRecord (s : State) (t : Fin 16) (page : Word) (origin : LoadOrigin) (first : Word) :
    Calm s (s.loadRecord t page origin first) := by
  unfold State.loadRecord
  refine ite ((runtimeFault s t first).trans (same rfl rfl rfl)) ?_
  split <;> rename_i e <;> have h := (Bus.Keeps.readPage ..).fst e
  · exact (withBus h).trans (finishLoad _ _ _ _ _)
  · exact accessed h rfl rfl rfl

theorem loadPage (s : State) (t : Fin 16) (page : Word) (origin : LoadOrigin) : Calm s (s.loadPage t page origin) := by
  unfold State.loadPage
  split <;> rename_i e <;> have h := (Bus.Keeps.readAll ..).fst e
  · exact ite (accessed h rfl rfl rfl) ((withBus h).trans (loadRecord _ _ _ _ _))
  · exact accessed h rfl rfl rfl

/-! ## Terminal lines (chapter 08) -/

theorem beginVisit (s : State) (l : Fin 2) (a : Fin 8) : Calm s (s.beginVisit l a) := by
  unfold State.beginVisit
  dsimp only
  split
  · unfold State.visitOnline
    dsimp only
    split <;> exact same rfl rfl rfl
  · exact ite (same rfl rfl rfl) (same rfl rfl rfl)
  · exact same rfl rfl rfl

theorem termFrameSent (s : State) (l : Fin 2) : Calm s (s.termFrameSent l) := by
  unfold State.termFrameSent
  split
  · refine ite ?_ (refl s)
    split
    · exact same rfl rfl rfl
    · exact ite (same rfl rfl rfl) (same rfl rfl rfl)
  · exact refl s

theorem reportReturn (s : State) (l : Fin 2) (t : Fin 16) (before : TermState) : Calm s (s.reportReturn l t before) :=
  ite (ite (same rfl rfl rfl) (same rfl rfl rfl)) (refl s)

theorem reportOffline (s : State) (t : Fin 16) (before : TermState) : Calm s (s.reportOffline t before) :=
  ite (same rfl rfl rfl) (refl s)

theorem pollOutcome (s : State) (l : Fin 2) (t : Fin 16) (f : Terminal → Terminal) : Calm s (s.pollOutcome l t f) :=
  same rfl rfl rfl

/-! ## Tape units (chapter 07) -/

theorem setTape (s : State) (id : TapeId) (r : Tape × List NoticeBody) : Calm s (s.setTape id r) :=
  (modifyTape s id _).trans (handAll _ _)

theorem takePrint (s : State) (id : TapeId) : Calm s (s.takePrint id) := by
  unfold State.takePrint; split; exacts [setTape _ _ _, refl s]

theorem takeCancel (s : State) (id : TapeId) : Calm s (s.takeCancel id) := by
  unfold State.takeCancel; split; exacts [setTape _ _ _, refl s]

theorem takeNote (s : State) (id : TapeId) : Calm s (s.takeNote id) := by
  unfold State.takeNote; split; exacts [setTape _ _ _, refl s]

theorem takeText (s : State) (id : TapeId) (from_ : Supplier) : Calm s (s.takeText id from_) := by
  unfold State.takeText; split <;> (split; exacts [setTape _ _ _, refl s])

theorem writeRef (s : State) (id : TapeId) (i : Ix) (m : Mode) (p : Price) : Calm s (s.writeRef id i m p) :=
  ite (same rfl rfl rfl) (refl s)

theorem showEntry (s : State) (id : TapeId) (e : Entry) : Calm s (s.showEntry id e) := by
  cases e with
  | trade i m time op oos merged => exact (modifyTape s id _).trans (writeRef _ _ _ _ _)
  | cancel i m price =>
    cases price with
    | none => exact same rfl rfl rfl
    | some p => exact (modifyTape s id _).trans (writeRef _ _ _ _ _)
  | haltNote i => exact same rfl rfl rfl
  | resumeNote i => exact same rfl rfl rfl
  | text cs urgent => exact same rfl rfl rfl

theorem takeEntry (s : State) (id : TapeId) (e : Entry) (rest : List Entry) : Calm s (s.takeEntry id e rest) :=
  ((modifyTape s id _).trans (handAll _ _)).trans (showEntry _ _ _)

theorem render (s : State) (id : TapeId) : Calm s (s.render id) := by
  unfold State.render
  refine ite ?_ (refl s)
  split
  · unfold State.renderHead
    dsimp only
    split
    · split
      · exact same rfl rfl rfl
      · exact takeEntry s id _ _
    · exact takeEntry s id _ _
  · exact refl s

/-! ## The board formatter (chapter 05) -/

theorem renderEntry (s : State) (k : Nat) : Calm s (s.renderEntry k) := by
  unfold State.renderEntry
  split
  · unfold State.renderOne
    split
    next e => exact accessed ((Bus.Keeps.readFormat ..).fst e) rfl rfl rfl
  · exact refl s

theorem renderEntries (s : State) (ks : List Nat) : Calm s (s.renderEntries ks) := foldl renderEntry ks s

theorem highlightChange (s : State) (e : ChangeEvent) : Calm s (s.highlightChange e) := by
  unfold State.highlightChange
  split
  · exact same rfl rfl rfl
  · exact ite (same rfl rfl rfl) (refl s)

theorem formatChange (s : State) : Calm s s.formatChange := by
  unfold State.formatChange
  split
  · exact refl s
  · exact ((withFmt s _).trans (highlightChange _ _)).trans (renderEntries _ _)

theorem formatSession (s : State) : Calm s s.formatSession := by
  unfold State.formatSession
  split
  · exact refl s
  · exact (withFmt s _).trans (renderEntries _ _)

theorem formatStage (s : State) : Calm s s.formatStage := by
  unfold State.formatStage
  split
  · exact refl s
  · exact same rfl rfl rfl

theorem expireHighlights (s : State) : Calm s s.expireHighlights :=
  (withFmt s _).trans (renderEntries _ _)

theorem removePlacement (s : State) (k : Nat) : Calm s (s.removePlacement k) := by
  unfold State.removePlacement
  split
  · have h : ∀ p, Calm s (s.unlink k p) := fun p => ite (same rfl rfl rfl) (same rfl rfl rfl)
    exact (h _).trans (same rfl rfl rfl)
  · exact refl s

theorem beginLine (s : State) (job : RemapJob) : Calm s (s.beginLine job) :=
  (foldl removePlacement _ s).trans (same rfl rfl rfl)

theorem build (s : State) (k : Nat) (p : Placement) : Calm s (s.build k p) := same rfl rfl rfl

theorem buildSlots (line : Fin 4) (m : Fin 32) (w : Width) (xs kept : List Slot) (s : State) (t : Tally) :
    Calm s (State.buildSlots line m w xs kept (s, t)).1 := by
  induction xs generalizing kept s t with
  | nil => exact refl s
  | cons x xs ih =>
    unfold State.buildSlots
    split
    · exact ih _ _ _
    · dsimp only
      split <;> rename_i e <;> have h := (Bus.Keeps.readAll ..).fst e
      · split
        · exact ((withBus h).trans (build _ _ _)).trans (ih _ _ _)
        · exact (withBus h).trans (ih _ _ _)
      · exact (withBus h).trans (ih _ _ _)

theorem buildModule (s : State) (line : Fin 4) (m : Fin 32) (t : Tally) (r : MapRead) :
    Calm s (s.buildModule line m t r).1 := by
  cases r with
  | absent => exact refl s
  | illegalWidth => exact refl s
  | module r =>
    have h := buildSlots line m r.width r.slots [] s t
    unfold State.buildModule
    dsimp only
    split <;> exact h

theorem buildModules (line : Fin 4) (rs : List (Fin 32 × MapRead)) (s : State) (t : Tally) :
    Calm s (State.buildModules line rs s t).1 := by
  induction rs generalizing s t with
  | nil => exact refl s
  | cons r rs ih => exact (buildModule s line r.1 t r.2).trans (ih _ _)

theorem mapModules (s : State) (line : Fin 4) : Calm s (s.mapModules line).1 := by
  unfold State.mapModules
  split
  next e => exact (withBus ((Bus.Keeps.readMaps ..).fst e)).trans (buildModules _ _ _ _)

theorem repaintLine (s : State) (job : RemapJob) (found : List (Fin 32 × Found)) : Calm s (s.repaintLine job found) :=
  (modifyLine s job.line _).trans (renderEntries _ _)

theorem reportRemap (s : State) (cause : RemapCause) (n : NoticeBody) : Calm s (s.reportRemap cause n) := by
  cases cause <;> exact same rfl rfl rfl

theorem reportTally (s : State) (job : RemapJob) (t : Tally) : Calm s (s.reportTally job t) := by
  have h : Calm s (if t.faults = 0 then s
      else (s.withBus (s.bus.setError .tableFault)).reportRemap job.cause (.tableFaultRemap job.line t.faults)) :=
    ite (refl s) ((setError s _).trans (reportRemap _ _ _))
  exact ite h (h.trans (reportRemap _ _ _))

theorem finishLine (s : State) (job : RemapJob) : Calm s (s.finishLine job) := by
  have h := mapModules s job.line
  unfold State.finishLine
  split
  next e =>
    rw [e] at h
    exact (h.trans (repaintLine _ _ _)).trans (reportTally _ _ _)

theorem nextLine (s : State) (job : RemapJob) : Calm s (s.nextLine job) := by
  unfold State.nextLine
  split
  · exact beginLine s _
  · exact same rfl rfl rfl

/-! ## The board lines (chapter 06) -/

theorem reportModule (s : State) (n : Fin 4) (body : NoticeBody) : Calm s (s.reportModule n body) :=
  ite (same rfl rfl rfl) (same rfl rfl rfl)

theorem writeFailed (s : State) (n : Fin 4) (m : Fin 32) (at_ : Nat) : Calm s (s.writeFailed n m at_) :=
  ite ((modifyLine s n _).trans (reportModule _ _ _)) (same rfl rfl rfl)

end Calm

end Sys2Proof.Machine
end

section
/-! PROOF. The work of the notice unit (chapter 10) and of feed intake (chapter 09): what each changes, over any bus. -/

namespace Sys2Proof.Machine

/-! ## The notice unit (R180 to R187) -/

/-- The notice unit has worked: nothing else has changed but the bus interface, as `Bus.Keeps` says, and the items handed to the unit
and not yet taken are as they were. -/
structure UnitWorks (s t : State) : Prop where
  rest : t = { s with bus := t.bus, notices := t.notices }
  bus : s.bus.Keeps t.bus
  inbox : t.notices.inbox = s.notices.inbox
  startDone : t.notices.startDone = s.notices.startDone

namespace UnitWorks

variable {s t u : State}

theorem refl (s : State) : UnitWorks s s := ⟨rfl, .refl _, rfl, rfl⟩

theorem trans (h : UnitWorks s t) (g : UnitWorks t u) : UnitWorks s u :=
  ⟨by rw [g.rest, h.rest], h.bus.trans g.bus, g.inbox.trans h.inbox, g.startDone.trans h.startDone⟩

theorem calm (h : UnitWorks s t) : Calm s t := ⟨h.bus, by rw [h.rest], by rw [h.rest]⟩

theorem withBus {b : Bus} (h : s.bus.Keeps b) : UnitWorks s (s.withBus b) := ⟨rfl, h, rfl, rfl⟩

/-- A change of the unit that leaves its inbox, and the mark that START DONE has been taken in hand. -/
theorem withNotices (s : State) {x : NoticeUnit} (hi : x.inbox = s.notices.inbox) (hd : x.startDone = s.notices.startDone) :
    UnitWorks s (s.withNotices x) := ⟨rfl, .refl _, hi, hd⟩

theorem modifyUnit (s : State) {f : NoticeUnit → NoticeUnit} (hi : (f s.notices).inbox = s.notices.inbox)
    (hd : (f s.notices).startDone = s.notices.startDone) : UnitWorks s (s.modifyUnit f) := withNotices s hi hd

theorem holdUnit (s : State) : UnitWorks s s.holdUnit := modifyUnit s rfl rfl

theorem setHand (s : State) (x : InHand) : UnitWorks s (s.setHand x) := modifyUnit s rfl rfl

theorem writeStatus (s : State) (x : StatusWord) (w : Word) : UnitWorks s (s.withBus (s.bus.writeStatus x w)) :=
  withBus (.writeStatus ..)

theorem loseItem (s : State) (x : Item) : UnitWorks s (s.loseItem x) := by
  have hlost : ∀ s : State, UnitWorks s s.writeLost := fun s => by
    unfold State.writeLost
    split
    · exact writeStatus s _ _
    · exact refl s
  exact ((modifyUnit s rfl rfl).trans (hlost _)).trans (withBus (.setError ..))

theorem joinHolding (s : State) (x : Item) : UnitWorks s (s.joinHolding x) := by
  unfold State.joinHolding
  split
  · exact modifyUnit s rfl rfl
  · split
    · exact modifyUnit s rfl rfl
    · exact loseItem s x

theorem claimed (s : State) (x : InHand) (c : Nat) : UnitWorks s (s.claimed x c) := ⟨rfl, .refl _, rfl, rfl⟩

theorem claimStart (s : State) (x : InHand) : UnitWorks s (s.claimStart x).1 := by
  unfold State.claimStart
  split <;> rename_i e <;> have h := withBus ((Bus.Keeps.cycle ..).fst e)
  · exact h.trans (setHand _ _)
  · exact h.trans (holdUnit _)

theorem claimCell (s : State) (x : InHand) : UnitWorks s (s.claimCell x).1 := by
  unfold State.claimCell
  split <;> rename_i e <;> have h := withBus ((Bus.Keeps.claim ..).fst e)
  · exact h.trans (claimed _ _ _)
  · exact h.trans (holdUnit _)

theorem linked (s : State) (x : InHand) (body : NoticeBody) (c : Nat) : UnitWorks s (s.linked x body c) :=
  (modifyUnit s rfl rfl).trans (withBus ((Bus.Keeps.writeStatus ..).trans (.markGroup ..)))

theorem linkedFirst (s : State) (x : InHand) (body : NoticeBody) (c : Nat) : UnitWorks s (s.linkedFirst x body c) := by
  unfold State.linkedFirst
  exact (linked s x body c).trans (modifyUnit _ rfl rfl)

theorem writeCell (s : State) (x : InHand) (body : NoticeBody) (c : Nat) : UnitWorks s (s.writeCell x body c).1 := by
  unfold State.writeCell
  split <;> rename_i e <;> have h := withBus ((Bus.Keeps.writeAll ..).fst e)
  · split
    · exact h.trans (linkedFirst _ _ _ _)
    · exact h.trans (setHand _ _)
  · exact h.trans (holdUnit _)

theorem restartChain (s : State) (x : InHand) (body : NoticeBody) (c tail : Nat) (read : Option Word) (reason : BreakReason) :
    UnitWorks s (s.restartChain x body c tail read reason) :=
  ((((writeStatus s .noticeRestart _).trans (modifyUnit _ rfl rfl)).trans
    (withBus ((Bus.Keeps.writeStatus ..).trans (.setError ..)))).trans (linked _ _ _ _)).trans (joinHolding _ _)

theorem linkFrom (s : State) (x : InHand) (body : NoticeBody) (c tail : Nat) (bitmap : Word) :
    UnitWorks s (s.linkFrom x body c tail bitmap).1 := by
  unfold State.linkFrom
  split <;> rename_i e <;> have h := (Bus.Keeps.read ..).fst e
  · exact (withBus h).trans (holdUnit _)
  · exact (withBus h).trans (restartChain _ _ _ _ _ _ _)
  · split
    · exact (withBus h).trans (restartChain _ _ _ _ _ _ _)
    · split <;> rename_i e <;> have h := withBus (h.trans ((Bus.Keeps.write ..).fst e))
      · exact h.trans (linked _ _ _ _)
      · exact h.trans (holdUnit _)

theorem linkCell (s : State) (x : InHand) (body : NoticeBody) (c : Nat) : UnitWorks s (s.linkCell x body c).1 := by
  unfold State.linkCell
  split
  · exact linked s _ _ _
  · split <;> rename_i e <;> have h := withBus ((Bus.Keeps.read ..).fst e)
    · exact h.trans (linkFrom _ _ _ _ _ _)
    · exact h.trans (holdUnit _)

theorem nextItem (s : State) : UnitWorks s s.nextItem.1 := by
  unfold State.nextItem
  split <;> exact ⟨rfl, .refl _, rfl, rfl⟩

theorem workOn (s : State) (x : InHand) : UnitWorks s (s.workOn x).1 := by
  unfold State.workOn
  split
  · exact nextItem s
  · split
    · split
      · exact claimStart s x
      · exact claimCell s x
    · split
      · split
        · exact linkCell s x _ _
        · exact writeCell s x _ _
      · exact nextItem s

theorem work (f : Nat) (s : State) : UnitWorks s (s.work f) := by
  induction f generalizing s with
  | zero => exact refl s
  | succ f ih =>
    unfold State.work
    split
    · exact refl s
    · next x _ =>
      have h := workOn s x
      split <;> rename_i e <;> rw [e] at h
      · exact h.trans (ih _)
      · exact h

theorem runUnit (s : State) : UnitWorks s s.runUnit := (modifyUnit s rfl rfl).trans (work _ _)

theorem noticeRetry (s : State) : UnitWorks s s.noticeRetry := by
  unfold State.noticeRetry
  split
  · exact runUnit s
  · exact refl s

end UnitWorks

/-- An item handed to the unit is taken (R180). -/
theorem Calm.takeNotice (s : State) : Calm s s.takeNotice := by
  unfold State.takeNotice
  split
  · exact refl s
  · next x r _ =>
    have h : Calm s (s.modifyUnit fun u => { u with inbox := r }) := same rfl rfl rfl
    unfold State.arrive
    split
    · exact h.trans (UnitWorks.joinHolding _ _).calm
    · exact h.trans ((UnitWorks.setHand _ _).trans (.runUnit _)).calm

/-! ## Feed intake (R169 to R175) -/

/-- Intake has acted: nothing else has changed but the bus interface, as `Bus.Keeps` says, and the notices handed on; the feed poll tick
and a remembered NUDGE stand as they stood. -/
structure IntakeActs (s t : State) : Prop where
  rest : t = { s with bus := t.bus, intake := t.intake, notices := { s.notices with inbox := t.notices.inbox } }
  bus : s.bus.Keeps t.bus
  inbox : ∃ l, t.notices.inbox = s.notices.inbox ++ l
  feedTick : t.intake.feedTick = s.intake.feedTick
  nudged : t.intake.nudged = s.intake.nudged

namespace IntakeActs

variable {s t u : State}

theorem refl (s : State) : IntakeActs s s := ⟨rfl, .refl _, ⟨[], by simp⟩, rfl, rfl⟩

theorem trans (h : IntakeActs s t) (g : IntakeActs t u) : IntakeActs s u := by
  obtain ⟨l, hl⟩ := h.inbox
  obtain ⟨m, hm⟩ := g.inbox
  exact ⟨by rw [g.rest, h.rest], h.bus.trans g.bus, ⟨l ++ m, by rw [hm, hl, List.append_assoc]⟩,
    g.feedTick.trans h.feedTick, g.nudged.trans h.nudged⟩

theorem withBus {b : Bus} (h : s.bus.Keeps b) : IntakeActs s (s.withBus b) := ⟨rfl, h, ⟨[], by simp⟩, rfl, rfl⟩

/-- A change of intake that leaves its feed poll tick and a remembered NUDGE. -/
theorem withIntake (s : State) {x : Intake} (ht : x.feedTick = s.intake.feedTick) (hn : x.nudged = s.intake.nudged) :
    IntakeActs s (s.withIntake x) := ⟨rfl, .refl _, ⟨[], by simp⟩, ht, hn⟩

theorem modifyIntake (s : State) {f : Intake → Intake} (ht : (f s.intake).feedTick = s.intake.feedTick)
    (hn : (f s.intake).nudged = s.intake.nudged) : IntakeActs s (s.modifyIntake f) := withIntake s ht hn

theorem setIntake (s : State) (st : IntakeState) : IntakeActs s (s.setIntake st) := withIntake s rfl rfl

theorem stopIntake (s : State) : IntakeActs s s.stopIntake := modifyIntake s rfl rfl

theorem breakChain (s : State) (c : Nat) (read : Option Word) (reason : BreakReason) :
    IntakeActs s (s.breakChain c read reason) := ⟨rfl, .setError .chainBroken _, ⟨_, rfl⟩, rfl, rfl⟩

/-- The current cell's state word has been read as TAKEN (R170). -/
theorem takenMark (s : State) : IntakeActs s (s.modifyIntake fun x => { x with taken := true }) := modifyIntake s rfl rfl

theorem stateStep (s : State) (c : Nat) : IntakeActs s (s.stateStep c).1 := by
  unfold State.stateStep
  split <;> rename_i e <;> have h := withBus ((Bus.Keeps.readChain ..).fst e)
  · exact h
  · exact h.trans (breakChain _ _ _ _)
  · dsimp only
    split
    · exact h
    · split
      · exact h.trans (setIntake _ _)
      · split
        · exact h.trans (takenMark _)
        · exact h.trans (breakChain _ _ _ _)

theorem moveTo (s : State) (d : Nat) : IntakeActs s (s.moveTo d) :=
  (modifyIntake s rfl rfl).trans (withBus (.writeStatus ..))

theorem followLink (s : State) (c d : Nat) : IntakeActs s (s.followLink c d).1 := by
  unfold State.followLink
  split <;> rename_i e <;> have h := (Bus.Keeps.read ..).fst e
  · split
    · unfold State.freeAndMove
      split <;> rename_i e <;> have h := withBus (h.trans ((Bus.Keeps.cycle ..).fst e))
      · exact h.trans (moveTo _ _)
      · exact h
    · exact (withBus h).trans (breakChain _ _ _ _)
  · exact withBus h

theorem linkStep (s : State) (c : Nat) : IntakeActs s (s.linkStep c).1 := by
  unfold State.linkStep
  split <;> rename_i e <;> have h := withBus ((Bus.Keeps.readChain ..).fst e)
  · exact h
  · exact h.trans (breakChain _ _ _ _)
  · dsimp only
    split
    · exact h
    · split
      · exact h.trans (breakChain _ _ _ _)
      · split
        · exact h.trans (breakChain _ _ _ _)
        · exact h.trans (followLink _ _ _)

theorem look (s : State) : IntakeActs s s.look := by
  unfold State.look
  generalize 2 * s.params.cellCount + 4 = f
  induction f generalizing s with
  | zero => exact refl s
  | succ f ih =>
    unfold State.lookLoop
    split
    · exact refl s
    · next c _ =>
      have h : IntakeActs s (if s.intake.taken then s.linkStep c else s.stateStep c).1 := by
        split
        · exact linkStep s c
        · exact stateStep s c
      split <;> rename_i e <;> rw [e] at h
      · exact h.trans (ih _)
      · exact h

theorem waitAndLook (s : State) : IntakeActs s s.waitAndLook := (setIntake s _).trans (look _)

theorem restartAt (s : State) (c : Nat) (quiesced : Bool) : IntakeActs s (s.restartAt c quiesced) := by
  have h : IntakeActs s ((s.modifyIntake fun x =>
      { x with current := some c, taken := false, lastSeq := none, quiescePending := false }).writeCurrent c) :=
    (modifyIntake s rfl rfl).trans (withBus (.writeStatus ..))
  unfold State.restartAt
  dsimp only
  split
  · exact h.trans (setIntake _ _)
  · exact h.trans (waitAndLook _)

theorem readRestart (s : State) (quiesced : Bool) : IntakeActs s (s.readRestart quiesced) := by
  unfold State.readRestart
  split <;> rename_i e <;> have h := (Bus.Keeps.read ..).fst e
  · dsimp only
    split <;> rename_i e <;> have h := withBus (h.trans ((Bus.Keeps.read ..).fst e))
    · split
      · exact h.trans (restartAt _ _ _)
      · exact h.trans ((withBus (.setError ..)).trans (stopIntake _))
    · exact h.trans (stopIntake _)
  · exact (withBus h).trans (stopIntake _)

theorem restartIntake (s : State) : IntakeActs s s.restartIntake := by
  unfold State.restartIntake
  exact (modifyIntake s rfl rfl).trans (readRestart _ _)

theorem writeCounts (s : State) : IntakeActs s s.writeCounts := by
  have h : IntakeActs s (s.withBus (s.bus.writeStatus .postingsTaken s.intake.postingsTaken)) := withBus (.writeStatus ..)
  unfold State.writeCounts
  dsimp only
  split
  · exact h.trans (withBus (.writeStatus ..))
  · exact h

theorem afterTaken (s : State) : IntakeActs s s.afterTaken := by
  unfold State.afterTaken
  split
  · exact restartIntake s
  · split
    · exact modifyIntake s rfl rfl
    · exact look s

end IntakeActs

end Sys2Proof.Machine
end

section
/-! PROOF. The session unit stays sound (R63, R65, R68, R71 to R74) through its own steps, the signal of the TAKEN write, and every
posting. -/

namespace Sys2Proof.Machine

/-! ## What the steps of the session unit leave (R68 to R70, R72, R73) -/

/-- The night flag sets, with its event to every board line and every context (R68, R69). -/
theorem State.setNight_eq (s : State) : s.setNight = { s with
    session := { s.session with night := true, nightTimer := none }
    lines := withNights s.lines [true]
    terms := withEvents s.terms [.night true] } := rfl

/-- The time of day goes on, with a time event at each whole minute (R70). -/
theorem State.advanceTime_eq (s : State) {now : Tod} (h : s.session.tod = some now) : s.advanceTime = { s with
    session := { s.session with tod := some (nextTod now), fraction := s.session.fraction - 100 }
    terms := withEvents s.terms (if (nextTod now).val % 600 = 0 then [.time] else []) } := by
  unfold State.advanceTime
  rw [h]
  dsimp only
  split
  · rfl
  · rw [withEvents_nil]
    rfl

/-- A feed becomes QUIET, with its event and notice (R72). -/
theorem State.becomeQuiet_eq (s : State) : s.becomeQuiet = { s with
    session := { s.session with stage := .quiet }
    fmt := { s.fmt with stageEvents := s.fmt.stageEvents ++ [.quiet] }
    terms := withEvents s.terms [.feedStage .quiet]
    notices := { s.notices with
      inbox := s.notices.inbox ++ s.items [.feedQuiet s.params.t1 s.intake.lastSeq] } } := rfl

/-- The tape units with texts of the feed watch handed to each. -/
def withWatchTexts (v : Vector Tape 2) (as : List Arrival) : Vector Tape 2 :=
  Bank.mapAll v fun _ x => { x with watchInbox := x.watchInbox ++ as }

/-- The delay is announced to both tapes, once (R73). -/
theorem State.announceDelay_eq (s : State) : s.announceDelay = { s with
    session := { s.session with delayAnnounced := true }
    tapes := withWatchTexts s.tapes
      (if s.session.delayAnnounced then [] else [.text delayedText true s.session.tod]) } := by
  unfold State.announceDelay
  cases hd : s.session.delayAnnounced with
  | true =>
    have ht : withWatchTexts s.tapes [] = s.tapes := Bank.mapAll_id _ fun _ _ => by simp
    simp only [if_true, ht]
    rw [← hd]
  | false =>
    have ht : (s.handWatchText delayedText).tapes = withWatchTexts s.tapes [.text delayedText true s.session.tod] :=
      Bank.ext fun i => by
        fin_cases i <;> simp [State.handWatchText, Bank.get_modify, slotOfTape, withWatchTexts]
    simp only [Bool.false_eq_true, if_false, ← ht]
    rfl

/-- A feed becomes LOST, with its event, its texts and its notice (R73). -/
theorem State.becomeLost_eq (s : State) : s.becomeLost = { s with
    session := { s.session with stage := .lost, delayAnnounced := true }
    fmt := { s.fmt with stageEvents := s.fmt.stageEvents ++ [.lost] }
    tapes := withWatchTexts s.tapes
      (if s.session.delayAnnounced then [] else [.text delayedText true s.session.tod])
    terms := withEvents s.terms [.feedStage .lost]
    notices := { s.notices with
      inbox := s.notices.inbox ++ s.items [.feedLost s.params.t2 s.intake.lastSeq] } } := by
  unfold State.becomeLost
  rw [State.announceDelay_eq]
  rfl

/-! ## The session unit stays sound (chapter 04) -/

theorem SessionState.watched_iff (st : SessionState) : st.watched = true ↔ st = .opened ∨ st = .marketHalt := by
  cases st <;> simp [SessionState.watched]

/-- Only the state, the night flag and timer, the feed stage and the delay mark matter. -/
theorem SessionUnit.Sound.congr {x y : SessionUnit} (h : x.Sound) (hs : y.state = x.state) (hn : y.night = x.night)
    (ht : y.nightTimer = x.nightTimer) (hf : y.stage = x.stage) (hd : y.delayAnnounced = x.delayAnnounced) : y.Sound := by
  unfold SessionUnit.Sound at h ⊢
  rw [hs, hn, ht, hf, hd]
  exact h

/-- The time of a SESSION is no part of what must agree with the session. -/
theorem SessionUnit.Sound.setTime {s : State} (h : s.session.Sound) (time : Option Tod) : (s.setTime time).session.Sound := by
  rw [State.setTime_eq]
  exact h.congr rfl rfl rfl rfl rfl

theorem SessionUnit.Sound.advanceTime {s : State} (h : s.session.Sound) : s.advanceTime.session.Sound := by
  unfold State.advanceTime
  split
  · exact h
  · dsimp only
    split <;> exact h.congr rfl rfl rfl rfl rfl

theorem SessionUnit.Sound.setNight {s : State} (h : s.session.Sound) (hc : s.session.state = .closed) :
    s.setNight.session.Sound := by
  obtain ⟨-, -, hstage, hdelay⟩ := h
  exact ⟨fun _ => ⟨hc, rfl⟩, fun ht => Bool.noConfusion ht, hstage, hdelay⟩

/-- A QUIET feed is no LOST one, and its delay is not announced (R72). -/
theorem SessionUnit.Sound.becomeQuiet {s : State} (h : s.session.Sound) (hw : s.session.state.watched = true)
    (hl : s.session.stage = .live) : s.becomeQuiet.session.Sound := by
  obtain ⟨hnight, htimer, -, hdelay⟩ := h
  refine ⟨hnight, htimer, fun _ => (SessionState.watched_iff _).1 hw, fun hd => ?_, fun hq => FeedStage.noConfusion hq⟩
  have hlost := hdelay.1 hd
  rw [hl] at hlost
  exact FeedStage.noConfusion hlost

theorem SessionUnit.Sound.becomeLost {s : State} (h : s.session.Sound) (hw : s.session.state.watched = true) :
    s.becomeLost.session.Sound := by
  obtain ⟨hnight, htimer, -, -⟩ := h
  rw [State.becomeLost_eq]
  exact ⟨hnight, htimer, fun _ => (SessionState.watched_iff _).1 hw, fun _ => rfl, fun _ => rfl⟩

/-- A posting written TAKEN brings the feed back to LIVE, with no delay announced (R74). -/
theorem SessionUnit.Sound.signalTaken {s : State} (h : s.session.Sound) (seq : Word) : (s.signalTaken seq).session.Sound := by
  obtain ⟨hnight, htimer, -, hdelay⟩ := h
  rw [State.signalTaken_eq]
  refine ⟨hnight, htimer, fun hl => absurd rfl hl, fun hd => ?_, fun hl => FeedStage.noConfusion hl⟩
  obtain ⟨hann, hlive⟩ := (Bool.and_eq_true _ _).mp hd
  exact absurd (hdelay.1 hann) (by rw [of_decide_eq_true hlive]; simp)

/-- A session change moves the night flag and timer with CLOSED, and the feed stage with the watched sessions (R65, R68, R71, R74). -/
theorem SessionUnit.Sound.changeSession {s : State} (h : s.session.Sound) (new : SessionState) :
    (s.changeSession new).session.Sound := by
  by_cases hsame : new = s.session.state
  · rw [show s.changeSession new = s from if_pos hsame]
    exact h
  rw [State.changeSession_eq s rfl hsame]
  obtain ⟨hnight, htimer, hstage, hdelay⟩ := h
  refine ⟨fun hn => ?_, fun ht => ?_, fun hl => ?_, ?_⟩
  · by_cases hd : s.darkens new = true
    · have hc : new = .closed := by simp [State.darkens] at hd; exact hd.1
      subst hc
      simp [hd]
    · by_cases ho : s.session.state = .closed
      · simp [hd, ho] at hn
      · simp only [hd, ho, if_false, Bool.false_eq_true] at hn
        exact absurd (hnight hn).1 ho
  · by_cases hc : new = .closed
    · exact hc
    · by_cases ho : s.session.state = .closed
      · simp [hc, ho] at ht
      · simp only [hc, ho, if_false] at ht
        exact absurd (htimer ht) ho
  · by_cases hr : resumesAt s.session.state new s.session.stage = true
    · simp [hr] at hl
    · simp only [hr, if_false, Bool.false_eq_true] at hl
      have hw := (SessionState.watched_iff _).2 (hstage hl)
      refine (SessionState.watched_iff new).1 ?_
      simpa [resumesAt, hw, hl] using hr
  · by_cases hr : resumesAt s.session.state new s.session.stage = true
    · simp [hr]
    · simpa [hr] using hdelay

/-! ## Steps of a part in service -/

/-- A step of a part in service: the session unit stays sound, and the bus interface keeps what `Bus.Keeps` says. -/
structure Serves (s t : State) : Prop where
  bus : s.bus.Keeps t.bus
  session : s.session.Sound → t.session.Sound

theorem Calm.serves {s t : State} (h : Calm s t) : Serves s t := ⟨h.bus, fun hs => h.session ▸ hs⟩

theorem IntakeActs.serves {s t : State} (h : IntakeActs s t) : Serves s t :=
  ⟨h.bus, fun hs => by rw [h.rest]; exact hs⟩

namespace Serves

variable {s t u : State}

theorem refl (s : State) : Serves s s := ⟨.refl _, id⟩

theorem trans (h : Serves s t) (g : Serves t u) : Serves s u := ⟨h.bus.trans g.bus, g.session ∘ h.session⟩

theorem ite {v : State} {c : Prop} [Decidable c] (hu : Serves s u) (hv : Serves s v) : Serves s (if c then u else v) := by
  split
  · exact hu
  · exact hv

theorem modifyIntake (s : State) (f : Intake → Intake) : Serves s (s.modifyIntake f) := ⟨.refl _, id⟩

theorem setIntake (s : State) (st : IntakeState) : Serves s (s.setIntake st) := ⟨.refl _, id⟩

theorem setTime (s : State) (time : Option Tod) : Serves s (s.setTime time) :=
  ⟨by rw [State.setTime_eq]; exact .refl _, fun h => h.setTime time⟩

theorem changeSession (s : State) (new : SessionState) : Serves s (s.changeSession new) := by
  refine ⟨?_, fun h => h.changeSession new⟩
  by_cases hsame : new = s.session.state
  · rw [show s.changeSession new = s from if_pos hsame]
    exact .refl _
  · rw [State.changeSession_eq s rfl hsame]
    exact .refl _

theorem signalTaken (s : State) (seq : Word) : Serves s (s.signalTaken seq) :=
  ⟨by rw [State.signalTaken_eq]; exact .refl _, fun h => h.signalTaken seq⟩

theorem writeTaken (s : State) : Serves s s.writeTaken := by
  unfold State.writeTaken
  split
  · exact refl s
  · split <;> rename_i e <;> have h := (Calm.withBus ((Bus.Keeps.write ..).fst e)).serves
    · exact h.trans ((((modifyIntake _ _).trans (IntakeActs.writeCounts _).serves).trans (signalTaken _ _)).trans
        (IntakeActs.afterTaken _).serves)
    · exact h.trans (modifyIntake _ _)

theorem pollIntake (s : State) : Serves s s.pollIntake :=
  ite (IntakeActs.look s).serves (ite (writeTaken s) (refl s))

theorem quiesce (s : State) : Serves s s.quiesce := by
  unfold State.quiesce
  split
  · exact (Calm.refuse s).serves
  all_goals exact ⟨.acceptCommand _, id⟩

theorem resume (s : State) : Serves s s.resume := by
  have h : Serves s (s.accept.modifyIntake fun x => { x with quiescePending := false }) := ⟨.acceptCommand _, id⟩
  exact ite (h.trans (IntakeActs.waitAndLook _).serves) h

theorem restart (s : State) : Serves s s.restart := by
  unfold State.restart
  split
  case h_1 => exact ⟨.acceptCommand _, id⟩
  case h_2 => exact ⟨.acceptCommand _, id⟩
  all_goals exact (Calm.accept s).serves.trans (IntakeActs.restartIntake _).serves

theorem feedPollTick (s : State) (noticeFirst : Bool) : Serves s
    (if noticeFirst then s.armTick.noticeRetry.pollIntake else s.armTick.pollIntake.noticeRetry) := by
  have h : Serves s s.armTick := modifyIntake s _
  exact ite ((h.trans (UnitWorks.noticeRetry _).calm.serves).trans (pollIntake _))
    ((h.trans (pollIntake _)).trans (UnitWorks.noticeRetry _).calm.serves)

end Serves

/-! ## Postings (chapter 03) -/

/-- A verdict on a posting reached from a state leads to what `Serves` says. -/
def Verdict.Serves (s : State) : Verdict → Prop
  | .refuse _ => True
  | .refuseOn b _ => s.bus.Keeps b
  | .apply u => Machine.Serves s u
  | .remap u => Machine.Serves s u
  | .unread b => s.bus.Keeps b

namespace Verdict.Serves

theorem withInstrument {s : State} {body : Body} {k : Nat} {f : Ix → Verdict} (h : ∀ i, (f i).Serves s) :
    (withInstrument body k f).Serves s := by
  unfold Machine.withInstrument
  split
  · exact h _
  · trivial

theorem whenDefined {s : State} {i : Ix} {v : Verdict} (h : v.Serves s) : (whenDefined s i v).Serves s := by
  unfold Machine.whenDefined
  split
  · trivial
  · exact h

theorem applied {s u : State} (h : Calm s u) : (Verdict.apply u).Serves s := h.serves

/-- A TRADE that is taken touches records, tapes and contexts alone (R46, R47). -/
theorem applyTrade (s : State) (i : Ix) (f : TradeFields) : Calm s (s.applyTrade i f) := by
  have hprint : ∀ u : State, Calm u (if f.oddLot then u else
      u.handAssigned (s.record i).tape (printOf i (s.record i).mode f (f.time.or s.session.tod))) := fun u =>
    .ite (.refl u) (.handAssigned _ _ _)
  have hcheck : ∀ u : State, Calm u (if f.outOfSeq then u else u.handWatchCheck i f.price) := fun u =>
    .ite (.refl u) (.handWatchCheck _ _ _)
  exact ((Calm.updateRecord s i _ _ _).trans (hprint _)).trans (hcheck _)

theorem trade (seq : Word) (body : Body) (s : State) : (judgeTrade seq body s).Serves s := by
  refine withInstrument fun i => ?_
  split
  · trivial
  · refine whenDefined ?_
    split
    · trivial
    · split
      · exact applied (applyTrade _ _ _)
      · trivial

theorem quote (seq : Word) (body : Body) (s : State) : (judgeQuote seq body s).Serves s :=
  withInstrument fun _ => whenDefined (applied (.updateRecord ..))

theorem cancel (seq : Word) (body : Body) (s : State) : (judgeCancel seq body s).Serves s :=
  withInstrument fun _ => whenDefined (applied ((Calm.ite (.refl s) (.updateRecord ..)).trans (.handAssigned _ _ _)))

theorem summary (seq : Word) (body : Body) (s : State) : (judgeSummary seq body s).Serves s := by
  refine withInstrument fun i => whenDefined ?_
  split
  · exact applied (.ite (.refl s) (.updateRecord ..))
  · trivial

theorem halt (seq : Word) (body : Body) (s : State) : (judgeHalt seq body s).Serves s := by
  refine withInstrument fun i => ?_
  split
  · trivial
  · exact whenDefined (applied (.ite (.updateRecord ..) ((Calm.updateRecord ..).trans (.handAssigned _ _ _))))

theorem resume (seq : Word) (body : Body) (s : State) : (judgeResume seq body s).Serves s :=
  withInstrument fun _ => whenDefined (applied (.ite ((Calm.updateRecord ..).trans (.handAssigned _ _ _)) (.refl s)))

theorem define (seq : Word) (body : Body) (s : State) : (judgeDefine seq body s).Serves s := by
  refine withInstrument fun i => ?_
  split
  · exact applied (((Calm.finishChecks s).trans (.withTerms _ _)).trans (.updateRecord _ _ _ _ _))
  · split
    · exact applied ((Calm.finishChecks s).trans (.updateRecord _ _ _ _ _))
    · trivial

theorem session (seq : Word) (body : Body) (s : State) : (judgeSession seq body s).Serves s := by
  unfold judgeSession
  split
  · trivial
  · trivial
  · exact (Machine.Serves.setTime s _).trans (.changeSession _ _)

theorem tapeText (seq : Word) (body : Body) (s : State) : (judgeTapeText seq body s).Serves s := by
  unfold judgeTapeText
  split
  · split
    · trivial
    · exact applied (.foldl (fun s d => Calm.modifyTape s d _) _ s)
  · trivial

theorem command {f : State → Fin 16 → State} (hf : ∀ s t, Calm s (f s t)) (s : State) (ts : List (Fin 16)) :
    Calm s (s.command ts f) := .foldl (fun s t => (Calm.takeChecks s t).trans (hf _ t)) ts s

theorem judgeCommand {f : State → Fin 16 → State} (hf : ∀ s t, Calm s (f s t)) (seq : Word) (body : Body) (s : State) :
    (judgeCommand f seq body s).Serves s := by
  unfold Machine.judgeCommand
  split
  · exact applied (command hf s _)
  · trivial

theorem text (seq : Word) (body : Body) (s : State) : (judgeText seq body s).Serves s := by
  unfold judgeText
  split
  · dsimp only
    split
    · trivial
    · exact applied (command (fun s t => .modifyTerm s t _) s _)
  · trivial

theorem setPage (seq : Word) (body : Body) (s : State) : (judgeSetPage seq body s).Serves s := by
  unfold judgeSetPage
  split
  · trivial
  · split <;> rename_i e <;> have h := (Bus.Keeps.read ..).fst e
    · split
      · exact h
      · exact applied ((Calm.withBus h).trans (command (fun s t => .modifyTerm s t _) _ _))
    · exact h

theorem watch (body : Body) (s : State) (t : Fin 16) (i : Ix) : (judgeWatch body s t i).Serves s := by
  unfold judgeWatch
  split
  · refine whenDefined ?_
    split
    · refine applied ?_
      exact command (fun s t => Calm.addWatch s t i _ _) s [t]
    · trivial
  · trivial

theorem setWatch (seq : Word) (body : Body) (s : State) : (judgeSetWatch seq body s).Serves s := by
  unfold judgeSetWatch
  split
  · exact withInstrument fun i => watch body s _ i
  · trivial

theorem remap (seq : Word) (body : Body) (s : State) : (judgeRemap seq body s).Serves s := by
  unfold judgeRemap
  split
  · exact (Calm.beginLine s _).serves
  · trivial

theorem snapshot (seq : Word) (body : Body) (s : State) : (judgeSnapshot seq body s).Serves s :=
  withInstrument fun _ => applied (.same rfl rfl rfl)

theorem mark (seq : Word) (body : Body) (s : State) : (judgeMark seq body s).Serves s :=
  applied (.ite (.hand s _) (.refl s))

/-- A verdict that names no cell is reached whatever the posting says (R42, R56). -/
theorem judgeAs {row : Row} {named : Named} {judge j : Judge} (h : ∀ seq body s, (judge seq body s).Serves s)
    (e : judgeAs row named judge = some j) : ∀ seq body s, (j seq body s).Serves s := by
  unfold Machine.judgeAs at e
  split at e
  · cases e; exact fun _ _ _ => trivial
  · cases e; exact fun _ _ _ => trivial
  · split at e
    · cases e; exact h
    · cases e

end Verdict.Serves

namespace Serves

theorem refusePosting (s : State) (seq kind : Word) (reason : Reason) :
    Serves s ((s.refusePosting seq kind reason).writeTaken) := (Calm.hand s _).serves.trans (writeTaken _)

theorem noteSequence (s : State) (seq : Word) : Serves s (s.noteSequence seq) := by
  unfold State.noteSequence
  refine .trans ?_ (modifyIntake _ _)
  split
  · exact (Calm.ite (.refl s) (.hand s _)).serves
  · exact refl s

theorem judgePosting {judge : Judge} (hj : ∀ seq body s, (judge seq body s).Serves s) (s : State) (seq kind : Word)
    (body : Body) : Serves s (s.judgePosting judge seq kind body) := by
  have hs : Serves s (s.holdSequence seq) := modifyIntake s _
  unfold State.judgePosting
  refine ite (hs.trans (refusePosting _ _ _ _)) ?_
  have ht := hs.trans (noteSequence _ seq)
  have h := hj seq body ((s.holdSequence seq).noteSequence seq)
  dsimp only
  split <;> rename_i e <;> rw [e] at h
  · exact ht.trans (refusePosting _ _ _ _)
  · exact (ht.trans (Calm.withBus h).serves).trans (refusePosting _ _ _ _)
  · exact (ht.trans h).trans (writeTaken _)
  · exact (ht.trans h).trans (setIntake _ _)
  · exact (Calm.withBus (ht.bus.trans h)).serves.trans (setIntake _ _)

/-- A posting, whichever way it ends (R41). -/
theorem takePosting {row : Row} {judge : Judge} (hj : ∀ seq body s, (judge seq body s).Serves s) (s : State) :
    Serves s (s.takePosting row judge) := by
  unfold State.takePosting
  split
  · exact refl s
  · split
    · next j e =>
      unfold State.finishPosting
      split <;> rename_i e' <;> have hb := (Calm.withBus ((Bus.Keeps.readPosting ..).fst e')).serves
      · exact hb.trans (setIntake _ _)
      · exact (hb.trans (modifyIntake _ _)).trans (refusePosting _ _ _ _)
      · exact hb.trans (judgePosting (Verdict.Serves.judgeAs hj e) _ _ _ _)
    · exact refl s

end Serves

end Sys2Proof.Machine
end

section
/-! PROOF. What every command keeps that leaves the controller state as it is: the groups and the session unit sound, and the session
unit and intake as they were out of service. -/

namespace Sys2Proof.Machine

/-! ## Every command but the resets, AREA BASE and START -/

/-- What a command that changes no controller state keeps: the groups and the session unit stay sound, and a part out of service keeps
its session unit, and intake STOPPED. -/
structure Steady (s t : State) : Prop where
  bus : s.bus.Keeps t.bus
  session : s.session.Sound → t.session.Sound
  waits : s.inService = false → s.intake.state = .stopped →
    t.session = s.session ∧ t.intake.state = .stopped ∧ t.intake.owed = s.intake.owed

theorem Calm.steady {s t : State} (h : Calm s t) : Steady s t :=
  ⟨h.bus, h.serves.session, fun _ hi => ⟨h.session, by rw [h.intake]; exact hi, by rw [h.intake]⟩⟩

theorem Serves.steady {s t : State} (h : Serves s t) (hs : s.inService = true) : Steady s t :=
  ⟨h.bus, h.session, fun hn => absurd (hs.symm.trans hn) Bool.noConfusion⟩

theorem Bus.Keeps.inService {s t : State} (h : s.bus.Keeps t.bus) : t.inService = s.inService := by
  unfold State.inService; rw [h.phase]

namespace Steady

variable {s t u : State}

theorem refl (s : State) : Steady s s := (Calm.refl s).steady

/-- Steady after a step that is calm: after the host's stores (log 4). -/
theorem after (h : Calm s t) (g : Steady t u) : Steady s u where
  bus := h.bus.trans g.bus
  session := g.session ∘ h.serves.session
  waits := fun hs hi => by
    obtain ⟨hsession, hstate, howed⟩ := g.waits (h.bus.inService.trans hs) (by rw [h.intake]; exact hi)
    exact ⟨hsession.trans h.session, hstate, by rw [howed, h.intake]⟩

theorem ite {c : Prop} [Decidable c] (hu : c → Steady s t) (hv : Steady s u) : Steady s (if c then t else u) := by
  split
  · next hc => exact hu hc
  · exact hv

/-- A step that is made in service alone. -/
theorem inService {c : Prop} [Decidable c] (hc : c → s.inService = true) (h : Serves s t) (g : Calm s u) :
    Steady s (if c then t else u) := ite (fun e => h.steady (hc e)) g.steady

theorem posting {row : Row} {judge : Judge} (hj : ∀ seq body s, (judge seq body s).Serves s) (h : List HostWrite)
    (s : State) : Ensures (Steady s) (postingStep row judge h s) := by
  refine after (.hostWrites h s) ?_
  generalize s.hostWrites h = s
  by_cases hs : s.inService = true
  · exact (Serves.takePosting hj s).steady hs
  · have hnone : s.inHand = none := by simp [State.inHand, hs]
    have hsame : s.takePosting row judge = s := by unfold State.takePosting; rw [hnone]
    rw [hsame]
    exact refl s

/-- A REMAP of START leaves intake STOPPED; one of a posting is of a part in service (R60, R92). -/
theorem remapFinished (s : State) : Steady s s.remapFinished := by
  unfold State.remapFinished
  split
  · exact refl s
  · next job _ =>
    have h := (Calm.finishLine s job).trans (.nextLine _ job)
    have hw := h.serves.trans (.writeTaken _)
    dsimp only
    split
    · next hc =>
      refine ⟨hw.bus, hw.session, fun _ hi => ?_⟩
      rw [h.intake, hi] at hc
      exact IntakeState.noConfusion hc.2.2
    · exact h.steady

theorem nudge (h : List HostWrite) (s : State) : Ensures (Steady s) (execNudge h s) := by
  refine after (.hostWrites h s) ?_
  generalize s.hostWrites h = s
  split
  · exact (Calm.refuse s).steady
  · exact (Calm.refuse s).steady
  · exact ⟨.acceptCommand _, id, fun _ hi => ⟨rfl, hi, rfl⟩⟩
  · next hp => exact ((Calm.accept s).serves.trans (.pollIntake _)).steady (by simp [State.inService, hp])

theorem unknownCommand (w : Word) (s : State) : Ensures (Steady s) (execUnknownCommand w s) := by
  unfold execUnknownCommand
  split
  · exact (Calm.refuse s).steady
  · trivial

theorem setBase (w : Word) (s : State) : Ensures (Steady s) (execSetBase w s) := by
  unfold execSetBase
  split
  · exact (Calm.withBus (.setVectorBase w _)).steady
  · trivial

theorem acknowledgeGroup (w : Word) (s : State) : Ensures (Steady s) (execAcknowledgeGroup w s) := by
  unfold execAcknowledgeGroup
  split
  · trivial
  · split
    · exact (Calm.withBus (.acknowledge _ _)).steady
    · exact (Calm.setError s _).steady

theorem interruptAcknowledge (level : Fin 8) (s : State) : Ensures (Steady s) (execInterruptAcknowledge level s) := by
  unfold execInterruptAcknowledge
  split
  · trivial
  · exact (Calm.withBus (.answer level _)).steady

theorem feedPollTick (h : List HostWrite) (first : Bool) (s : State) : Ensures (Steady s) (execFeedPollTick h first s) := by
  refine after (.hostWrites h s) (inService (fun hd => ?_) (.feedPollTick _ first) (.refl _))
  simp only [State.tickDue, Bool.and_eq_true] at hd
  exact hd.1

theorem nightTimer (s : State) : Ensures (Steady s) (execNightTimer s) := by
  refine ite (fun hd => ?_) (refl s)
  simp only [State.nightDue, Bool.and_eq_true, decide_eq_true_eq] at hd
  exact Serves.steady ⟨.refl _, fun h => h.setNight hd.1.1.2⟩ hd.1.1.1

theorem feedQuiet (s : State) : Ensures (Steady s) (execFeedQuiet s) := by
  refine ite (fun hd => ?_) (refl s)
  simp only [State.quietDue, State.feedReached, Bool.and_eq_true, decide_eq_true_eq] at hd
  exact Serves.steady ⟨.refl _, fun h => h.becomeQuiet hd.1.1.2 hd.2⟩ hd.1.1.1

theorem feedLost (s : State) : Ensures (Steady s) (execFeedLost s) := by
  refine ite (fun hd => ?_) (refl s)
  simp only [State.lostDue, State.feedReached, Bool.and_eq_true, decide_eq_true_eq] at hd
  exact Serves.steady ⟨by rw [State.becomeLost_eq]; exact .refl _, fun h => h.becomeLost hd.1.1.2⟩ hd.1.1.1

theorem timeOfDayAdvance (s : State) : Ensures (Steady s) (execTimeOfDayAdvance s) := by
  refine ite (fun hd => ?_) (refl s)
  simp only [State.timeDue, Bool.and_eq_true, Option.isSome_iff_exists] at hd
  obtain ⟨⟨hs, now, hnow⟩, -⟩ := hd
  exact Serves.steady ⟨by rw [State.advanceTime_eq s hnow]; exact .refl _, fun h => h.advanceTime⟩ hs

end Steady

namespace Calm

/-! Commands of the lines and contexts that end in a match. -/

theorem chooseNextFrame (n : Fin 4) (s : State) : Ensures (Calm s) (execChooseNextFrame n s) := by
  show Calm s (match s.nextFrame n with | some k => s.modifyLine n fun l => l.begin k | none => s)
  split
  · exact modifyLine s _ _
  · exact refl s

theorem acceptReply (n : Fin 4) (address check : Byte) (s : State) : Ensures (Calm s) (execAccept n address check s) := by
  unfold execAccept Ensures
  dsimp only
  split
  · exact modifyLine s _ _
  · exact refl s

theorem reject (n : Fin 4) (address check : Byte) (s : State) : Ensures (Calm s) (execReject n address check s) := by
  unfold execReject Ensures
  dsimp only
  split
  · exact writeFailed s _ _ _
  · exact refl s

theorem statusReply (n : Fin 4) (address width check : Byte) (s : State) :
    Ensures (Calm s) (execStatusReply n address width check s) := by
  unfold execStatusReply Ensures
  dsimp only
  split
  · exact ite ((modifyLine s n _).trans (reportModule _ _ _)) (modifyLine s n _)
  · exact refl s

theorem replyWindow (n : Fin 4) (s : State) : Ensures (Calm s) (execReplyWindow n s) := by
  unfold execReplyWindow Ensures
  dsimp only
  split
  · exact writeFailed s _ _ _
  · exact modifyLine s _ _
  · exact refl s

theorem visit (l : Fin 2) (s : State) : Ensures (Calm s) (execVisit l s) := by
  unfold execVisit Ensures
  dsimp only
  split
  · exact beginVisit s _ _
  · exact refl s

theorem key (l : Fin 2) (address keyByte check : Byte) (s : State) :
    Ensures (Calm s) (execKey l address keyByte check s) := by
  unfold execKey Ensures
  dsimp only
  split
  · exact (pollOutcome s _ _ _).trans (reportReturn _ _ _ _)
  · exact refl s

theorem idle (l : Fin 2) (address check : Byte) (s : State) : Ensures (Calm s) (execIdle l address check s) := by
  unfold execIdle Ensures
  dsimp only
  split
  · exact (pollOutcome s _ _ _).trans (reportReturn _ _ _ _)
  · exact refl s

theorem pollReplyWindow (l : Fin 2) (s : State) : Ensures (Calm s) (execPollReplyWindow l s) := by
  unfold execPollReplyWindow Ensures
  dsimp only
  split
  · exact (pollOutcome s _ _ _).trans (reportOffline _ _ _)
  · exact refl s

theorem pageLoadComplete (t : Fin 16) (h : List HostWrite) (s : State) : Ensures (Calm s) (execPageLoadComplete t h s) := by
  refine (hostWrites h s).trans ?_
  split
  · exact loadPage _ _ _ _
  · exact refl _

theorem keyEntryRead (t : Fin 16) (h : List HostWrite) (s : State) : Ensures (Calm s) (execKeyEntryRead t h s) := by
  refine (hostWrites h s).trans ?_
  split
  · exact dispatchKey _ _ _
  · exact refl _

end Calm

theorem Ensures.steady {s : State} {r : Result} (h : Ensures (Calm s) r) : Ensures (Steady s) r := by
  cases r with
  | next t => exact Calm.steady h
  | fault e => trivial
  | refused e => trivial

/-- The command changes the controller state: a reset, AREA BASE, START and its completion. -/
def movesController : Instr → Bool
  | .powerOnReset | .pinReset | .softReset | .areaBase _ | .start _ | .startDone _ => true
  | _ => false

/-- Every command that leaves the controller state is steady. -/
theorem ensures_steady {c : Instr} (hc : movesController c = false) (s : State) : Ensures (Steady s) (exec c s) := by
  have hw := fun h => Calm.hostWrites h s
  cases c with
  | powerOnReset => exact Bool.noConfusion hc
  | pinReset => exact Bool.noConfusion hc
  | softReset => exact Bool.noConfusion hc
  | areaBase w => exact Bool.noConfusion hc
  | start h => exact Bool.noConfusion hc
  | startDone h => exact Bool.noConfusion hc
  | nudge h => exact Steady.nudge h s
  | quiesce => exact Steady.inService id (.quiesce s) (.refuse s)
  | resume h => exact Steady.after (hw h) (.inService id (.resume _) (.refuse _))
  | restartIntake h => exact Steady.after (hw h) (.inService id (.restart _) (.refuse _))
  | unknownCommand w => exact Steady.unknownCommand w s
  | errorFlagClear w => exact (Calm.withBus (.clearErrors w _)).steady
  | setBase w => exact Steady.setBase w s
  | acknowledgeGroup w => exact Steady.acknowledgeGroup w s
  | interruptAcknowledge level => exact Steady.interruptAcknowledge level s
  | busTimeout attempts => exact (Calm.withBus (.scripted _ _)).steady
  | feedPollTick h first => exact Steady.feedPollTick h first s
  | trade h => exact Steady.posting Verdict.Serves.trade h s
  | quote h => exact Steady.posting Verdict.Serves.quote h s
  | cancel h => exact Steady.posting Verdict.Serves.cancel h s
  | summary h => exact Steady.posting Verdict.Serves.summary h s
  | halt h => exact Steady.posting Verdict.Serves.halt h s
  | resumePosting h => exact Steady.posting Verdict.Serves.resume h s
  | define h => exact Steady.posting Verdict.Serves.define h s
  | session h => exact Steady.posting Verdict.Serves.session h s
  | tapeText h => exact Steady.posting Verdict.Serves.tapeText h s
  | text h => exact Steady.posting Verdict.Serves.text h s
  | setPage h => exact Steady.posting Verdict.Serves.setPage h s
  | lock h => exact Steady.posting (Verdict.Serves.judgeCommand fun s t => .modifyTerm s t _) h s
  | unlock h => exact Steady.posting (Verdict.Serves.judgeCommand fun s t => .modifyTerm s t _) h s
  | clearStack h => exact Steady.posting (Verdict.Serves.judgeCommand fun s t => .modifyTerm s t _) h s
  | setWatch h => exact Steady.posting Verdict.Serves.setWatch h s
  | clearWatches h => exact Steady.posting (Verdict.Serves.judgeCommand Calm.clearWatches) h s
  | remap h => exact Steady.posting Verdict.Serves.remap h s
  | remapLineFinished h => exact Steady.after (hw h) (.ite (fun _ => .remapFinished _) (.refl _))
  | snapshot h => exact Steady.posting Verdict.Serves.snapshot h s
  | mark h => exact Steady.posting Verdict.Serves.mark h s
  | timeOfDayAdvance => exact Steady.timeOfDayAdvance s
  | nightTimer => exact Steady.nightTimer s
  | feedQuiet => exact Steady.feedQuiet s
  | feedLost => exact Steady.feedLost s
  | changeEvent h => exact ((hw h).trans (.formatChange _)).steady
  | sessionEvent h => exact ((hw h).trans (.formatSession _)).steady
  | feedStageEvent => exact (Calm.formatStage s).steady
  | highlightExpiry h => exact ((hw h).trans (.ite (.expireHighlights _) (.refl _))).steady
  | nightSet n => exact (Calm.modifyLine s _ _).steady
  | nightClear n => exact (Calm.modifyLine s _ _).steady
  | chooseNextFrame n => exact (Calm.chooseNextFrame n s).steady
  | boardFrameSent n => exact (Calm.modifyLine s _ _).steady
  | accept n address check => exact (Calm.acceptReply n address check s).steady
  | reject n address check => exact (Calm.reject n address check s).steady
  | statusReply n address width check => exact (Calm.statusReply n address width check s).steady
  | replyWindow n => exact (Calm.replyWindow n s).steady
  | pollTimer n m => exact (Calm.ite (.modifyLine s _ _) (.refl s)).steady
  | printArrival id => exact (Calm.takePrint s id).steady
  | cancelArrival id => exact (Calm.takeCancel s id).steady
  | noteArrival id => exact (Calm.takeNote s id).steady
  | textArrival id supplier => exact (Calm.takeText s id supplier).steady
  | renderEntry id => exact (Calm.render s id).steady
  | ribbonCharacter id => exact (Calm.ite (.modifyTape s _ _) (.refl s)).steady
  | terminalChangeEvent t => exact (Calm.modifyTerm s t _).steady
  | terminalSessionEvent t => exact (Calm.modifyTerm s t _).steady
  | terminalFeedStageEvent t => exact (Calm.modifyTerm s t _).steady
  | timeEvent t => exact (Calm.modifyTerm s t _).steady
  | terminalNightSet t => exact (Calm.modifyTerm s t _).steady
  | terminalNightClear t => exact (Calm.modifyTerm s t _).steady
  | watchCheck t => exact (Calm.takeCheck s t).steady
  | visit l => exact (Calm.visit l s).steady
  | terminalFrameSent l => exact (Calm.termFrameSent s l).steady
  | key l address keyByte check => exact (Calm.key l address keyByte check s).steady
  | idle l address check => exact (Calm.idle l address check s).steady
  | pollReplyWindow l => exact (Calm.pollReplyWindow l s).steady
  | terminalPollTimer t => exact (Calm.ite (.modifyTerm s t _) (.refl s)).steady
  | pageLoadComplete t h => exact (Calm.pageLoadComplete t h s).steady
  | notice h => exact ((hw h).trans (.ite (.takeNotice _) (.refl _))).steady
  | keyEntryRead t h => exact (Calm.keyEntryRead t h s).steady

end Sys2Proof.Machine
end

section
/-! PROOF. START's completion (R64, R68, R69, R168, R174), step by step put together as one change of every block. -/

namespace Sys2Proof.Machine

/-! ## Banks as lists -/

theorem Bank.toList_eq {α : Type} {n : Nat} (v : Vector α n) : v.toList = (List.finRange n).map (Bank.get v) := by
  refine List.ext_getElem (by simp) fun i _ _ => ?_
  simp [Bank.get]

theorem Bank.flatMap_toList {α β : Type} {n : Nat} (v : Vector α n) (f : α → List β) :
    v.toList.flatMap f = (List.finRange n).flatMap fun i => f (Bank.get v i) := by
  rw [Bank.toList_eq, List.flatMap_map]

/-! ## The timers and the night (R64, R68, R69) -/

/-- START completes in CLOSED with a night delay of 0: the night flag sets at once (R68). -/
def State.startsDark (s : State) : Bool := s.session.state = .closed && s.params.nightDelay == 0

/-- The night events of START's completion (R69). -/
def State.startNights (s : State) : List Bool := if s.startsDark then [true] else []

/-- The session unit as START's completion leaves it (R64, R68). -/
def State.startSession (s : State) : SessionUnit :=
  { s.session with
    feedTimer := some 0
    night := s.session.night || s.startsDark
    nightTimer := if s.startsDark then none else if s.session.state = .closed then some 0 else s.session.nightTimer }

theorem State.startTimers_eq (s : State) : s.startTimers = { s with
    session := s.startSession
    lines := withNights s.lines s.startNights
    terms := withEvents s.terms (s.startNights.map .night) } := by
  unfold State.startTimers State.enterClosed State.startSession State.startNights State.startsDark
  by_cases hc : s.session.state = .closed
  · by_cases hd : s.params.nightDelay = 0
    · simp [hc, hd, State.setNight_eq]
    · have hd' : (s.params.nightDelay == 0) = false := by simpa using hd
      simp [hc, hd, hd']
      rfl
  · simp [hc]
    rfl

/-! ## The whole completion (R168) -/

/-- The part as START's completion leaves it, before the look of a remembered NUDGE. -/
def State.entered (s : State) : State :=
  { s with
    bus := Bus.settle { s.bus with phase := .running }
    intake := { s.intake with
      state := .waiting, current := some s.params.postingStart, taken := false, nudged := false
      feedTick := some (s.now + s.params.feedPoll) }
    session := s.startSession
    fmt := { s.fmt with held := [] }
    lines := Bank.mapAll s.lines fun _ l => { l with held := [], nights := l.nights ++ s.startNights }
    tapes := Bank.mapAll s.tapes fun _ x => { x with ribbonStart := some s.now, ribbonNext := 0 }
    tlines := Bank.mapAll s.tlines fun _ l => { l with held := [] }
    terms := withEvents s.terms (s.startNights.map .night)
    notices := { s.notices with inbox := s.notices.inbox ++ s.items s.heldNotices } }

/-- What the holders hold does not depend on the night events handed to the lines. -/
theorem State.heldNotices_congr {s t : State} (hf : t.fmt.held = s.fmt.held) (hl : ∀ n, (t.line n).held = (s.line n).held)
    (ht : t.tlines = s.tlines) : t.heldNotices = s.heldNotices := by
  have hlines : t.lines.toList.flatMap BoardLine.held = s.lines.toList.flatMap BoardLine.held := by
    rw [Bank.flatMap_toList, Bank.flatMap_toList]
    exact congrArg (fun f => List.flatMap f (List.finRange 4)) (funext hl)
  unfold State.heldNotices
  rw [hf, hlines, ht]

/-- The part in service, with intake WAITING at POSTING START. -/
def State.begun (s : State) : State :=
  (s.withBus (Bus.settle { s.bus with phase := .running })).withIntake { s.intake with
    state := .waiting, current := some s.params.postingStart, taken := false, nudged := false
    feedTick := some (s.now + s.params.feedPoll) }

/-- The holders hand their notices on, and hold none (R94, R111, R143). -/
theorem State.handHeld_eq (s : State) : s.dropHeld.handAll s.heldNotices = { s with
    fmt := { s.fmt with held := [] }
    lines := Bank.mapAll s.lines fun _ l => { l with held := [] }
    tlines := Bank.mapAll s.tlines fun _ l => { l with held := [] }
    notices := { s.notices with inbox := s.notices.inbox ++ s.items s.heldNotices } } := by
  rw [State.handAll_eq]
  rfl

/-- The part in service with its timers, ticks and ribbons started. -/
def State.timed (s : State) : State :=
  s.begun.startTimers.withTapes (Bank.mapAll s.tapes fun _ x => { x with ribbonStart := some s.now, ribbonNext := 0 })

theorem State.timed_eq (s : State) : s.timed = { s.begun with
    session := s.startSession
    lines := withNights s.lines s.startNights
    tapes := Bank.mapAll s.tapes fun _ x => { x with ribbonStart := some s.now, ribbonNext := 0 }
    terms := withEvents s.terms (s.startNights.map .night) } := by
  unfold State.timed
  rw [State.startTimers_eq]
  rfl

theorem State.timed_hands (s : State) : s.timed.dropHeld.handAll s.timed.heldNotices = s.entered := by
  have hheld : s.timed.heldNotices = s.heldNotices := by
    have hline : ∀ n, (Bank.get (withNights s.lines s.startNights) n).held = (s.line n).held := fun n => by
      rw [withNights, Bank.get_mapAll]
      rfl
    rw [State.timed_eq]
    exact State.heldNotices_congr rfl hline rfl
  have hlines : Bank.mapAll (withNights s.lines s.startNights) (fun _ l => { l with held := [] }) =
      Bank.mapAll s.lines fun _ l => { l with held := [], nights := l.nights ++ s.startNights } := Bank.mapAll_mapAll _ _ _
  rw [State.handHeld_eq, hheld, State.timed_eq]
  unfold State.entered
  rw [← hlines]
  rfl

theorem State.completeStart_stages (s : State) : s.completeStart =
    if s.intake.nudged then (s.timed.dropHeld.handAll s.timed.heldNotices).look
    else s.timed.dropHeld.handAll s.timed.heldNotices := by
  unfold State.timed State.begun
  exact (rfl : s.completeStart = _)

theorem State.completeStart_eq (s : State) :
    s.completeStart = if s.intake.nudged then s.entered.look else s.entered := by
  rw [State.completeStart_stages, State.timed_hands]

end Sys2Proof.Machine
end

section
/-! PROOF. A part in UNSET or READY is at rest (R162, R166, R178): no command that leaves the controller state moves a block. -/

namespace Sys2Proof.Machine

theorem Bank.modify_replicate {α : Type} {n : Nat} {a : α} (i : Fin n) {f : α → α} (h : f a = a) :
    Bank.modify (Vector.replicate n a) i f = Vector.replicate n a :=
  Bank.ext fun j => by
    rw [Bank.get_modify, Bank.get_replicate]
    split
    · exact h
    · rfl

/-! Out of service no timer is due. -/

section
variable {s : State} (h : s.inService = false)
include h

theorem State.timeDue_off : s.timeDue = false := by unfold State.timeDue; rw [h]; rfl
theorem State.nightDue_off : s.nightDue = false := by unfold State.nightDue; rw [h]; rfl
theorem State.feedReached_off (seconds : Nat) : s.feedReached seconds = false := by unfold State.feedReached; rw [h]; rfl
theorem State.quietDue_off : s.quietDue = false := by unfold State.quietDue; rw [State.feedReached_off h]; rfl
theorem State.lostDue_off : s.lostDue = false := by unfold State.lostDue; rw [State.feedReached_off h]; rfl
theorem State.tickDue_off : s.tickDue = false := by unfold State.tickDue; rw [h]; rfl
theorem State.highlightDue_off : s.highlightDue = false := by unfold State.highlightDue; rw [h]; rfl
theorem State.ribbonDue_off (d : TapeId) : s.ribbonDue d = false := by unfold State.ribbonDue; rw [h]; rfl
theorem State.rendererReady_off (d : TapeId) : s.rendererReady d = false := by unfold State.rendererReady; rw [h]; rfl
end

/-- Every block holds what a reset left it. -/
structure State.AtReset (s : State) : Prop where
  intake : s.intake = Intake.reset
  store : s.store = []
  session : s.session = SessionUnit.reset
  fmt : s.fmt = Formatter.reset
  lines : s.lines = Vector.replicate 4 BoardLine.reset
  tapes : s.tapes = Vector.replicate 2 Tape.reset
  tlines : s.tlines = Vector.replicate 2 TermLine.reset
  terms : s.terms = Vector.replicate 16 Terminal.reset
  notices : s.notices = NoticeUnit.reset

/-- UNSET or READY, with every block at reset. -/
structure State.AtRest (s : State) : Prop extends s.AtReset where
  phase : s.bus.phase = .unset ∨ s.bus.phase = .ready

/-- Nothing but the bus interface has moved. -/
def BusOnly (s t : State) : Prop := t = s.withBus t.bus

theorem BusOnly.refl (s : State) : BusOnly s s := rfl

theorem BusOnly.withBus (s : State) (b : Bus) : BusOnly s (s.withBus b) := rfl

theorem BusOnly.of_eq {s t : State} (h : t = s) : BusOnly s t := h ▸ .refl s

theorem BusOnly.trans {s t u : State} (h : BusOnly s t) (g : BusOnly t u) : BusOnly s u := by
  unfold BusOnly at h g ⊢
  rw [g, h]
  rfl

theorem BusOnly.ite {s t u : State} {c : Prop} [Decidable c] (ht : BusOnly s t) (hu : BusOnly s u) :
    BusOnly s (if c then t else u) := by
  split
  · exact ht
  · exact hu

/-- A change of the bus interface leaves the blocks at reset. -/
theorem BusOnly.atReset {s t : State} (h : BusOnly s t) (hs : s.AtReset) : t.AtReset := by
  rw [h]
  exact ⟨hs.intake, hs.store, hs.session, hs.fmt, hs.lines, hs.tapes, hs.tlines, hs.terms, hs.notices⟩

namespace State.AtRest

variable {s : State}

theorem linesWork (h : s.AtRest) : s.linesWork = false := by
  unfold State.linesWork
  rcases h.phase with e | e <;> rw [e] <;> rfl

theorem inService (h : s.AtRest) : s.inService = false := by
  unfold State.inService
  rcases h.phase with e | e <;> rw [e] <;> rfl

theorem line (h : s.AtRest) (n : Fin 4) : s.line n = BoardLine.reset := by
  unfold State.line; rw [h.lines, Bank.get_replicate]

theorem tape (h : s.AtRest) (d : TapeId) : s.tape d = Tape.reset := by
  unfold State.tape; rw [h.tapes, Bank.get_replicate]

theorem tline (h : s.AtRest) (l : Fin 2) : s.tline l = TermLine.reset := by
  unfold State.tline; rw [h.tlines, Bank.get_replicate]

theorem term (h : s.AtRest) (k : Fin 16) : s.term k = Terminal.reset := by
  unfold State.term; rw [h.terms, Bank.get_replicate]

theorem modifyLine (h : s.AtRest) (n : Fin 4) {f : BoardLine → BoardLine} (hf : f BoardLine.reset = BoardLine.reset) :
    BusOnly s (s.modifyLine n f) := .of_eq <| by
  unfold State.modifyLine
  rw [h.lines, Bank.modify_replicate n hf, ← h.lines]
  rfl

theorem modifyTerm (h : s.AtRest) (k : Fin 16) {f : Terminal → Terminal} (hf : f Terminal.reset = Terminal.reset) :
    BusOnly s (s.modifyTerm k f) := .of_eq <| by
  unfold State.modifyTerm
  rw [h.terms, Bank.modify_replicate k hf, ← h.terms]
  rfl

theorem hostWrites (h : s.AtRest) (w : List HostWrite) : (s.hostWrites w).AtRest where
  toAtReset := (BusOnly.withBus s _).atReset h.toAtReset
  phase := by
    have hp : (s.hostWrites w).bus.phase = s.bus.phase := Bus.hostWrites_phase _ _
    rw [hp]
    exact h.phase

/-! Nothing waits, and nothing is due. -/

theorem inHand (h : s.AtRest) : s.inHand = none := by simp [State.inHand, h.inService]

theorem posting (h : s.AtRest) (row : Row) (judge : Judge) (w : List HostWrite) :
    Ensures (BusOnly s) (postingStep row judge w s) := by
  have hnone : (s.hostWrites w).takePosting row judge = s.hostWrites w := by
    unfold State.takePosting
    rw [(h.hostWrites w).inHand]
  unfold postingStep Ensures
  dsimp only
  rw [hnone]
  exact .withBus s _

theorem startReady (h : s.AtRest) : s.startReady = false := by
  unfold State.startReady
  rcases h.phase with e | e <;> rw [e] <;> rfl

theorem waiting (h : s.AtRest) (n : Fin 4) : (s.line n).waiting = none := by rw [h.line]; rfl

theorem pollWaiting (h : s.AtRest) (l : Fin 2) : s.pollWaiting l = none := by
  unfold State.pollWaiting; rw [h.tline]; rfl

theorem replyTaken (h : s.AtRest) (l : Fin 2) (address check : Byte) (bytes : List Byte) :
    s.replyTaken l address bytes check = none := by
  unfold State.replyTaken; rw [h.pollWaiting]

theorem nextFrame (h : s.AtRest) (n : Fin 4) : s.nextFrame n = none := by simp [State.nextFrame, h.linesWork]

theorem nextVisit (h : s.AtRest) (l : Fin 2) : s.nextVisit l = none := by simp [State.nextVisit, h.linesWork]

theorem windowOver (h : s.AtRest) (n : Fin 4) : s.windowOver n = none := by simp [State.windowOver, h.waiting]

theorem pollWindowOver (h : s.AtRest) (l : Fin 2) : s.pollWindowOver l = none := by
  simp [State.pollWindowOver, h.pollWaiting]

theorem writeAnswered (h : s.AtRest) (n : Fin 4) (code address check : Byte) :
    s.writeAnswered n code address check = none := by simp [State.writeAnswered, h.waiting]

theorem pollAnswered (h : s.AtRest) (n : Fin 4) (address width check : Byte) :
    s.pollAnswered n address width check = none := by simp [State.pollAnswered, h.waiting]

end State.AtRest

theorem Ensures.busOnly_ite {s t u : State} {c : Bool} (hc : c = false) (hu : BusOnly s u) :
    Ensures (BusOnly s) (.next (if c then t else u)) := by
  rw [hc]; exact hu

/-- At rest no command that leaves the controller state moves a block. -/
theorem ensures_busOnly {c : Instr} (hc : movesController c = false) {s : State} (hs : s.AtRest) :
    Ensures (BusOnly s) (exec c s) := by
  have hw := hs.hostWrites
  have stored := fun w => BusOnly.withBus s (s.bus.hostWrites w)
  have refused := BusOnly.withBus s s.bus.refuseCommand
  have idle {t : State} (ht : t = s) : BusOnly s t := .of_eq ht
  cases c with
  | powerOnReset => exact Bool.noConfusion hc
  | pinReset => exact Bool.noConfusion hc
  | softReset => exact Bool.noConfusion hc
  | areaBase w => exact Bool.noConfusion hc
  | start w => exact Bool.noConfusion hc
  | startDone w => exact Bool.noConfusion hc
  | nudge w =>
    show Ensures _ (execNudge w s)
    unfold execNudge Ensures
    dsimp only
    rcases (hw w).phase with e | e <;> rw [e] <;> exact .withBus s _
  | quiesce => exact .busOnly_ite hs.inService refused
  | resume w => exact .busOnly_ite (hw w).inService (.withBus s _)
  | restartIntake w => exact .busOnly_ite (hw w).inService (.withBus s _)
  | unknownCommand w =>
    show Ensures _ (execUnknownCommand w s)
    unfold execUnknownCommand
    split
    · exact refused
    · trivial
  | errorFlagClear w => exact .withBus s _
  | setBase w =>
    show Ensures _ (execSetBase w s)
    unfold execSetBase
    split
    · exact .withBus s _
    · trivial
  | acknowledgeGroup w =>
    show Ensures _ (execAcknowledgeGroup w s)
    unfold execAcknowledgeGroup
    split
    · trivial
    · split <;> exact .withBus s _
  | interruptAcknowledge level =>
    show Ensures _ (execInterruptAcknowledge level s)
    unfold execInterruptAcknowledge
    split
    · trivial
    · exact .withBus s _
  | busTimeout attempts => exact .withBus s _
  | feedPollTick w first => exact .busOnly_ite (State.tickDue_off (hw w).inService) (stored w)
  | trade w => exact hs.posting _ _ w
  | quote w => exact hs.posting _ _ w
  | cancel w => exact hs.posting _ _ w
  | summary w => exact hs.posting _ _ w
  | halt w => exact hs.posting _ _ w
  | resumePosting w => exact hs.posting _ _ w
  | define w => exact hs.posting _ _ w
  | session w => exact hs.posting _ _ w
  | tapeText w => exact hs.posting _ _ w
  | text w => exact hs.posting _ _ w
  | setPage w => exact hs.posting _ _ w
  | lock w => exact hs.posting _ _ w
  | unlock w => exact hs.posting _ _ w
  | clearStack w => exact hs.posting _ _ w
  | setWatch w => exact hs.posting _ _ w
  | clearWatches w => exact hs.posting _ _ w
  | remap w => exact hs.posting _ _ w
  | snapshot w => exact hs.posting _ _ w
  | mark w => exact hs.posting _ _ w
  | remapLineFinished w => exact .busOnly_ite (hw w).linesWork (stored w)
  | timeOfDayAdvance => exact .busOnly_ite (State.timeDue_off hs.inService) (.refl s)
  | nightTimer => exact .busOnly_ite (State.nightDue_off hs.inService) (.refl s)
  | feedQuiet => exact .busOnly_ite (State.quietDue_off hs.inService) (.refl s)
  | feedLost => exact .busOnly_ite (State.lostDue_off hs.inService) (.refl s)
  | changeEvent w =>
    refine .trans (stored w) (.of_eq ?_)
    unfold State.formatChange
    rw [(hw w).fmt]
    rfl
  | sessionEvent w =>
    refine .trans (stored w) (.of_eq ?_)
    unfold State.formatSession
    rw [(hw w).fmt]
    rfl
  | feedStageEvent =>
    refine idle ?_
    unfold State.formatStage
    rw [hs.fmt]
    rfl
  | highlightExpiry w => exact .busOnly_ite (State.highlightDue_off (hw w).inService) (stored w)
  | nightSet n => exact hs.modifyLine n rfl
  | nightClear n => exact hs.modifyLine n rfl
  | chooseNextFrame n =>
    refine idle ?_
    rw [hs.nextFrame]
  | boardFrameSent n => exact hs.modifyLine n rfl
  | accept n address check =>
    refine idle ?_
    rw [hs.writeAnswered]
  | reject n address check =>
    refine idle ?_
    rw [hs.writeAnswered]
  | statusReply n address width check =>
    refine idle ?_
    rw [hs.pollAnswered]
  | replyWindow n =>
    refine idle ?_
    rw [hs.windowOver]
  | pollTimer n m => exact .busOnly_ite (by rw [hs.linesWork]; rfl) (.refl s)
  | printArrival id =>
    refine idle ?_
    unfold State.takePrint
    rw [hs.tape]
    rfl
  | cancelArrival id =>
    refine idle ?_
    unfold State.takeCancel
    rw [hs.tape]
    rfl
  | noteArrival id =>
    refine idle ?_
    unfold State.takeNote
    rw [hs.tape]
    rfl
  | textArrival id supplier =>
    refine idle ?_
    unfold State.takeText
    rw [hs.tape]
    cases supplier <;> rfl
  | renderEntry id => exact .busOnly_ite (State.rendererReady_off hs.inService id) (.refl s)
  | ribbonCharacter id => exact .busOnly_ite (State.ribbonDue_off hs.inService id) (.refl s)
  | terminalChangeEvent t => exact hs.modifyTerm t rfl
  | terminalSessionEvent t => exact hs.modifyTerm t rfl
  | terminalFeedStageEvent t => exact hs.modifyTerm t rfl
  | timeEvent t => exact hs.modifyTerm t rfl
  | terminalNightSet t => exact hs.modifyTerm t rfl
  | terminalNightClear t => exact hs.modifyTerm t rfl
  | watchCheck t =>
    refine idle ?_
    unfold State.takeCheck
    rw [hs.term]
    rfl
  | visit l =>
    refine idle ?_
    rw [hs.nextVisit]
  | terminalFrameSent l =>
    refine idle ?_
    unfold State.termFrameSent
    rw [hs.tline]
    rfl
  | key l address keyByte check =>
    refine idle ?_
    rw [hs.replyTaken]
  | idle l address check =>
    refine idle ?_
    rw [hs.replyTaken]
  | pollReplyWindow l =>
    refine idle ?_
    rw [hs.pollWindowOver]
  | terminalPollTimer t => exact .busOnly_ite (by rw [hs.linesWork]; rfl) (.refl s)
  | pageLoadComplete t w =>
    refine .trans (stored w) (.of_eq ?_)
    rw [(hw w).term]
    rfl
  | notice w => exact .busOnly_ite (hw w).linesWork (stored w)
  | keyEntryRead t w =>
    refine .trans (stored w) (.of_eq ?_)
    rw [(hw w).term]
    rfl

end Sys2Proof.Machine
end

section
/-! PROOF. Every step keeps idle blocks at reset, the session sound and the interrupt groups settled (R63, R65, R68, R71 to R74, R162,
R166, R178, R188): the resets, AREA BASE, START and its completion, and the step that keeps all three. -/

namespace Sys2Proof.Machine

/-- The three invariants together. -/
structure State.Kept (s : State) : Prop where
  idle : s.IdleBeforeStart
  session : s.session.Sound
  groups : s.bus.GroupsSound

/-! ## The groups through a change of the controller state -/

/-- After a reset no group is marked. -/
theorem Bus.groupsSound_resetAll {b : Bus} (h : b.groups = Group.resetAll) : b.GroupsSound := by
  have hmark : ∀ i, (Bank.get Group.resetAll i).marked = false := by decide
  have hidle : ∀ i, (Bank.get Group.resetAll i).state = .idle := by decide
  refine ⟨(Bus.groupsSettled_iff b).2 fun i => ?_, fun i => ?_⟩ <;> rw [h]
  · simp [hmark]
  · simp [hidle]

/-- From one controller state to another, neither of them UNSET, the groups still agree with R188. -/
theorem Bus.GroupsSound.setPhase {b : Bus} (h : b.GroupsSound) {p : Phase} (hb : b.phase ≠ .unset) (hp : p ≠ .unset) :
    ({ b with phase := p } : Bus).GroupsSound := by
  unfold Bus.GroupsSound Bus.groupsSettled Bus.mayRequest at h ⊢
  simpa [hb, hp] using h

/-- From UNSET, or any other controller state, to one that is not UNSET, with R188 applied. -/
theorem Bus.GroupsSound.settlePhase {b : Bus} (h : b.GroupsSound) {p : Phase} (a : Option (BitVec 7)) (hp : p ≠ .unset) :
    (Bus.settle { b with phase := p, area := a }).GroupsSound :=
  Bus.groupsSound_settle fun i hr => by
    obtain ⟨hmark, hmay⟩ := h.2 i hr
    unfold Bus.mayRequest at hmay ⊢
    exact ⟨hmark, by simpa [hp] using (Bool.and_eq_true _ _ |>.mp hmay).1⟩

/-! ## Blocks at reset -/

theorem SessionUnit.sound_reset : SessionUnit.reset.Sound := by simp [SessionUnit.Sound, SessionUnit.reset]

theorem State.IdleBeforeStart.atRest {s : State} (h : s.IdleBeforeStart) (hp : s.bus.phase = .unset ∨ s.bus.phase = .ready) :
    s.AtRest := by
  obtain ⟨h1, h2, h3, h4, h5, h6, h7, h8, h9⟩ := h.2.2 hp
  exact ⟨⟨h1, h2, h3, h4, h5, h6, h7, h8, h9⟩, hp⟩

/-- A part with every block at reset, with the area set just in the controller states after UNSET. -/
theorem State.AtReset.kept {s : State} (h : s.AtReset) (ha : s.bus.area.isSome = true ↔ s.bus.phase ≠ .unset)
    (hg : s.bus.GroupsSound) : s.Kept where
  idle := by
    refine ⟨ha, fun _ => ?_, fun _ =>
      ⟨h.intake, h.store, h.session, h.fmt, h.lines, h.tapes, h.tlines, h.terms, h.notices⟩⟩
    rw [h.session, h.intake]
    exact ⟨rfl, rfl, rfl, rfl, rfl⟩
  session := by rw [h.session]; exact SessionUnit.sound_reset
  groups := hg

theorem State.resetWith_atReset (s : State) (b : Bus) : (s.resetWith b).AtReset := ⟨rfl, rfl, rfl, rfl, rfl, rfl, rfl, rfl, rfl⟩

namespace State.Kept

variable {s t : State}

/-- A steady step, of a part that moves nothing but its bus interface where it is at rest. -/
theorem steady (h : s.Kept) (hst : Steady s t) (hrest : s.AtRest → BusOnly s t) : t.Kept where
  idle := by
    obtain ⟨harea, hout, -⟩ := h.idle
    refine ⟨by rw [hst.bus.area, hst.bus.phase]; exact harea, fun hs => ?_, fun hp => ?_⟩
    · have hs' : s.inService = false := hst.bus.inService.symm.trans hs
      obtain ⟨hn, ht, hstage, hi, ho⟩ := hout hs'
      obtain ⟨esession, estate, eowed⟩ := hst.waits hs' hi
      rw [esession]
      exact ⟨hn, ht, hstage, estate, eowed.trans ho⟩
    · rw [hst.bus.phase] at hp
      have hr := h.idle.atRest hp
      have hz := (hrest hr).atReset hr.toAtReset
      exact ⟨hz.intake, hz.store, hz.session, hz.fmt, hz.lines, hz.tapes, hz.tlines, hz.terms, hz.notices⟩
  session := hst.session h.session
  groups := hst.bus.groups h.groups

/-- A change of the bus interface that keeps controller state, area and groups. -/
theorem withBus (h : s.Kept) {b : Bus} (hb : s.bus.Keeps b) : (s.withBus b).Kept :=
  h.steady (Calm.withBus hb).steady fun _ => .withBus s b

theorem hostWrites (h : s.Kept) (w : List HostWrite) : (s.hostWrites w).Kept := h.withBus (.hostWrites w _)

theorem hardReset (s : State) (source : ResetSource) : (s.resetWith (s.bus.hardReset source)).Kept :=
  (s.resetWith_atReset _).kept ⟨fun h => Bool.noConfusion h, fun h => absurd rfl h⟩ (Bus.groupsSound_resetAll rfl)

theorem softReset (h : s.Kept) (hs : s.inService = true) : (s.resetWith s.bus.softReset).Kept := by
  have hrun : s.bus.phase ≠ .unset := by
    intro e
    rw [State.inService, e] at hs
    exact Bool.noConfusion hs
  exact (s.resetWith_atReset _).kept ⟨fun _ e => Phase.noConfusion e, fun _ => h.idle.1.2 hrun⟩
    (Bus.groupsSound_resetAll rfl)

theorem areaBase (h : s.Kept) (w : Word) :
    (s.withBus (if s.bus.area.isSome then s.bus.setError .commandRefused else s.bus.setArea w)).Kept := by
  split
  · exact h.withBus (.setError ..)
  · next ha =>
    have hunset : s.bus.phase = .unset := by
      by_contra hp
      exact ha (h.idle.1.2 hp)
    have hz := (BusOnly.withBus s (s.bus.setArea w)).atReset (h.idle.atRest (.inl hunset)).toAtReset
    exact hz.kept ⟨fun _ e => Phase.noConfusion e, fun _ => rfl⟩ (h.groups.settlePhase _ nofun)

/-! ## START (R166, R168) -/

/-- START goes on after validation. -/
theorem startOn (hz : s.AtReset) (hp : s.bus.phase = .checking) (ha : s.bus.area.isSome = true) (hg : s.bus.GroupsSound)
    (ws : List Word) : (s.startOn ws).Kept := by
  have hc : Calm ((s.withBus (s.bus.writeInitial (paramsOf ws))).loadAnchor ws) (s.startOn ws) := .beginLine _ _
  have hi : s.bus.Keeps (s.startOn ws).bus := (Bus.Keeps.writeInitial _ _).trans hc.bus
  have hphase : (s.startOn ws).bus.phase = .checking := hi.phase.trans hp
  have hsession : (s.startOn ws).session = { SessionUnit.reset with state := (sessionOf (anchorAt ws 12)).getD .closed } := by
    rw [hc.session, ← hz.session]
    rfl
  have hintake : (s.startOn ws).intake = { Intake.reset with lastSeq := none, postingsTaken := 0 } := by
    rw [hc.intake, ← hz.intake]
    rfl
  refine ⟨⟨?_, fun _ => ?_, fun hn => ?_⟩, ?_, hi.groups hg⟩
  · rw [hi.area, hphase]
    exact ⟨fun _ e => Phase.noConfusion e, fun _ => ha⟩
  · rw [hsession, hintake]
    exact ⟨rfl, rfl, rfl, rfl, rfl⟩
  · rw [hphase] at hn
    exact absurd hn (by decide)
  · rw [hsession]
    simp [SessionUnit.Sound, SessionUnit.reset]

/-- START fails: READY again, with every block as it was. -/
theorem startFailed (hz : s.AtReset) (hp : s.bus.phase = .checking) (ha : s.bus.area.isSome = true)
    (hg : s.bus.GroupsSound) : s.startFailed.Kept := by
  have hr : s.startFailed.AtReset :=
    ⟨by show { s.intake with nudged := false } = _; rw [hz.intake]; rfl, hz.store, hz.session, hz.fmt, hz.lines, hz.tapes,
      hz.tlines, hz.terms, hz.notices⟩
  exact hr.kept ⟨fun _ e => Phase.noConfusion e, fun _ => ha⟩ (hg.setPhase (hp ▸ nofun) nofun)

theorem start (h : s.Kept) (hp : s.bus.phase = .ready) : s.start.Kept := by
  have hr := (h.idle.atRest (.inr hp)).toAtReset
  have ha : s.bus.area.isSome = true := h.idle.1.2 (hp ▸ nofun)
  have hg : ({ s.bus.acceptCommand with phase := .checking } : Bus).GroupsSound :=
    ((Bus.Keeps.acceptCommand s.bus).groups h.groups).setPhase (hp ▸ nofun) nofun
  have hv := Bus.Keeps.validate { s.bus.acceptCommand with phase := .checking }
  have hz : ∀ b, (s.withBus b).AtReset := fun b => (BusOnly.withBus s b).atReset hr
  unfold State.start
  split <;> rename_i e <;> have hb := hv.fst e
  · exact startOn (hz _) hb.phase ((congrArg Option.isSome hb.area).trans ha) (hb.groups hg) _
  · exact startFailed (hz _) hb.phase ((congrArg Option.isSome hb.area).trans ha) (hb.groups hg)

/-! ## START's completion (R168) -/

/-- The session unit as START's completion leaves it, from one that has not moved since START. -/
theorem startSession_sound (h : s.session.Sound) (hn : s.session.night = false) (ht : s.session.nightTimer = none) :
    s.startSession.Sound := by
  obtain ⟨-, -, hstage, hdelay⟩ := h
  refine ⟨fun e => ?_, fun e => ?_, hstage, hdelay⟩
  · have hd : s.startsDark = true := by simpa [State.startSession, hn] using e
    refine ⟨?_, by simp [State.startSession, hd]⟩
    simp only [State.startsDark, Bool.and_eq_true, decide_eq_true_eq] at hd
    exact hd.1
  · by_contra hc
    have hc' : s.session.state ≠ .closed := hc
    simp [State.startSession, hc', ht] at e

theorem entered (h : s.Kept) (hp : s.bus.phase = .checking) : s.entered.Kept := by
  have hs : s.inService = false := by unfold State.inService; rw [hp]; rfl
  obtain ⟨hn, ht, -⟩ := h.idle.2.1 hs
  refine ⟨⟨?_, fun e => Bool.noConfusion e, fun e => absurd e (by simp [State.entered, Bus.settle])⟩,
    startSession_sound h.session hn ht, h.groups.settlePhase _ nofun⟩
  exact ⟨fun _ e => Phase.noConfusion e, fun _ => h.idle.1.2 (hp ▸ nofun)⟩

theorem calm_writeStartDone (s : State) : Calm s s.writeStartDone := by
  unfold State.writeStartDone
  have h : ∀ f, Calm s (s.modifyUnit f) := fun _ => .same rfl rfl rfl
  exact (h _).trans (UnitWorks.runUnit _).calm

theorem startDone (h : s.Kept) (hs : s.startReady = true) : s.writeStartDone.completeStart.Kept := by
  have hp : s.bus.phase = .checking := by
    simp only [State.startReady, Bool.and_eq_true, decide_eq_true_eq] at hs
    exact hs.1.1.1.1
  have hc := calm_writeStartDone s
  have hphase : s.writeStartDone.bus.phase = .checking := hc.bus.phase.trans hp
  have hw : s.writeStartDone.Kept := h.steady hc.steady fun hr =>
    absurd (hr.startReady.symm.trans hs) Bool.noConfusion
  have he := hw.entered hphase
  have hin : s.writeStartDone.entered.inService = true := rfl
  rw [State.completeStart_eq]
  split
  · exact he.steady ((IntakeActs.look _).serves.steady hin) fun hr => absurd (hr.inService.symm.trans hin) Bool.noConfusion
  · exact he

/-! ## Every step -/

/-- Every command keeps the three invariants. -/
theorem ensures_exec (h : s.Kept) (c : Instr) : Ensures State.Kept (exec c s) := by
  by_cases hc : movesController c = false
  · have hst := ensures_steady hc s
    have hbus := fun hr : s.AtRest => ensures_busOnly hc hr
    revert hst hbus
    cases exec c s with
    | next t => exact fun hst hbus => h.steady hst hbus
    | fault e => exact fun _ _ => trivial
    | refused e => exact fun _ _ => trivial
  · cases c with
    | powerOnReset => exact hardReset s .power
    | pinReset => exact hardReset s .pin
    | softReset =>
      show State.Kept (if s.inService then s.resetWith s.bus.softReset else s.refuse)
      split
      · next hs => exact h.softReset hs
      · exact h.withBus (.refuseCommand _)
    | areaBase w => exact h.areaBase w
    | start w =>
      have hw := h.hostWrites w
      show State.Kept (if (s.hostWrites w).bus.phase = .ready then (s.hostWrites w).start else (s.hostWrites w).refuse)
      split
      · next hp => exact hw.start hp
      · exact hw.withBus (.refuseCommand _)
    | startDone w =>
      have hw := h.hostWrites w
      show State.Kept (if (s.hostWrites w).startReady then (s.hostWrites w).writeStartDone.completeStart else s.hostWrites w)
      split
      · next hs => exact hw.startDone hs
      · exact hw
    | _ => exact absurd rfl hc

/-- A millisecond starts and stops no timer. -/
theorem session_tick {x : SessionUnit} (h : x.Sound) : x.tick.Sound := by
  obtain ⟨hnight, htimer, hstage, hdelay⟩ := h
  refine ⟨fun e => ⟨(hnight e).1, ?_⟩, fun e => htimer ?_, hstage, hdelay⟩
  · simp [SessionUnit.tick, (hnight e).2, tickTimer]
  · simpa [SessionUnit.tick, tickTimer] using e

/-- One millisecond moves the session unit in service alone. -/
theorem tickMs (h : s.Kept) : s.tickMs.Kept := by
  obtain ⟨harea, hout, hreset⟩ := h.idle
  unfold State.tickMs
  dsimp only
  split
  · next hs =>
    have hp : s.bus.phase = .running := by simpa [State.inService] using hs
    exact ⟨⟨harea, fun e => absurd (hs.symm.trans e) Bool.noConfusion, fun e => absurd (hp ▸ e) (by decide)⟩,
      session_tick h.session, h.groups⟩
  · exact ⟨⟨harea, hout, hreset⟩, h.session, h.groups⟩

theorem ensures_step (h : s.Kept) : Ensures State.Kept (step s) := by
  unfold step
  split
  · next c rest _ =>
    have hq : (s.withPending rest).Kept := ⟨h.idle, h.session, h.groups⟩
    exact hq.ensures_exec c
  · unfold State.idle
    split
    · exact h.ensures_exec _
    · exact h.tickMs

end State.Kept

/-- Settles O57: every command but the resets, AREA BASE and START keeps controller state, area and the blocks of a part that is not yet
started; those are gone through one by one, and so is a millisecond of the clock. -/
theorem blocksSessionAndGroupsKept : Obligations.BlocksSessionAndGroupsKept := fun s _ hi hs hg e =>
  have h : State.Kept _ := (State.Kept.ensures_step ⟨hi, hs, hg⟩ : Ensures _ (step s)).next e
  ⟨h.idle, h.session, h.groups⟩

end Sys2Proof.Machine
end

section
/-! PROOF. The session unit's own steps (R63, R68 to R73): when each is due, what it leaves, and the part's own millisecond. -/

namespace Sys2Proof.Machine

/-! ## When each is due -/

theorem State.timeDue_iff (s : State) {now : Tod} (h : s.session.tod = some now) :
    s.timeDue = true ↔ s.inService = true ∧ 100 ≤ s.session.fraction := by
  simp [State.timeDue, h]

theorem State.nightDue_of_none {s : State} (h : s.session.nightTimer = none) : s.nightDue = false := by
  unfold State.nightDue
  rw [h, Bool.and_false]

theorem State.nightDue_of_some {s : State} {ms : Nat} (h : s.session.nightTimer = some ms) : s.nightDue =
    (s.inService && decide (s.session.state = .closed) && !s.session.night &&
      decide (s.params.nightDelay * Config.minuteMs ≤ ms)) := by
  unfold State.nightDue
  rw [h]

theorem State.nightDue_iff (s : State) : s.nightDue = true ↔ s.inService = true ∧ s.session.state = .closed ∧
    s.session.night = false ∧ s.session.nightTimer.any (fun ms => s.params.nightDelay * 60000 ≤ ms) = true := by
  have hm : Config.minuteMs = 60000 := rfl
  cases ht : s.session.nightTimer with
  | none => simp [State.nightDue_of_none ht]
  | some ms =>
    rw [State.nightDue_of_some ht, Option.any_some, hm]
    simp only [Bool.and_eq_true, decide_eq_true_eq, Bool.not_eq_true', and_assoc]

/-- The feed timer has reached a threshold in a watched session (R71). -/
theorem State.feedReached_eq (s : State) (seconds : Nat) : s.feedReached seconds =
    (s.inService && s.session.state.watched && s.session.feedTimer.any fun ms => decide (seconds * 1000 ≤ ms)) := by
  unfold State.feedReached
  cases s.session.feedTimer <;> rfl

theorem SessionState.watched_eq (st : SessionState) :
    st.watched = (decide (st = .opened) || decide (st = .marketHalt)) := by
  cases st <;> rfl

theorem State.quietDue_iff (s : State) : s.quietDue = true ↔ s.inService = true ∧
    (decide (s.session.state = .opened) || decide (s.session.state = .marketHalt)) = true ∧ s.session.stage = .live ∧
      (s.session.feedTimer.any fun ms => decide (s.params.t1 * 1000 ≤ ms)) = true := by
  rw [State.quietDue, State.feedReached_eq, SessionState.watched_eq]
  simp only [Bool.and_eq_true, decide_eq_true_eq]
  tauto

theorem State.lostDue_iff (s : State) : s.lostDue = true ↔ s.inService = true ∧
    (decide (s.session.state = .opened) || decide (s.session.state = .marketHalt)) = true ∧ s.session.stage = .quiet ∧
      (s.session.feedTimer.any fun ms => decide (s.params.t2 * 1000 ≤ ms)) = true := by
  rw [State.lostDue, State.feedReached_eq, SessionState.watched_eq]
  simp only [Bool.and_eq_true, decide_eq_true_eq]
  tauto

/-! ## The feed watch (R72, R73) -/

@[simp] theorem get_withWatchTexts (v : Vector Tape 2) (as : List Arrival) (i : Fin 2) :
    Bank.get (withWatchTexts v as) i = { Bank.get v i with watchInbox := (Bank.get v i).watchInbox ++ as } :=
  Bank.get_mapAll _ _ _

theorem delayedText_eq : delayedText = chars "QUOTES DELAYED".toList := by decide

/-- Settles O18: both stages go on exactly when they are due, each by its one change of the blocks. -/
theorem feedGoesQuietAndLost : Obligations.FeedGoesQuietAndLost := by
  intro s
  dsimp only
  refine ⟨?_, ?_⟩
  · split
    · next hd =>
      refine ⟨s.becomeQuiet, congrArg Host.Outcome.next (if_pos ((s.quietDue_iff).2 hd)), ?_, fun k => ?_⟩ <;>
        rw [State.becomeQuiet_eq]
      exact get_withEvents _ _ _
    · next hd => exact congrArg Host.Outcome.next (if_neg (mt (s.quietDue_iff).1 hd))
  · split
    · next hd =>
      refine ⟨s.becomeLost, congrArg Host.Outcome.next (if_pos ((s.lostDue_iff).2 hd)), ?_, fun d => ?_, fun k => ?_⟩ <;>
        rw [State.becomeLost_eq]
      · rw [← delayedText_eq]
        exact get_withWatchTexts _ _ _
      · exact get_withEvents _ _ _
    · next hd => exact congrArg Host.Outcome.next (if_neg (mt (s.lostDue_iff).1 hd))

/-! ## The clock and the night timer (R63, R68, R70) -/

theorem nextTod_val (t : Tod) : (nextTod t).val = (t.val + 1) % 864000 := by
  unfold nextTod
  split
  · next h => exact (Nat.mod_eq_of_lt h).symm
  · have ht : t.val + 1 = 864000 := by omega
    rw [ht]
    rfl

@[simp] theorem get_withNights (v : Vector BoardLine 4) (ns : List Bool) (n : Fin 4) :
    Bank.get (withNights v ns) n = { Bank.get v n with nights := (Bank.get v n).nights ++ ns } :=
  Bank.get_mapAll _ _ _

/-- One millisecond of the part's clock (R63, R68, R70, R71). -/
theorem State.tickMs_eq (s : State) : s.tickMs = { s with
    now := s.now + 1
    session := if s.inService = true then { s.session with
        fraction := s.session.fraction + (if s.session.tod.isSome then 1 else 0)
        nightTimer := s.session.nightTimer.map (· + 1)
        feedTimer := s.session.feedTimer.map (· + 1) }
      else s.session } := by
  have hf : s.session.tick.fraction = s.session.fraction + if s.session.tod.isSome then 1 else 0 := by
    unfold SessionUnit.tick
    dsimp only
    split <;> rfl
  unfold State.tickMs
  dsimp only
  split
  · rw [← hf]
    rfl
  · rfl

/-- While none of its steps is due, the session unit has none to take. -/
theorem State.sessionDue_of_due {s : State} (h : s.due = none) : s.sessionDue = none := by
  by_cases hw : s.linesWork = true
  · unfold State.due at h
    rw [if_pos hw] at h
    simp only [Option.orElse_eq_orElse, Option.orElse_eq_or, Option.or_eq_none_iff] at h
    tauto
  · have hs : s.inService = false := by
      cases hi : s.inService with
      | false => rfl
      | true => exact absurd (by simpa [State.linesWork, State.inService] using .inr (of_decide_eq_true hi)) hw
    simp [State.sessionDue, State.timeDue_off hs, State.nightDue_off hs, State.quietDue_off hs, State.lostDue_off hs]

/-- A session unit with no step to take has no timer due. -/
theorem State.sessionDue_eq_none_iff (s : State) : s.sessionDue = none ↔
    s.timeDue = false ∧ s.nightDue = false ∧ s.quietDue = false ∧ s.lostDue = false := by
  unfold State.sessionDue
  cases s.timeDue <;> cases s.nightDue <;> cases s.quietDue <;> cases s.lostDue <;> simp

/-- With no step of the part due, no step of the session unit does anything. -/
theorem exec_session_of_due {s : State} (h : s.due = none) {c : Instr}
    (hc : c ∈ [Instr.timeOfDayAdvance, .nightTimer, .feedQuiet, .feedLost]) : exec c s = .next s := by
  obtain ⟨ht, hn, hq, hl⟩ := s.sessionDue_eq_none_iff.1 (State.sessionDue_of_due h)
  have off {b : Bool} {t : State} (hb : b = false) : (.next (if b then t else s) : Result) = .next s := by rw [hb]; rfl
  simp only [List.mem_cons, List.not_mem_nil, or_false] at hc
  rcases hc with rfl | rfl | rfl | rfl
  · exact off ht
  · exact off hn
  · exact off hq
  · exact off hl

theorem step_of_idle {s : State} (h : s.pending = []) : step s = s.idle := by
  unfold step; rw [h]

/-- Settles O17: with no command waiting a step is the part's own; and each step of the session unit is its one change of the blocks
exactly when it is due. -/
theorem clockAndNightTimer : Obligations.ClockAndNightTimer := by
  intro s
  refine ⟨fun hp => ⟨fun c hd => ?_, fun hd => ⟨fun c hc => exec_session_of_due hd hc, ?_⟩⟩, ?_, ?_⟩
  · rw [step_of_idle hp, State.idle, hd]
  · rw [step_of_idle hp, State.idle, hd]
    exact congrArg Host.Outcome.next s.tickMs_eq
  · split
    · next ht => exact congrArg Host.Outcome.next (if_neg (by simp [State.timeDue, ht]))
    · next now ht =>
      split
      · next hd =>
        refine ⟨s.advanceTime, nextTod now, congrArg Host.Outcome.next (if_pos ((s.timeDue_iff ht).2 hd)), nextTod_val now,
          ?_, fun k => ?_⟩ <;> rw [State.advanceTime_eq s ht]
        exact get_withEvents _ _ _
      · next hd => exact congrArg Host.Outcome.next (if_neg (mt (s.timeDue_iff ht).1 hd))
  · split
    · next hd =>
      refine ⟨s.setNight, congrArg Host.Outcome.next (if_pos (s.nightDue_iff.2 hd)), ?_, fun n => ?_, fun k => ?_⟩ <;>
        rw [State.setNight_eq]
      · exact get_withNights _ _ _
      · exact get_withEvents _ _ _
    · next hd => exact congrArg Host.Outcome.next (if_neg (mt s.nightDue_iff.1 hd))

end Sys2Proof.Machine
end

section
/-! PROOF. START DONE and what START's completion leaves (R64, R68, R69, R94, R111, R132, R143, R168, R174, R181). -/

namespace Sys2Proof.Machine

/-! ## The notices held for START DONE (R94, R111, R143) -/

/-- The sixteen terminals, by line and address. -/
theorem terminals_eq : List.finRange 16 = (List.finRange 2).flatMap fun l => (List.finRange 8).map (terminalOf l) := by
  decide

theorem State.heldNotices_eq (s : State) : s.heldNotices =
    s.fmt.held ++ (List.finRange 4).flatMap (fun n => (s.line n).held)
      ++ (List.finRange 2).flatMap fun l => (List.finRange 8).flatMap fun a =>
          (((s.tlines.toList.flatMap TermLine.held).filter fun u => u = terminalOf l a).map NoticeBody.terminalOnline) := by
  unfold State.heldNotices
  rw [Bank.flatMap_toList, terminals_eq, List.flatMap_assoc]
  simp only [List.flatMap_map]
  rfl

/-! ## What START DONE says (R179) -/

theorem State.modulesLive_eq (s : State) : s.modulesLive = ((List.finRange 4).map fun n => (List.finRange 32).countP fun m =>
    ((s.line n).module m).present && (s.line n |>.module m).state = .live).sum := by
  unfold State.modulesLive
  rw [Bank.toList_eq, List.foldl_map, List.sum_eq_foldl, List.foldl_map]
  simp only [Bank.toList_eq, List.countP_map]
  rfl

theorem State.terminalsOnline_eq (s : State) :
    s.terminalsOnline = (List.finRange 16).countP fun k => (s.term k).state = .online := by
  unfold State.terminalsOnline
  rw [Bank.toList_eq, List.countP_map]
  rfl

/-! ## START DONE on a bus that completes every access (R181, R183) -/

@[simp] theorem Bus.writeAll_quiet {b : Bus} (h : b.script = []) (ws : List (Word × Word)) :
    b.writeAll ws = (b.pokes ws, true) := by
  induction ws generalizing b with
  | nil => rfl
  | cons e ws ih =>
    unfold Bus.writeAll
    rw [Bus.write_quiet h]
    exact ih h

@[simp] theorem Bus.pokes_script (b : Bus) (ws : List (Word × Word)) : (b.pokes ws).script = b.script :=
  List.foldlRecOn ws (fun b e => b.poke e.1 e.2) (motive := fun c : Bus => c.script = b.script) rfl fun _ h _ _ => h

theorem Bus.pokes_append (b : Bus) (ws vs : List (Word × Word)) : b.pokes (ws ++ vs) = (b.pokes ws).pokes vs :=
  List.foldl_append

/-- The unit goes on from one step of its work to the next. -/
theorem State.work_of_next {s t : State} {x : InHand} (h : s.notices.inHand = some x) (hw : s.workOn x = (t, true)) (f : Nat) :
    s.work (f + 1) = t.work f := by
  rw [State.work, h]
  dsimp only
  rw [hw]

/-- The unit ends its work. -/
theorem State.work_of_end {s t : State} {x : InHand} (h : s.notices.inHand = some x) (hw : s.workOn x = (t, false)) (f : Nat) :
    s.work (f + 1) = t := by
  rw [State.work, h]
  dsimp only
  rw [hw]

/-- START DONE as the state has it. -/
def State.startNotice (s : State) : NoticeBody := .startDone s.bus.resetSource s.modulesLive s.terminalsOnline

/-- The words written for START DONE: the bit of its cell, the cell, and NOTICE COUNT (R181, R183). -/
def State.startWrites (s : State) : List (Word × Word) :=
  [(s.params.bitmapWord s.params.noticeStart, setCell s.params.noticeStart (s.bus.peek (s.params.bitmapWord s.params.noticeStart)))]
    ++ cellWrites s.params s.params.noticeStart (s.notices.count + 1) s.startNotice s.session.tod 0
    ++ [(51, s.notices.count + 1)]

/-- The claim of START DONE takes the NOTICE START cell (R181). -/
theorem State.claimStart_quiet {s : State} (hq : s.bus.script = []) (x : InHand) : s.claimStart x =
    ((s.withBus (s.bus.poke (s.params.bitmapWord s.params.noticeStart)
      (setCell s.params.noticeStart (s.bus.peek (s.params.bitmapWord s.params.noticeStart))))).setHand
        { x with cells := [s.params.noticeStart] }, true) := by
  unfold State.claimStart
  rw [Bus.cycle_quiet hq]

/-- START DONE is linked with its state word (R181, R183). -/
theorem State.writeCell_quiet {s : State} (hq : s.bus.script = []) {body : NoticeBody} (hb : body.isStartDone = true)
    (x : InHand) (c : Nat) : s.writeCell x body c =
      ((s.withBus (s.bus.pokes (cellWrites s.params c (s.notices.count + 1) body x.item.time x.item.repeats))).linkedFirst
        x body c, true) := by
  unfold State.writeCell
  rw [Bus.writeAll_quiet hq]
  dsimp only
  rw [if_pos hb]

theorem State.linkedFirst_quiet {s : State} (hq : s.bus.script = []) (x : InHand) (body : NoticeBody) (c : Nat) :
    s.linkedFirst x body c = { s with
      bus := (s.bus.poke 51 (s.notices.count + 1)).markGroup body.group
      notices := { s.notices with
        tail := some c, search := some c, count := s.notices.count + 1
        inHand := some ⟨{ x.item with parts := x.item.parts.tail }, x.cells.tail, false⟩ } } := by
  unfold State.linkedFirst State.linked
  dsimp only
  rw [Bus.writeStatus_quiet (by exact hq)]
  rfl

/-- The unit claims the cell of START DONE. -/
theorem State.work_claimStart {s : State} (hq : s.bus.script = []) {x : Item} {body : NoticeBody}
    (hx : s.notices.inHand = some ⟨x, [], false⟩) (hp : x.parts = [body]) (hb : body.isStartDone = true) (f : Nat) :
    s.work (f + 1) = State.work f { s with
      bus := s.bus.poke (s.params.bitmapWord s.params.noticeStart)
        (setCell s.params.noticeStart (s.bus.peek (s.params.bitmapWord s.params.noticeStart)))
      notices := { s.notices with inHand := some ⟨x, [s.params.noticeStart], false⟩ } } := by
  refine State.work_of_next hx ?_ f
  unfold State.workOn
  rw [hp]
  dsimp only [List.length_nil, List.length_singleton]
  rw [if_pos (by decide), if_pos hb, State.claimStart_quiet hq]
  rfl

/-- The unit writes START DONE into its cell, links and counts it. -/
theorem State.work_writeStart {s : State} (hq : s.bus.script = []) {x : Item} {body : NoticeBody} {c : Nat}
    (hx : s.notices.inHand = some ⟨x, [c], false⟩) (hp : x.parts = [body]) (hb : body.isStartDone = true) (f : Nat) :
    s.work (f + 1) = State.work f { s with
      bus := ((s.bus.pokes (cellWrites s.params c (s.notices.count + 1) body x.time x.repeats)).poke 51
        (s.notices.count + 1)).markGroup body.group
      notices := { s.notices with
        tail := some c, search := some c, count := s.notices.count + 1, inHand := some ⟨{ x with parts := [] }, [], false⟩ } } := by
  refine State.work_of_next hx ?_ f
  unfold State.workOn
  rw [hp]
  dsimp only [List.length_singleton]
  rw [if_neg (by decide), if_neg (by decide), State.writeCell_quiet hq hb,
    State.linkedFirst_quiet (by exact (Bus.pokes_script _ _).trans hq)]
  dsimp only
  rw [hp]
  rfl

/-- With nothing more to write and nothing held, the unit is IDLE. -/
theorem State.work_end {s : State} {x : Item} (hx : s.notices.inHand = some ⟨x, [], false⟩) (hp : x.parts = [])
    (hh : s.notices.holding = []) (f : Nat) :
    s.work (f + 1) = { s with notices := { s.notices with inHand := none, unit := .idle } } := by
  refine State.work_of_end hx ?_ f
  unfold State.workOn State.nextItem
  rw [hp, hh]
  rfl

/-- The notice unit begins START DONE (R180). -/
def State.startWriting (s : State) : State := { s with
  notices := { s.notices with
    unit := .writing, startDone := true, inHand := some ⟨⟨[s.startNotice], s.session.tod, 0⟩, [], false⟩ } }

theorem State.writeStartDone_eq {s : State} (hq : s.bus.script = []) (hh : s.notices.holding = []) :
    s.writeStartDone = s.startWriting.work 32 := by
  have hf : 8 * (s.notices.holding.length + s.bus.script.length + 4) = 32 := by rw [hq, hh]; rfl
  rw [← hf]
  rfl

/-- START DONE in its cell, linked and counted (R181, R183). -/
theorem State.writeStartDone_quiet {s : State} (hq : s.bus.script = []) (hh : s.notices.holding = []) :
    s.writeStartDone = { s with
      bus := (s.bus.pokes s.startWrites).markGroup .system
      notices := { s.notices with
        unit := .idle, inHand := none, startDone := true, tail := some s.params.noticeStart
        search := some s.params.noticeStart, count := s.notices.count + 1 } } := by
  rw [State.writeStartDone_eq hq hh, State.work_claimStart (by exact hq) rfl rfl rfl,
    State.work_writeStart (by exact hq) rfl rfl rfl, State.work_end rfl rfl (by exact hh)]
  unfold State.startWrites
  rw [Bus.pokes_append, Bus.pokes_append]
  rfl

/-! ## START's completion over any bus (R168) -/

/-- START's completion: START DONE taken in hand and written, and then the part in service. -/
def State.started (s : State) : State := s.writeStartDone.completeStart

/-- The notice unit alone has worked on START DONE, which it has taken in hand. -/
theorem State.writeStartDone_works (s : State) :
    s.writeStartDone = { s with bus := s.writeStartDone.bus, notices := s.writeStartDone.notices } ∧
      s.writeStartDone.notices.inbox = s.notices.inbox ∧ s.writeStartDone.notices.startDone = true := by
  unfold State.writeStartDone
  generalize hv : State.modifyUnit s _ = v
  have h := UnitWorks.runUnit v
  refine ⟨h.rest.trans ?_, h.inbox.trans ?_, h.startDone.trans ?_⟩ <;> rw [← hv] <;> rfl

/-- The part in service, with the bus interface and the notice unit as START DONE has left them. -/
def State.enteredWith (s : State) (b : Bus) (n : NoticeUnit) : State :=
  { s.entered with
    bus := Bus.settle { b with phase := .running }
    notices := { n with inbox := n.inbox ++ s.items s.heldNotices } }

theorem State.entered_writeStartDone (s : State) :
    s.writeStartDone.entered = s.enteredWith s.writeStartDone.bus s.writeStartDone.notices := by
  obtain ⟨h, -⟩ := s.writeStartDone_works
  generalize s.writeStartDone = u at h
  generalize u.bus = b, u.notices = n at h
  rw [h]
  rfl

/-- Where no NUDGE is remembered, no look follows (R174). -/
theorem State.started_eq {s : State} (h : s.intake.nudged = false) :
    s.started = s.enteredWith s.writeStartDone.bus s.writeStartDone.notices := by
  have hi : s.writeStartDone.intake.nudged = s.intake.nudged := by rw [s.writeStartDone_works.1]
  rw [State.started, State.completeStart_eq, hi, h, State.entered_writeStartDone]
  rfl

/-- The look of a remembered NUDGE, or nothing, follows (R174). -/
theorem State.started_acts (s : State) :
    IntakeActs (s.enteredWith s.writeStartDone.bus s.writeStartDone.notices) s.started := by
  rw [State.started, State.completeStart_eq, State.entered_writeStartDone]
  split
  · exact .look _
  · exact .refl _

theorem State.started_rest (s : State) : s.started = { s with
    bus := s.started.bus, intake := s.started.intake, session := s.startSession, fmt := { s.fmt with held := [] }
    lines := s.entered.lines, tapes := s.entered.tapes, tlines := s.entered.tlines, terms := s.entered.terms
    notices := s.started.notices } := by
  have h := s.started_acts.rest
  have hn : s.started.notices = { s.writeStartDone.notices with inbox := s.started.notices.inbox } := by
    conv_lhs => rw [h]
    rfl
  rw [hn]
  exact h

end Sys2Proof.Machine
end

section
/-! PROOF. START DONE brings the part into service (R64, R68, R69, R94, R111, R132, R143, R168, R174, R181). -/

namespace Sys2Proof.Machine

theorem exec_startDone (h : List HostWrite) (s : State) :
    exec (.startDone h) s = .next (if (s.hostWrites h).startReady then (s.hostWrites h).started else s.hostWrites h) := rfl

/-! ## What the completion leaves, block by block -/

namespace State

variable (s : State)

theorem started_phase : s.started.bus.phase = .running := s.started_acts.bus.phase

theorem started_startDone : s.started.notices.startDone = true := by
  rw [s.started_acts.rest]
  exact s.writeStartDone_works.2.2

theorem started_session : s.started.session = s.startSession := by rw [s.started_rest]

theorem started_feedTick : s.started.intake.feedTick = some (s.now + s.params.feedPoll) := s.started_acts.feedTick

theorem started_nudged : s.started.intake.nudged = false := s.started_acts.nudged

theorem started_intake {s : State} (h : s.intake.nudged = false) : s.started.intake = { s.intake with
    state := .waiting, current := some s.params.postingStart, taken := false
    feedTick := some (s.now + s.params.feedPoll) } := by
  have hi : { s.intake with nudged := false } = s.intake := by rw [← h]
  rw [started_eq h]
  exact congrArg (fun x : Intake => { x with
    state := .waiting, current := some s.params.postingStart, taken := false
    feedTick := some (s.now + s.params.feedPoll) }) hi

theorem started_line (n : Fin 4) :
    s.started.line n = { s.line n with held := [], nights := (s.line n).nights ++ s.startNights } := by
  rw [s.started_rest]
  exact Bank.get_mapAll _ _ _

theorem started_tape (d : TapeId) : s.started.tape d = { s.tape d with ribbonStart := some s.now, ribbonNext := 0 } := by
  rw [s.started_rest]
  exact Bank.get_mapAll _ _ _

theorem started_tline (l : Fin 2) : s.started.tline l = { s.tline l with held := [] } := by
  rw [s.started_rest]
  exact Bank.get_mapAll _ _ _

theorem started_term (k : Fin 16) :
    s.started.term k = { s.term k with events := (s.term k).events ++ s.startNights.map .night } := by
  rw [s.started_rest]
  exact get_withEvents _ _ _

/-- Nothing else has changed. -/
theorem started_elsewhere : s.started = { s with
    bus := s.started.bus, intake := s.started.intake, session := s.started.session, fmt := { s.fmt with held := [] }
    lines := s.started.lines, tapes := s.started.tapes, tlines := s.started.tlines, terms := s.started.terms
    notices := s.started.notices } := by
  have h := s.started_rest
  have hlines : s.started.lines = s.entered.lines := by rw [h]
  have htapes : s.started.tapes = s.entered.tapes := by rw [h]
  have htlines : s.started.tlines = s.entered.tlines := by rw [h]
  have hterms : s.started.terms = s.entered.terms := by rw [h]
  rw [s.started_session, hlines, htapes, htlines, hterms]
  exact h

/-- The held notices, and then what the look of a remembered NUDGE hands on (log 46). -/
theorem started_inbox : ∃ more, s.started.notices.inbox = s.notices.inbox ++ s.items s.heldNotices ++ more ∧
    (s.intake.nudged = false → more = []) := by
  have hin : (s.enteredWith s.writeStartDone.bus s.writeStartDone.notices).notices.inbox =
      s.notices.inbox ++ s.items s.heldNotices := congrArg (· ++ _) s.writeStartDone_works.2.1
  by_cases h : s.intake.nudged = false
  · exact ⟨[], by rw [started_eq h, hin, List.append_nil], fun _ => rfl⟩
  · obtain ⟨more, hmore⟩ := s.started_acts.inbox
    exact ⟨more, by rw [hmore, hin], fun e => absurd e h⟩

/-- START DONE in its cell, linked and counted, on a bus that completes every access (R181, R183). -/
theorem started_quiet {s : State} (hn : s.intake.nudged = false) (hq : s.bus.script = []) (hh : s.notices.holding = []) :
    s.started = s.enteredWith ((s.bus.pokes s.startWrites).markGroup .system) { s.notices with
      unit := .idle, inHand := none, startDone := true, tail := some s.params.noticeStart
      search := some s.params.noticeStart, count := s.notices.count + 1 } := by
  rw [started_eq hn, writeStartDone_quiet hq hh]

/-- Of the bus interface the part's entry into service changes the controller state and the groups. -/
theorem enteredWith_bus (b : Bus) (g : GroupId) (n : NoticeUnit) : (s.enteredWith (b.markGroup g) n).bus =
    { b with phase := .running, groups := (s.enteredWith (b.markGroup g) n).bus.groups } := rfl

end State

/-- R188 applied moves no mark. -/
theorem Group.settle_marked (may : Bool) (g : Group) : (Group.settle may g).marked = g.marked := by
  unfold Group.settle
  split <;> rfl

/-- The group of a notice is marked, also once the part is in service. -/
theorem Bus.marked_markGroup (b : Bus) (g : GroupId) (p : Phase) :
    (Bank.get (Bus.settle { b.markGroup g with phase := p }).groups g.slot).marked = true := by
  rw [Bus.get_settle, Group.settle_marked]
  unfold Bus.markGroup
  dsimp only
  rw [Bus.get_settle, Group.settle_marked, Bank.get_modify_self]

/-- Settles O32: START's completion is one change of every block; the notice unit's work on START DONE, and the look of a remembered
NUDGE, are known by what they leave as it was, and on a quiet bus by what they write. -/
theorem startCompletes : Obligations.StartCompletes := by
  intro h before s hs
  have hexec := exec_startDone h before
  rw [← hs] at hexec
  refine ⟨fun hn => hexec.trans (congrArg Host.Outcome.next (if_neg (mt s.startReady_iff.1 hn))), fun hf => ?_⟩
  refine ⟨s.started, hexec.trans (congrArg Host.Outcome.next (if_pos (s.startReady_iff.2 hf))), ?_, s.started_phase,
    s.started_startDone, ?_, s.started_feedTick, s.started_nudged, State.started_intake, s.started_tape, s.started_line,
    s.started_tline, s.started_term, ?_, fun hq hh hi hn => ?_⟩
  · exact s.started_elsewhere
  · rw [s.started_session]
    unfold State.startSession State.startsDark
    simp only [decide_eq_true_eq]
  · rw [← s.heldNotices_eq]
    exact s.started_inbox
  · have hbus := congrArg State.bus (State.started_quiet hn hq hh)
    have hunit := congrArg State.notices (State.started_quiet hn hq hh)
    refine ⟨?_, ?_, ?_⟩
    · rw [← s.modulesLive_eq, ← s.terminalsOnline_eq, hbus]
      exact s.enteredWith_bus (s.bus.pokes s.startWrites) .system _
    · rw [hbus]
      exact Bus.marked_markGroup _ .system _
    · rw [hunit, ← hi]
      rfl

end Sys2Proof.Machine
end

section
/-! PROOF. The bounds of a terminal context, of a board module and of a tape unit (R96, R100, R112, R113, R125, R134) through each
change that the part makes of one. -/

namespace Sys2Proof.Machine

/-! ## Terminal contexts (R134) -/

namespace Terminal.Sound

variable {x : Terminal}

/-- The bounds are of six fields. -/
theorem same {y : Terminal} (h : x.Sound) (hs : y.watches = x.watches ∧ y.stack = x.stack ∧ y.pageList = x.pageList ∧
    y.title = x.title ∧ y.miss = x.miss ∧ y.message = x.message) : y.Sound := by
  obtain ⟨hwatches, hstack, hlist, htitle, hmiss, hmessage⟩ := hs
  unfold Terminal.Sound
  rw [hwatches, hstack, hlist, htitle, hmiss, hmessage]
  exact h

theorem markRows (h : x.Sound) (p : Fin 18 → Bool) : (x.markRows p).Sound := by
  unfold Terminal.markRows
  exact h.same ⟨rfl, rfl, rfl, rfl, rfl, rfl⟩

theorem giveBeep (h : x.Sound) : x.giveBeep.Sound := by 
  unfold Terminal.giveBeep
  split
  · exact h
  · refine markRows ?_ _
    exact h.same ⟨rfl, rfl, rfl, rfl, rfl, rfl⟩

theorem endWork (h : x.Sound) : x.endWork.Sound := by unfold Terminal.endWork; split <;> exact h

theorem endWithBeep (h : x.Sound) : x.endWithBeep.Sound := h.giveBeep.endWork

/-- Fewer watches, or the same number of them, changed. -/
theorem setWatches (h : x.Sound) {ws : List Watch} (hw : ws.length ≤ 4) : ({ x with watches := ws } : Terminal).Sound :=
  ⟨hw, h.2⟩

theorem setMessage (h : x.Sound) {m : Option (List Byte)} (hm : ∀ t, m = some t → t.length = 40) :
    ({ x with message := m } : Terminal).Sound := by
  obtain ⟨hwatches, hstack, hlist, htitle, hmiss, -⟩ := h
  exact ⟨hwatches, hstack, hlist, htitle, hmiss, hm⟩

theorem setMiss (h : x.Sound) {n : Nat} (hn : n ≤ 2) : ({ x with miss := n } : Terminal).Sound := by
  obtain ⟨hwatches, hstack, hlist, htitle, -, hmessage⟩ := h
  exact ⟨hwatches, hstack, hlist, htitle, hn, hmessage⟩

theorem alerted (h : x.Sound) (i : Ix) (last : Price) (r : Record) : (x.alerted i last (alertMessage r last)).Sound := by
  have hwatches := h.setWatches (ws := x.watches.map fun (w : Watch) => if w.trips i last then { w with tripped := true } else w)
    (by simpa using h.1)
  have hmessage := hwatches.setMessage (m := some (alertMessage r last)) fun t ht => by
    rw [← Option.some.inj ht]
    exact leftIn_length 40 _
  exact ((hmessage.same (y := { x with
    watches := x.watches.map fun w => if w.trips i last then { w with tripped := true } else w
    lamp := true
    message := some (alertMessage r last) }) ⟨rfl, rfl, rfl, rfl, rfl, rfl⟩).markRows _).giveBeep

theorem dropWatches (h : x.Sound) (i : Ix) : (x.dropWatches i).Sound :=
  h.setWatches ((List.length_filter_le _ _).trans h.1)

theorem setText (h : x.Sound) (half : Half) (text : List Byte) : (x.setText half text).Sound := by
  refine (h.setMessage (m := messageAfter x.message half text) fun t ht => ?_).markRows _
  cases half with
  | first =>
    simp only [messageAfter] at ht
    split at ht
    · cases ht
    · rw [← Option.some.inj ht, leftIn_length]
  | second =>
    rw [← Option.some.inj ht, List.length_append, leftIn_length, leftIn_length]

theorem askPage (h : x.Sound) (p : Word) : (x.askPage p).Sound := by unfold Terminal.askPage; split <;> exact h

theorem setLock (h : x.Sound) (flag : Bool) : (x.setLock flag).Sound := markRows (x := { x with locked := flag }) h _

theorem clearStack (h : x.Sound) : x.clearStack.Sound := by
  obtain ⟨hwatches, -, hrest⟩ := h
  exact ⟨hwatches, Nat.zero_le _, hrest⟩

theorem takeChange (h : x.Sound) : x.takeChange.Sound := by 
  unfold Terminal.takeChange
  split
  · exact h
  · refine markRows ?_ _
    exact h.same ⟨rfl, rfl, rfl, rfl, rfl, rfl⟩
theorem takeSession (h : x.Sound) : x.takeSession.Sound := by 
  unfold Terminal.takeSession
  split
  · refine markRows ?_ _
    exact h.same ⟨rfl, rfl, rfl, rfl, rfl, rfl⟩
  · exact h
theorem takeStage (h : x.Sound) : x.takeStage.Sound := by 
  unfold Terminal.takeStage
  split
  · refine markRows ?_ _
    exact h.same ⟨rfl, rfl, rfl, rfl, rfl, rfl⟩
  · exact h
theorem takeTime (h : x.Sound) : x.takeTime.Sound := by 
  unfold Terminal.takeTime
  split
  · refine markRows ?_ _
    exact h.same ⟨rfl, rfl, rfl, rfl, rfl, rfl⟩
  · exact h

theorem wake (h : x.Sound) : x.wake.Sound :=
  ((h.setMiss (n := 0) (Nat.zero_le _)).same (y := { x with
    state := .online, miss := 0, blankDue := false, poll := .stopped }) ⟨rfl, rfl, rfl, rfl, rfl, rfl⟩).markRows _

theorem takeNightSet (h : x.Sound) : x.takeNightSet.Sound := by
  unfold Terminal.takeNightSet
  split
  · unfold Terminal.fallAsleep
    dsimp only
    split <;> exact h
  · exact h

theorem takeNightClear (h : x.Sound) : x.takeNightClear.Sound := by
  unfold Terminal.takeNightClear
  split
  · unfold Terminal.nightOver
    dsimp only
    split
    · exact h.wake
    · exact h
  · exact h

theorem clearAlert (h : x.Sound) : x.clearAlert.Sound := by
  have hw := h.setWatches (ws := x.watches.filter fun w => !w.tripped) ((List.length_filter_le _ _).trans h.1)
  have hy := hw.same (y := { x with lamp := false, watches := x.watches.filter fun w => !w.tripped })
    ⟨rfl, rfl, rfl, rfl, rfl, rfl⟩
  unfold Terminal.clearAlert
  dsimp only
  split
  · exact hy.markRows _
  · exact hy

/-- A page load that completes (R147, R148, R155): the stack takes one entry, loses one or stays. -/
theorem stackAfter_length (h : x.Sound) (origin : LoadOrigin) : (stackAfter x origin).length ≤ 4 := by
  obtain ⟨-, hstack, -⟩ := h
  unfold stackAfter
  split
  · split
    · simp [Config.stackCapacity]
    · exact hstack
  · rw [List.length_tail]; omega
  · exact hstack

theorem showLoaded (h : x.Sound) (page : Word) (origin : LoadOrigin) {r : PageRecord} (ht : r.title.length ≤ 24)
    (he : r.entries.length ≤ 16) : (x.showLoaded page origin r).Sound := by
  have hstack := h.stackAfter_length origin
  obtain ⟨hwatches, -, -, -, hmiss, hmessage⟩ := h
  unfold Terminal.showLoaded
  refine endWork (markRows ?_ _)
  exact ⟨hwatches, hstack, he, ht, hmiss, hmessage⟩

theorem pollAgain (h : x.Sound) (stopped : Bool) : (x.pollAgain stopped).Sound := by
  unfold Terminal.pollAgain; split <;> exact h

theorem comeBack (h : x.Sound) : x.comeBack.Sound := by
  have hm := (h.setMiss (n := 0) (Nat.zero_le _)).markRows fun _ => true
  unfold Terminal.comeBack
  dsimp only
  split <;> exact hm.same ⟨rfl, rfl, rfl, rfl, rfl, rfl⟩

theorem idleTaken (h : x.Sound) (visited : TermState) (now : Nat) : (x.idleTaken visited now).Sound := by
  have hm := h.setMiss (n := 0) (Nat.zero_le _)
  unfold Terminal.idleTaken
  split
  · exact h.comeBack
  · exact hm
  · exact hm

theorem keyTaken (h : x.Sound) (key : Fin 64) : (x.keyTaken key).Sound := by
  have hm := h.setMiss (n := 0) (Nat.zero_le _)
  unfold Terminal.keyTaken
  split
  · exact h.comeBack
  · exact h.wake
  · dsimp only
    split <;> exact hm

/-- A missed POLL counts to two at most: the third makes the terminal OFFLINE (R139). -/
theorem noReply (h : x.Sound) (visited : TermState) (ends : Nat) : (x.noReply visited ends).Sound := by
  have hm := h.setMiss (n := 0) (Nat.zero_le _)
  unfold Terminal.noReply
  split
  · exact h
  · split
    · exact h.setMiss (by omega)
    · exact hm
  · split
    · next hlt =>
      have hs := h.setMiss (n := x.miss + 1) (by omega)
      split <;> exact hs
    · exact hm

end Terminal.Sound

theorem Terminal.sound_atStart : Terminal.atStart.Sound := by simp [Terminal.Sound, Terminal.atStart, Terminal.reset]

/-! ## Board modules (R96, R99, R100, R102 to R107) -/

theorem Width.cells_le (w : Width) : 1 ≤ w.cells ∧ w.cells ≤ 32 := by cases w <;> decide

theorem Width.whole_sound (w : Width) : (⟨0, w.cells - 1⟩ : Range).Sound := by
  have := w.cells_le
  exact ⟨Nat.zero_le _, by show w.cells - 1 < 32; omega⟩

theorem Module.live_iff (x : Module) : x.live = true ↔ x.present = true ∧ x.state = .live := by simp [Module.live]

theorem Module.isLive_eq (x : Module) : x.isLive = x.live := rfl

theorem Range.Sound.cover {a b : Range} (h : a.Sound) (g : b.Sound) : (a.cover b).Sound := by
  unfold Range.Sound Range.cover at *
  dsimp only
  omega

theorem Range.Sound.joinRange {old : Option Range} {b : Range} (h : ∀ r, old = some r → r.Sound) (g : b.Sound) :
    (joinRange old b).Sound := by
  cases old with
  | none => exact g
  | some o => exact (h o rfl).cover g

theorem Range.Sound.within {a r : Range} {w : Nat} (h : a.Sound) (e : a.within w = some r) : r.Sound := by
  unfold Range.within at e
  split at e
  · cases e
    unfold Range.Sound at *
    dsimp only
    omega
  · cases e

theorem mem_differing {a b : Vector BoardCell 32} {k : Nat} : k ∈ differing a b → k < 32 := by
  simp only [differing, List.mem_map]
  rintro ⟨i, -, rfl⟩
  exact i.isLt

theorem differing_sorted (a b : Vector BoardCell 32) : (differing a b).Pairwise (· < ·) := by
  have h : (List.finRange 32).Pairwise (· < ·) := by decide
  exact List.pairwise_map.2 (h.filter _)

theorem rangeOver_sound {l : List Nat} {r : Range} (hs : l.Pairwise (· < ·)) (hl : ∀ k ∈ l, k < 32)
    (e : rangeOver l = some r) : r.Sound := by
  cases l with
  | nil => cases e
  | cons a l =>
    cases e
    cases l with
    | nil => exact ⟨Nat.le_refl _, hl a List.mem_cons_self⟩
    | cons b l =>
      have hmem : (b :: l).getLastD a ∈ b :: l := by
        rw [List.getLastD_cons, List.getLastD_eq_getLast?]
        cases h : l.getLast? with
        | none => exact List.mem_cons_self
        | some c => exact List.mem_cons_of_mem _ (List.mem_of_getLast? h)
      exact ⟨Nat.le_of_lt ((List.pairwise_cons.1 hs).1 _ hmem), hl _ (List.mem_cons_of_mem _ hmem)⟩

namespace Module.Sound

variable {x : Module}

theorem range (h : x.Sound) {r : Range} (e : x.dirty = some r ∨ x.inFlight = some r) : r.Sound := h.2.2.1 r e

/-- A module with other ranges, both sound, where it is LIVE. -/
theorem setRanges (h : x.Sound) {d f : Option Range} (hl : d.isSome = true ∨ f.isSome = true → x.live = true)
    (hr : ∀ r, d = some r ∨ f = some r → r.Sound) : ({ x with dirty := d, inFlight := f } : Module).Sound := by
  obtain ⟨hwidth, -, -, hrest⟩ := h
  exact ⟨hwidth, hl, hr, hrest⟩

theorem takeRange (h : x.Sound) {r : Option Range} (hr : ∀ a, r = some a → a.Sound) : (x.takeRange r).Sound := by
  unfold Module.takeRange
  split
  · exact h
  · next r =>
    split
    · next hlive =>
      refine h.setRanges (d := some (joinRange x.dirty r)) (f := x.inFlight) (fun _ => x.live_iff.2 hlive) ?_
      rintro a (e | e)
      · cases e
        exact .joinRange (fun o ho => h.range (.inl ho)) (hr r rfl)
      · exact h.range (.inr e)
    · exact h

theorem setImage (h : x.Sound) (image : Vector BoardCell 32) : ({ x with image := image } : Module).Sound := h

theorem showCells (h : x.Sound) (start : Nat) (cells : List BoardCell) : (x.showCells start cells).Sound := by
  unfold Module.showCells
  generalize paintCells x.image start cells = image
  exact (h.setImage image).takeRange fun _ e => rangeOver_sound (differing_sorted _ _) (fun _ => mem_differing) e

theorem showStale (h : x.Sound) (stage : FeedStage) : (x.showStale stage).Sound := by
  unfold Module.showStale
  split
  · exact h.showCells _ _
  · exact h

/-- A LIVE module has its whole width dirty (R99, R107, R108, R110). -/
theorem dirtyWhole (h : x.Sound) (hl : x.live = true) : ({ x with dirty := x.whole } : Module).Sound := by
  refine h.setRanges (d := x.whole) (f := x.inFlight) (fun _ => hl) ?_
  rintro r (e | e)
  · obtain ⟨w, -, rfl⟩ := Option.map_eq_some_iff.1 e
    exact w.whole_sound
  · exact h.range (.inr e)

/-- What REMAP found of a module is taken over (R99). -/
theorem adopt (h : x.Sound) (found : Found) : (x.adopt found).Sound := by
  unfold Module.adopt
  split
  · exact h
  · exact ⟨by simp, by simp, by simp, by simp, Nat.zero_le _⟩
  · next w _ hp =>
    obtain ⟨hwidth, hlive, hrange, hlost, hattempts⟩ := h
    refine ⟨by simp [hp], fun e => ?_, fun r e => ?_, fun e => absurd (hp.symm.trans e) Bool.noConfusion, hattempts⟩
    · by_cases hl : x.state = .live
      · exact (Module.live_iff _).2 ⟨hp, hl⟩
      · simp only [hl, if_false] at e
        exact absurd ((Module.live_iff x).1 (hlive e)).2 hl
    · dsimp only at e
      split at e
      · rcases e with e | e
        · cases e
          exact w.whole_sound
        · exact hrange r (.inr e)
      · exact hrange r e
  · exact ⟨by simp, by simp, by simp, by simp, Nat.zero_le _⟩

theorem remapped (h : x.Sound) (stage : FeedStage) (found : Found) : (x.remapped stage found).Sound := by
  have ha := h.adopt found
  unfold Module.remapped
  generalize x.adopt found = y at ha ⊢
  generalize freshImage stage (found.bind (·.2)) = image
  exact ha

theorem moveRange (h : x.Sound) : ({ x with inFlight := x.dirty, dirty := none } : Module).Sound :=
  h.setRanges (d := none) (f := x.dirty) (fun e => h.2.1 (.inl (by simpa using e))) fun r e => h.range (.inl (by simpa using e))

/-- No range, fewer failed frames: a module still present (R103, R105). -/
theorem accepted (h : x.Sound) : x.accepted.Sound := by
  unfold Module.accepted
  split
  · next hp =>
    obtain ⟨hwidth, hlive, hrange, -, -⟩ := h
    exact ⟨hwidth, fun e => hlive (.inl (by simpa using e)), fun r e => hrange r (.inl (by simpa using e)),
      fun e => absurd (hp.symm.trans e) Bool.noConfusion, Nat.zero_le _⟩
  · exact h

theorem mergedBack (h : x.Sound) {r : Range} (e : x.mergedBack = some r) : r.Sound := by
  unfold Module.mergedBack at e
  obtain ⟨a, ha, e⟩ := Option.bind_eq_some_iff.1 e
  refine Range.Sound.within ?_ e
  split at ha
  · next f hf =>
    cases ha
    exact .joinRange (fun o ho => h.range (.inl ho)) (h.range (.inr hf))
  · exact h.range (.inl ha)

/-- A failed frame counts to two at most: the third makes the module DARK (R104, R105). -/
theorem failed (h : x.Sound) (at_ : Nat) : (x.failed at_).Sound := by
  unfold Module.failed
  split
  · exact h
  · next hlive =>
    have hl : x.live = true := by simpa [Module.isLive_eq] using hlive
    have hp := ((Module.live_iff x).1 hl).1
    have hwidth := h.1
    split
    · exact ⟨hwidth, fun _ => hl, fun r e => h.mergedBack (by simpa using e),
        fun e => absurd (hp.symm.trans e) Bool.noConfusion, by show x.attempts + 1 ≤ 2; omega⟩
    · exact ⟨hwidth, by simp [Module.goDark], by simp [Module.goDark],
        fun e => absurd (hp.symm.trans e) Bool.noConfusion, Nat.zero_le _⟩

theorem returned (h : x.Sound) : x.returned.Sound := by
  unfold Module.returned
  split
  · next hlost =>
    have hp : x.present = true := (Bool.and_eq_true_iff.1 hlost).1
    obtain ⟨hwidth, -, hrange, -, -⟩ := h
    refine ⟨hwidth, fun _ => (Module.live_iff _).2 ⟨hp, rfl⟩, fun r e => ?_,
      fun e => absurd (hp.symm.trans e) Bool.noConfusion, Nat.zero_le _⟩
    rcases e with e | e
    · obtain ⟨w, -, rfl⟩ := Option.map_eq_some_iff.1 e
      exact w.whole_sound
    · exact hrange r (.inr e)
  · exact h

theorem unanswered (h : x.Sound) (ends : Nat) : (x.unanswered ends).Sound := by
  unfold Module.unanswered; split <;> exact h

end Module.Sound

/-! ## Board lines -/

/-- Every module of a line keeps its bounds. -/
def BoardLine.ModulesSound (l : BoardLine) : Prop := ∀ m, (l.module m).Sound

namespace BoardLine.ModulesSound

variable {l : BoardLine}

theorem mapAll (h : l.ModulesSound) {f : Fin 32 → Module → Module} (hf : ∀ m x, Module.Sound x → (f m x).Sound) :
    ({ l with modules := Bank.mapAll l.modules f } : BoardLine).ModulesSound := fun m => by
  show Module.Sound (Bank.get (Bank.mapAll l.modules f) m)
  rw [Bank.get_mapAll]
  exact hf m _ (h m)

theorem modifyModule (h : l.ModulesSound) (m : Fin 32) {f : Module → Module} (hf : (f (l.module m)).Sound) :
    (l.modifyModule m f).ModulesSound := fun k => by
  rw [BoardLine.modifyModule_eq, BoardLine.module_having]
  split
  · exact hf
  · exact h k

theorem dirtyLive (h : l.ModulesSound) : l.dirtyLive.ModulesSound :=
  h.mapAll fun _ x hx => by
    split
    · next hl => exact hx.dirtyWhole hl
    · exact hx

theorem takeNightSet (h : l.ModulesSound) : l.takeNightSet.ModulesSound := by
  unfold BoardLine.takeNightSet; split <;> exact h

theorem takeNightClear (h : l.ModulesSound) : l.takeNightClear.ModulesSound := by
  unfold BoardLine.takeNightClear
  split
  · next r _ =>
    exact dirtyLive (l := { l with nights := r, night := false, intensityDue := some .full }) h
  · exact h

theorem chosen (h : l.ModulesSound) (k : BoardFrameKind) : (l.chosen k).ModulesSound := by
  cases k with
  | writeCells m => exact h.modifyModule m (h m).moveRange
  | statusPoll m => exact h.modifyModule m (f := fun x => { x with poll := .stopped }) (h m)
  | blank m => exact h
  | broadcastBlank => exact h
  | intensity level => exact h

theorem begin (h : l.ModulesSound) (k : BoardFrameKind) : (l.begin k).ModulesSound := h.chosen k

theorem endSending (h : l.ModulesSound) (now : Nat) : (l.endSending now).ModulesSound := by
  unfold BoardLine.endSending
  split
  · split
    · unfold BoardLine.sent
      split
      · exact h
      · exact h
      · exact modifyModule (l := l.free) h _ (f := fun x => { x with blankDue := false }) (h _)
      · unfold BoardLine.blanked
        dsimp only
        split
        · exact h
        · exact dirtyLive (l := { l.free with blankDue := false }) h
      · exact h
    · exact h
  · exact h

/-- The line is free, and a module has had an outcome. -/
theorem freeModule (h : l.ModulesSound) (m : Fin 32) {f : Module → Module} (hf : ∀ {x : Module}, x.Sound → (f x).Sound) :
    (l.free.modifyModule m f).ModulesSound := modifyModule (l := l.free) h m (hf (h m))

theorem answered (h : l.ModulesSound) (m : Fin 32) : (l.answered m).ModulesSound := h.freeModule m .returned

/-- The line after steps 4 and 5 of R92 (R99, R108). -/
theorem remapped (h : l.ModulesSound) (stage : FeedStage) (cause : RemapCause) (found : List (Fin 32 × Found)) :
    (l.remapped stage cause found).ModulesSound := by
  have hfold : (found.foldl (fun l e => l.modifyModule e.1 fun x => x.remapped stage e.2) l).ModulesSound :=
    List.foldlRecOn found _ (motive := BoardLine.ModulesSound) h fun b hb e _ => hb.modifyModule e.1 ((hb e.1).remapped _ _)
  have h31 : ∀ {b : BoardLine}, b.ModulesSound → b.broadcastFor31.ModulesSound := fun {b} hb => by
    unfold BoardLine.broadcastFor31
    split
    · exact hb.modifyModule 31 (f := fun x => { x with blankDue := false }) (hb 31)
    · exact hb
  unfold BoardLine.remapped
  dsimp only
  cases cause <;> exact h31 hfold

end BoardLine.ModulesSound

/-! ## Print queues (R112 to R120, R125) -/

/-- A TRADE entry has 1 to 8 triples and a TEXT 1 to 20 characters (R113, R115). -/
def Entry.Sound : Entry → Prop
  | .trade _ _ _ _ _ merged => 1 ≤ merged.length ∧ merged.length ≤ 8
  | .text cs _ => tapeTextSound cs
  | _ => True

/-- A text that waits to arrive has 1 to 20 characters (R55, R115). -/
def Arrival.Sound : Arrival → Prop
  | .text cs _ _ => tapeTextSound cs
  | _ => True

/-- The bounds of a tape unit, entry by entry. -/
theorem Tape.sound_iff (x : Tape) : x.Sound ↔ x.queue.length ≤ 256 ∧ (∀ e ∈ x.queue, e.Sound) ∧
    (∀ a, a ∈ x.inbox ∨ a ∈ x.watchInbox → a.Sound) ∧ x.fifo.length ≤ 48 ∧ x.announced ≤ 720 := by
  constructor
  · rintro ⟨hlength, htrade, htext, harrival, hfifo, hlate⟩
    refine ⟨hlength, fun e he => ?_, fun a ha => ?_, hfifo, hlate⟩
    · cases e with
      | trade i m t op late merged => exact htrade i m t op late merged he
      | text text urgent => exact htext text urgent he
      | _ => trivial
    · cases a with
      | text text urgent time => exact harrival text urgent time ha
      | _ => trivial
  · rintro ⟨hlength, hqueue, harrival, hfifo, hlate⟩
    exact ⟨hlength, fun _ _ _ _ _ _ he => hqueue _ he, fun _ _ he => hqueue _ he, fun _ _ _ ha => harrival _ ha, hfifo, hlate⟩

theorem mem_insertUrgent {e a : Entry} {q : List Entry} (h : a ∈ insertUrgent e q) : a = e ∨ a ∈ q := by
  induction q with
  | nil => exact .inl (List.mem_singleton.1 h)
  | cons x r ih =>
    unfold insertUrgent at h
    split at h
    · rcases List.mem_cons.1 h with h | h
      · exact .inr (h ▸ List.mem_cons_self)
      · exact (ih h).imp_right (List.mem_cons_of_mem _)
    · exact List.mem_cons.1 h

theorem insertUrgent_length (e : Entry) (q : List Entry) : (insertUrgent e q).length = q.length + 1 := by
  induction q with
  | nil => rfl
  | cons x r ih =>
    unfold insertUrgent
    split
    · simp [ih]
    · rfl

theorem dropTriple_length {id : Word} {m rest : List Triple} (h : dropTriple id m = some rest) : rest.length ≤ m.length := by
  induction m generalizing rest with
  | nil => cases h
  | cons x r ih =>
    unfold dropTriple at h
    split at h
    · next r' hr =>
      cases h
      simpa using ih hr
    · split at h
      · cases h
        simp
      · cases h

/-- A waiting print taken out of one entry leaves one sound entry at most (R117). -/
theorem cancelInEntry_sound {i : Ix} {id : Word} {e : Entry} {es : List Entry} (he : e.Sound)
    (h : cancelInEntry i id e = some es) : es.length ≤ 1 ∧ ∀ a ∈ es, a.Sound := by
  unfold cancelInEntry at h
  split at h
  · split at h
    · split at h
      · cases h
        simp
      · next rest hne hdrop =>
        cases h
        refine ⟨Nat.le_refl _, fun a ha => ?_⟩
        rw [List.mem_singleton.1 ha]
        have hle := dropTriple_length hdrop
        have hpos := List.length_pos_of_ne_nil (l := rest) fun e => hne e
        exact ⟨hpos, hle.trans he.2⟩
      · cases h
    · cases h
  · cases h

/-- A waiting print taken out of the queue leaves it no longer, and sound (R117). -/
theorem cancelWaiting_sound {i : Ix} {id : Word} {q r : List Entry} (hq : ∀ e ∈ q, e.Sound)
    (h : cancelWaiting i id q = some r) : r.length ≤ q.length ∧ ∀ e ∈ r, e.Sound := by
  induction q generalizing r with
  | nil => cases h
  | cons e q ih =>
    obtain ⟨he, hq⟩ := List.forall_mem_cons.1 hq
    unfold cancelWaiting at h
    split at h
    · next r' hr =>
      cases h
      obtain ⟨hlength, hsound⟩ := ih hq hr
      exact ⟨by simpa using hlength, List.forall_mem_cons.2 ⟨he, hsound⟩⟩
    · obtain ⟨es, hes, rfl⟩ := Option.map_eq_some_iff.1 h
      obtain ⟨hlength, hsound⟩ := cancelInEntry_sound he hes
      refine ⟨by simp only [List.length_append, List.length_cons]; omega, fun a ha => ?_⟩
      exact (List.mem_append.1 ha).elim (hsound a) (hq a)

/-- A print folded into the queue leaves its length, and its entries sound (R119). -/
theorem foldPrint_sound {i : Ix} {tr : Triple} {q r : List Entry} (hq : ∀ e ∈ q, e.Sound) (h : foldPrint i tr q = .folded r) :
    r.length = q.length ∧ ∀ e ∈ r, e.Sound := by
  induction q generalizing r with
  | nil => cases h
  | cons e q ih =>
    obtain ⟨he, hq⟩ := List.forall_mem_cons.1 hq
    unfold foldPrint at h
    split at h
    · next r' hr =>
      cases h
      obtain ⟨hlength, hsound⟩ := ih hq hr
      exact ⟨by simpa using hlength, List.forall_mem_cons.2 ⟨he, hsound⟩⟩
    · cases h
    · split at h
      · split at h
        · next e' hfold =>
          cases h
          refine ⟨rfl, List.forall_mem_cons.2 ⟨?_, hq⟩⟩
          unfold foldEntry at hfold
          split at hfold
          · split at hfold
            · next hlt =>
              cases hfold
              simp only [Config.mergeCapacity] at hlt
              exact ⟨by simp, by simp only [List.length_append, List.length_singleton]; omega⟩
            · cases hfold
          · cases hfold
        · cases h
      · cases h

/-- The LEVEL 3 merge leaves entries of the queue, and no more of them (R127). -/
theorem mergeLater_rest (i : Ix) (m : List Triple) (q : List Entry) :
    (mergeLater i m q).2.length ≤ q.length ∧ ∀ e ∈ (mergeLater i m q).2, e ∈ q := by
  fun_induction mergeLater i m q with
  | case1 => exact ⟨Nat.le_refl _, fun _ h => h⟩
  | case2 m mode t op oos more r hcond ih =>
    exact ⟨ih.1.trans (Nat.le_succ _), fun e he => List.mem_cons_of_mem _ (ih.2 e he)⟩
  | case3 => exact ⟨Nat.le_refl _, fun _ h => h⟩
  | case4 m j mode t op oos more r hj m' r' hr ih =>
    rw [hr] at ih
    exact ⟨by simpa using ih.1, fun e he => (List.mem_cons.1 he).elim (fun h => h ▸ List.mem_cons_self)
      fun h => List.mem_cons_of_mem _ (ih.2 e h)⟩
  | case5 => exact ⟨Nat.le_refl _, fun _ h => h⟩
  | case6 m e r _ hi m' r' hr ih =>
    rw [hr] at ih
    exact ⟨by simpa using ih.1, fun e he => (List.mem_cons.1 he).elim (fun h => h ▸ List.mem_cons_self)
      fun h => List.mem_cons_of_mem _ (ih.2 e h)⟩

theorem takeHead_rest (level : Fin 4) (e : Entry) (q : List Entry) :
    (takeHead level e q).2.length ≤ q.length ∧ ∀ a ∈ (takeHead level e q).2, a ∈ q := by
  unfold takeHead
  split
  · split
    · exact mergeLater_rest _ _ q
    · exact ⟨Nat.le_refl _, fun _ h => h⟩
  · exact ⟨Nat.le_refl _, fun _ h => h⟩

namespace Tape.Sound

variable {x : Tape}

/-- Another queue, no longer than the capacity and sound. -/
theorem setQueue (h : x.Sound) {q : List Entry} (hl : q.length ≤ 256) (hq : ∀ e ∈ q, e.Sound) :
    ({ x with queue := q } : Tape).Sound := by
  rw [Tape.sound_iff] at h ⊢
  exact ⟨hl, hq, h.2.2⟩

theorem queue_sound (h : x.Sound) : ∀ e ∈ x.queue, e.Sound := ((Tape.sound_iff x).1 h).2.1

theorem dropInbox (h : x.Sound) {a : Arrival} {r : List Arrival} (hi : x.inbox = a :: r) :
    a.Sound ∧ ({ x with inbox := r } : Tape).Sound := by
  rw [Tape.sound_iff] at h ⊢
  obtain ⟨hl, hq, ha, hrest⟩ := h
  exact ⟨ha a (.inl (hi ▸ List.mem_cons_self)),
    hl, hq, fun b hb => ha b (hb.imp_left fun hb => hi ▸ List.mem_cons_of_mem _ hb), hrest⟩

theorem dropWatchInbox (h : x.Sound) {a : Arrival} {r : List Arrival} (hi : x.watchInbox = a :: r) :
    a.Sound ∧ ({ x with watchInbox := r } : Tape).Sound := by
  rw [Tape.sound_iff] at h ⊢
  obtain ⟨hl, hq, ha, hrest⟩ := h
  exact ⟨ha a (.inr (hi ▸ List.mem_cons_self)),
    hl, hq, fun b hb => ha b (hb.imp_right fun hb => hi ▸ List.mem_cons_of_mem _ hb), hrest⟩

theorem addInbox (h : x.Sound) {as : List Arrival} (ha : ∀ a ∈ as, a.Sound) :
    ({ x with inbox := x.inbox ++ as } : Tape).Sound := by
  rw [Tape.sound_iff] at h ⊢
  obtain ⟨hl, hq, hi, hrest⟩ := h
  refine ⟨hl, hq, fun b hb => ?_, hrest⟩
  rcases hb with hb | hb
  · exact (List.mem_append.1 hb).elim (fun hb => hi b (.inl hb)) (ha b)
  · exact hi b (.inr hb)

theorem addWatchInbox (h : x.Sound) {as : List Arrival} (ha : ∀ a ∈ as, a.Sound) :
    ({ x with watchInbox := x.watchInbox ++ as } : Tape).Sound := by
  rw [Tape.sound_iff] at h ⊢
  obtain ⟨hl, hq, hi, hrest⟩ := h
  refine ⟨hl, hq, fun b hb => ?_, hrest⟩
  rcases hb with hb | hb
  · exact hi b (.inl hb)
  · exact (List.mem_append.1 hb).elim (fun hb => hi b (.inr hb)) (ha b)

theorem join (h : x.Sound) (hr : x.hasRoom = true) {e : Entry} (he : e.Sound) : (x.join e).Sound := by
  have hlt : x.queue.length < 256 := of_decide_eq_true hr
  refine h.setQueue (by simp only [List.length_append, List.length_singleton]; omega) fun a ha => ?_
  rcases List.mem_append.1 ha with ha | ha
  · exact h.queue_sound a ha
  · rw [List.mem_singleton.1 ha]
    exact he

theorem placePrint (h : x.Sound) (id : TapeId) (i : Ix) (m : Mode) (tr : Triple) (op oos : Bool) (time : Option Tod) :
    (Tape.placePrint id x i m tr op oos time).1.Sound := by
  unfold Tape.placePrint
  split
  · next hr => exact h.join hr ⟨Nat.le_refl _, by simp⟩
  · split
    · next q hfold =>
      split at hfold
      · cases hfold
      · obtain ⟨hlength, hsound⟩ := foldPrint_sound h.queue_sound hfold
        exact h.setQueue (hlength ▸ h.1) hsound
    · exact h

theorem placeCancel (h : x.Sound) (id : TapeId) (i : Ix) (print : Word) (m : Mode) (price : Option Price)
    (time : Option Tod) : (Tape.placeCancel id x i print m price time).1.Sound := by
  unfold Tape.placeCancel
  split
  · next q hq =>
    obtain ⟨hlength, hsound⟩ := cancelWaiting_sound h.queue_sound hq
    exact h.setQueue (hlength.trans h.1) hsound
  · split
    · next hr => exact h.join hr trivial
    · exact h

theorem placeNote (h : x.Sound) (id : TapeId) (resumed : Bool) (i : Ix) (time : Option Tod) :
    (Tape.placeNote id x resumed i time).1.Sound := by
  unfold Tape.placeNote
  split
  · next hr => cases resumed <;> exact h.join hr trivial
  · exact h

theorem placeText (h : x.Sound) (id : TapeId) {text : List Byte} (ht : tapeTextSound text) (urgent : Bool)
    (time : Option Tod) : (Tape.placeText id x text urgent time).1.Sound := by
  unfold Tape.placeText
  split
  · next hr =>
    split
    · have hlt : x.queue.length < 256 := of_decide_eq_true hr
      refine h.setQueue (by rw [insertUrgent_length]; omega) fun a ha => ?_
      rcases mem_insertUrgent ha with ha | ha
      · rw [ha]
        exact ht
      · exact h.queue_sound a ha
    · exact h.join hr ht
  · exact h

/-- A rendering of at most 31 characters goes into a FIFO that holds 15 or fewer (R125, R128). -/
theorem emit (h : x.Sound) (hf : x.fifo.length ≤ 15) {t : List Byte} (ht : t.length ≤ 31) : (x.emit t).Sound := by
  rw [Tape.sound_iff] at h ⊢
  obtain ⟨hl, hq, ha, -, hlate⟩ := h
  refine ⟨hl, hq, ha, ?_, hlate⟩
  simp only [Tape.emit, spaces, List.length_append, List.length_replicate]
  omega

theorem setAnnounced (h : x.Sound) {n : Nat} (hn : n ≤ 720) : ({ x with announced := n } : Tape).Sound := by
  rw [Tape.sound_iff] at h ⊢
  obtain ⟨hl, hq, ha, hf, -⟩ := h
  exact ⟨hl, hq, ha, hf, hn⟩

theorem sendCharacter (h : x.Sound) : x.sendCharacter.Sound := by
  rw [Tape.sound_iff] at h ⊢
  obtain ⟨hl, hq, ha, hf, hlate⟩ := h
  exact ⟨hl, hq, ha, by show x.fifo.tail.length ≤ 48; rw [List.length_tail]; omega, hlate⟩

end Tape.Sound

/-- The texts of session changes have 1 to 20 characters (R66). -/
theorem sessionText_sound {old new : SessionState} {text : List Byte} (h : sessionText old new = some text) :
    tapeTextSound text := by
  cases old <;> cases new <;> cases h <;> simp [tapeTextSound, chars]

theorem delayedText_sound : tapeTextSound delayedText := by simp [tapeTextSound, delayedText, chars]

end Sys2Proof.Machine
end

section
/-! PROOF. A step that keeps the bounds of the blocks and the chains (R77, R79, R80, R89, R92, R96, R100, R113, R125, R134, R185): one
rule per block, and then the operations of every block in the order of the model's files. -/

namespace Sys2Proof.Machine

/-! ## The board formatter -/

/-- Each placement has 1 to 16 cells within an image, and the timer list one entry for a placement, earliest first (R77, R89). -/
structure Formatter.Shaped (x : Formatter) : Prop where
  fits : ∀ k p, x.placement k = some p → 1 ≤ p.width ∧ p.width ≤ 16 ∧ p.start + p.width ≤ 32
  single : (x.timers.map (·.placement)).Nodup
  sorted : x.timers.Pairwise fun a b => a.expiry ≤ b.expiry

/-- The line under REMAP has no placement (R92 step 1). -/
def Formatter.Cleared (x : Formatter) : Prop := ∀ job, x.remap = some job → ∀ k p, x.placement k = some p → p.line ≠ job.line

theorem Formatter.sound_iff (x : Formatter) : x.Sound ↔ x.Shaped ∧ x.Cleared :=
  ⟨fun ⟨hfits, hcleared, hsingle, hsorted⟩ => ⟨⟨hfits, hsingle, hsorted⟩, hcleared⟩,
    fun ⟨⟨hfits, hsingle, hsorted⟩, hcleared⟩ => ⟨hfits, hcleared, hsingle, hsorted⟩⟩

/-- The placements of a table are those of another but for their highlights. -/
def Formatter.SamePlaces (x y : Formatter) : Prop :=
  ∀ k, y.placement k = x.placement k ∨ ∃ d, y.placement k = (x.placement k).map fun p => { p with highlight := d }

theorem Relit.samePlaces {ks : List Nat} {d : Option TickDir} {expiry : Option Nat} {x y : Formatter}
    (h : Relit ks d expiry x y) : x.SamePlaces y := fun k => by
  rw [h.placements k]
  split
  · exact .inr ⟨d, rfl⟩
  · exact .inl rfl

namespace Formatter.SamePlaces

variable {x y : Formatter}

theorem of_table (h : y.table = x.table) : x.SamePlaces y := fun k => .inl (by unfold Formatter.placement; rw [h])

theorem before (h : x.SamePlaces y) {k : Nat} {q : Placement} (hq : y.placement k = some q) :
    ∃ p, x.placement k = some p ∧ q = { p with highlight := q.highlight } := by
  rcases h k with h | ⟨d, h⟩ <;> rw [h] at hq
  · exact ⟨q, hq, rfl⟩
  · obtain ⟨p, hp, rfl⟩ := Option.map_eq_some_iff.1 hq
    exact ⟨p, hp, rfl⟩

theorem after (h : x.SamePlaces y) {k : Nat} {p : Placement} (hp : x.placement k = some p) :
    ∃ c, y.placement k = some { p with highlight := c } := by
  rcases h k with h | ⟨d, h⟩ <;> rw [h, hp]
  · exact ⟨p.highlight, rfl⟩
  · exact ⟨d, rfl⟩

theorem shaped (h : x.SamePlaces y) (hx : x.Shaped) (hsingle : (y.timers.map (·.placement)).Nodup)
    (hsorted : y.timers.Pairwise fun a b => a.expiry ≤ b.expiry) : y.Shaped := by
  refine ⟨fun k q hq => ?_, hsingle, hsorted⟩
  obtain ⟨p, hp, e⟩ := h.before hq
  rw [e]
  exact hx.fits k p hp

theorem cleared (h : x.SamePlaces y) (hr : y.remap = x.remap) (hx : x.Cleared) : y.Cleared := fun job hj k q hq => by
  obtain ⟨p, hp, e⟩ := h.before hq
  rw [e]
  exact hx job (hr ▸ hj) k p hp

end Formatter.SamePlaces

/-- Chains are read from chain heads and placements, whatever the highlights are. -/
theorem State.ChainsSound.congr {s t : State} (h : s.ChainsSound)
    (hheads : ∀ i, (t.record i).chainHead = (s.record i).chainHead) (hp : s.fmt.SamePlaces t.fmt) : t.ChainsSound := fun i => by
  obtain ⟨ks, ⟨hnodup, hlinks, hmem⟩, hall⟩ := h i
  refine ⟨ks, ⟨hnodup, ?_, fun k hk => ?_⟩, fun k q hq hi => ?_⟩
  · rw [hheads]
    exact hlinks.of_placements fun k p hp' => hp.after hp'
  · obtain ⟨hlt, p, hp', hi⟩ := hmem k hk
    obtain ⟨c, hc⟩ := hp.after hp'
    exact ⟨hlt, _, hc, hi⟩
  · obtain ⟨p, hp', e⟩ := hp.before hq
    exact hall k p hp' (by rw [e] at hi; exact hi)

/-! ## The relation -/

/-- Every symbol has at most 5 characters (R23). -/
def State.SymbolsShort (s : State) : Prop := ∀ i, (s.record i).symbol.length ≤ 5

/-- The bounds of each block but intake, and the chains, hold after where they held before, and the parameters are the same. -/
structure KeepsBlocks (s t : State) : Prop where
  params : t.params = s.params
  shaped : s.fmt.Shaped → t.fmt.Shaped
  cleared : s.fmt.Cleared → t.fmt.Cleared
  chains : s.ChainsSound → t.ChainsSound
  symbols : s.SymbolsShort → t.SymbolsShort
  modules : ∀ n, (s.line n).ModulesSound → (t.line n).ModulesSound
  tapes : s.SymbolsShort → ∀ d, (s.tape d).Sound → (t.tape d).Sound
  terms : ∀ k, (s.term k).Sound → (t.term k).Sound
  holding : s.notices.holding.length ≤ 8 → t.notices.holding.length ≤ 8

/-- The bounds hold after where they held before, and intake is as it was. -/
structure Confines (s t : State) : Prop extends KeepsBlocks s t where
  intake : t.intake = s.intake

namespace KeepsBlocks

variable {s t u : State}

theorem refl (s : State) : KeepsBlocks s s := ⟨rfl, id, id, id, id, fun _ => id, fun _ _ => id, fun _ => id, id⟩

theorem trans (h : KeepsBlocks s t) (g : KeepsBlocks t u) : KeepsBlocks s u where
  params := g.params.trans h.params
  shaped := g.shaped ∘ h.shaped
  cleared := g.cleared ∘ h.cleared
  chains := g.chains ∘ h.chains
  symbols := g.symbols ∘ h.symbols
  modules := fun n => g.modules n ∘ h.modules n
  tapes := fun hs d => g.tapes (h.symbols hs) d ∘ h.tapes hs d
  terms := fun k => g.terms k ∘ h.terms k
  holding := g.holding ∘ h.holding

theorem withIntake (s : State) (x : Intake) : KeepsBlocks s (s.withIntake x) := { refl s with }

theorem modifyIntake (s : State) (f : Intake → Intake) : KeepsBlocks s (s.modifyIntake f) := withIntake s _

theorem setIntake (s : State) (st : IntakeState) : KeepsBlocks s (s.setIntake st) := withIntake s _

end KeepsBlocks

/-- The blocks that have bounds are as they were. -/
structure State.SameBlocks (s t : State) : Prop where
  params : t.params = s.params
  intake : t.intake = s.intake
  store : t.store = s.store
  table : t.fmt.table = s.fmt.table
  timers : t.fmt.timers = s.fmt.timers
  remap : t.fmt.remap = s.fmt.remap
  lines : t.lines = s.lines
  tapes : t.tapes = s.tapes
  terms : t.terms = s.terms
  holding : t.notices.holding = s.notices.holding

namespace Confines

variable {s t u v : State}

theorem refl (s : State) : Confines s s := ⟨.refl s, rfl⟩

theorem trans (h : Confines s t) (g : Confines t u) : Confines s u :=
  ⟨h.toKeepsBlocks.trans g.toKeepsBlocks, g.intake.trans h.intake⟩

theorem ite {c : Prop} [Decidable c] (hu : Confines s u) (hv : Confines s v) : Confines s (if c then u else v) := by
  split
  · exact hu
  · exact hv

theorem foldl {α : Type} {f : State → α → State} (h : ∀ s a, Confines s (f s a)) (l : List α) (s : State) :
    Confines s (l.foldl f s) :=
  List.foldlRecOn l f (motive := Confines s) (refl s) fun t ht a _ => ht.trans (h t a)

/-- A change of other blocks, or of other fields of these. -/
theorem same (h : s.SameBlocks t) : Confines s t where
  params := h.params
  intake := h.intake
  shaped := fun hs => (Formatter.SamePlaces.of_table h.table).shaped hs (h.timers ▸ hs.single) (h.timers ▸ hs.sorted)
  cleared := (Formatter.SamePlaces.of_table h.table).cleared h.remap
  chains := fun hs => hs.congr (fun i => by rw [State.record_of_store h.store]) (.of_table h.table)
  symbols := fun hs i => by rw [State.record_of_store h.store]; exact hs i
  modules := fun n hs => by unfold State.line; rw [h.lines]; exact hs
  tapes := fun _ d hs => by unfold State.tape; rw [h.tapes]; exact hs
  terms := fun k hs => by unfold State.term; rw [h.terms]; exact hs
  holding := fun hs => h.holding ▸ hs

/-! ## One rule per block -/

theorem withBus (s : State) (b : Bus) : Confines s (s.withBus b) := same ⟨rfl, rfl, rfl, rfl, rfl, rfl, rfl, rfl, rfl, rfl⟩
theorem withSession (s : State) (x : SessionUnit) : Confines s (s.withSession x) :=
  same ⟨rfl, rfl, rfl, rfl, rfl, rfl, rfl, rfl, rfl, rfl⟩
theorem withTlines (s : State) (x : Vector TermLine 2) : Confines s (s.withTlines x) :=
  same ⟨rfl, rfl, rfl, rfl, rfl, rfl, rfl, rfl, rfl, rfl⟩
theorem modifyTline (s : State) (l : Fin 2) (f : TermLine → TermLine) : Confines s (s.modifyTline l f) := withTlines s _
theorem sendFrame (s : State) (l : Fin 2) (f : TermFrame) : Confines s (s.sendFrame l f) := withTlines s _
theorem hand (s : State) (n : NoticeBody) : Confines s (s.hand n) := same ⟨rfl, rfl, rfl, rfl, rfl, rfl, rfl, rfl, rfl, rfl⟩
theorem handAll (s : State) (ns : List NoticeBody) : Confines s (s.handAll ns) := foldl hand ns s
theorem hostWrites (h : List HostWrite) (s : State) : Confines s (s.hostWrites h) := withBus s _

/-- A change of the formatter's queues, or of the notices it holds. -/
theorem withFmt (s : State) {x : Formatter} (htable : x.table = s.fmt.table) (htimers : x.timers = s.fmt.timers)
    (hremap : x.remap = s.fmt.remap) : Confines s (s.withFmt x) :=
  same ⟨rfl, rfl, rfl, htable, htimers, hremap, rfl, rfl, rfl, rfl⟩

/-- One record replaced by one with the same chain head and no longer symbol (R79, R80). -/
theorem setRecord (s : State) (i : Ix) {r : Record} (hhead : r.chainHead = (s.record i).chainHead)
    (hsymbol : (s.record i).symbol.length ≤ 5 → r.symbol.length ≤ 5) : Confines s (s.setRecord i r) :=
  { refl s with
    chains := fun hs => hs.congr (fun j => by
      rw [State.record_set]
      split
      · next e => rw [e, hhead]
      · rfl) (.of_table rfl)
    symbols := fun hs j => by
      rw [State.record_set]
      split
      · exact hsymbol (hs i)
      · exact hs j }

/-- Highlights and their timers, of a table that is otherwise the same. -/
theorem relit {ks : List Nat} {d : Option TickDir} {expiry : Option Nat} {y : Formatter} (h : Relit ks d expiry s.fmt y)
    (hs : s.fmt.Shaped → y.Shaped) : Confines s (s.withFmt y) :=
  { refl s with
    shaped := hs
    cleared := h.samePlaces.cleared (by rw [h.rest])
    chains := fun hc => hc.congr (fun _ => rfl) h.samePlaces }

theorem withLines (s : State) {v : Vector BoardLine 4} (h : ∀ n, (s.line n).ModulesSound → (Bank.get v n).ModulesSound) :
    Confines s (s.withLines v) := { refl s with modules := h }

theorem withTapes (s : State) {v : Vector Tape 2}
    (h : s.SymbolsShort → ∀ d, (s.tape d).Sound → (Bank.get v (slotOfTape d)).Sound) : Confines s (s.withTapes v) :=
  { refl s with tapes := h }

theorem withTerms (s : State) {v : Vector Terminal 16} (h : ∀ k, (s.term k).Sound → (Bank.get v k).Sound) :
    Confines s (s.withTerms v) := { refl s with terms := h }

/-- Every line changed in a way that keeps its modules in bounds. -/
theorem mapLines (s : State) {f : Fin 4 → BoardLine → BoardLine} (hf : ∀ n l, l.ModulesSound → (f n l).ModulesSound) :
    Confines s (s.withLines (Bank.mapAll s.lines f)) :=
  withLines s fun n hs => by
    rw [Bank.get_mapAll]
    exact hf n _ hs

theorem modifyLine (s : State) (n : Fin 4) {f : BoardLine → BoardLine}
    (hf : (s.line n).ModulesSound → (f (s.line n)).ModulesSound) : Confines s (s.modifyLine n f) :=
  withLines s fun k hs => by
    rw [Bank.get_modify]
    split
    · next e => exact e ▸ hf (e ▸ hs)
    · exact hs

/-- One tape unit changed in a way that keeps it in bounds where the symbols are short. -/
theorem modifyTape (s : State) (d : TapeId) {f : Tape → Tape}
    (hf : s.SymbolsShort → (s.tape d).Sound → (f (s.tape d)).Sound) : Confines s (s.modifyTape d f) :=
  withTapes s fun hsym k hs => by
    rw [Bank.get_modify]
    split
    · next e =>
      obtain rfl := slotOfTape_inj e
      exact hf hsym hs
    · exact hs

theorem mapTerms (s : State) {f : Fin 16 → Terminal → Terminal} (hf : ∀ k x, Terminal.Sound x → (f k x).Sound) :
    Confines s (s.withTerms (Bank.mapAll s.terms f)) :=
  withTerms s fun k hs => by
    rw [Bank.get_mapAll]
    exact hf k _ hs

theorem modifyTerm (s : State) (k : Fin 16) {f : Terminal → Terminal} (hf : (s.term k).Sound → (f (s.term k)).Sound) :
    Confines s (s.modifyTerm k f) :=
  withTerms s fun j hs => by
    rw [Bank.get_modify]
    split
    · next e => exact e ▸ hf (e ▸ hs)
    · exact hs

/-- A change of the notice unit that keeps its holding queue within its size (R185). -/
theorem withNotices (s : State) {x : NoticeUnit} (h : s.notices.holding.length ≤ 8 → x.holding.length ≤ 8) :
    Confines s (s.withNotices x) := { refl s with holding := h }

theorem modifyUnit (s : State) {f : NoticeUnit → NoticeUnit}
    (h : s.notices.holding.length ≤ 8 → (f s.notices).holding.length ≤ 8) : Confines s (s.modifyUnit f) := withNotices s h

/-! ## What one block hands to another -/

theorem handChange (s : State) (i : Ix) (fields : List ChangedField) (mark : Option TickDir) :
    Confines s (s.handChange i fields mark) := by
  unfold State.handChange
  have h : Confines s (s.withFmt { s.fmt with changes := s.fmt.changes ++ [⟨i, fields, mark⟩] }) := withFmt s rfl rfl rfl
  refine ite (refl s) (ite (h.trans (mapTerms _ fun k x hx => ?_)) h)
  split
  · exact hx.same ⟨rfl, rfl, rfl, rfl, rfl, rfl⟩
  · exact hx

theorem updateRecord (s : State) (i : Ix) {r : Record} (hhead : r.chainHead = (s.record i).chainHead)
    (hsymbol : (s.record i).symbol.length ≤ 5 → r.symbol.length ≤ 5) (fields : List ChangedField) (mark : Option TickDir) :
    Confines s (s.updateRecord i r fields mark) := (setRecord s i hhead hsymbol).trans (handChange _ _ _ _)

theorem handTape (s : State) (d : TapeId) {a : Arrival} (ha : a.Sound) : Confines s (s.handTape d a) :=
  modifyTape s d fun _ hs => hs.addInbox fun b hb => by rw [List.mem_singleton.1 hb]; exact ha

theorem handAssigned (s : State) (d : Option TapeId) {a : Arrival} (ha : a.Sound) : Confines s (s.handAssigned d a) := by
  cases d with
  | none => exact refl s
  | some d => exact handTape s d ha

theorem withEvents (s : State) (es : List TermEvent) : Confines s (s.withTerms (withEvents s.terms es)) :=
  mapTerms s fun _ _ hx => hx.same ⟨rfl, rfl, rfl, rfl, rfl, rfl⟩

theorem withNights (s : State) (flags : List Bool) : Confines s (s.withLines (withNights s.lines flags)) :=
  mapLines s fun _ _ hl => hl

theorem handWatchCheck (s : State) (i : Ix) (last : Price) : Confines s (s.handWatchCheck i last) :=
  mapTerms s fun k x hx => by
    split
    · exact hx.same ⟨rfl, rfl, rfl, rfl, rfl, rfl⟩
    · exact hx

/-! ## The session unit (chapter 04) -/

theorem handSession (s : State) (st : SessionState) : Confines s (s.handSession st) :=
  (withFmt s (x := { s.fmt with sessionEvents := s.fmt.sessionEvents ++ [st] }) rfl rfl rfl).trans (withEvents _ _)

theorem handStage (s : State) (st : FeedStage) : Confines s (s.handStage st) :=
  (withFmt s (x := { s.fmt with stageEvents := s.fmt.stageEvents ++ [st] }) rfl rfl rfl).trans (withEvents _ _)

theorem handNight (s : State) (flag : Bool) : Confines s (s.handNight flag) := (withNights s _).trans (withEvents _ _)

theorem setTime (s : State) (time : Option Tod) : Confines s (s.setTime time) := by
  cases time with
  | none => exact refl s
  | some t => exact (withSession s _).trans (withEvents _ _)

theorem setNight (s : State) : Confines s s.setNight := (withSession s _).trans (handNight _ _)

theorem nightAtChange (s : State) (old new : SessionState) : Confines s (s.nightAtChange old new) := by
  have hleave : Confines s (if old = .closed then s.leaveClosed else s) :=
    ite (ite ((withSession s _).trans (handNight _ _)) (withSession s _)) (refl s)
  exact ite (hleave.trans (ite (setNight _) (withSession _ _))) hleave

theorem feedResumed (s : State) (seq : Option Word) : Confines s (s.feedResumed seq) :=
  ite (refl s) (((withSession s _).trans (handStage _ _)).trans (hand _ _))

theorem feedAtChange (s : State) (old new : SessionState) : Confines s (s.feedAtChange old new) :=
  ite (feedResumed s _) (ite (withSession s _) (refl s))

theorem textAtChange (s : State) (old new : SessionState) : Confines s (s.textAtChange old new) := by
  unfold State.textAtChange
  split
  · next text h =>
    have ht : (Arrival.text text true s.session.tod).Sound := sessionText_sound h
    exact (handTape s .a ht).trans (handTape _ .b ht)
  · exact refl s

theorem changeSession (s : State) (new : SessionState) : Confines s (s.changeSession new) :=
  ite (refl s) (((((withSession s _).trans (nightAtChange _ _ _)).trans (feedAtChange _ _ _)).trans
    (textAtChange _ _ _)).trans (handSession _ _))

theorem signalTaken (s : State) (seq : Word) : Confines s (s.signalTaken seq) := (feedResumed s _).trans (withSession _ _)

theorem advanceTime (s : State) : Confines s s.advanceTime := by
  unfold State.advanceTime
  split
  · exact refl s
  · exact ite ((withSession s _).trans (withEvents _ _)) (withSession s _)

theorem becomeQuiet (s : State) : Confines s s.becomeQuiet := ((withSession s _).trans (handStage _ _)).trans (hand _ _)

theorem becomeLost (s : State) : Confines s s.becomeLost := by
  have hput : ∀ (s : State) (d : TapeId) (time : Option Tod), Confines s (s.modifyTape d fun x =>
      { x with watchInbox := x.watchInbox ++ [.text delayedText true time] }) := fun s d time =>
    modifyTape s d fun _ hs => hs.addWatchInbox fun b hb => by rw [List.mem_singleton.1 hb]; exact delayedText_sound
  have hdelay : ∀ s : State, Confines s s.announceDelay := fun s =>
    ite (refl s) (((hput s .a _).trans (hput _ .b _)).trans (withSession _ _))
  exact (((withSession s _).trans (handStage _ _)).trans (hdelay _)).trans (hand _ _)

/-! ## Terminal contexts (chapter 08) -/

theorem refreshWatchBit (s : State) (t : Fin 16) (i : Ix) : Confines s (s.refreshWatchBit t i) := setRecord s i rfl id

theorem checkWatches (s : State) (t : Fin 16) (i : Ix) (last : Price) : Confines s (s.checkWatches t i last) := by
  have h : Confines s (s.modifyTerm t fun x => x.alerted i last (alertMessage (s.record i) last)) :=
    modifyTerm s t fun h => Terminal.Sound.alerted h i last (s.record i)
  unfold State.checkWatches
  exact ite ((h.trans (handAll _ _)).trans (refreshWatchBit _ _ _)) (refl s)

theorem takeChecks (s : State) (t : Fin 16) : Confines s (s.takeChecks t) := by
  have h : Confines s (s.modifyTerm t fun x => { x with checks := [] }) := modifyTerm s t fun h => h
  unfold State.takeChecks
  exact h.trans (foldl (fun _ _ => checkWatches _ _ _ _) _ _)

theorem finishChecks (s : State) : Confines s s.finishChecks := foldl takeChecks _ s

theorem takeCheck (s : State) (t : Fin 16) : Confines s (s.takeCheck t) := by
  unfold State.takeCheck
  split
  · exact refl s
  · exact (modifyTerm s t fun h => h.same ⟨rfl, rfl, rfl, rfl, rfl, rfl⟩).trans (checkWatches _ _ _ _)

theorem clearWatches (s : State) (t : Fin 16) : Confines s (s.clearWatches t) :=
  (modifyTerm s t fun h => h.setWatches (Nat.zero_le _)).trans (foldl (fun _ _ => refreshWatchBit _ _ _) _ _)

theorem runtimeFault (s : State) (t : Fin 16) (first : Word) : Confines s (s.runtimeFault t first) :=
  (withBus s _).trans (hand _ _)

theorem endDispatch (s : State) (t : Fin 16) (beep : Bool) : Confines s (s.endDispatch t beep) :=
  modifyTerm s t fun h => by
    split
    · exact h.endWithBeep
    · exact h.endWork

theorem beginLoad (s : State) (t : Fin 16) (page : Word) (origin : LoadOrigin) : Confines s (s.beginLoad t page origin) :=
  modifyTerm s t id

theorem loadIfCounted (s : State) (t : Fin 16) (page : Word) (origin : LoadOrigin) :
    Confines s (s.loadIfCounted t page origin) := by
  unfold State.loadIfCounted
  split
  · exact ite ((withBus s _).trans (endDispatch _ _ _)) ((withBus s _).trans (beginLoad _ _ _ _))
  · exact (withBus s _).trans (endDispatch _ _ _)

theorem directKey (s : State) (t : Fin 16) (page : Word) : Confines s (s.directKey t page) :=
  ite (endDispatch _ _ _) (loadIfCounted _ _ _ _)

theorem showPage (s : State) (t : Fin 16) (page : Word) (push : Bool) (bits : PageMask) :
    Confines s (s.showPage t page push bits) := ite (endDispatch _ _ _) (loadIfCounted _ _ _ _)

theorem backPage (s : State) (t : Fin 16) : Confines s (s.backPage t) := by
  unfold State.backPage
  split
  · exact endDispatch _ _ _
  · split
    · exact endDispatch _ _ _
    · exact beginLoad _ _ _ _

theorem actOn (s : State) (t : Fin 16) (key : Fin 64) (action flags page attrs : Word) :
    Confines s (s.actOn t key action flags page attrs) := by
  have hn : Confines s (s.notifyKey t key (actionOf action) flags) := ite (hand s _) (refl s)
  unfold State.actOn
  dsimp only
  split
  · exact hn.trans (showPage _ _ _ _ _)
  · exact hn.trans (backPage _ _)
  · exact (hn.trans (modifyTerm _ _ fun h => h.clearAlert)).trans (endDispatch _ _ _)
  · exact hn.trans (endDispatch _ _ _)
  · exact hn.trans (endDispatch _ _ _)

theorem actionKey (s : State) (t : Fin 16) (key : Fin 64) (first : Word) : Confines s (s.actionKey t key first) := by
  unfold State.actionKey
  split
  · exact (runtimeFault s _ _).trans (endDispatch _ _ _)
  · split
    · exact (withBus s _).trans (actOn _ _ _ _ _ _ _)
    · exact (withBus s _).trans (endDispatch _ _ _)

theorem dispatchKey (s : State) (t : Fin 16) (key : Fin 64) : Confines s (s.dispatchKey t key) := by
  unfold State.dispatchKey
  split
  · dsimp only
    split
    · exact (withBus s _).trans (directKey _ _ _)
    · split
      · exact (withBus s _).trans (endDispatch _ _ _)
      · exact (withBus s _).trans (actionKey _ _ _ _)
  · exact (withBus s _).trans (endDispatch _ _ _)

theorem failLoad (s : State) (t : Fin 16) (origin : LoadOrigin) : Confines s (s.failLoad t origin) :=
  modifyTerm s t fun h => by
    split
    · exact h.endWithBeep
    · exact h.endWork

theorem moveInterest (s : State) (t : Fin 16) (old new : List (Option Ix)) : Confines s (s.moveInterest t old new) := by
  have hset : ∀ (flag : Bool) (s : State) (i : Ix), Confines s (s.setInterest t flag i) := fun _ s i => setRecord s i rfl id
  exact (foldl (hset false) _ s).trans (foldl (hset true) _ _)

/-- As many words are read as are asked for. -/
theorem readAll_length {os : List Word} {b b' : Bus} {ws : List Word} (h : b.readAll os = (b', .words ws)) :
    ws.length = os.length := by
  induction os generalizing b ws with
  | nil => cases h; rfl
  | cons o os ih =>
    unfold Bus.readAll at h
    split at h
    · split at h
      · next e =>
        cases h
        simp [ih e]
      · next hne => exact (hne _ _ h).elim
    · cases h
    · cases h

/-- A page record that has been read has a title of at most 24 characters and at most 16 entries (R151). -/
theorem readPage_lengths {first : Word} {b b' : Bus} {r : PageRecord} (h : b.readPage first = (b', some r)) :
    r.title.length ≤ 24 ∧ r.entries.length ≤ 16 := by
  unfold Bus.readPage at h
  split at h
  · dsimp only at h
    split at h
    · split at h
      · next e =>
        cases h
        refine ⟨(List.length_take_le _ _).trans (Nat.min_le_right _ _), ?_⟩
        have hlen := readAll_length e
        rw [List.length_map, hlen, List.length_map, List.length_range]
        exact Nat.min_le_right _ _
      · cases h
    · cases h
  · cases h

theorem loadRecord (s : State) (t : Fin 16) (page : Word) (origin : LoadOrigin) (first : Word) :
    Confines s (s.loadRecord t page origin first) := by
  unfold State.loadRecord
  refine ite ((runtimeFault _ _ _).trans (failLoad _ _ _)) ?_
  split
  · next e =>
    obtain ⟨htitle, hentries⟩ := readPage_lengths e
    exact (withBus _ _).trans (ite (failLoad _ _ _)
      ((moveInterest _ _ _ _).trans (modifyTerm _ _ fun h => h.showLoaded page origin htitle hentries)))
  · exact (withBus _ _).trans (failLoad _ _ _)

theorem loadPage (s : State) (t : Fin 16) (page : Word) (origin : LoadOrigin) : Confines s (s.loadPage t page origin) := by
  unfold State.loadPage
  split
  · exact ite ((withBus s _).trans (failLoad _ _ _)) ((withBus s _).trans (loadRecord _ _ _ _ _))
  · exact (withBus s _).trans (failLoad _ _ _)

/-! ## Terminal lines (chapter 08) -/

theorem beginVisit (s : State) (l : Fin 2) (a : Fin 8) : Confines s (s.beginVisit l a) := by
  have h : Confines s (s.modifyTline l fun x => { x with roundRobin := some a }) := modifyTline s l _
  unfold State.beginVisit
  dsimp only
  refine h.trans ?_
  split
  · unfold State.visitOnline
    dsimp only
    split
    · exact (sendFrame _ _ _).trans (modifyTerm _ _ id)
    · exact sendFrame _ _ _
  · unfold State.visitAsleep
    exact ite ((sendFrame _ _ _).trans (modifyTerm _ _ id)) ((sendFrame _ _ _).trans (modifyTerm _ _ id))
  · exact (sendFrame _ _ _).trans (modifyTerm _ _ id)

theorem termFrameSent (s : State) (l : Fin 2) : Confines s (s.termFrameSent l) := by
  unfold State.termFrameSent
  split
  · refine ite ?_ (refl s)
    split
    · exact sendFrame _ _ _
    · exact ite ((modifyTline s l _).trans (modifyTerm _ _ fun h => h.pollAgain _)) (sendFrame _ _ _)
  · exact refl s

theorem pollOutcome (s : State) (l : Fin 2) (t : Fin 16) {f : Terminal → Terminal}
    (h : ∀ {x : Terminal}, x.Sound → (f x).Sound) : Confines s (s.pollOutcome l t f) :=
  (modifyTline s l _).trans (modifyTerm _ _ fun hx => (h hx).same ⟨rfl, rfl, rfl, rfl, rfl, rfl⟩)

theorem reportReturn (s : State) (l : Fin 2) (t : Fin 16) (before : TermState) : Confines s (s.reportReturn l t before) :=
  ite (ite (modifyTline s l _) (hand s _)) (refl s)

theorem reportOffline (s : State) (t : Fin 16) (before : TermState) : Confines s (s.reportOffline t before) :=
  ite (hand s _) (refl s)

/-! ## Tape units (chapter 07) -/

theorem setTape (s : State) (id : TapeId) {r : Tape × List NoticeBody} (h : (s.tape id).Sound → r.1.Sound) :
    Confines s (s.setTape id r) := (modifyTape s id fun _ => h).trans (handAll _ _)

theorem takePrint (s : State) (id : TapeId) : Confines s (s.takePrint id) := by
  unfold State.takePrint
  split
  · next hi => exact setTape s id fun h => (h.dropInbox hi).2.placePrint id _ _ _ _ _ _
  · exact refl s

theorem takeCancel (s : State) (id : TapeId) : Confines s (s.takeCancel id) := by
  unfold State.takeCancel
  split
  · next hi => exact setTape s id fun h => (h.dropInbox hi).2.placeCancel id _ _ _ _ _
  · exact refl s

theorem takeNote (s : State) (id : TapeId) : Confines s (s.takeNote id) := by
  unfold State.takeNote
  split
  · next hi => exact setTape s id fun h => (h.dropInbox hi).2.placeNote id _ _ _
  · exact refl s

theorem takeText (s : State) (id : TapeId) (from_ : Supplier) : Confines s (s.takeText id from_) := by
  cases from_ with
  | intake =>
    unfold State.takeText
    dsimp only
    split
    · next hi => exact setTape s id fun h => (h.dropInbox hi).2.placeText id (h.dropInbox hi).1 _ _
    · exact refl s
  | feedWatch =>
    unfold State.takeText
    dsimp only
    split
    · next hi => exact setTape s id fun h => (h.dropWatchInbox hi).2.placeText id (h.dropWatchInbox hi).1 _ _
    · exact refl s

theorem writeRef (s : State) (id : TapeId) (i : Ix) (m : Mode) (p : Price) : Confines s (s.writeRef id i m p) :=
  ite (setRecord s i rfl fun h => h) (refl s)

end Confines

end Sys2Proof.Machine
end

section
/-! PROOF. The bounds through the tape renderer, the board formatter and its lines, the notice unit, intake and the postings (R77, R89,
R92, R100, R104, R125, R127, R185). -/

namespace Sys2Proof.Machine

/-! ## The renderer of a tape (R125 to R131) -/

/-- The text of an entry on the ribbon, with the records as they stand (R124, R128, R131). -/
def State.entryText (s : State) (id : TapeId) (x : Tape) : Entry → List Byte
  | .trade i m _ op oos merged => tradeText id x (s.record i) m op oos merged
  | .cancel i m price => cancelText (s.record i) m price
  | .haltNote i => symbolText (s.record i) ++ chars [' ', 'H', 'A', 'L', 'T', 'E', 'D']
  | .resumeNote i => symbolText (s.record i) ++ chars [' ', 'R', 'E', 'S', 'U', 'M', 'E', 'D']
  | .text cs _ => cs.map (showOr ribbonGlyph)

/-- Every text of an entry has at most 31 characters (R128). -/
theorem State.entryText_length {s : State} (hs : s.SymbolsShort) (id : TapeId) (x : Tape) {e : Entry} (he : e.Sound) :
    (s.entryText id x e).length ≤ 31 := by
  cases e with
  | trade i m t op oos merged => exact tradeText_length id x (hs i) m op oos merged
  | cancel i m price => exact cancelText_length (hs i) m price
  | haltNote i =>
    have h := symbolText_length (hs i)
    simp only [State.entryText, chars, List.length_append, List.length_map, List.length_cons, List.length_nil]
    omega
  | resumeNote i =>
    have h := symbolText_length (hs i)
    simp only [State.entryText, chars, List.length_append, List.length_map, List.length_cons, List.length_nil]
    omega
  | text cs urgent =>
    have h : cs.length ≤ 20 := he.2
    simp only [State.entryText, List.length_map]
    omega

/-- A FIFO of 15 characters or fewer with the rendering of an entry, and nothing else but a tape reference (R126 step 5). -/
theorem State.showEntry_emits (s : State) (id : TapeId) (e : Entry) :
    Confines (s.modifyTape id fun x => x.emit (s.entryText id x e)) (s.showEntry id e) := by
  cases e with
  | trade i m t op oos merged => exact .writeRef _ _ _ _ _
  | cancel i m price =>
    cases price with
    | none => exact .refl _
    | some p => exact .writeRef _ _ _ _ _
  | haltNote i => exact .refl _
  | resumeNote i => exact .refl _
  | text cs urgent => exact .refl _

/-- A tape changed, notices handed on, and the tape changed again. -/
theorem State.modifyTape_handAll (s : State) (id : TapeId) (f g : Tape → Tape) (ns : List NoticeBody) :
    ((s.modifyTape id f).handAll ns).modifyTape id g = (s.modifyTape id fun x => g (f x)).handAll ns := by
  have hbank : Bank.modify (Bank.modify s.tapes (slotOfTape id) f) (slotOfTape id) g =
      Bank.modify s.tapes (slotOfTape id) fun x => g (f x) := Bank.ext fun i => by
    simp only [Bank.get_modify]
    split <;> rfl
  simp only [State.handAll_eq]
  exact congrArg (fun v => ((s.withTapes v).withNotices _)) hbank

theorem takeHead_sound {level : Fin 4} {e : Entry} {q : List Entry} (he : e.Sound) :
    (takeHead level e q).1.Sound ∨ ∃ i m t op oos merged, (takeHead level e q).1 = .trade i m t op oos merged := by
  unfold takeHead
  split
  · split
    · exact .inr ⟨_, _, _, _, _, _, rfl⟩
    · exact .inl he
  · exact .inl he

namespace Confines

variable {s t u v : State}

/-- The head entry is taken out of the queue and rendered (R126). -/
theorem takeEntry {s : State} {id : TapeId} {e : Entry} {rest : List Entry} (hq : (s.tape id).queue = e :: rest)
    (hf : (s.tape id).fifo.length ≤ 15) : Confines s (s.takeEntry id e rest) := by
  unfold State.takeEntry
  dsimp only
  generalize hy : (s.tape id).evaluate = y
  generalize levelNotice id (s.tape id) y s.session.tod = ns
  refine Confines.trans ?_ (State.showEntry_emits _ _ _)
  rw [State.modifyTape_handAll]
  refine (modifyTape s id fun hsym hs => ?_).trans (handAll _ _)
  have hqueue := hs.queue_sound
  rw [hq] at hqueue
  obtain ⟨he, hrest⟩ := List.forall_mem_cons.1 hqueue
  obtain ⟨hlength, hmem⟩ := takeHead_rest y.level e rest
  have hcap : rest.length + 1 ≤ 256 := by
    have := hs.1
    rw [hq] at this
    simpa using this
  have hysound : y.Sound := hy ▸ hs
  have hyfifo : y.fifo.length ≤ 15 := by rw [← hy]; exact hf
  refine (hysound.setQueue (by omega) fun a ha => hrest a (hmem a ha)).emit hyfifo ?_
  have hrecords : State.SymbolsShort (((s.modifyTape id fun _ => { y with queue := (takeHead y.level e rest).2 }).handAll ns)) :=
    (handAll _ _).symbols hsym
  rcases takeHead_sound (level := y.level) (q := rest) he with h | ⟨i, m, t, op, oos, merged, h⟩
  · exact State.entryText_length hrecords id _ h
  · rw [h]
    exact tradeText_length id _ (hrecords i) m op oos merged

theorem render (s : State) (id : TapeId) : Confines s (s.render id) := by
  unfold State.render
  split
  · next hr =>
    have hf : (s.tape id).fifo.length ≤ 15 := of_decide_eq_true (Bool.and_eq_true_iff.1 hr).2
    split
    · next e rest hq =>
      unfold State.renderHead
      dsimp only
      split
      · split
        · next ht =>
          have hn := lateMinutes_le s.session.tod (s.tape id).queue
          exact modifyTape s id fun _ hs => (hs.emit hf (lateText_length hn ht)).setAnnounced hn
        · exact takeEntry hq hf
      · exact takeEntry hq hf
    · exact refl s
  · exact refl s

end Confines

/-! ## Highlights (R89 to R91) -/

theorem insertTimer_places (e : TimerEntry) (l : List TimerEntry) :
    ((insertTimer e l).map (·.placement)).Perm (e.placement :: l.map (·.placement)) := by
  induction l with
  | nil => exact .refl _
  | cons x r ih =>
    unfold insertTimer
    split
    · exact (ih.cons x.placement).trans (.swap _ _ _)
    · exact .refl _

/-- An entry behind every entry that does not expire later keeps the list in order (R89). -/
theorem insertTimer_sorted (e : TimerEntry) {l : List TimerEntry} (h : l.Pairwise fun a b => a.expiry ≤ b.expiry) :
    (insertTimer e l).Pairwise fun a b => a.expiry ≤ b.expiry := by
  induction l with
  | nil => exact List.pairwise_singleton _ _
  | cons x r ih =>
    obtain ⟨hx, hr⟩ := List.pairwise_cons.1 h
    unfold insertTimer
    split
    · next hle =>
      refine List.pairwise_cons.2 ⟨fun a ha => ?_, ih hr⟩
      rcases mem_insertTimer.1 ha with rfl | ha
      · exact hle
      · exact hx a ha
    · next hlt =>
      refine List.pairwise_cons.2 ⟨fun a ha => ?_, h⟩
      rcases List.mem_cons.1 ha with rfl | ha
      · omega
      · exact (Nat.le_of_lt (Nat.lt_of_not_le hlt)).trans (hx a ha)

namespace Formatter.Shaped

variable {x : Formatter}

/-- Fewer timer entries. -/
theorem filterTimers (h : x.Shaped) (p : TimerEntry → Bool) : ({ x with timers := x.timers.filter p } : Formatter).Shaped :=
  ⟨h.fits, (List.filter_sublist.map _).nodup h.single, h.sorted.filter _⟩

theorem dropTimer (h : x.Shaped) (k : Nat) : (x.dropTimer k).Shaped := h.filterTimers _

theorem setHighlight (h : x.Shaped) (k : Nat) (d : Option TickDir) : (x.setHighlight k d).Shaped := by
  have hsame : x.SamePlaces (x.setHighlight k d) := fun j => by
    rw [Formatter.placement_setHighlight]
    split
    · exact .inr ⟨d, rfl⟩
    · exact .inl rfl
  have ht : (x.setHighlight k d).timers = x.timers := by rw [Formatter.setHighlight_rest]
  exact hsame.shaped h (ht ▸ h.single) (ht ▸ h.sorted)

theorem endHighlight (h : x.Shaped) (k : Nat) : (x.endHighlight k).Shaped := (h.dropTimer k).setHighlight k none

theorem startHighlight (h : x.Shaped) (d : TickDir) (expiry k : Nat) : (x.startHighlight d expiry k).Shaped := by
  have hs := (h.dropTimer k).setHighlight k (some d)
  have ht : ((x.dropTimer k).setHighlight k (some d)).timers = x.timers.filter fun e => e.placement ≠ k := by
    rw [Formatter.setHighlight_rest]
    rfl
  refine ⟨hs.fits, ?_, insertTimer_sorted _ hs.sorted⟩
  refine (insertTimer_places ⟨k, expiry⟩ _).nodup_iff.2 (List.nodup_cons.2 ⟨?_, hs.single⟩)
  rw [ht]
  simp

theorem foldl {f : Formatter → Nat → Formatter} (hf : ∀ {x : Formatter} k, x.Shaped → (f x k).Shaped) (h : x.Shaped)
    (ks : List Nat) : (ks.foldl f x).Shaped :=
  List.foldlRecOn ks f (motive := Formatter.Shaped) h fun _ hx k _ => hf k hx

end Formatter.Shaped

namespace Confines

variable {s t u v : State}

theorem highlightChange (s : State) (e : ChangeEvent) : Confines s (s.highlightChange e) := by
  have hends : ∀ ks : List Nat, Confines s (s.withFmt (ks.foldl Formatter.endHighlight s.fmt)) := fun ks =>
    relit (Relit.foldl Relit.endHighlight ks s.fmt) fun h => h.foldl (fun k hx => hx.endHighlight k) ks
  unfold State.highlightChange
  split
  · exact relit (Relit.foldl (Relit.startHighlight _ _) _ _) fun h => h.foldl (fun k hx => hx.startHighlight _ _ k) _
  · exact ite (hends _) (refl s)

/-! ## The board formatter and the board lines (chapters 05 and 06) -/

theorem renderOne (s : State) (p : Placement) : Confines s (s.renderOne p) := by
  unfold State.renderOne
  split
  exact (withBus s _).trans (modifyLine _ _ fun h => h.modifyModule _ ((h _).showCells _ _))

theorem renderEntry (s : State) (k : Nat) : Confines s (s.renderEntry k) := by
  unfold State.renderEntry
  split
  · exact renderOne s _
  · exact refl s

theorem renderEntries (s : State) (ks : List Nat) : Confines s (s.renderEntries ks) := foldl renderEntry ks s

theorem formatChange (s : State) : Confines s s.formatChange := by
  unfold State.formatChange
  split
  · exact refl s
  · next r _ =>
    have h : Confines s (s.withFmt { s.fmt with changes := r }) := withFmt s rfl rfl rfl
    exact (h.trans (highlightChange _ _)).trans (renderEntries _ _)

theorem formatSession (s : State) : Confines s s.formatSession := by
  unfold State.formatSession
  split
  · exact refl s
  · next r _ =>
    have h : Confines s (s.withFmt { s.fmt with sessionEvents := r }) := withFmt s rfl rfl rfl
    exact h.trans (renderEntries _ _)

theorem formatStage (s : State) : Confines s s.formatStage := by
  unfold State.formatStage
  split
  · exact refl s
  · next stage r _ =>
    have h : Confines s (s.withFmt { s.fmt with stageEvents := r }) := withFmt s rfl rfl rfl
    exact h.trans (mapLines _ fun _ _ hl => hl.mapAll fun _ _ hx => hx.showStale stage)

theorem expireHighlights (s : State) : Confines s s.expireHighlights :=
  (relit (Relit.foldl Relit.endHighlight _ _) fun h => h.foldl (fun k hx => hx.endHighlight k) _).trans (renderEntries _ _)

end Confines

/-- What stands in the table of a line's REMAP stood there before, and belongs to another line. -/
theorem Begins.avoids {s t : State} {job : RemapJob} (h : Begins s t job) {k : Nat} {q : Placement}
    (hq : t.fmt.placement k = some q) :
    q.line ≠ job.line ∧ (s.fmt.placement k).any (fun p => p.line != job.line) = true := by
  obtain ⟨p, hp, e⟩ := h.kept k q hq
  have hne : ¬ t.fmt.placement k = none := by rw [hq]; exact Option.some_ne_none _
  rw [h.gone k, hp] at hne
  have hl : p.line ≠ job.line := by simpa using hne
  exact ⟨by rw [e]; exact hl, by rw [hp]; simpa using hl⟩

theorem Begins.cleared {s t : State} {job : RemapJob} (h : Begins s t job) : t.fmt.Cleared := fun job' hjob k q hq => by
  have e : t.fmt.remap = some job := by rw [h.rest]
  obtain rfl : job = job' := Option.some.inj (e.symm.trans hjob)
  exact (h.avoids hq).1

namespace Confines

/-- The REMAP of a line begins (R92 step 1). -/
theorem beginLine (s : State) (job : RemapJob) : Confines s (s.beginLine job) := by
  have h := Begins.beginLine s job
  exact {
    params := by rw [h.rest]
    intake := by rw [h.rest]
    shaped := fun hs => by
      have ht := hs.filterTimers fun e => (s.fmt.placement e.placement).all fun p => p.line != job.line
      refine ⟨fun k q hq => ?_, h.timers ▸ ht.single, h.timers ▸ ht.sorted⟩
      obtain ⟨p, hp, e⟩ := h.kept k q hq
      rw [e]
      exact hs.fits k p hp
    cleared := fun _ => h.cleared
    chains := fun hs i => by
      obtain ⟨ks, hc, hall⟩ := hs i
      refine ⟨_, h.chains i ks hc, fun k q hq hi => List.mem_filter.2 ⟨?_, (h.avoids hq).2⟩⟩
      obtain ⟨p, hp, e⟩ := h.kept k q hq
      exact hall k p hp (by rw [e] at hi; exact hi)
    symbols := fun hs i => by rw [h.records i]; exact hs i
    modules := fun n hs => by
      rw [h.lines n]
      split <;> exact hs
    tapes := fun _ d hs => by rw [h.rest]; exact hs
    terms := fun k hs => by rw [h.rest]; exact hs
    holding := fun hs => by rw [h.rest]; exact hs }

theorem reportRemap (s : State) (cause : RemapCause) (n : NoticeBody) : Confines s (s.reportRemap cause n) := by
  cases cause with
  | start => exact withFmt s rfl rfl rfl
  | posting => exact hand s n

theorem reportTally (s : State) (job : RemapJob) (t : Tally) : Confines s (s.reportTally job t) := by
  have h : Confines s (if t.faults = 0 then s
      else (s.withBus (s.bus.setError .tableFault)).reportRemap job.cause (.tableFaultRemap job.line t.faults)) :=
    ite (refl s) ((withBus s _).trans (reportRemap _ _ _))
  exact ite h (h.trans (reportRemap _ _ _))

theorem repaintLine (s : State) (job : RemapJob) (found : List (Fin 32 × Found)) : Confines s (s.repaintLine job found) :=
  (modifyLine s job.line fun h => h.remapped _ _ _).trans (renderEntries _ _)

theorem reportModule (s : State) (n : Fin 4) (body : NoticeBody) : Confines s (s.reportModule n body) :=
  ite (modifyLine s n fun h => h) (hand s body)

theorem writeFailed (s : State) (n : Fin 4) (m : Fin 32) (at_ : Nat) : Confines s (s.writeFailed n m at_) := by
  have h : Confines s (s.modifyLine n fun l => l.free.modifyModule m fun x => x.failed at_) :=
    modifyLine s n fun h => h.freeModule m fun hx => hx.failed at_
  exact ite (h.trans (reportModule _ _ _)) h

/-! ## The notice unit (chapter 10) -/

theorem takeNewest_length {p : Item → Bool} {q rest : List Item} {y : Item} (h : takeNewest p q = some (y, rest)) :
    rest.length + 1 = q.length := by
  induction q generalizing y rest with
  | nil => cases h
  | cons x q ih =>
    unfold takeNewest at h
    split at h
    · next hr =>
      cases h
      simpa using ih hr
    · split at h
      · cases h
        rfl
      · cases h

theorem loseItem (s : State) (x : Item) : Confines s (s.loseItem x) := by
  have hlost : ∀ s : State, Confines s s.writeLost := fun s => ite (withBus s _) (refl s)
  exact ((modifyUnit s fun h => h).trans (hlost _)).trans (withBus _ _)

/-- An item joins the holding queue, takes the place of one folded with it, or is lost (R185, R186). -/
theorem joinHolding (s : State) (x : Item) : Confines s (s.joinHolding x) := by
  unfold State.joinHolding
  split
  · next hlt =>
    have hlt : s.notices.holding.length < 8 := hlt
    exact modifyUnit s fun _ => by simpa using Nat.succ_le_of_lt hlt
  · split
    · next hr =>
      refine modifyUnit s fun h => ?_
      rw [← takeNewest_length hr] at h
      simpa using h
    · exact loseItem s x

theorem holdUnit (s : State) : Confines s s.holdUnit := modifyUnit s fun h => h

theorem setHand (s : State) (x : InHand) : Confines s (s.setHand x) := modifyUnit s fun h => h

theorem linked (s : State) (x : InHand) (body : NoticeBody) (c : Nat) : Confines s (s.linked x body c) :=
  (modifyUnit s fun h => h).trans (withBus _ _)

theorem linkedFirst (s : State) (x : InHand) (body : NoticeBody) (c : Nat) : Confines s (s.linkedFirst x body c) := by
  unfold State.linkedFirst
  exact (linked s x body c).trans (modifyUnit _ fun h => h)

theorem claimed (s : State) (x : InHand) (c : Nat) : Confines s (s.claimed x c) := by
  unfold State.claimed
  exact (setHand s _).trans (modifyUnit _ fun h => h)

theorem writeCell (s : State) (x : InHand) (body : NoticeBody) (c : Nat) : Confines s (s.writeCell x body c).1 := by
  unfold State.writeCell
  split
  · split
    · exact (withBus s _).trans (linkedFirst _ _ _ _)
    · exact (withBus s _).trans (setHand _ _)
  · exact (withBus s _).trans (holdUnit _)

theorem restartChain (s : State) (x : InHand) (body : NoticeBody) (c tail : Nat) (read : Option Word) (reason : BreakReason) :
    Confines s (s.restartChain x body c tail read reason) :=
  ((((withBus s _).trans (modifyUnit _ fun h => h)).trans (withBus _ _)).trans (linked _ x body c)).trans (joinHolding _ _)

theorem linkFrom (s : State) (x : InHand) (body : NoticeBody) (c tail : Nat) (bitmap : Word) :
    Confines s (s.linkFrom x body c tail bitmap).1 := by
  unfold State.linkFrom
  split
  · exact (withBus s _).trans (holdUnit _)
  · exact (withBus s _).trans (restartChain _ _ _ _ _ _ _)
  · split
    · exact (withBus s _).trans (restartChain _ _ _ _ _ _ _)
    · split
      · exact (withBus s _).trans (linked _ _ _ _)
      · exact (withBus s _).trans (holdUnit _)

theorem linkCell (s : State) (x : InHand) (body : NoticeBody) (c : Nat) : Confines s (s.linkCell x body c).1 := by
  unfold State.linkCell
  split
  · exact linked s _ _ _
  · split
    · exact (withBus s _).trans (linkFrom _ _ _ _ _ _)
    · exact (withBus s _).trans (holdUnit _)

theorem nextItem (s : State) : Confines s s.nextItem.1 := by
  unfold State.nextItem
  split
  · next x r hr =>
    have h : Confines s (s.modifyUnit fun u => { u with inHand := some ⟨x, [], false⟩, holding := r }) :=
      modifyUnit s fun h => by
        rw [hr] at h
        exact (Nat.le_succ _).trans h
    exact h
  · have h : Confines s (s.modifyUnit fun u => { u with inHand := none, unit := .idle }) := modifyUnit s fun h => h
    exact h

theorem workOn (s : State) (x : InHand) : Confines s (s.workOn x).1 := by
  unfold State.workOn
  split
  · exact nextItem s
  · split
    · split
      · unfold State.claimStart
        split
        · exact (withBus s _).trans (setHand _ _)
        · exact (withBus s _).trans (holdUnit _)
      · unfold State.claimCell
        split
        · exact (withBus s _).trans (claimed _ _ _)
        · exact (withBus s _).trans (holdUnit _)
    · split
      · split
        · exact linkCell s x _ _
        · exact writeCell s x _ _
      · exact nextItem s

theorem work (f : Nat) (s : State) : Confines s (s.work f) := by
  induction f generalizing s with
  | zero => exact refl s
  | succ f ih =>
    unfold State.work
    split
    · exact refl s
    · next x _ =>
      have h := workOn s x
      split <;> rename_i e <;> rw [e] at h
      · exact h.trans (ih _)
      · exact h

theorem runUnit (s : State) : Confines s s.runUnit := (modifyUnit s fun h => h).trans (work _ _)

theorem noticeRetry (s : State) : Confines s s.noticeRetry := ite (runUnit s) (refl s)

theorem takeNotice (s : State) : Confines s s.takeNotice := by
  unfold State.takeNotice
  split
  · exact refl s
  · next x r _ =>
    have h : Confines s (s.modifyUnit fun u => { u with inbox := r }) := modifyUnit s fun h => h
    exact ite (h.trans (joinHolding _ _)) ((h.trans (setHand _ _)).trans (runUnit _))

end Confines

/-! ## Feed intake (chapter 09) -/

namespace KeepsBlocks

variable {s t u : State}

theorem of_intakeActs (h : IntakeActs s t) : KeepsBlocks s t := by
  have hb := (Confines.withBus s t.bus).toKeepsBlocks.trans (withIntake _ t.intake)
  have hn : KeepsBlocks ((s.withBus t.bus).withIntake t.intake)
      (((s.withBus t.bus).withIntake t.intake).withNotices { s.notices with inbox := t.notices.inbox }) :=
    (Confines.withNotices _ (by exact fun h => h)).toKeepsBlocks
  rw [h.rest]
  exact hb.trans hn

end KeepsBlocks

/-! ## Postings (chapter 03) -/

/-- A verdict on a posting leads to a state within the bounds, with intake as it was. -/
def Verdict.Confines (s : State) : Verdict → Prop
  | .apply u => Machine.Confines s u
  | .remap u => Machine.Confines s u
  | _ => True

namespace Verdict.Confines

theorem withInstrument {s : State} {body : Body} {k : Nat} {f : Ix → Verdict} (h : ∀ i, (f i).Confines s) :
    (withInstrument body k f).Confines s := by
  unfold Machine.withInstrument
  split
  · exact h _
  · trivial

theorem whenDefined {s : State} {i : Ix} {v : Verdict} (h : v.Confines s) : (whenDefined s i v).Confines s := by
  unfold Machine.whenDefined
  split
  · trivial
  · exact h

theorem applied {s u : State} (h : Machine.Confines s u) : (Verdict.apply u).Confines s := h

theorem applyTrade (s : State) (i : Ix) (f : TradeFields) : Machine.Confines s (s.applyTrade i f) := by
  have hprint : ∀ u : State, Machine.Confines u (if f.oddLot then u else
      u.handAssigned (s.record i).tape (printOf i (s.record i).mode f (f.time.or s.session.tod))) := fun u =>
    .ite (.refl u) (.handAssigned _ _ (by trivial))
  have hcheck : ∀ u : State, Machine.Confines u (if f.outOfSeq then u else u.handWatchCheck i f.price) := fun u =>
    .ite (.refl u) (.handWatchCheck _ _ _)
  exact ((Machine.Confines.updateRecord s i (by rfl) (by exact fun h => h) _ _).trans (hprint _)).trans (hcheck _)

theorem trade (seq : Word) (body : Body) (s : State) : (judgeTrade seq body s).Confines s := by
  refine withInstrument fun i => ?_
  split
  · trivial
  · refine whenDefined ?_
    split
    · trivial
    · split
      · exact applyTrade _ _ _
      · trivial

theorem quote (seq : Word) (body : Body) (s : State) : (judgeQuote seq body s).Confines s :=
  withInstrument fun _ => whenDefined (applied (.updateRecord s _ (by rfl) (by exact fun h => h) _ _))

/-- A CANCEL changes no symbol and no chain head (R30, R31). -/
theorem record_cancel (r : Record) (id : Word) :
    (r.cancel id).1.chainHead = r.chainHead ∧ (r.cancel id).1.symbol = r.symbol := by
  unfold Record.cancel
  split
  · exact ⟨rfl, rfl⟩
  · dsimp only
    split <;> exact ⟨rfl, rfl⟩

theorem cancel (seq : Word) (body : Body) (s : State) : (judgeCancel seq body s).Confines s :=
  withInstrument fun i => whenDefined (applied ((Machine.Confines.ite (.refl s)
    (.updateRecord s i (record_cancel _ _).1 (fun h => by rw [(record_cancel _ _).2]; exact h) _ _)).trans
      (.handAssigned _ _ (by trivial))))

theorem summary (seq : Word) (body : Body) (s : State) : (judgeSummary seq body s).Confines s := by
  refine withInstrument fun i => whenDefined ?_
  split
  · exact applied (.ite (.refl s) (.updateRecord s i (by rfl) (by exact fun h => h) _ _))
  · trivial

theorem halt (seq : Word) (body : Body) (s : State) : (judgeHalt seq body s).Confines s := by
  refine withInstrument fun i => ?_
  split
  · trivial
  · exact whenDefined (applied (.ite (.updateRecord s i (by rfl) (by exact fun h => h) _ _)
      ((Machine.Confines.updateRecord s i (by rfl) (by exact fun h => h) _ _).trans (.handAssigned _ _ (by trivial)))))

theorem resume (seq : Word) (body : Body) (s : State) : (judgeResume seq body s).Confines s :=
  withInstrument fun i => whenDefined (applied (.ite
    ((Machine.Confines.updateRecord s i (by rfl) (by exact fun h => h) _ _).trans (.handAssigned _ _ (by trivial))) (.refl s)))

theorem defineFields_symbol {body : Body} {f : DefineFields} (h : defineFields body = some f) : f.symbol.length ≤ 5 := by
  unfold defineFields at h
  dsimp only at h
  split at h
  · split at h
    · next hc =>
      cases h
      rw [Body.chars_length]
      exact hc.1
    · cases h
  · cases h

theorem applyDefine (s : State) (i : Ix) {f : DefineFields} (hf : f.symbol.length ≤ 5) :
    Machine.Confines s (s.applyDefine i f) := by
  have hc := Machine.Confines.finishChecks s
  unfold State.applyDefine
  generalize s.finishChecks = u at hc ⊢
  exact hc.trans (.updateRecord u i (r := (u.record i).redefine f) rfl (fun _ => hf) _ _)

theorem applyRemove (s : State) (i : Ix) : Machine.Confines s (s.applyRemove i) := by
  have hc := Machine.Confines.finishChecks s
  unfold State.applyRemove
  generalize s.finishChecks = u at hc ⊢
  have hdrop : Machine.Confines u (u.withTerms (Bank.mapAll u.terms fun _ x => x.dropWatches i)) :=
    .mapTerms u fun _ _ hx => hx.dropWatches i
  dsimp only
  generalize u.withTerms (Bank.mapAll u.terms fun _ x => x.dropWatches i) = v at hdrop ⊢
  exact (hc.trans hdrop).trans (.updateRecord v i (r := (v.record i).remove) rfl (fun _ => Nat.zero_le _) _ _)

theorem define (seq : Word) (body : Body) (s : State) : (judgeDefine seq body s).Confines s := by
  refine withInstrument fun i => ?_
  split
  · exact applyRemove s i
  · split
    · next f hf => exact applyDefine s i (defineFields_symbol hf)
    · trivial

theorem session (seq : Word) (body : Body) (s : State) : (judgeSession seq body s).Confines s := by
  unfold judgeSession
  split
  · trivial
  · trivial
  · exact (Machine.Confines.setTime s _).trans (.changeSession _ _)

theorem tapeText (seq : Word) (body : Body) (s : State) : (judgeTapeText seq body s).Confines s := by
  unfold judgeTapeText
  split
  · split
    · trivial
    · next hlength =>
      have htext : ∀ urgent time,
          (Arrival.text (body.chars 6 (min (body.at 5).toNat 20)) urgent time).Sound := fun _ _ => by
        show tapeTextSound _
        unfold tapeTextSound
        rw [Body.chars_length]
        have : (body.at 5).toNat ≠ 0 := fun e => hlength (BitVec.eq_of_toNat_eq e)
        omega
      exact applied (.foldl (fun u d => Machine.Confines.handTape u d (htext _ _)) _ s)
  · trivial

theorem command {f : State → Fin 16 → State} (hf : ∀ s t, Machine.Confines s (f s t)) (s : State) (ts : List (Fin 16)) :
    Machine.Confines s (s.command ts f) := .foldl (fun s t => (Machine.Confines.takeChecks s t).trans (hf _ t)) ts s

theorem judgeCommand {f : State → Fin 16 → State} (hf : ∀ s t, Machine.Confines s (f s t)) (seq : Word) (body : Body)
    (s : State) : (judgeCommand f seq body s).Confines s := by
  unfold Machine.judgeCommand
  split
  · exact command hf s _
  · trivial

theorem text (seq : Word) (body : Body) (s : State) : (judgeText seq body s).Confines s := by
  unfold judgeText
  split
  · dsimp only
    split
    · trivial
    · exact command (fun s t => .modifyTerm s t fun h => h.setText _ _) s _
  · trivial

theorem setPage (seq : Word) (body : Body) (s : State) : (judgeSetPage seq body s).Confines s := by
  unfold judgeSetPage
  split
  · trivial
  · split
    · split
      · trivial
      · exact (Machine.Confines.withBus s _).trans (command (fun s t => .modifyTerm s t fun h => h.askPage _) _ _)
    · trivial

/-- A watch that trips stays in the list (R159). -/
theorem checkWatches_count (s : State) (t k : Fin 16) (i : Ix) (last : Price) :
    ((s.checkWatches t i last).term k).watches.length = (s.term k).watches.length := by
  unfold State.checkWatches
  dsimp only
  split
  · show (((s.modifyTerm t _).handAll _).term k).watches.length = _
    rw [State.handAll_eq]
    show ((s.modifyTerm t _).term k).watches.length = _
    rw [(changesTerm_modify s t _).2 k]
    split
    · next e =>
      rw [e]
      unfold Terminal.alerted
      rw [(Terminal.SameLists.giveBeep _).watches]
      simp
    · rfl
  · rfl

theorem takeChecks_count (s : State) (t : Fin 16) :
    ((s.takeChecks t).term t).watches.length = (s.term t).watches.length := by
  have h0 : ((s.modifyTerm t fun x => { x with checks := [] }).term t).watches = (s.term t).watches := by
    rw [(changesTerm_modify s t _).2 t, if_pos rfl]
  unfold State.takeChecks
  refine List.foldlRecOn (s.term t).checks _ (motive := fun u : State => (u.term t).watches.length = (s.term t).watches.length)
    (by rw [h0]) fun u hu e _ => ?_
  rw [checkWatches_count, hu]

/-- A watch is added to a list of three or fewer (R59). -/
theorem addWatch {s : State} {t : Fin 16} (h : (s.term t).watches.length < 4) (i : Ix) (level : Price) (dir : Direction) :
    Machine.Confines s (s.addWatch t i level dir) := by
  have hadd : Machine.Confines s (s.modifyTerm t fun x => { x with watches := x.watches ++ [⟨i, level, dir, false⟩] }) :=
    .modifyTerm s t fun hs => hs.setWatches (by simpa using Nat.succ_le_of_lt h)
  exact hadd.trans (.refreshWatchBit _ _ _)

theorem setWatch (seq : Word) (body : Body) (s : State) : (judgeSetWatch seq body s).Confines s := by
  unfold judgeSetWatch
  split
  · next t _ =>
    refine withInstrument fun i => ?_
    unfold judgeWatch
    split
    · refine whenDefined ?_
      split
      · next level dir _ _ hlt =>
        exact applied ((Machine.Confines.takeChecks s t).trans
          (addWatch (by rw [takeChecks_count]; exact hlt) i level dir))
      · trivial
    · trivial
  · trivial

theorem remap (seq : Word) (body : Body) (s : State) : (judgeRemap seq body s).Confines s := by
  unfold judgeRemap
  split
  · exact Machine.Confines.beginLine s _
  · trivial

theorem snapshot (seq : Word) (body : Body) (s : State) : (judgeSnapshot seq body s).Confines s :=
  withInstrument fun _ => applied (.same ⟨rfl, rfl, rfl, rfl, rfl, rfl, rfl, rfl, rfl, rfl⟩)

theorem mark (seq : Word) (body : Body) (s : State) : (judgeMark seq body s).Confines s :=
  applied (.ite (.hand s _) (.refl s))

/-- A verdict that names no cell is reached whatever the posting says (R42, R56). -/
theorem judgeAs {row : Row} {named : Named} {judge j : Judge} (h : ∀ seq body s, (judge seq body s).Confines s)
    (e : judgeAs row named judge = some j) : ∀ seq body s, (j seq body s).Confines s := by
  unfold Machine.judgeAs at e
  split at e
  · cases e; exact fun _ _ _ => trivial
  · cases e; exact fun _ _ _ => trivial
  · split at e
    · cases e; exact h
    · cases e

end Verdict.Confines

end Sys2Proof.Machine
end

section
/-! PROOF. Intake keeps a current cell in every state but STOPPED, owes a TAKEN write in TAKING alone, and stands at a cell of the pool
(R169 to R175). -/

namespace Sys2Proof.Machine

/-- No TAKEN write is owed, and intake has a current cell unless it is STOPPED. -/
def Intake.Free (x : Intake) : Prop := x.owed = false ∧ (x.state ≠ .stopped → x.current.isSome = true)

theorem Intake.Free.sound {x : Intake} (h : x.Free) : x.Sound := ⟨h.2, fun e => Bool.noConfusion (h.1.symm.trans e)⟩

theorem Intake.Sound.free {x : Intake} (h : x.Sound) (hs : x.state ≠ .taking) : x.Free :=
  ⟨Bool.eq_false_iff.2 fun e => hs (h.2 e), h.1⟩

/-- From one intake to another that owes what the first owes, and has a current cell where the first has one. -/
structure Intake.Roams (x y : Intake) : Prop where
  owed : y.owed = x.owed
  held : x.current.isSome = true → y.current.isSome = true

namespace Intake.Roams

theorem refl (x : Intake) : x.Roams x := ⟨rfl, id⟩

theorem trans {x y z : Intake} (h : x.Roams y) (g : y.Roams z) : x.Roams z := ⟨g.owed.trans h.owed, g.held ∘ h.held⟩

theorem stateStep (s : State) (c : Nat) : s.intake.Roams (s.stateStep c).1.intake := by
  unfold State.stateStep
  split
  · exact refl _
  · exact ⟨rfl, id⟩
  · dsimp only
    split
    · exact refl _
    · split
      · exact ⟨rfl, id⟩
      · split <;> exact ⟨rfl, id⟩

theorem followLink (s : State) (c d : Nat) : s.intake.Roams (s.followLink c d).1.intake := by
  unfold State.followLink
  split
  · split
    · unfold State.freeAndMove
      split
      · exact ⟨rfl, fun _ => rfl⟩
      · exact refl _
    · exact ⟨rfl, id⟩
  · exact refl _

theorem linkStep (s : State) (c : Nat) : s.intake.Roams (s.linkStep c).1.intake := by
  unfold State.linkStep
  split
  · exact refl _
  · exact ⟨rfl, id⟩
  · dsimp only
    split
    · exact refl _
    · split
      · exact ⟨rfl, id⟩
      · split
        · exact ⟨rfl, id⟩
        · next b w _ _ _ _ => exact followLink (s.withBus b) c w.toNat

theorem lookLoop (f : Nat) (s : State) : s.intake.Roams (s.lookLoop f).intake := by
  induction f generalizing s with
  | zero => exact refl _
  | succ f ih =>
    unfold State.lookLoop
    split
    · exact refl _
    · next c _ =>
      have h : s.intake.Roams (if s.intake.taken then s.linkStep c else s.stateStep c).1.intake := by
        split
        · exact linkStep s c
        · exact stateStep s c
      split <;> rename_i e <;> rw [e] at h
      · exact h.trans (ih _)
      · exact h

end Intake.Roams

/-- A look of an intake without a current cell finds nothing. -/
theorem State.look_none {s : State} (h : s.intake.current = none) : s.look = s := by
  unfold State.look
  rw [show 2 * s.params.cellCount + 4 = (2 * s.params.cellCount + 3) + 1 from rfl, State.lookLoop, h]

theorem Intake.Free.look {s : State} (h : s.intake.Free) : s.look.intake.Free := by
  cases hc : s.intake.current with
  | none => rw [State.look_none hc]; exact h
  | some c =>
    have hr := Intake.Roams.lookLoop (2 * s.params.cellCount + 4) s
    exact ⟨hr.owed.trans h.1, fun _ => hr.held (by rw [hc]; rfl)⟩

/-- What a RESTART INTAKE, a look and what follows a TAKEN write keep. -/
structure Strays (s t : State) : Prop where
  params : t.params = s.params
  free : s.intake.Free → t.intake.Free
  cell : s.AtCell → t.AtCell

/-- The bounds of every block hold after where they held before, those of intake among them. -/
structure Minds (s t : State) : Prop extends KeepsBlocks s t where
  sound : s.intake.Sound → t.intake.Sound
  cell : s.AtCell → t.AtCell

/-- A state with the intake and the parameters of another stands at its cell. -/
theorem State.AtCell.congr {s t : State} (h : s.AtCell) (hp : t.params = s.params) (hi : t.intake.current = s.intake.current) :
    t.AtCell := by
  unfold State.AtCell
  rw [hp, hi]
  exact h

theorem Confines.minds {s t : State} (h : Confines s t) : Minds s t :=
  { h.toKeepsBlocks with sound := fun hs => h.intake ▸ hs, cell := fun hs => hs.congr h.params (by rw [h.intake]) }

namespace Strays

variable {s t u : State}

theorem trans (h : Strays s t) (g : Strays t u) : Strays s u := ⟨g.params.trans h.params, g.free ∘ h.free, g.cell ∘ h.cell⟩

theorem look (s : State) : Strays s s.look :=
  ⟨by rw [(IntakeActs.look s).rest], fun h => h.look, fun h => (Looked.look h).cell h⟩

theorem stopped (s : State) (b : Bus) : Strays s ((s.withBus b).stopIntake) :=
  ⟨rfl, fun h => ⟨h.1, fun e => absurd rfl e⟩, fun h => h⟩

theorem restartAt (s : State) {c : Nat} (hc : c < s.params.cellCount) (quiesced : Bool) : Strays s (s.restartAt c quiesced) := by
  have h : Strays s ((s.modifyIntake fun x =>
      { x with current := some c, taken := false, lastSeq := none, quiescePending := false }).writeCurrent c) :=
    ⟨rfl, fun h => ⟨h.1, fun _ => rfl⟩, fun _ d hd => Option.some.inj hd ▸ hc⟩
  have hset : ∀ st, Strays s (((s.modifyIntake fun x =>
      { x with current := some c, taken := false, lastSeq := none, quiescePending := false }).writeCurrent c).setIntake st) :=
    fun _ => ⟨rfl, fun h => ⟨h.1, fun _ => rfl⟩, h.cell⟩
  unfold State.restartAt
  dsimp only
  split
  · exact hset _
  · exact (hset _).trans (look _)

theorem readRestart (s : State) (quiesced : Bool) : Strays s (s.readRestart quiesced) := by
  have hb : ∀ b b', Strays s ((s.withBus b).withBus b') := fun _ _ => ⟨rfl, id, id⟩
  unfold State.readRestart
  split
  · dsimp only
    split
    · split
      · next b₁ _ _ _ b₂ _ _ ha =>
        simp only [State.restartAccepts, Bool.and_eq_true, decide_eq_true_eq] at ha
        exact (hb b₁ b₂).trans (restartAt ((s.withBus b₁).withBus b₂) ha.1.1 quiesced)
      · exact (hb _ _).trans (stopped _ _)
    · exact stopped s _
  · exact stopped s _

theorem restartIntake (s : State) : Strays s s.restartIntake := by
  have h : Strays s (s.modifyIntake fun x => { x with restartPending := false }) := ⟨rfl, id, id⟩
  unfold State.restartIntake
  exact h.trans (readRestart _ _)

/-- After a TAKEN write, which an intake without a current cell does not make. -/
theorem afterTaken {s : State} (hc : s.intake.current.isSome = true) : Strays s s.afterTaken := by
  unfold State.afterTaken
  split
  · exact restartIntake s
  · split
    · exact ⟨rfl, fun h => ⟨h.1, fun _ => hc⟩, fun h => h⟩
    · exact look s

end Strays

namespace Minds

variable {s t u : State}

theorem refl (s : State) : Minds s s := { KeepsBlocks.refl s with sound := id, cell := id }

theorem trans (h : Minds s t) (g : Minds t u) : Minds s u :=
  { h.toKeepsBlocks.trans g.toKeepsBlocks with sound := g.sound ∘ h.sound, cell := g.cell ∘ h.cell }

theorem ite {p : Prop} [Decidable p] {a b : State} (ha : Minds s a) (hb : Minds s b) : Minds s (if p then a else b) := by
  split
  · exact ha
  · exact hb

/-- Outside TAKING no TAKEN write is owed, and what starts so ends so. -/
theorem of_strays (hk : KeepsBlocks s t) (h : Strays s t) (hs : s.intake.state ≠ .taking) : Minds s t :=
  { hk with sound := fun hi => (h.free (hi.free hs)).sound, cell := h.cell }

/-- A change of intake that keeps its current cell and leaves it in order. -/
theorem modifyIntake (s : State) {f : Intake → Intake} (hs : s.intake.Sound → (f s.intake).Sound)
    (hc : (f s.intake).current = s.intake.current) : Minds s (s.modifyIntake f) :=
  { KeepsBlocks.modifyIntake s f with sound := hs, cell := fun h => h.congr rfl hc }

/-- A change of intake that leaves its state, its current cell and the owed mark. -/
theorem aside (s : State) {f : Intake → Intake} (hs : (f s.intake).state = s.intake.state)
    (hc : (f s.intake).current = s.intake.current) (ho : (f s.intake).owed = s.intake.owed) : Minds s (s.modifyIntake f) :=
  modifyIntake s (fun h => ⟨fun e => hc ▸ h.1 (hs ▸ e), fun e => hs.trans (h.2 (ho ▸ e))⟩) hc

/-- Intake takes another state while it has a current cell and owes no TAKEN write. -/
theorem setIntake {s : State} (h : s.intake.Sound → s.intake.owed = false ∧ s.intake.current.isSome = true) (st : IntakeState) :
    Minds s (s.setIntake st) :=
  modifyIntake s (fun hs => Intake.Free.sound ⟨(h hs).1, fun _ => (h hs).2⟩) rfl

theorem withBus (s : State) (b : Bus) : Minds s (s.withBus b) := (Confines.withBus s b).minds

theorem accept (s : State) : Minds s s.accept := withBus s _

theorem refuse (s : State) : Minds s s.refuse := withBus s _

theorem look {s : State} (h : s.intake.state ≠ .taking) : Minds s s.look := of_strays (.of_intakeActs (.look s)) (.look s) h

theorem restartIntake {s : State} (h : s.intake.state ≠ .taking) : Minds s s.restartIntake :=
  of_strays (.of_intakeActs (.restartIntake s)) (.restartIntake s) h

/-- Intake counts the posting in hand. -/
theorem postingTaken {s : State} (hc : s.intake.current.isSome = true) : Minds s s.postingTaken := by
  let m := s.modifyIntake fun x => { x with state := .waiting, taken := true, owed := false, postingsTaken := x.postingsTaken + 1 }
  have hw : m.writeCounts.intake = m.intake := by
    unfold State.writeCounts
    dsimp only
    split <;> rfl
  have hi : (m.writeCounts.signalTaken m.intake.seqInHand).intake = m.intake :=
    (Confines.signalTaken _ _).intake.trans hw
  have hm : Minds s m := modifyIntake s (fun _ => Intake.Free.sound ⟨rfl, fun _ => hc⟩) rfl
  have hcounts : Minds m m.writeCounts :=
    { KeepsBlocks.of_intakeActs (.writeCounts m) with
      sound := fun h => hw ▸ h, cell := fun h => h.congr (by rw [(IntakeActs.writeCounts m).rest]) (by rw [hw]) }
  refine ((hm.trans hcounts).trans (Confines.signalTaken _ _).minds).trans
    (of_strays (.of_intakeActs (.afterTaken _)) (.afterTaken ?_) ?_)
  · exact (congrArg (·.current.isSome) hi).trans hc
  · rw [hi]; exact fun h => IntakeState.noConfusion h

theorem writeTaken (s : State) : Minds s s.writeTaken := by
  unfold State.writeTaken
  split
  · exact refl s
  · next c hc =>
    have hsome : s.intake.current.isSome = true := by rw [hc]; rfl
    split
    · exact (withBus s _).trans (postingTaken hsome)
    · exact (withBus s _).trans (modifyIntake _ (fun _ => ⟨fun _ => hsome, fun _ => rfl⟩) rfl)

/-! ## Commands of intake -/

theorem pollIntake (s : State) : Minds s s.pollIntake := by
  unfold State.pollIntake
  split
  · next h => exact look (by rw [h]; exact fun e => IntakeState.noConfusion e)
  · exact ite (writeTaken s) (refl s)

theorem waitAndLook {s : State} (h : s.intake.state = .quiesced) : Minds s s.waitAndLook := by
  have hq : s.intake.Sound → s.intake.owed = false ∧ s.intake.current.isSome = true := fun hs =>
    have hf := hs.free (by rw [h]; exact fun e => IntakeState.noConfusion e)
    ⟨hf.1, hf.2 (by rw [h]; exact fun e => IntakeState.noConfusion e)⟩
  exact (setIntake hq .waiting).trans (look (by exact fun e => IntakeState.noConfusion e))

theorem quiesce (s : State) : Minds s s.quiesce := by
  unfold State.quiesce
  split
  · exact refuse s
  · next h =>
    refine (accept s).trans (setIntake (fun hs => ?_) _)
    have hf := Intake.Sound.free hs (by rw [show s.accept.intake = s.intake from rfl, h]; exact fun e => IntakeState.noConfusion e)
    exact ⟨hf.1, hf.2 (by rw [show s.accept.intake = s.intake from rfl, h]; exact fun e => IntakeState.noConfusion e)⟩
  · exact (accept s).trans (aside _ rfl rfl rfl)
  · exact (accept s).trans (aside _ rfl rfl rfl)
  · exact accept s

theorem resume (s : State) : Minds s s.resume := by
  have h : Minds s (s.accept.modifyIntake fun x => { x with quiescePending := false }) :=
    (accept s).trans (aside _ rfl rfl rfl)
  unfold State.resume
  dsimp only
  split
  · next hq => exact h.trans (waitAndLook hq)
  · exact h

theorem restart (s : State) : Minds s s.restart := by
  have hr : s.intake.state ≠ .taking → Minds s s.accept.restartIntake := fun h => (accept s).trans (restartIntake h)
  unfold State.restart
  split
  · exact (accept s).trans (aside _ rfl rfl rfl)
  · exact (accept s).trans (aside _ rfl rfl rfl)
  all_goals next h => exact hr (by rw [h]; exact fun e => IntakeState.noConfusion e)

theorem armTick (s : State) : Minds s s.armTick := aside s rfl rfl rfl

/-! ## Postings -/

theorem hand (s : State) (n : NoticeBody) : Minds s (s.hand n) := (Confines.hand s n).minds

theorem refusePosting (s : State) (seq kind : Word) (reason : Reason) : Minds s (s.refusePosting seq kind reason) := hand s _

theorem holdSequence (s : State) (seq : Word) : Minds s (s.holdSequence seq) := aside s rfl rfl rfl

theorem noteSequence (s : State) (seq : Word) : Minds s (s.noteSequence seq) := by
  unfold State.noteSequence
  split
  · exact (ite (refl s) (hand s _)).trans (aside _ rfl rfl rfl)
  · exact aside s rfl rfl rfl

theorem leavePosting {s : State} (h : s.intake.Sound → s.intake.owed = false ∧ s.intake.current.isSome = true) :
    Minds s s.leavePosting := setIntake h .waiting

end Minds

/-- The sequence check leaves whether a TAKEN write is owed, and the current cell. -/
theorem State.noteSequence_owed (s : State) (seq : Word) :
    (s.noteSequence seq).intake.owed = s.intake.owed ∧ (s.noteSequence seq).intake.current = s.intake.current := by
  unfold State.noteSequence
  split
  · split <;> exact ⟨rfl, rfl⟩
  · exact ⟨rfl, rfl⟩

namespace Minds

variable {s t u : State}

theorem judgePosting {s : State} (h : s.intake.Sound → s.intake.owed = false ∧ s.intake.current.isSome = true)
    {judge : Judge} (hj : ∀ seq body s, (judge seq body s).Confines s) (seq kind : Word) (body : Body) :
    Minds s (s.judgePosting judge seq kind body) := by
  have hseq : Minds s (s.holdSequence seq) := holdSequence s seq
  have hnote := hseq.trans (noteSequence (s.holdSequence seq) seq)
  obtain ⟨howed, hcurrent⟩ := State.noteSequence_owed (s.holdSequence seq) seq
  unfold State.judgePosting
  split
  · exact (hseq.trans (refusePosting _ seq kind _)).trans (writeTaken _)
  · have hv := hj seq body ((s.holdSequence seq).noteSequence seq)
    dsimp only
    split <;> rename_i e <;> rw [e] at hv
    · exact (hnote.trans (refusePosting _ seq kind _)).trans (writeTaken _)
    · exact ((hnote.trans (withBus _ _)).trans (refusePosting _ seq kind _)).trans (writeTaken _)
    · exact (hnote.trans hv.minds).trans (writeTaken _)
    · refine { ((hnote.trans hv.minds).toKeepsBlocks.trans (KeepsBlocks.setIntake _ _)) with
        sound := fun hs => ?_, cell := fun hs => ((hnote.trans hv.minds).cell hs).congr rfl rfl }
      have hi := congrArg Intake.owed (Machine.Confines.intake hv)
      have hc := congrArg Intake.current (Machine.Confines.intake hv)
      refine Intake.Free.sound ⟨?_, fun _ => ?_⟩
      · exact (hi.trans howed).trans (h hs).1
      · exact (congrArg Option.isSome (hc.trans hcurrent)).trans (h hs).2
    · exact (withBus s _).trans (leavePosting h)

theorem finishPosting {s : State} (h : s.intake.Sound → s.intake.owed = false ∧ s.intake.current.isSome = true)
    {judge : Judge} (hj : ∀ seq body s, (judge seq body s).Confines s) (c : Nat) : Minds s (s.finishPosting judge c) := by
  unfold State.finishPosting
  split
  · exact (withBus s _).trans (leavePosting h)
  · next b seq kind _ =>
    exact (((withBus s b).trans (holdSequence _ seq)).trans (refusePosting _ seq kind _)).trans (writeTaken _)
  · next b seq kind body _ => exact (withBus s b).trans (judgePosting (s := s.withBus b) h hj seq kind body)

theorem takePosting (s : State) (row : Row) {judge : Judge} (hj : ∀ seq body s, (judge seq body s).Confines s) :
    Minds s (s.takePosting row judge) := by
  unfold State.takePosting
  split
  · exact refl s
  · next c hc =>
    split
    · next j e =>
      simp only [State.inHand] at hc
      split at hc
      · next ht => exact finishPosting (fun _ => ⟨ht.2.2, by rw [hc]; rfl⟩) (Verdict.Confines.judgeAs hj e) c
      · cases hc
    · exact refl s

theorem noticeRetry (s : State) : Minds s s.noticeRetry := (Confines.noticeRetry s).minds

end Minds

end Sys2Proof.Machine
end

section
/-! PROOF. A placement built into a free entry of the table, at the head of its instrument's chain (R79, R80), and what building the
placements of a line keeps (R92 step 3). -/

namespace Sys2Proof.Machine

/-! ## The lowest free entry (R79, log 31) -/

/-- The lowest index not listed reads as the default, and every index below it does not. -/
theorem Sparse.get_firstGap {α : Type} [DecidableEq α] {d : α} {l : List (Nat × α)} (h : Sparse.wf d l = true) {k : Nat}
    (hk : ∀ e ∈ l, k ≤ e.1) :
    Sparse.get d l (Sparse.firstGap k l) = d ∧ k ≤ Sparse.firstGap k l ∧
      ∀ j, k ≤ j → j < Sparse.firstGap k l → Sparse.get d l j ≠ d := by
  induction l generalizing k with
  | nil => exact ⟨rfl, Nat.le_refl _, fun j h1 h2 => absurd h2 (Nat.not_lt.2 h1)⟩
  | cons e r ih =>
    obtain ⟨a, x⟩ := e
    obtain ⟨hx, hr, hw⟩ := (Sparse.wf_cons d a x r).1 h
    unfold Sparse.firstGap
    split
    · next ha =>
      subst ha
      obtain ⟨hgap, hle, hlisted⟩ := ih hw (k := a + 1) hr
      have hpast : ∀ j, a < j → Sparse.get d ((a, x) :: r) j = Sparse.get d r j := fun j hj => by
        simp [Sparse.get, show ¬ j < a by omega, show ¬ j = a by omega]
      refine ⟨(hpast _ hle).trans hgap, by omega, fun j h1 h2 => ?_⟩
      rcases Nat.eq_or_lt_of_le h1 with rfl | h1
      · simpa [Sparse.get] using hx
      · rw [hpast j h1]
        exact hlisted j h1 h2
    · next ha =>
      have hlt : k < a := Nat.lt_of_le_of_ne (hk _ List.mem_cons_self) (Ne.symm ha)
      exact ⟨by simp [Sparse.get, hlt], Nat.le_refl _, fun j h1 h2 => absurd h2 (Nat.not_lt.2 h1)⟩

/-- The entry a slot is built into is free, and no lower one is (log 31). -/
theorem Formatter.firstGap_free {x : Formatter} (h : Sparse.wf none x.table = true) :
    x.placement (Sparse.firstGap 0 x.table) = none ∧ ∀ j < Sparse.firstGap 0 x.table, x.placement j ≠ none := by
  obtain ⟨hgap, -, hlisted⟩ := Sparse.get_firstGap h (k := 0) fun _ _ => Nat.zero_le _
  exact ⟨hgap, fun j => hlisted j (Nat.zero_le j)⟩

/-! ## One placement built -/

theorem State.placement_build (s : State) (k : Nat) (p : Placement) (j : Nat) :
    (s.build k p).fmt.placement j =
      if j = k then some { p with next := (s.record p.instr).chainHead } else s.fmt.placement j :=
  Formatter.placement_setPlacement s.fmt k j _

theorem State.record_build (s : State) (k : Nat) (p : Placement) (i : Ix) :
    (s.build k p).record i = if i = p.instr then { s.record i with chainHead := some k } else s.record i := by
  refine (State.record_set s p.instr i _).trans ?_
  split
  · next h => rw [h]
  · rfl

/-- A placement built into a free entry goes to the head of its instrument's chain; every other chain is as it was (R80). -/
theorem State.ChainIs.build {s : State} {k : Nat} {p : Placement} (hfree : s.fmt.placement k = none) (hk : k < 1024) {i : Ix}
    {ks : List Nat} (h : s.ChainIs i ks) : (s.build k p).ChainIs i (if i = p.instr then k :: ks else ks) := by
  obtain ⟨hnodup, hlinks, hmem⟩ := h
  have hnot : k ∉ ks := fun hin => by
    obtain ⟨-, q, hq, -⟩ := hmem k hin
    rw [hfree] at hq
    cases hq
  have hother : ∀ j ∈ ks, (s.build k p).fmt.placement j = s.fmt.placement j := fun j hj => by
    rw [State.placement_build, if_neg (ne_of_mem_of_not_mem hj hnot)]
  have hkept : ∀ j q, s.fmt.placement j = some q → (s.build k p).fmt.placement j = some q := fun j q hq => by
    have hj : j ≠ k := fun e => by
      rw [e, hfree] at hq
      cases hq
    rw [State.placement_build, if_neg hj]
    exact hq
  have htail : (s.build k p).fmt.Links (s.record i).chainHead ks :=
    hlinks.of_placements fun j q hq => ⟨q.highlight, hkept j q hq⟩
  have hin : ∀ j ∈ ks, j < 1024 ∧ ∃ q, (s.build k p).fmt.placement j = some q ∧ q.instr = i := fun j hj => by
    rw [hother j hj]
    exact hmem j hj
  have hself := State.placement_build s k p k
  rw [if_pos rfl] at hself
  split
  · next hi =>
    subst hi
    refine ⟨List.nodup_cons.2 ⟨hnot, hnodup⟩, ?_, fun j hj => ?_⟩
    · rw [State.record_build, if_pos rfl]
      exact ⟨rfl, _, hself, htail⟩
    · rcases List.mem_cons.1 hj with rfl | hj
      · exact ⟨hk, _, hself, rfl⟩
      · exact hin j hj
  · next hi =>
    refine ⟨hnodup, ?_, hin⟩
    rw [State.record_build, if_neg hi]
    exact htail

/-! ## The placements of a line built -/

/-- What building placements changes: records in their chain heads, and the table (R79, R80). -/
structure Builds (s t : State) : Prop where
  rest : t = { s with bus := t.bus, store := t.store, fmt := { s.fmt with table := t.fmt.table } }
  heads : ChainHeadsOnly s t
  canonical : s.Canonical → t.Canonical
  shaped : s.fmt.Shaped → t.fmt.Shaped
  chains : s.Canonical → s.ChainsSound → t.ChainsSound

namespace Builds

variable {s t u : State}

theorem refl (s : State) : Builds s s := ⟨rfl, fun _ => rfl, id, id, fun _ => id⟩

theorem trans (h : Builds s t) (g : Builds t u) : Builds s u where
  rest := by rw [g.rest, h.rest]
  heads j := by rw [g.heads j, h.heads j]
  canonical := g.canonical ∘ h.canonical
  shaped := g.shaped ∘ h.shaped
  chains hc := g.chains (h.canonical hc) ∘ h.chains hc

theorem withBus {s : State} {b : Bus} (h : s.bus.KeepsForm b) : Builds s (s.withBus b) :=
  ⟨rfl, fun _ => rfl, (Untouched.withBus h).preserves.canonical, id, fun _ h => h⟩

/-- A placement of 1 to 16 cells within an image is built into the lowest free entry. -/
theorem build (s : State) {p : Placement} (hp : 1 ≤ p.width ∧ p.width ≤ 16 ∧ p.start + p.width ≤ 32)
    (hk : Sparse.firstGap 0 s.fmt.table < 1024) : Builds s (s.build (Sparse.firstGap 0 s.fmt.table) p) where
  rest := rfl
  heads j := by
    rw [State.record_build]
    split <;> rfl
  canonical := (Preserves.build s _ p).canonical
  shaped h := by
    refine ⟨fun j q hq => ?_, h.single, h.sorted⟩
    rw [State.placement_build] at hq
    split at hq
    · cases hq
      exact hp
    · exact h.fits j q hq
  chains hc h i := by
    obtain ⟨-, -, htable⟩ := hc
    obtain ⟨ks, hks, hall⟩ := h i
    have hks' := hks.build (p := p) (Formatter.firstGap_free htable).1 hk
    refine ⟨_, hks', fun j q hq hi => ?_⟩
    rw [State.placement_build] at hq
    split at hq
    · next hj =>
      cases hq
      rw [if_pos hi.symm, hj]
      exact List.mem_cons_self
    · have hin := hall j q hq hi
      split
      · exact List.mem_cons_of_mem _ hin
      · exact hin

end Builds

/-- A slot that passes R77 has 1 to 16 cells within its module. -/
theorem Slot.checked_fits {x : Slot} {w : Width} {kept : List Slot} {o : Ix × FieldKind × Fin 32} (h : x.checked w kept = some o) :
    1 ≤ x.width ∧ x.width ≤ 16 ∧ x.start + x.width ≤ w.cells := by
  unfold Slot.checked at h
  split at h
  · split at h
    · cases h
    · next hc =>
      simp only [not_or] at hc
      obtain ⟨hzero, hwidth, hend, -⟩ := hc
      exact ⟨Nat.pos_of_ne_zero hzero, Nat.le_of_not_lt hwidth, Nat.le_of_not_lt hend⟩
  · cases h

namespace Builds

theorem buildSlots (line : Fin 4) (m : Fin 32) (w : Width) (xs kept : List Slot) (s : State) (t : Tally) :
    Builds s (State.buildSlots line m w xs kept (s, t)).1 := by
  induction xs generalizing kept s t with
  | nil => exact refl s
  | cons x xs ih =>
    unfold State.buildSlots
    split
    · exact ih _ _ _
    · next i kind format hx =>
      obtain ⟨hpos, hwidth, hend⟩ := Slot.checked_fits hx
      have hend' : x.start + x.width ≤ 32 := Nat.le_trans hend w.cells_le.2
      dsimp only
      split <;> rename_i e <;> have h := withBus ((Bus.KeepsForm.readAll ..).fst e)
      · split
        · next hk => exact (h.trans (build _ ⟨hpos, hwidth, hend'⟩ hk)).trans (ih _ _ _)
        · exact h.trans (ih _ _ _)
      · exact h.trans (ih _ _ _)

theorem buildModule (s : State) (line : Fin 4) (m : Fin 32) (t : Tally) (r : MapRead) : Builds s (s.buildModule line m t r).1 := by
  cases r with
  | absent => exact refl s
  | illegalWidth => exact refl s
  | module r =>
    have h := buildSlots line m r.width r.slots [] s t
    unfold State.buildModule
    dsimp only
    split <;> exact h

theorem buildModules (line : Fin 4) (rs : List (Fin 32 × MapRead)) (s : State) (t : Tally) :
    Builds s (State.buildModules line rs s t).1 := by
  induction rs generalizing s t with
  | nil => exact refl s
  | cons r rs ih => exact (buildModule s line r.1 t r.2).trans (ih _ _)

theorem mapModules (s : State) (line : Fin 4) : Builds s (s.mapModules line).1 := by
  unfold State.mapModules
  split
  next e => exact (withBus ((Bus.KeepsForm.readMaps ..).fst e)).trans (buildModules _ _ _ _)

end Builds

end Sys2Proof.Machine
end

section
/-! PROOF. The bounds through a line's REMAP, and through every command that leaves the controller state (R29, R77 to R80, R92, R99,
R169 to R175). -/

namespace Sys2Proof.Machine

/-! ## REMAP_LINE_FINISHED (R92) -/

/-- The bounds hold after where they held before, intake's current cell stays in the pool, and the chains stay sound where the table is
in canonical form (R80). -/
structure Stays (s t : State) : Prop where
  params : t.params = s.params
  bounded : s.Bounded → t.Bounded
  cell : s.AtCell → t.AtCell
  chains : s.Canonical → s.ChainsSound → t.ChainsSound

theorem KeepsBlocks.bounded {s t : State} (h : KeepsBlocks s t) (hi : s.intake.Sound → t.intake.Sound) : s.Bounded → t.Bounded :=
  fun ⟨hintake, hfmt, hmodules, htapes, hterms, hholding, hsymbols⟩ =>
    have ⟨hshaped, hcleared⟩ := (Formatter.sound_iff _).1 hfmt
    ⟨hi hintake, (Formatter.sound_iff _).2 ⟨h.shaped hshaped, h.cleared hcleared⟩, fun n => h.modules n (hmodules n),
      fun d => h.tapes hsymbols d (htapes d), fun k => h.terms k (hterms k), h.holding hholding, h.symbols hsymbols⟩

theorem Minds.stays {s t : State} (h : Minds s t) : Stays s t :=
  ⟨h.params, h.bounded h.sound, h.cell, fun _ => h.chains⟩

theorem Confines.stays {s t : State} (h : Confines s t) : Stays s t := h.minds.stays

namespace Stays

variable {s t u : State}

theorem trans (h : Stays s t) (hc : s.Canonical → t.Canonical) (g : Stays t u) : Stays s u where
  params := g.params.trans h.params
  bounded := g.bounded ∘ h.bounded
  cell := g.cell ∘ h.cell
  chains hs := g.chains (hc hs) ∘ h.chains hs

theorem ite {c : Prop} [Decidable c] (hu : Stays s u) (hv : Stays s t) : Stays s (if c then u else t) := by
  split
  · exact hu
  · exact hv

/-- Placements are built, and then the line under REMAP is a line that has none: its own REMAP is over. -/
theorem of_builds (h : Builds s t) (g : Confines t u) (hu : u.fmt.Cleared) : Stays s u := by
  have hparams : t.params = s.params := by rw [h.rest]
  have hintake : t.intake = s.intake := by rw [h.rest]
  have hlines : ∀ n, t.line n = s.line n := fun n => by rw [h.rest]; rfl
  have htapes : ∀ d, t.tape d = s.tape d := fun d => by rw [h.rest]; rfl
  have hterms : ∀ k, t.term k = s.term k := fun k => by rw [h.rest]; rfl
  have hnotices : t.notices = s.notices := by rw [h.rest]
  have hsymbols : s.SymbolsShort → t.SymbolsShort := fun hs i => by rw [h.heads i]; exact hs i
  exact {
    params := g.params.trans hparams
    bounded := fun ⟨hi, hfmt, hmodules, htape, hterm, hholding, hsymbol⟩ =>
      have ⟨hshaped, _⟩ := (Formatter.sound_iff _).1 hfmt
      ⟨g.intake ▸ hintake ▸ hi, (Formatter.sound_iff _).2 ⟨g.shaped (h.shaped hshaped), hu⟩,
        fun n => g.modules n (hlines n ▸ hmodules n), fun d => g.tapes (hsymbols hsymbol) d (htapes d ▸ htape d),
        fun k => g.terms k (hterms k ▸ hterm k), g.holding (hnotices ▸ hholding), g.symbols (hsymbols hsymbol)⟩
    cell := fun hs => (hs.congr hparams (by rw [hintake])).congr g.params (by rw [g.intake])
    chains := fun hc hs => g.chains (h.chains hc hs) }

end Stays

/-- The next line's REMAP begins, or none is in hand: the line under REMAP has no placement (R92 step 1). -/
theorem State.nextLine_cleared (s : State) (job : RemapJob) : (s.nextLine job).fmt.Cleared := by
  unfold State.nextLine
  split
  · exact (Begins.beginLine s _).cleared
  · intro job' h
    cases h

theorem Confines.nextLine (s : State) (job : RemapJob) : Confines s (s.nextLine job) := by
  unfold State.nextLine
  split
  · exact beginLine s _
  · exact { refl s with
      shaped := fun h => ⟨h.fits, h.single, h.sorted⟩
      cleared := fun _ job' h => by cases h
      chains := fun h => h.congr (fun _ => rfl) (.of_table rfl) }

namespace Stays

variable {s t u : State}

theorem finishLine (s : State) (job : RemapJob) : Stays s ((s.finishLine job).nextLine job) := by
  have h := Builds.mapModules s job.line
  unfold State.finishLine
  split
  next e =>
    rw [e] at h
    exact of_builds h (((Confines.repaintLine _ _ _).trans (.reportTally _ _ _)).trans (.nextLine _ _)) (State.nextLine_cleared _ _)

theorem remapFinished (s : State) : Stays s s.remapFinished := by
  unfold State.remapFinished
  split
  · exact (Minds.refl s).stays
  · next job _ =>
    have h := finishLine s job
    have hc := ((Preserves.finishLine s job).trans (.nextLine _ job)).canonical
    exact ite (h.trans hc (Minds.writeTaken _).stays) h

/-! ## The commands -/

theorem nudge (h : List HostWrite) (s : State) : Ensures (Stays s) (execNudge h s) := by
  have hw := (Confines.hostWrites h s).minds
  unfold execNudge Ensures
  dsimp only
  split
  · exact (hw.trans (.refuse _)).stays
  · exact (hw.trans (.refuse _)).stays
  · exact (hw.trans ((Minds.accept _).trans (.aside _ rfl rfl rfl))).stays
  · exact (hw.trans ((Minds.accept _).trans (.pollIntake _))).stays

theorem feedPollTick (h : List HostWrite) (noticeFirst : Bool) (s : State) :
    Ensures (Stays s) (execFeedPollTick h noticeFirst s) := by
  have hw := (Confines.hostWrites h s).minds
  have ha := Minds.armTick (s.hostWrites h)
  exact (hw.trans (.ite (.ite ((ha.trans (.noticeRetry _)).trans (.pollIntake _)) ((ha.trans (.pollIntake _)).trans (.noticeRetry _)))
    (.refl _))).stays

/-- A posting step, whichever way it ends (R41). -/
theorem posting {row : Row} {judge : Judge} (hj : ∀ seq body s, (judge seq body s).Confines s) (h : List HostWrite) (s : State) :
    Stays s ((s.hostWrites h).takePosting row judge) :=
  ((Confines.hostWrites h s).minds.trans (.takePosting _ row hj)).stays

theorem unknownCommand (w : Word) (s : State) : Ensures (Stays s) (execUnknownCommand w s) := by
  unfold execUnknownCommand
  split
  · exact (Minds.refuse s).stays
  · trivial

theorem setBase (w : Word) (s : State) : Ensures (Stays s) (execSetBase w s) := by
  unfold execSetBase
  split
  · exact (Minds.withBus s _).stays
  · trivial

theorem acknowledgeGroup (w : Word) (s : State) : Ensures (Stays s) (execAcknowledgeGroup w s) := by
  unfold execAcknowledgeGroup
  split
  · trivial
  · split <;> exact (Minds.withBus s _).stays

theorem interruptAcknowledge (level : Fin 8) (s : State) : Ensures (Stays s) (execInterruptAcknowledge level s) := by
  unfold execInterruptAcknowledge
  split
  · trivial
  · exact (Minds.withBus s _).stays

end Stays

namespace Confines

theorem chooseNextFrame (n : Fin 4) (s : State) : Ensures (Confines s) (execChooseNextFrame n s) := by
  show Confines s (match s.nextFrame n with | some k => s.modifyLine n fun l => l.begin k | none => s)
  split
  · exact modifyLine s n fun h => h.begin _
  · exact refl s

theorem acceptReply (n : Fin 4) (address check : Byte) (s : State) : Ensures (Confines s) (execAccept n address check s) := by
  unfold execAccept Ensures
  dsimp only
  split
  · exact modifyLine s n fun h => h.freeModule _ fun hx => hx.accepted
  · exact refl s

theorem reject (n : Fin 4) (address check : Byte) (s : State) : Ensures (Confines s) (execReject n address check s) := by
  unfold execReject Ensures
  dsimp only
  split
  · exact writeFailed s _ _ _
  · exact refl s

theorem statusReply (n : Fin 4) (address width check : Byte) (s : State) :
    Ensures (Confines s) (execStatusReply n address width check s) := by
  unfold execStatusReply Ensures
  dsimp only
  split
  · next m _ =>
    have h : Confines s (s.modifyLine n fun l => l.answered m) := modifyLine s n fun h => h.answered m
    exact ite (h.trans (reportModule _ _ _)) h
  · exact refl s

theorem replyWindow (n : Fin 4) (s : State) : Ensures (Confines s) (execReplyWindow n s) := by
  unfold execReplyWindow Ensures
  dsimp only
  split
  · exact writeFailed s _ _ _
  · exact modifyLine s n fun h => h.freeModule _ fun hx => hx.unanswered _
  · exact refl s

theorem pollTimer (n : Fin 4) (m : Fin 32) (s : State) : Confines s (s.modifyModule n m fun x => { x with poll := .due }) :=
  modifyLine s n fun h => h.modifyModule m (h m)

theorem visit (l : Fin 2) (s : State) : Ensures (Confines s) (execVisit l s) := by
  unfold execVisit Ensures
  dsimp only
  split
  · exact beginVisit s _ _
  · exact refl s

theorem key (l : Fin 2) (address keyByte check : Byte) (s : State) : Ensures (Confines s) (execKey l address keyByte check s) := by
  unfold execKey Ensures
  dsimp only
  split
  · exact (pollOutcome s _ _ fun h => h.keyTaken _).trans (reportReturn _ _ _ _)
  · exact refl s

theorem idle (l : Fin 2) (address check : Byte) (s : State) : Ensures (Confines s) (execIdle l address check s) := by
  unfold execIdle Ensures
  dsimp only
  split
  · exact (pollOutcome s _ _ fun h => h.idleTaken _ _).trans (reportReturn _ _ _ _)
  · exact refl s

theorem pollReplyWindow (l : Fin 2) (s : State) : Ensures (Confines s) (execPollReplyWindow l s) := by
  unfold execPollReplyWindow Ensures
  dsimp only
  split
  · exact (pollOutcome s _ _ fun h => h.noReply _ _).trans (reportOffline _ _ _)
  · exact refl s

theorem pageLoadComplete (t : Fin 16) (h : List HostWrite) (s : State) : Ensures (Confines s) (execPageLoadComplete t h s) := by
  refine (hostWrites h s).trans ?_
  split
  · exact loadPage _ _ _ _
  · exact refl _

theorem keyEntryRead (t : Fin 16) (h : List HostWrite) (s : State) : Ensures (Confines s) (execKeyEntryRead t h s) := by
  refine (hostWrites h s).trans ?_
  split
  · exact dispatchKey _ _ _
  · exact refl _

end Confines

theorem Ensures.stays {s : State} {r : Result} (h : Ensures (Confines s) r) : Ensures (Stays s) r := by
  cases r with
  | next t => exact Confines.stays h
  | fault e => trivial
  | refused e => trivial

/-- Every command that leaves the controller state keeps the bounds. -/
theorem ensures_stays {c : Instr} (hc : movesController c = false) (s : State) : Ensures (Stays s) (exec c s) := by
  have hw := fun h => Confines.hostWrites h s
  cases c with
  | powerOnReset => exact Bool.noConfusion hc
  | pinReset => exact Bool.noConfusion hc
  | softReset => exact Bool.noConfusion hc
  | areaBase w => exact Bool.noConfusion hc
  | start h => exact Bool.noConfusion hc
  | startDone h => exact Bool.noConfusion hc
  | nudge h => exact Stays.nudge h s
  | quiesce => exact (Minds.ite (.quiesce s) (.refuse s)).stays
  | resume h => exact ((hw h).minds.trans (.ite (.resume _) (.refuse _))).stays
  | restartIntake h => exact ((hw h).minds.trans (.ite (.restart _) (.refuse _))).stays
  | unknownCommand w => exact Stays.unknownCommand w s
  | errorFlagClear w => exact (Confines.withBus s _).stays
  | setBase w => exact Stays.setBase w s
  | acknowledgeGroup w => exact Stays.acknowledgeGroup w s
  | interruptAcknowledge level => exact Stays.interruptAcknowledge level s
  | busTimeout attempts => exact (Confines.withBus s _).stays
  | feedPollTick h first => exact Stays.feedPollTick h first s
  | trade h => exact Stays.posting Verdict.Confines.trade h s
  | quote h => exact Stays.posting Verdict.Confines.quote h s
  | cancel h => exact Stays.posting Verdict.Confines.cancel h s
  | summary h => exact Stays.posting Verdict.Confines.summary h s
  | halt h => exact Stays.posting Verdict.Confines.halt h s
  | resumePosting h => exact Stays.posting Verdict.Confines.resume h s
  | define h => exact Stays.posting Verdict.Confines.define h s
  | session h => exact Stays.posting Verdict.Confines.session h s
  | tapeText h => exact Stays.posting Verdict.Confines.tapeText h s
  | text h => exact Stays.posting Verdict.Confines.text h s
  | setPage h => exact Stays.posting Verdict.Confines.setPage h s
  | lock h => exact Stays.posting (Verdict.Confines.judgeCommand fun s t => .modifyTerm s t fun h => h.setLock true) h s
  | unlock h => exact Stays.posting (Verdict.Confines.judgeCommand fun s t => .modifyTerm s t fun h => h.setLock false) h s
  | clearStack h => exact Stays.posting (Verdict.Confines.judgeCommand fun s t => .modifyTerm s t fun h => h.clearStack) h s
  | setWatch h => exact Stays.posting Verdict.Confines.setWatch h s
  | clearWatches h => exact Stays.posting (Verdict.Confines.judgeCommand Confines.clearWatches) h s
  | remap h => exact Stays.posting Verdict.Confines.remap h s
  | remapLineFinished h =>
    exact (hw h).stays.trans (Untouched.hostWrites h s).preserves.canonical (.ite (.remapFinished _) (Minds.refl _).stays)
  | snapshot h => exact Stays.posting Verdict.Confines.snapshot h s
  | mark h => exact Stays.posting Verdict.Confines.mark h s
  | timeOfDayAdvance => exact (Confines.ite (.advanceTime s) (.refl s)).stays
  | nightTimer => exact (Confines.ite (.setNight s) (.refl s)).stays
  | feedQuiet => exact (Confines.ite (.becomeQuiet s) (.refl s)).stays
  | feedLost => exact (Confines.ite (.becomeLost s) (.refl s)).stays
  | changeEvent h => exact ((hw h).trans (.formatChange _)).stays
  | sessionEvent h => exact ((hw h).trans (.formatSession _)).stays
  | feedStageEvent => exact (Confines.formatStage s).stays
  | highlightExpiry h => exact ((hw h).trans (.ite (.expireHighlights _) (.refl _))).stays
  | nightSet n => exact (Confines.modifyLine s n fun h => h.takeNightSet).stays
  | nightClear n => exact (Confines.modifyLine s n fun h => h.takeNightClear).stays
  | chooseNextFrame n => exact (Confines.chooseNextFrame n s).stays
  | boardFrameSent n => exact (Confines.modifyLine s n fun h => h.endSending _).stays
  | accept n address check => exact (Confines.acceptReply n address check s).stays
  | reject n address check => exact (Confines.reject n address check s).stays
  | statusReply n address width check => exact (Confines.statusReply n address width check s).stays
  | replyWindow n => exact (Confines.replyWindow n s).stays
  | pollTimer n m => exact (Confines.ite (.pollTimer n m s) (.refl s)).stays
  | printArrival id => exact (Confines.takePrint s id).stays
  | cancelArrival id => exact (Confines.takeCancel s id).stays
  | noteArrival id => exact (Confines.takeNote s id).stays
  | textArrival id supplier => exact (Confines.takeText s id supplier).stays
  | renderEntry id => exact (Confines.render s id).stays
  | ribbonCharacter id => exact (Confines.ite (.modifyTape s id fun _ h => h.sendCharacter) (.refl s)).stays
  | terminalChangeEvent t => exact (Confines.modifyTerm s t fun h => h.takeChange).stays
  | terminalSessionEvent t => exact (Confines.modifyTerm s t fun h => h.takeSession).stays
  | terminalFeedStageEvent t => exact (Confines.modifyTerm s t fun h => h.takeStage).stays
  | timeEvent t => exact (Confines.modifyTerm s t fun h => h.takeTime).stays
  | terminalNightSet t => exact (Confines.modifyTerm s t fun h => h.takeNightSet).stays
  | terminalNightClear t => exact (Confines.modifyTerm s t fun h => h.takeNightClear).stays
  | watchCheck t => exact (Confines.takeCheck s t).stays
  | visit l => exact (Confines.visit l s).stays
  | terminalFrameSent l => exact (Confines.termFrameSent s l).stays
  | key l address keyByte check => exact (Confines.key l address keyByte check s).stays
  | idle l address check => exact (Confines.idle l address check s).stays
  | pollReplyWindow l => exact (Confines.pollReplyWindow l s).stays
  | terminalPollTimer t => exact (Confines.ite (.modifyTerm s t fun h => h) (.refl s)).stays
  | pageLoadComplete t h => exact (Confines.pageLoadComplete t h s).stays
  | notice h => exact ((hw h).trans (.ite (.takeNotice _) (.refl _))).stays
  | keyEntryRead t h => exact (Confines.keyEntryRead t h s).stays

end Sys2Proof.Machine
end

section
/-! PROOF. The bounds through the resets, AREA BASE, START and its completion, and so through every step (R166, R168, R178). -/

namespace Sys2Proof.Machine

/-- What the bounds, the current cell and the chains do over a step. -/
structure Abides (s t : State) : Prop where
  bounded : s.Bounded → t.Bounded
  cells : s.CellsSound → t.CellsSound
  chains : s.Canonical → s.ChainsSound → t.ChainsSound

theorem Stays.abides {s t : State} (h : Stays s t) (hp : t.bus.phase = s.bus.phase) : Abides s t where
  bounded := h.bounded
  cells := fun ⟨hcell, hstart⟩ => ⟨h.cell hcell, fun hl => by
    rw [h.params]
    exact hstart (by unfold State.linesWork at hl ⊢; rwa [hp] at hl)⟩
  chains := h.chains

/-- A change of the bus interface that leaves the controller state. -/
theorem Abides.withBus (s : State) {b : Bus} (h : b.phase = s.bus.phase) : Abides s (s.withBus b) :=
  (Confines.withBus s b).stays.abides h

theorem Abides.trans {s t u : State} (h : Abides s t) (hc : s.Canonical → t.Canonical) (g : Abides t u) : Abides s u :=
  ⟨g.bounded ∘ h.bounded, g.cells ∘ h.cells, fun hs => g.chains (hc hs) ∘ h.chains hs⟩

/-! ## Blocks at reset -/

namespace State.AtReset

variable {s : State}

theorem current (h : s.AtReset) : s.intake.current = none := by rw [h.intake]; rfl

theorem atCell (h : s.AtReset) : s.AtCell := fun c hc => by rw [h.current] at hc; cases hc

theorem bounded (h : s.AtReset) : s.Bounded := by
  have hb := reset_bounded
  unfold State.Bounded State.line State.tape State.term State.record at hb ⊢
  rw [h.intake, h.fmt, h.lines, h.tapes, h.terms, h.notices, h.store]
  exact hb

theorem chainsSound (h : s.AtReset) : s.ChainsSound := by
  refine reset_chainsSound.congr (fun i => ?_) (.of_table ?_)
  · unfold State.record
    rw [h.store]
    rfl
  · rw [h.fmt]
    rfl

/-- A step to a part with every block at reset, in UNSET or READY. -/
theorem abides {r : State} (h : s.AtReset) (hl : s.linesWork = false) : Abides r s :=
  ⟨fun _ => h.bounded, fun _ => ⟨h.atCell, fun e => absurd (hl.symm.trans e) Bool.noConfusion⟩, fun _ _ => h.chainsSound⟩

/-- The blocks that START loads from the anchor (R134, R163). -/
theorem loadAnchor (h : s.AtReset) (ws : List Word) : (s.loadAnchor ws).Bounded ∧ (s.loadAnchor ws).AtCell ∧
    (s.loadAnchor ws).ChainsSound := by
  obtain ⟨hintake, hfmt, -, -, -, hholding, -⟩ := h.bounded
  have hstore : (s.loadAnchor ws).store = [] := by simp [State.loadAnchor, h.store, clearRefs]
  have hrecord : ∀ i, (s.loadAnchor ws).record i = Record.reset := fun i => by unfold State.record; rw [hstore]; rfl
  refine ⟨⟨hintake, hfmt, fun n m => ?_, fun d => ?_, fun k => ?_, hholding, fun i => ?_⟩,
    fun c hc => absurd (h.current.symm.trans hc) nofun, ?_⟩
  · show (BoardLine.module (Bank.get (Bank.tabulate _) n) m).Sound
    rw [Bank.get_tabulate]
    show (Bank.get (Vector.replicate 32 Module.reset) m).Sound
    rw [Bank.get_replicate]
    exact Module.sound_reset
  · show Tape.Sound (Bank.get (Bank.tabulate _) (slotOfTape d))
    rw [Bank.get_tabulate]
    exact Tape.sound_reset
  · show (Bank.get (Vector.replicate 16 Terminal.atStart) k).Sound
    rw [Bank.get_replicate]
    exact Terminal.sound_atStart
  · rw [hrecord]
    exact Nat.zero_le _
  · refine reset_chainsSound.congr (fun i => by rw [hrecord]; rfl) (.of_table ?_)
    show s.fmt.table = _
    rw [h.fmt]
    rfl

end State.AtReset

/-! ## START (R166, R168) -/

theorem Bus.startCells_below {p : Params} {cs : List Nat} {b b' : Bus} (h : b.startCells p cs = (b', some true)) :
    ∀ c ∈ cs, c < p.cellCount := by
  induction cs generalizing b b' with
  | nil => exact fun c hc => absurd hc List.not_mem_nil
  | cons a cs ih =>
    unfold Bus.startCells at h
    split at h
    · split at h
      · cases h
      · next hnot => exact absurd h (hnot _ _)
    · next ha =>
      split at h
      · split at h
        · next b₁ w _ b₂ ok e =>
          obtain ⟨hok, -⟩ := (Bool.and_eq_true _ _).mp (Option.some.inj (congrArg Prod.snd h))
          rw [hok] at e
          exact List.forall_mem_cons.2 ⟨Nat.lt_of_not_le ha, ih e⟩
        · next hnot => exact absurd h (hnot _ _)
      · cases h

/-- The POSTING START cell of an anchor that passes validation is a cell of the pool (R166). -/
theorem Bus.validate_postingStart {b b' : Bus} {ws : List Word} (h : b.validate = (b', some ws)) :
    (paramsOf ws).postingStart < (paramsOf ws).cellCount := by
  unfold Bus.validate at h
  split at h
  · cases h
  · next ws' _ =>
    dsimp only at h
    split at h
    · cases h
    · split at h
      · cases h
      · next ok e =>
        split at h
        · next hok =>
          have hws : (if parameterFlags ws' = [] then some ws' else none) = some ws := congrArg Prod.snd h
          split at hws
          · obtain rfl : ws' = ws := Option.some.inj hws
            rw [((Bool.and_eq_true _ _).mp hok).1] at e
            exact Bus.startCells_below e _ List.mem_cons_self
          · cases hws
        · cases h

/-- START goes on after validation, from blocks at reset. -/
theorem State.AtReset.startOn {r s : State} (h : s.AtReset) {ws : List Word}
    (hstart : (paramsOf ws).postingStart < (paramsOf ws).cellCount) : Abides r (s.startOn ws) := by
  have hz := (BusOnly.withBus s (s.bus.writeInitial (paramsOf ws))).atReset h
  obtain ⟨hbounded, hcell, hchains⟩ := hz.loadAnchor ws
  have hb := Confines.beginLine ((s.withBus (s.bus.writeInitial (paramsOf ws))).loadAnchor ws) ⟨0, [1, 2, 3], .start⟩
  exact ⟨fun _ => hb.stays.bounded hbounded, fun _ => ⟨hb.minds.cell hcell, fun _ => by
    unfold State.startOn
    rw [hb.params]
    exact hstart⟩, fun _ _ => hb.chains hchains⟩

theorem State.AtReset.startFailed {r s : State} (h : s.AtReset) : Abides r s.startFailed :=
  State.AtReset.abides
    ⟨by show { s.intake with nudged := false } = _; rw [h.intake]; rfl, h.store, h.session, h.fmt, h.lines, h.tapes,
      h.tlines, h.terms, h.notices⟩ rfl

theorem State.AtReset.start {s : State} (h : s.AtReset) : Abides s s.start := by
  have hz : ∀ b, (s.withBus b).AtReset := fun b => (BusOnly.withBus s b).atReset h
  unfold State.start
  split
  · next e => exact (hz _).startOn (Bus.validate_postingStart e)
  · exact (hz _).startFailed

/-! ## START's completion (R168) -/

theorem Confines.writeStartDone (s : State) : Confines s s.writeStartDone :=
  (modifyUnit s fun h => h).trans (runUnit _)

theorem KeepsBlocks.entered (s : State) : KeepsBlocks s s.entered where
  params := rfl
  shaped h := ⟨h.fits, h.single, h.sorted⟩
  cleared h := h
  chains h := h.congr (fun _ => rfl) (.of_table rfl)
  symbols h := h
  modules n h := by
    show (Bank.get (Bank.mapAll s.lines _) n).ModulesSound
    rw [Bank.get_mapAll]
    exact h
  tapes _ d h := by
    show (Bank.get (Bank.mapAll s.tapes _) (slotOfTape d)).Sound
    rw [Bank.get_mapAll]
    exact h
  terms k h := by
    show (Bank.get (withEvents s.terms _) k).Sound
    exact (Confines.withEvents s _).terms k h
  holding h := h

/-- Intake begins at POSTING START, a cell of the pool, and may look at once (R168, R174). -/
theorem Abides.completeStart {s : State} (hp : s.bus.phase = .checking) (ho : s.intake.owed = false) : Abides s s.completeStart := by
  have hk := KeepsBlocks.entered s
  have hl : s.linesWork = true := by unfold State.linesWork; rw [hp]; rfl
  have henter : Abides s s.entered :=
    ⟨hk.bounded fun _ => ⟨fun _ => rfl, fun e => Bool.noConfusion (ho.symm.trans e)⟩,
      fun h => ⟨fun c hc => Option.some.inj hc ▸ h.2 hl, fun _ => h.2 hl⟩, fun _ => hk.chains⟩
  have hlook : Abides s.entered s.entered.look :=
    (Minds.look (by exact fun e => IntakeState.noConfusion e)).stays.abides (IntakeActs.look _).bus.phase
  rw [State.completeStart_eq]
  split
  · exact henter.trans id hlook
  · exact henter

/-! ## Every step -/

namespace Abides

/-- Every command, of a part whose blocks are at reset before START. -/
theorem ensures_exec {s : State} (h : s.IdleBeforeStart) (c : Instr) : Ensures (Abides s) (exec c s) := by
  by_cases hc : movesController c = false
  · have hstay := ensures_stays hc s
    have hsteady := ensures_steady hc s
    revert hstay hsteady
    cases exec c s with
    | next t => exact fun hstay hsteady => hstay.abides hsteady.bus.phase
    | fault e => exact fun _ _ => trivial
    | refused e => exact fun _ _ => trivial
  · cases c with
    | powerOnReset => exact (s.resetWith_atReset _).abides rfl
    | pinReset => exact (s.resetWith_atReset _).abides rfl
    | softReset =>
      show Abides s (if s.inService then s.resetWith s.bus.softReset else s.refuse)
      split
      · exact (s.resetWith_atReset _).abides rfl
      · exact withBus s (Bus.Keeps.refuseCommand _).phase
    | areaBase w =>
      show Abides s (s.withBus (if s.bus.area.isSome then s.bus.setError .commandRefused else s.bus.setArea w))
      split
      · exact withBus s (Bus.Keeps.setError ..).phase
      · next ha =>
        have hunset : s.bus.phase = .unset := by
          by_contra hp
          exact ha (h.1.2 hp)
        exact ((BusOnly.withBus s _).atReset (h.atRest (.inl hunset)).toAtReset).abides rfl
    | start w =>
      have hw : Abides s (s.hostWrites w) := withBus s (s.bus.hostWrites_phase w)
      have hcanonical := (Untouched.hostWrites w s).preserves.canonical
      show Abides s (if (s.hostWrites w).bus.phase = .ready then (s.hostWrites w).start else (s.hostWrites w).refuse)
      split
      · next hp =>
        have hready : s.bus.phase = .ready := (s.bus.hostWrites_phase w).symm.trans hp
        exact hw.trans hcanonical ((BusOnly.withBus s _).atReset (h.atRest (.inr hready)).toAtReset).start
      · exact hw.trans hcanonical (withBus _ (Bus.Keeps.refuseCommand _).phase)
    | startDone w =>
      have hw : Abides s (s.hostWrites w) := withBus s (s.bus.hostWrites_phase w)
      have hcanonical := (Untouched.hostWrites w s).preserves.canonical
      show Abides s (if (s.hostWrites w).startReady then (s.hostWrites w).writeStartDone.completeStart else s.hostWrites w)
      split
      · next hs =>
        have hp : (s.hostWrites w).bus.phase = .checking := by
          simp only [State.startReady, Bool.and_eq_true, decide_eq_true_eq] at hs
          obtain ⟨⟨⟨⟨hp, -⟩, -⟩, -⟩, -⟩ := hs
          exact hp
        have hout : s.inService = false := by
          unfold State.inService
          rw [(s.bus.hostWrites_phase w).symm.trans hp]
          rfl
        obtain ⟨-, -, -, -, howed⟩ := h.2.1 hout
        have hcalm := State.Kept.calm_writeStartDone (s.hostWrites w)
        have hdone : Abides (s.hostWrites w) (s.hostWrites w).writeStartDone :=
          (Confines.writeStartDone _).stays.abides hcalm.bus.phase
        have hcomplete := completeStart (hcalm.bus.phase.trans hp) ((congrArg Intake.owed hcalm.intake).trans howed)
        have hdone_canonical := (Untouched.writeStartDone (s.hostWrites w)).preserves.canonical
        exact hw.trans hcanonical (hdone.trans hdone_canonical hcomplete)
      · exact hw
    | _ => exact absurd rfl hc

theorem tickMs (s : State) : Abides s s.tickMs := by
  unfold State.tickMs
  dsimp only
  split <;> exact ⟨fun h => h, fun h => h, fun _ h => h⟩

theorem ensures_step {s : State} (h : s.IdleBeforeStart) : Ensures (Abides s) (step s) := by
  unfold step
  split
  · next c rest _ =>
    have hx := ensures_exec (s := s.withPending rest) h c
    revert hx
    cases exec c (s.withPending rest) with
    | next t => exact fun hx => ⟨hx.bounded, hx.cells, hx.chains⟩
    | fault e => exact fun _ => trivial
    | refused e => exact fun _ => trivial
  · unfold State.idle
    split
    · exact ensures_exec h _
    · exact tickMs s

end Abides

/-- Settles O59: every command that leaves the controller state keeps the bounds block by block, intake in its pool, and the chains;
the resets, AREA BASE, START and its completion begin from blocks at reset, or begin intake at a cell START has accepted. -/
theorem boundsKept : Obligations.BoundsKept :=
  have abides := fun {s t : State} (h : s.IdleBeforeStart) (e : step s = .next t) => (Abides.ensures_step h).next e
  ⟨fun _ _ hi hs e => (abides hi e).bounded hs, fun _ _ hi hs e => (abides hi e).cells hs,
    fun _ _ hi hc hs e => (abides hi e).chains hc hs⟩

end Sys2Proof.Machine
end

section
/-! PROOF. A session event, a feed-stage event and a highlight expiry (R85, R88, R90): what each renders. -/

namespace Sys2Proof.Machine

/-! ## The session event (R88) -/

theorem Formatter.entries_lively (x : Formatter) :
    (x.entries fun p => p.kind.lively) =
      (x.table.map (·.1)).filter fun k => (x.placement k).any fun p => p.kind = .last || p.kind = .change || p.kind = .tick := by
  unfold Formatter.entries Sparse.keys
  simp only [FieldKind.lively_eq]

/-- A session event renders its placements by rising entry number (R88, log 37). -/
theorem State.formatSession_renders {s : State} (hq : s.bus.script = []) {e : SessionState} {rest : List SessionState}
    (h : s.fmt.sessionEvents = e :: rest) :
    Renders (s.withFmt { s.fmt with sessionEvents := rest }) s.formatSession (s.fmt.entries fun p => p.kind.lively) := by
  unfold State.formatSession
  rw [h]
  exact Renders.entries (s := s.withFmt { s.fmt with sessionEvents := rest }) hq _

/-! ## The feed-stage event (R85, R88) -/

/-- The stale cells of every module, in a feed stage (R85). -/
def BoardLine.showStale (stage : FeedStage) (l : BoardLine) : BoardLine :=
  { l with modules := Bank.mapAll l.modules fun _ x => x.showStale stage }

/-- The stale cell of a present module is rendered; a module without one, and an absent module, is as it was (R85). -/
theorem Module.showStale_eq (stage : FeedStage) (x : Module) :
    x.showStale stage = match x.stale with
      | some c => if x.present then x.showCells c.val [staleCell stage] else x
      | none => x := by
  unfold Module.showStale
  cases x.stale with
  | none => simp
  | some c => cases x.present <;> simp

theorem State.formatStage_eq {s : State} {stage : FeedStage} {rest : List FeedStage} (h : s.fmt.stageEvents = stage :: rest) :
    s.formatStage = (s.withFmt { s.fmt with stageEvents := rest }).withLines
      (Bank.mapAll s.lines fun _ l => l.showStale stage) := by
  unfold State.formatStage
  rw [h]
  rfl

/-- A feed-stage event that is taken: the lines, each with its modules, and nothing else (R88). -/
theorem State.formatStage_shows {s : State} {stage : FeedStage} {rest : List FeedStage} (h : s.fmt.stageEvents = stage :: rest) :
    s.formatStage = { s with fmt := { s.fmt with stageEvents := rest }, lines := s.formatStage.lines } ∧
      ∀ n, s.formatStage.line n = (s.line n).showStale stage := by
  have hlines : ∀ n, Bank.get (Bank.mapAll s.lines fun _ l => l.showStale stage) n = (s.line n).showStale stage :=
    fun n => Bank.get_mapAll _ _ n
  rw [State.formatStage_eq h]
  generalize Bank.mapAll s.lines (fun _ l => l.showStale stage) = v at hlines
  exact ⟨rfl, hlines⟩

theorem BoardLine.module_showStale (stage : FeedStage) (l : BoardLine) (m : Fin 32) :
    (l.showStale stage).module m = (l.module m).showStale stage := Bank.get_mapAll _ _ m

/-! ## The expiry of highlights (R90) -/

/-- Ending highlights takes their entries out of the timer list, and moves none of the others. -/
theorem Formatter.timers_endHighlights (ks : List Nat) (x : Formatter) :
    (ks.foldl Formatter.endHighlight x).timers = x.timers.filter fun e => e.placement ∉ ks := by
  induction ks generalizing x with
  | nil => simp
  | cons k ks ih =>
    have hk : (x.endHighlight k).timers = x.timers.filter fun e => e.placement ≠ k := by
      unfold Formatter.endHighlight
      rw [Formatter.setHighlight_rest]
      rfl
    rw [List.foldl_cons, ih, hk, List.filter_filter]
    exact List.filter_congr fun e _ => by simp [Bool.and_comm]

/-- The highlights at the front of the timer list have ended (R90). -/
def State.dimmed (s : State) : State := s.withFmt (s.fmt.expiring.foldl Formatter.endHighlight s.fmt)

theorem State.dimmed_eq (s : State) : s.dimmed = { s with fmt := { s.fmt with
    table := s.dimmed.fmt.table, timers := s.fmt.timers.filter fun e => e.placement ∉ s.fmt.expiring } } := by
  rw [← Formatter.timers_endHighlights]
  exact congrArg s.withFmt (Relit.foldl Relit.endHighlight s.fmt.expiring s.fmt).rest

theorem State.dimmed_placement (s : State) (k : Nat) : s.dimmed.fmt.placement k =
    if k ∈ s.fmt.expiring then (s.fmt.placement k).map fun p => { p with highlight := none } else s.fmt.placement k :=
  (Relit.foldl Relit.endHighlight s.fmt.expiring s.fmt).placements k

/-- The placements whose highlights have ended are rendered (R90). -/
theorem State.expireHighlights_renders {s : State} (hq : s.bus.script = []) :
    Renders s.dimmed s.expireHighlights s.fmt.expiring := Renders.entries (s := s.dimmed) hq _

/-- An expiry is due when the front of the timer list has been reached in service (R90). -/
theorem State.highlightDue_iff {s : State} {e : TimerEntry} {rest : List TimerEntry} (h : s.fmt.timers = e :: rest) :
    s.highlightDue = true ↔ s.inService = true ∧ e.expiry ≤ s.now := by
  unfold State.highlightDue
  rw [h]
  simp

theorem Formatter.expiring_eq {x : Formatter} {e : TimerEntry} {rest : List TimerEntry} (h : x.timers = e :: rest) :
    x.expiring = (x.timers.filter fun y => y.expiry = e.expiry).map (·.placement) := by
  unfold Formatter.expiring
  rw [h]

/-- Settles O37: each event renders the entries that it names onto the lines, and the highlights that expire are ended before the
placements are rendered. -/
theorem sessionStageAndExpiryRender : Obligations.SessionStageAndExpiryRender := by
  intro h before s hs hq
  have hsession : exec (.sessionEvent h) before = .next s.formatSession := by subst hs; rfl
  have hstage : exec .feedStageEvent s = .next s.formatStage := rfl
  have hexpiry : exec (.highlightExpiry h) before = .next (if s.highlightDue then s.expireHighlights else s) := by subst hs; rfl
  refine ⟨?_, ?_, ?_⟩
  · split
    · next hnone =>
      rw [hsession]
      unfold State.formatSession
      rw [hnone]
    · next e rest hcons =>
      have hr := State.formatSession_renders hq hcons
      rw [Formatter.entries_lively] at hr
      exact ⟨_, hsession, hr⟩
  · split
    · next hnone =>
      rw [hstage]
      unfold State.formatStage
      rw [hnone]
    · next stage rest hcons =>
      obtain ⟨hrest, hlines⟩ := State.formatStage_shows hcons
      refine ⟨_, hstage, hrest, fun n => by rw [hlines]; rfl, fun n m => ?_⟩
      rw [hlines, BoardLine.module_showStale]
      exact Module.showStale_eq stage _
  · split
    · next hnone =>
      have hoff : s.highlightDue = false := by unfold State.highlightDue; rw [hnone, Bool.and_false]
      rw [hexpiry, hoff]
      rfl
    · next e rest hcons =>
      split
      · next hreached =>
        rw [if_pos ((State.highlightDue_iff hcons).2 hreached)] at hexpiry
        dsimp only
        rw [← Formatter.expiring_eq hcons]
        exact ⟨_, _, hexpiry, State.expireHighlights_renders hq, s.dimmed_eq, s.dimmed_placement⟩
      · next hearly => rw [hexpiry, if_neg (mt (State.highlightDue_iff hcons).1 hearly)]

end Sys2Proof.Machine
end

section
/-! PROOF. The slots of a line's module records, examined in order on a bus that completes every access (R76 to R80, R92 step 3): the
placements built so far, slot by slot, and what becomes of each slot. -/

namespace Sys2Proof.Machine

/-! ## The order of the slots -/

/-- The place of a slot in the order. -/
def slotNumber (e : Fin 32 × Fin 8) : Nat := 8 * e.1.val + e.2.val

/-- The slot at a place of the order. -/
def slotNumbered (i : Nat) : Fin 32 × Fin 8 := (Fin.ofNat 32 (i / 8), Fin.ofNat 8 i)

theorem slotNumbered_slotNumber (e : Fin 32 × Fin 8) : slotNumbered (slotNumber e) = e := by
  obtain ⟨m, j⟩ := e
  have hj : (8 * m.val + j.val) % 8 = j.val := by omega
  have hm : (8 * m.val + j.val) / 8 % 32 = m.val := by omega
  exact Prod.ext (Fin.ext hm) (Fin.ext hj)

theorem slotNumber_slotNumbered {i : Nat} (h : i < 256) : slotNumber (slotNumbered i) = i := by
  show 8 * (i / 8 % 32) + i % 8 = i
  omega

theorem slotNumber_lt (e : Fin 32 × Fin 8) : slotNumber e < 256 := by
  unfold slotNumber
  omega

theorem range_eight_mul (k : Nat) :
    ((List.finRange k).flatMap fun m => (List.finRange 8).map fun j => 8 * m.val + j.val) = List.range (8 * k) := by
  induction k with
  | zero => rfl
  | succ k ih =>
    rw [List.finRange_succ_last (n := k), List.flatMap_append, List.flatMap_map, Nat.mul_succ, List.range_add]
    exact congrArg₂ _ ih rfl

theorem slotOrder_eq : slotOrder = (List.range 256).map slotNumbered := by
  rw [← range_eight_mul 32, List.map_flatMap]
  refine congrArg (fun f => List.flatMap f (List.finRange 32)) (funext fun m => ?_)
  rw [List.map_map]
  exact List.map_congr_left fun j _ => (slotNumbered_slotNumber (m, j)).symm

/-- The slots before a place. -/
def slotsBefore (i : Nat) : List (Fin 32 × Fin 8) := (List.range i).map slotNumbered

theorem slotOrder_take {i : Nat} (h : i ≤ 256) : slotOrder.take i = slotsBefore i := by
  rw [slotOrder_eq, ← List.map_take, List.take_range, Nat.min_eq_left h]
  rfl

theorem slotsBefore_succ (i : Nat) : slotsBefore (i + 1) = slotsBefore i ++ [slotNumbered i] := by
  unfold slotsBefore
  rw [List.range_succ, List.map_append]
  rfl

theorem mem_slotsBefore {i : Nat} (h : i ≤ 256) {e : Fin 32 × Fin 8} : e ∈ slotsBefore i ↔ slotNumber e < i := by
  unfold slotsBefore
  rw [List.mem_map]
  constructor
  · rintro ⟨k, hk, rfl⟩
    rw [List.mem_range] at hk
    rwa [slotNumber_slotNumbered (by omega)]
  · exact fun he => ⟨slotNumber e, List.mem_range.2 he, slotNumbered_slotNumber e⟩

/-! ## What the records say (R76, R77) -/

section
variable (s : State) (n : Fin 4)

/-- A word of a module record. -/
def State.mapWord (m : Fin 32) (k : Nat) : Word := s.bus.peek (s.params.moduleRecord n m + word k)

/-- The width of a module that its record has present at a legal width (R76). -/
def State.mapWidth (m : Fin 32) : Option Width :=
  if (s.mapWord n m 0).bit 15 then widthOf ((s.mapWord n m 0).bits 0 2) else none

/-- The slot is used, of a module present at a legal width (R77). -/
def State.slotUsed (e : Fin 32 × Fin 8) : Bool := (s.mapWidth n e.1).isSome && (s.mapWord n e.1 (2 + 3 * e.2.val)).bit 15

/-- The fields of a slot. -/
def State.slotAt (e : Fin 32 × Fin 8) : Slot :=
  slotOf (s.mapWord n e.1 (2 + 3 * e.2.val)) (s.mapWord n e.1 (2 + 3 * e.2.val + 1)) (s.mapWord n e.1 (2 + 3 * e.2.val + 2))

/-! ## Slot by slot (R77 to R80) -/

/-- The slots of a line examined so far: the state with their placements built, the slots kept, the last first, and the counts. -/
structure Progress where
  state : State
  kept : List (Fin 32 × Fin 8)
  tally : Tally

/-- The slots of a module kept so far. -/
def State.keptOn (g : Progress) (m : Fin 32) : List Slot := (g.kept.filter (·.1 = m)).map (s.slotAt n)

/-- The placement of a slot that passes R77, not yet linked into its chain. -/
def State.slotPlacement (g : Progress) (e : Fin 32 × Fin 8) : Option Placement :=
  (s.mapWidth n e.1).bind fun w => ((s.slotAt n e).checked w (s.keptOn n g e.1)).map fun o =>
    ⟨n, e.1, (s.slotAt n e).start, (s.slotAt n e).width, o.2.1, o.2.2, o.1, none, none⟩

/-- What becomes of a slot (R78, R79). -/
def State.fateAt (g : Progress) (e : Fin 32 × Fin 8) : Fate :=
  match s.slotPlacement n g e with
  | none => .fault
  | some _ => if Sparse.firstGap 0 g.state.fmt.table < 1024 then .kept (Sparse.firstGap 0 g.state.fmt.table) else .noRoom

/-- A used slot is examined (R77, R79). -/
def State.settleSlot (g : Progress) (e : Fin 32 × Fin 8) : Progress :=
  match s.slotPlacement n g e with
  | none => { g with tally := g.tally.fault }
  | some p =>
    if Sparse.firstGap 0 g.state.fmt.table < 1024 then
      { g with state := g.state.build (Sparse.firstGap 0 g.state.fmt.table) p, kept := e :: g.kept }
    else { g with tally := { g.tally with noRoom := g.tally.noRoom + 1 } }

/-- A slot is examined, if it is used. -/
def State.takeSlot (g : Progress) (e : Fin 32 × Fin 8) : Progress := if s.slotUsed n e then s.settleSlot n g e else g

/-- The slots before a place have been examined. -/
def State.progress (i : Nat) : Progress := (slotsBefore i).foldl (s.takeSlot n) ⟨s, [], ⟨0, 0⟩⟩

/-- What becomes of a slot, with those before it examined. -/
def State.fate (e : Fin 32 × Fin 8) : Fate := s.fateAt n (s.progress n (slotNumber e)) e

/-- The entry a used slot is built into. -/
def State.slotEntry (e : Fin 32 × Fin 8) : Option Nat :=
  if s.slotUsed n e then (match s.fate n e with | .kept k => some k | _ => none) else none

theorem State.progress_succ (i : Nat) : s.progress n (i + 1) = s.takeSlot n (s.progress n i) (slotNumbered i) := by
  unfold State.progress
  rw [slotsBefore_succ, List.foldl_append]
  rfl

end

end Sys2Proof.Machine
end

section
/-! PROOF. What the slots examined so far have left in the table, in the chains and in the counts (R77 to R80, R92 step 3). -/

namespace Sys2Proof.Machine

/-- Records have changed in their chain heads alone, the table has, and nothing else has (R79, R80). -/
structure Lays (s t : State) : Prop where
  rest : t = { s with store := t.store, fmt := { s.fmt with table := t.fmt.table } }
  heads : ChainHeadsOnly s t

namespace Lays

variable {s t u : State}

theorem refl (s : State) : Lays s s := ⟨rfl, fun _ => rfl⟩

theorem trans (h : Lays s t) (g : Lays t u) : Lays s u :=
  ⟨by rw [g.rest, h.rest], fun j => by rw [g.heads j, h.heads j]⟩

theorem build (s : State) (k : Nat) (p : Placement) : Lays s (s.build k p) := by
  refine ⟨rfl, fun j => ?_⟩
  rw [State.record_build]
  split <;> rfl

end Lays

section
variable (s : State) (n : Fin 4)

/-- The placement is that of the slot, whatever its link is (R79). -/
structure State.Fills (e : Fin 32 × Fin 8) (p : Placement) : Prop where
  line : p.line = n
  module : p.module = e.1
  start : p.start = (s.slotAt n e).start
  width : p.width = (s.slotAt n e).width
  kind : fieldKindOf (s.slotAt n e).kind = some p.kind
  format : p.format.val = (s.slotAt n e).format
  instr : p.instr.val = (s.slotAt n e).instr
  highlight : p.highlight = none

theorem State.Fills.link {s : State} {n : Fin 4} {e : Fin 32 × Fin 8} {p : Placement} (h : s.Fills n e p) (next : Option Nat) :
    s.Fills n e { p with next := next } :=
  ⟨h.line, h.module, h.start, h.width, h.kind, h.format, h.instr, h.highlight⟩

/-- A slot that passes R77 names an instrument, a kind and a format, and lies apart from the slots kept. -/
theorem Slot.checked_eq_some {x : Slot} {w : Width} {kept : List Slot} {i : Ix} {kind : FieldKind} {format : Fin 32} :
    x.checked w kept = some (i, kind, format) ↔
      x.instr = i.val ∧ fieldKindOf x.kind = some kind ∧ format.val = x.format ∧ 1 ≤ x.width ∧ x.width ≤ 16 ∧
        x.start + x.width ≤ w.cells ∧ kept.any x.overlaps = false := by
  unfold Slot.checked Ix.ofNat?
  constructor
  · intro h
    split at h
    · next i' kind' hi hk =>
      split at hi
      · split at h
        · cases h
        · next hc =>
          split at h
          · next hf =>
            simp only [not_or, Bool.not_eq_true] at hc
            obtain ⟨hzero, hwidth, hend, hover⟩ := hc
            cases hi
            cases h
            exact ⟨rfl, hk, rfl, by omega, by omega, by omega, hover⟩
          · cases h
      · cases hi
    · cases h
  · rintro ⟨hi, hk, hf, hpos, hwidth, hend, hover⟩
    have hlt : x.instr < 2048 := hi ▸ i.isLt
    have hformat : x.format < 32 := hf ▸ format.isLt
    have hix : (⟨x.instr, hlt⟩ : Ix) = i := Fin.ext hi
    have hfin : (⟨x.format, hformat⟩ : Fin 32) = format := Fin.ext hf.symm
    have hc : ¬ (x.width = 0 ∨ 16 < x.width ∨ w.cells < x.start + x.width ∨ kept.any x.overlaps = true) := by
      simp only [not_or, hover, Bool.false_eq_true, not_false_eq_true, and_true]
      omega
    simp only [dif_pos hlt, hk, if_neg hc, dif_pos hformat, hix, hfin]

variable {s n}

/-- What a slot that passes R77 says. -/
theorem State.slotPlacement_eq_some {g : Progress} {e : Fin 32 × Fin 8} {p : Placement} (h : s.slotPlacement n g e = some p) :
    s.Fills n e p ∧ ∃ w, s.mapWidth n e.1 = some w ∧ 1 ≤ p.width ∧ p.width ≤ 16 ∧ p.start + p.width ≤ w.cells ∧
      (s.keptOn n g e.1).any (s.slotAt n e).overlaps = false := by
  unfold State.slotPlacement at h
  obtain ⟨w, hw, h⟩ := Option.bind_eq_some_iff.1 h
  obtain ⟨⟨i, kind, format⟩, hc, rfl⟩ := Option.map_eq_some_iff.1 h
  obtain ⟨hi, hk, hf, hpos, hwidth, hend, hover⟩ := Slot.checked_eq_some.1 hc
  exact ⟨⟨rfl, rfl, rfl, rfl, hk, hf, hi.symm, rfl⟩, w, hw, hpos, hwidth, hend, hover⟩

variable (s n)

/-- The entry that the next slot is built into, or none: with the state and the slots kept that this leaves. -/
theorem State.progress_step {i : Nat} (hi : i < 256) :
    (s.slotEntry n (slotNumbered i) = none ∧ (s.progress n (i + 1)).state = (s.progress n i).state ∧
      (s.progress n (i + 1)).kept = (s.progress n i).kept) ∨
    ∃ p, s.slotPlacement n (s.progress n i) (slotNumbered i) = some p ∧
      Sparse.firstGap 0 (s.progress n i).state.fmt.table < 1024 ∧
      s.slotEntry n (slotNumbered i) = some (Sparse.firstGap 0 (s.progress n i).state.fmt.table) ∧
      (s.progress n (i + 1)).state = (s.progress n i).state.build (Sparse.firstGap 0 (s.progress n i).state.fmt.table) p ∧
      (s.progress n (i + 1)).kept = slotNumbered i :: (s.progress n i).kept := by
  rw [State.progress_succ]
  unfold State.slotEntry State.fate State.takeSlot State.settleSlot State.fateAt
  rw [slotNumber_slotNumbered hi]
  cases s.slotUsed n (slotNumbered i) with
  | false => exact .inl ⟨rfl, rfl, rfl⟩
  | true =>
    cases s.slotPlacement n (s.progress n i) (slotNumbered i) with
    | none => exact .inl ⟨rfl, rfl, rfl⟩
    | some p =>
      by_cases hgap : Sparse.firstGap 0 (s.progress n i).state.fmt.table < 1024
      · exact .inr ⟨p, rfl, hgap, by simp [hgap]⟩
      · exact .inl (by simp [hgap])

theorem State.progress_lays {i : Nat} (hi : i ≤ 256) : Lays s (s.progress n i).state := by
  induction i with
  | zero => exact .refl s
  | succ i ih =>
    rcases s.progress_step n hi with ⟨-, hstate, -⟩ | ⟨p, -, -, -, hstate, -⟩
    · rw [hstate]
      exact ih (Nat.le_of_succ_le hi)
    · rw [hstate]
      exact (ih (Nat.le_of_succ_le hi)).trans (.build _ _ p)

/-- The slots kept are those built into an entry. -/
theorem State.mem_progress_kept {i : Nat} (hi : i ≤ 256) {e : Fin 32 × Fin 8} :
    e ∈ (s.progress n i).kept ↔ slotNumber e < i ∧ (s.slotEntry n e).isSome = true := by
  induction i with
  | zero => exact ⟨fun h => absurd h List.not_mem_nil, fun h => absurd h.1 (Nat.not_lt_zero _)⟩
  | succ i ih =>
    have hlast : slotNumber e < i + 1 ↔ slotNumber e < i ∨ e = slotNumbered i := by
      rw [Nat.lt_succ_iff_lt_or_eq]
      refine or_congr_right ⟨fun h => ?_, fun h => ?_⟩
      · rw [← h, slotNumbered_slotNumber]
      · rw [h, slotNumber_slotNumbered hi]
    rw [hlast]
    rcases s.progress_step n hi with ⟨hnone, -, hkept⟩ | ⟨p, -, -, hsome, -, hkept⟩
    · rw [hkept, ih (Nat.le_of_succ_le hi)]
      constructor
      · exact fun ⟨h, g⟩ => ⟨.inl h, g⟩
      · rintro ⟨h | rfl, g⟩
        · exact ⟨h, g⟩
        · rw [hnone] at g
          cases g
    · rw [hkept, List.mem_cons, ih (Nat.le_of_succ_le hi)]
      constructor
      · rintro (rfl | ⟨h, g⟩)
        · exact ⟨.inr rfl, by rw [hsome]; rfl⟩
        · exact ⟨.inl h, g⟩
      · rintro ⟨h | rfl, g⟩
        · exact .inr ⟨h, g⟩
        · exact .inl rfl

/-- The counts are those of the faults and of the slots without room. -/
theorem State.progress_tally {i : Nat} (hi : i ≤ 256) :
    (s.progress n i).tally =
      ⟨(slotsBefore i).countP fun e => s.slotUsed n e && decide (s.fate n e = .fault),
        (slotsBefore i).countP fun e => s.slotUsed n e && decide (s.fate n e = .noRoom)⟩ := by
  induction i with
  | zero => rfl
  | succ i ih =>
    have hfate : s.fate n (slotNumbered i) = s.fateAt n (s.progress n i) (slotNumbered i) := by
      unfold State.fate
      rw [slotNumber_slotNumbered hi]
    rw [State.progress_succ, slotsBefore_succ, List.countP_append, List.countP_append, List.countP_singleton,
      List.countP_singleton, hfate]
    have ih := ih (Nat.le_of_succ_le hi)
    unfold State.takeSlot State.settleSlot State.fateAt
    cases s.slotUsed n (slotNumbered i) with
    | false => exact ih
    | true =>
      cases s.slotPlacement n (s.progress n i) (slotNumbered i) with
      | none => simp [ih, Tally.fault]
      | some p =>
        by_cases hgap : Sparse.firstGap 0 (s.progress n i).state.fmt.table < 1024
        · simp [hgap, ih]
        · simp [hgap, ih]

/-! ## The table and the chains -/

/-- The entries that the slots before a place have been built into. -/
def State.entriesBefore (i : Nat) : List Nat := (slotsBefore i).filterMap (s.slotEntry n)

/-- What the slots before a place have left in the table and the chains, from a table in canonical form. -/
structure State.Laid (i : Nat) : Prop where
  wf : Sparse.wf none (s.progress n i).state.fmt.table = true
  others : ∀ k, k ∉ s.entriesBefore n i → (s.progress n i).state.fmt.placement k = s.fmt.placement k
  built : ∀ e, slotNumber e < i → ∀ k, s.slotEntry n e = some k →
    k < 1024 ∧ s.fmt.placement k = none ∧ ∃ p, (s.progress n i).state.fmt.placement k = some p ∧ s.Fills n e p
  nodup : (s.entriesBefore n i).Nodup
  chains : ∀ c ks, s.ChainIs c ks → (s.progress n i).state.ChainIs c
    ((((slotsBefore i).filter fun e => (s.slotAt n e).instr = c.val).filterMap (s.slotEntry n)).reverse ++ ks)

variable {s n}

theorem State.mem_entriesBefore {i : Nat} (hi : i ≤ 256) {k : Nat} :
    k ∈ s.entriesBefore n i ↔ ∃ e, slotNumber e < i ∧ s.slotEntry n e = some k := by
  unfold State.entriesBefore
  rw [List.mem_filterMap]
  exact exists_congr fun e => and_congr_left fun _ => mem_slotsBefore hi

theorem State.laid_zero (h : Sparse.wf none s.fmt.table = true) : s.Laid n 0 :=
  ⟨h, fun _ _ => rfl, fun _ h => absurd h (Nat.not_lt_zero _), List.nodup_nil, fun _ _ h => h⟩

namespace State.Laid

/-- The entry that the next slot is built into was free before the REMAP, and is not one built into since. -/
theorem gap_fresh {i : Nat} (h : s.Laid n i) (hi : i ≤ 256) :
    s.fmt.placement (Sparse.firstGap 0 (s.progress n i).state.fmt.table) = none ∧
      Sparse.firstGap 0 (s.progress n i).state.fmt.table ∉ s.entriesBefore n i := by
  obtain ⟨hfree, -⟩ := Formatter.firstGap_free h.wf
  have hnew : Sparse.firstGap 0 (s.progress n i).state.fmt.table ∉ s.entriesBefore n i := fun hin => by
    obtain ⟨e, he, hk⟩ := (State.mem_entriesBefore hi).1 hin
    obtain ⟨-, -, p, hp, -⟩ := h.built e he _ hk
    rw [hfree] at hp
    cases hp
  exact ⟨(h.others _ hnew).symm.trans hfree, hnew⟩

theorem succ {i : Nat} (h : s.Laid n i) (hi : i < 256) : s.Laid n (i + 1) := by
  obtain ⟨hfree, hnew⟩ := h.gap_fresh (Nat.le_of_lt hi)
  have hentries : s.entriesBefore n (i + 1) = s.entriesBefore n i ++ (s.slotEntry n (slotNumbered i)).toList := by
    unfold State.entriesBefore
    rw [slotsBefore_succ, List.filterMap_append]
    cases hs : s.slotEntry n (slotNumbered i) <;> simp [hs]
  have hlast : ∀ e, slotNumber e < i + 1 → slotNumber e < i ∨ e = slotNumbered i := fun e he => by
    rcases Nat.lt_succ_iff_lt_or_eq.1 he with he | he
    · exact .inl he
    · exact .inr (by rw [← he, slotNumbered_slotNumber])
  rcases s.progress_step n hi with ⟨hnone, hstate, -⟩ | ⟨p, hp, hgap, hsome, hstate, -⟩
  · rw [hnone, Option.toList_none, List.append_nil] at hentries
    refine ⟨hstate ▸ h.wf, fun k hk => ?_, fun e he k hk => ?_, hentries ▸ h.nodup, fun c ks hc => ?_⟩
    · rw [hstate]
      exact h.others k (hentries ▸ hk)
    · rw [hstate]
      rcases hlast e he with he | rfl
      · exact h.built e he k hk
      · rw [hnone] at hk
        cases hk
    · rw [hstate, slotsBefore_succ, List.filter_append, List.filterMap_append]
      have htail : ([slotNumbered i].filter fun e => (s.slotAt n e).instr = c.val).filterMap (s.slotEntry n) = [] := by
        by_cases hinstr : (s.slotAt n (slotNumbered i)).instr = c.val <;> simp [hinstr, hnone]
      rw [htail, List.append_nil]
      exact h.chains c ks hc
  · rw [hsome, Option.toList_some] at hentries
    obtain ⟨hfills, -⟩ := State.slotPlacement_eq_some hp
    generalize Sparse.firstGap 0 (s.progress n i).state.fmt.table = gap at *
    have hplace : ∀ k, (s.progress n (i + 1)).state.fmt.placement k =
        if k = gap then some { p with next := ((s.progress n i).state.record p.instr).chainHead }
        else (s.progress n i).state.fmt.placement k := fun k => by
      rw [hstate, State.placement_build]
    refine ⟨?_, fun k hk => ?_, fun e he k hk => ?_, ?_, fun c ks hc => ?_⟩
    · rw [hstate]
      exact Sparse.wf_set _ _ _ _ h.wf
    · rw [hentries, List.mem_append, List.mem_singleton, not_or] at hk
      rw [hplace, if_neg hk.2]
      exact h.others k hk.1
    · rcases hlast e he with he | rfl
      · obtain ⟨hlt, hbefore, q, hq, hqe⟩ := h.built e he k hk
        have hne : k ≠ gap := fun hkg => hnew (hkg ▸ (State.mem_entriesBefore (Nat.le_of_lt hi)).2 ⟨e, he, hk⟩)
        exact ⟨hlt, hbefore, q, by rw [hplace, if_neg hne]; exact hq, hqe⟩
      · obtain rfl : gap = k := Option.some.inj (hsome.symm.trans hk)
        exact ⟨hgap, hfree, _, (hplace gap).trans (if_pos rfl), hfills.link _⟩
    · rw [hentries]
      exact List.nodup_append.2 ⟨h.nodup, List.nodup_singleton _, fun a ha b hb => by
        rw [List.mem_singleton] at hb
        exact fun hab => hnew (hb ▸ hab ▸ ha)⟩
    · have hgone : (s.progress n i).state.fmt.placement gap = none := (h.others gap hnew).trans hfree
      have hchain := (h.chains c ks hc).build (p := p) hgone hgap
      rw [← hstate] at hchain
      rw [slotsBefore_succ, List.filter_append, List.filterMap_append, List.reverse_append]
      by_cases hinstr : (s.slotAt n (slotNumbered i)).instr = c.val
      · rw [if_pos (Fin.ext (hinstr.symm.trans hfills.instr.symm))] at hchain
        simpa [hinstr, hsome] using hchain
      · rw [if_neg fun hci : c = p.instr => hinstr (hci ▸ hfills.instr.symm)] at hchain
        simpa [hinstr, hsome] using hchain

end State.Laid

theorem State.laid (h : Sparse.wf none s.fmt.table = true) {i : Nat} (hi : i ≤ 256) : s.Laid n i := by
  induction i with
  | zero => exact State.laid_zero h
  | succ i ih => exact (ih (Nat.le_of_succ_le hi)).succ hi

end

end Sys2Proof.Machine
end

section
/-! PROOF. What becomes of each slot (R77 to R79): a fault where it does not pass, an entry while one is free, no room after. -/

namespace Sys2Proof.Machine

section
variable (s : State) (n : Fin 4)

/-- A slot passes R77. -/
def State.SlotFits (e : Fin 32 × Fin 8) : Prop :=
  (s.slotAt n e).instr < 2048 ∧ (fieldKindOf (s.slotAt n e).kind).isSome = true ∧ 1 ≤ (s.slotAt n e).width ∧
    (s.slotAt n e).width ≤ 16 ∧
    (∀ w, s.mapWidth n e.1 = some w → (s.slotAt n e).start + (s.slotAt n e).width ≤ w.cells) ∧ (s.slotAt n e).format < 32 ∧
    ∀ j, j < e.2 → (s.slotEntry n (e.1, j)).isSome = true →
      (s.slotAt n (e.1, j)).start + (s.slotAt n (e.1, j)).width ≤ (s.slotAt n e).start ∨
        (s.slotAt n e).start + (s.slotAt n e).width ≤ (s.slotAt n (e.1, j)).start

variable {s n}

/-- The slots of a module that have been kept (R77). -/
theorem State.mem_keptOn {i : Nat} (hi : i ≤ 256) {m : Fin 32} {x : Slot} :
    x ∈ s.keptOn n (s.progress n i) m ↔
      ∃ j, slotNumber (m, j) < i ∧ (s.slotEntry n (m, j)).isSome = true ∧ s.slotAt n (m, j) = x := by
  unfold State.keptOn
  simp only [List.mem_map, List.mem_filter, s.mem_progress_kept n hi, decide_eq_true_eq]
  constructor
  · rintro ⟨⟨m', j⟩, ⟨⟨hlt, hkept⟩, rfl⟩, rfl⟩
    exact ⟨j, hlt, hkept, rfl⟩
  · rintro ⟨j, hlt, hkept, rfl⟩
    exact ⟨(m, j), ⟨⟨hlt, hkept⟩, rfl⟩, rfl⟩

theorem Slot.overlaps_eq_false {x y : Slot} : x.overlaps y = false ↔ y.start + y.width ≤ x.start ∨ x.start + x.width ≤ y.start := by
  unfold Slot.overlaps
  rw [decide_eq_false_iff_not]
  omega

/-- The slot overlaps none kept before it (R77 condition 5). -/
theorem State.apart_iff (e : Fin 32 × Fin 8) :
    (s.keptOn n (s.progress n (slotNumber e)) e.1).any (s.slotAt n e).overlaps = false ↔
      ∀ j, j < e.2 → (s.slotEntry n (e.1, j)).isSome = true →
        (s.slotAt n (e.1, j)).start + (s.slotAt n (e.1, j)).width ≤ (s.slotAt n e).start ∨
          (s.slotAt n e).start + (s.slotAt n e).width ≤ (s.slotAt n (e.1, j)).start := by
  have hnumber : ∀ j, slotNumber (e.1, j) < slotNumber e ↔ j < e.2 := fun j => by
    show 8 * e.1.val + j.val < 8 * e.1.val + e.2.val ↔ j.val < e.2.val
    omega
  rw [List.any_eq_false]
  simp only [Bool.not_eq_true, Slot.overlaps_eq_false]
  constructor
  · exact fun h j hj hk => h _ ((State.mem_keptOn (Nat.le_of_lt (slotNumber_lt e))).2 ⟨j, (hnumber j).2 hj, hk, rfl⟩)
  · intro h x hx
    obtain ⟨j, hj, hk, rfl⟩ := (State.mem_keptOn (Nat.le_of_lt (slotNumber_lt e))).1 hx
    exact h j ((hnumber j).1 hj) hk

/-- A used slot passes R77 just where it has a placement to build. -/
theorem State.fits_iff {e : Fin 32 × Fin 8} (h : s.slotUsed n e = true) :
    s.SlotFits n e ↔ (s.slotPlacement n (s.progress n (slotNumber e)) e).isSome = true := by
  obtain ⟨hwidth, -⟩ := Bool.and_eq_true_iff.1 h
  obtain ⟨w, hw⟩ := Option.isSome_iff_exists.1 hwidth
  constructor
  · rintro ⟨hi, hk, hpos, hmax, hend, hf, hapart⟩
    obtain ⟨kind, hkind⟩ := Option.isSome_iff_exists.1 hk
    have hc := Slot.checked_eq_some (i := ⟨_, hi⟩) (format := ⟨_, hf⟩)
      |>.2 ⟨rfl, hkind, rfl, hpos, hmax, hend w hw, (State.apart_iff e).2 hapart⟩
    unfold State.slotPlacement
    rw [hw, Option.bind_some, hc]
    rfl
  · intro hsome
    obtain ⟨p, hp⟩ := Option.isSome_iff_exists.1 hsome
    obtain ⟨hfills, w', hw', hpos, hmax, hend, hapart⟩ := State.slotPlacement_eq_some hp
    rw [hfills.width] at hpos hmax
    rw [hfills.start, hfills.width] at hend
    refine ⟨hfills.instr ▸ p.instr.isLt, by rw [hfills.kind]; rfl, hpos, hmax, fun w'' hw'' => ?_,
      hfills.format ▸ p.format.isLt, (State.apart_iff e).1 hapart⟩
    obtain rfl : w' = w'' := Option.some.inj (hw'.symm.trans hw'')
    exact hend

/-- Of the entries that read as free, a list of some takes away its length. -/
theorem countP_free {p q : Nat → Bool} {l : List Nat} {N : Nat} (hl : l.Nodup) (hin : ∀ k ∈ l, k < N ∧ p k = true)
    (hq : ∀ k, q k = (p k && decide (k ∉ l))) : (List.range N).countP p = (List.range N).countP q + l.length := by
  have hlen : l.length = (List.range N).countP fun k => p k && decide (k ∈ l) := by
    rw [List.countP_eq_length_filter]
    refine List.Perm.length_eq ((List.perm_ext_iff_of_nodup hl (List.nodup_range.filter _)).2 fun k => ?_)
    rw [List.mem_filter, List.mem_range, Bool.and_eq_true, decide_eq_true_eq]
    exact ⟨fun h => ⟨(hin k h).1, (hin k h).2, h⟩, fun h => h.2.2⟩
  rw [hlen, List.countP_eq_countP_filter_add (List.range N) p fun k => decide (k ∉ l), List.countP_filter, List.countP_filter]
  congr 1
  · exact List.countP_congr fun k _ => by rw [hq]
  · exact List.countP_congr fun k _ => by simp

/-- The number of free entries of the table (R79). -/
def Formatter.freeEntries (x : Formatter) : Nat := (List.range 1024).countP fun k => (x.placement k).isNone

/-- An entry is free just where the lowest free one is within the table. -/
theorem Formatter.freeEntries_pos {x : Formatter} (h : Sparse.wf none x.table = true) :
    0 < x.freeEntries ↔ Sparse.firstGap 0 x.table < 1024 := by
  obtain ⟨hfree, hbelow⟩ := Formatter.firstGap_free h
  unfold Formatter.freeEntries
  rw [List.countP_pos_iff]
  constructor
  · rintro ⟨k, hk, hnone⟩
    rw [List.mem_range] at hk
    by_contra hgap
    exact hbelow k (by omega) (Option.isNone_iff_eq_none.1 hnone)
  · exact fun hgap => ⟨_, List.mem_range.2 hgap, Option.isNone_iff_eq_none.2 hfree⟩

/-- The slots built into entries have left the other free entries (R79). -/
theorem State.Laid.freeEntries {i : Nat} (h : s.Laid n i) (hi : i ≤ 256) :
    s.fmt.freeEntries = (s.progress n i).state.fmt.freeEntries + (s.entriesBefore n i).length := by
  refine countP_free h.nodup (fun k hk => ?_) fun k => ?_
  · obtain ⟨e, he, hke⟩ := (State.mem_entriesBefore hi).1 hk
    obtain ⟨hlt, hnone, -⟩ := h.built e he k hke
    exact ⟨hlt, Option.isNone_iff_eq_none.2 hnone⟩
  · by_cases hk : k ∈ s.entriesBefore n i
    · obtain ⟨e, he, hke⟩ := (State.mem_entriesBefore hi).1 hk
      obtain ⟨-, -, p, hp, -⟩ := h.built e he k hke
      simp [hk, hp]
    · simp [hk, h.others k hk]

/-- A slot that does not pass is a fault (R78). -/
theorem State.fate_of_not_fits {e : Fin 32 × Fin 8} (h : s.slotUsed n e = true) (hf : ¬ s.SlotFits n e) : s.fate n e = .fault := by
  rw [State.fits_iff h, Bool.not_eq_true, Option.isSome_eq_false_iff, Option.isNone_iff_eq_none] at hf
  unfold State.fate State.fateAt
  rw [hf]

/-- A slot that passes is built while an entry is free, and finds no room after (R79). -/
theorem State.fate_of_fits (hwf : Sparse.wf none s.fmt.table = true) {e : Fin 32 × Fin 8} (h : s.slotUsed n e = true)
    (hf : s.SlotFits n e) :
    (s.fmt.freeEntries ≤ (s.entriesBefore n (slotNumber e)).length → s.fate n e = .noRoom) ∧
      ((s.entriesBefore n (slotNumber e)).length < s.fmt.freeEntries → ∃ k, s.slotEntry n e = some k ∧ s.fate n e = .kept k) := by
  have hp := (State.fits_iff h).1 hf
  have hle := Nat.le_of_lt (slotNumber_lt e)
  have hlaid := State.laid (n := n) hwf hle
  have hroom : (s.entriesBefore n (slotNumber e)).length < s.fmt.freeEntries ↔
      Sparse.firstGap 0 (s.progress n (slotNumber e)).state.fmt.table < 1024 := by
    rw [← Formatter.freeEntries_pos hlaid.wf, hlaid.freeEntries hle]
    omega
  have hfate : s.fate n e = if Sparse.firstGap 0 (s.progress n (slotNumber e)).state.fmt.table < 1024 then
      .kept (Sparse.firstGap 0 (s.progress n (slotNumber e)).state.fmt.table) else .noRoom := by
    unfold State.fate State.fateAt
    cases hs : s.slotPlacement n (s.progress n (slotNumber e)) e with
    | none => rw [hs] at hp; cases hp
    | some p => rfl
  refine ⟨fun hfull => ?_, fun hlt => ?_⟩
  · rwa [if_neg (mt hroom.2 (Nat.not_lt.2 hfull))] at hfate
  · rw [if_pos (hroom.1 hlt)] at hfate
    refine ⟨_, ?_, hfate⟩
    unfold State.slotEntry
    rw [if_pos h, hfate]

/-- A slot that has been built passed R77. -/
theorem State.fits_of_entry {e : Fin 32 × Fin 8} {k : Nat} (h : s.slotEntry n e = some k) : s.slotUsed n e = true ∧ s.SlotFits n e := by
  have hused : s.slotUsed n e = true := by
    by_contra hu
    unfold State.slotEntry at h
    rw [if_neg hu] at h
    cases h
  refine ⟨hused, ?_⟩
  by_contra hf
  unfold State.slotEntry at h
  rw [State.fate_of_not_fits hused hf, if_pos hused] at h
  cases h

end

end Sys2Proof.Machine
end

section
/-! PROOF. Steps 2 and 3 of R92 on a bus that completes every access: the model's run over the modules and slots of a line is the run over
the slots in order (R76 to R80). -/

namespace Sys2Proof.Machine

/-! ## What is read (R76) -/

/-- The used slots among some, in order, as they are read (log 23). -/
theorem Bus.readSlots_quiet {b : Bus} (h : b.script = []) (base : Word) (ks : List Nat) :
    b.readSlots base ks = (b, some ((ks.filter fun k => (b.peek (base + word (2 + 3 * k))).bit 15).map fun k =>
      slotOf (b.peek (base + word (2 + 3 * k))) (b.peek (base + word (3 + 3 * k))) (b.peek (base + word (4 + 3 * k))))) := by
  induction ks with
  | nil => rfl
  | cons k ks ih =>
    simp only [Bus.readSlots, Bus.read_quiet h, Bus.readAll_quiet h, List.filter_cons]
    split
    · simp only [List.map, ih]
    · exact ih

section
variable (s : State) (n : Fin 4)

/-- The used slots of a module, in order. -/
def State.usedSlots (m : Fin 32) : List Slot := ((List.finRange 8).filter fun j => s.slotUsed n (m, j)).map fun j => s.slotAt n (m, j)

/-- A module record as REMAP takes it (R76). -/
def State.mapRead (m : Fin 32) : MapRead :=
  match s.mapWidth n m with
  | some w => .module ⟨w, staleOf (s.mapWord n m 1), s.usedSlots n m⟩
  | none => if (s.mapWord n m 0).bit 15 then .illegalWidth else .absent

variable {s}

theorem State.readMap_quiet (h : s.bus.script = []) (m : Fin 32) :
    (s.bus.readMap (s.params.moduleRecord n m)).2 = s.mapRead n m := by
  have hzero : s.mapWord n m 0 = s.bus.peek (s.params.moduleRecord n m) := by
    unfold State.mapWord
    rw [show word 0 = 0#16 from rfl, BitVec.add_zero]
  have hslots : ∀ w, s.mapWidth n m = some w → (s.bus.readSlots (s.params.moduleRecord n m) (List.range 8)).2 =
      some (s.usedSlots n m) := fun w hw => by
    have hused : ∀ j : Fin 8, s.slotUsed n (m, j) = (s.mapWord n m (2 + 3 * j.val)).bit 15 := fun j => by
      unfold State.slotUsed
      rw [hw]
      rfl
    rw [Bus.readSlots_quiet h, show List.range 8 = (List.finRange 8).map (·.val) by decide, List.filter_map, List.map_map]
    unfold State.usedSlots
    simp only [hused]
    refine congrArg some (List.map_congr_left fun j _ => ?_)
    have hthree : 3 + 3 * j.val = 2 + 3 * j.val + 1 := by omega
    have hfour : 4 + 3 * j.val = 2 + 3 * j.val + 2 := by omega
    simp only [Function.comp, hthree, hfour]
    rfl
  unfold Bus.readMap State.mapRead
  rw [Bus.read_quiet h]
  dsimp only
  rw [← hzero]
  unfold State.mapWidth at hslots ⊢
  split
  · rw [if_pos ‹_›] at hslots
    cases hw : widthOf ((s.mapWord n m 0).bits 0 2) with
    | none => rfl
    | some w =>
      have hread := hslots w hw
      unfold Bus.readMapBody
      rw [Bus.read_quiet h]
      dsimp only
      cases hr : s.bus.readSlots (s.params.moduleRecord n m) (List.range 8) with
      | mk b o =>
        rw [hr] at hread
        dsimp only at hread
        rw [hread]
        rfl
  · rfl

/-! ## The slots of one module (R77, R79) -/

/-- Counts added up. -/
def Tally.plus (a b : Tally) : Tally := ⟨a.faults + b.faults, a.noRoom + b.noRoom⟩

variable {n}

theorem State.keptOn_cons (g : Progress) (e : Fin 32 × Fin 8) (t : State) (y : Tally) (m : Fin 32) :
    s.keptOn n ⟨t, e :: g.kept, y⟩ m = if e.1 = m then s.slotAt n e :: s.keptOn n g m else s.keptOn n g m := by
  unfold State.keptOn
  by_cases h : e.1 = m <;> simp [h]

theorem State.takeSlot_bus (g : Progress) (e : Fin 32 × Fin 8) : (s.takeSlot n g e).state.bus = g.state.bus := by
  unfold State.takeSlot State.settleSlot
  split
  · split
    · rfl
    · split <;> rfl
  · rfl

/-- The first of some slots, on a bus that completes every access. -/
theorem State.buildSlots_cons {u : State} (hq : u.bus.script = []) (m : Fin 32) (w : Width) (x : Slot) (xs kept : List Slot)
    (t : Tally) :
    State.buildSlots n m w (x :: xs) kept (u, t) =
      match x.checked w kept with
      | none => State.buildSlots n m w xs kept (u, t.fault)
      | some o =>
        if Sparse.firstGap 0 u.fmt.table < 1024 then
          State.buildSlots n m w xs (x :: kept)
            (u.build (Sparse.firstGap 0 u.fmt.table) ⟨n, m, x.start, x.width, o.2.1, o.2.2, o.1, none, none⟩, t)
        else State.buildSlots n m w xs kept (u, { t with noRoom := t.noRoom + 1 }) := by
  rw [State.buildSlots]
  cases x.checked w kept with
  | none => rfl
  | some o =>
    dsimp only
    rw [Bus.readAll_quiet hq]
    rfl

/-- A used slot of a module of a width, before the slots behind it. -/
theorem State.buildSlots_takeSlot (hq : s.bus.script = []) {g : Progress} (hg : g.state.bus = s.bus) {m : Fin 32} {w : Width}
    (hw : s.mapWidth n m = some w) {j : Fin 8} (hu : s.slotUsed n (m, j) = true) (xs : List Slot) (t : Tally) :
    State.buildSlots n m w (s.slotAt n (m, j) :: xs) (s.keptOn n g m) (g.state, t.plus g.tally) =
      State.buildSlots n m w xs (s.keptOn n (s.takeSlot n g (m, j)) m)
        ((s.takeSlot n g (m, j)).state, t.plus (s.takeSlot n g (m, j)).tally) := by
  have hplace : s.slotPlacement n g (m, j) = ((s.slotAt n (m, j)).checked w (s.keptOn n g m)).map fun o =>
      ⟨n, m, (s.slotAt n (m, j)).start, (s.slotAt n (m, j)).width, o.2.1, o.2.2, o.1, none, none⟩ := by
    unfold State.slotPlacement
    rw [hw, Option.bind_some]
  rw [State.buildSlots_cons (hg ▸ hq), State.takeSlot, if_pos hu]
  unfold State.settleSlot
  rw [hplace]
  cases (s.slotAt n (m, j)).checked w (s.keptOn n g m) with
  | none => rfl
  | some o =>
    dsimp only [Option.map_some]
    split
    · rw [State.keptOn_cons, if_pos rfl]
    · rfl

theorem State.buildSlots_eq (hq : s.bus.script = []) {m : Fin 32} {w : Width} (hw : s.mapWidth n m = some w) (js : List (Fin 8))
    {g : Progress} (hg : g.state.bus = s.bus) (t : Tally) :
    State.buildSlots n m w ((js.filter fun j => s.slotUsed n (m, j)).map fun j => s.slotAt n (m, j)) (s.keptOn n g m)
        (g.state, t.plus g.tally) =
      (((js.map fun j => (m, j)).foldl (s.takeSlot n) g).state, t.plus ((js.map fun j => (m, j)).foldl (s.takeSlot n) g).tally,
        s.keptOn n ((js.map fun j => (m, j)).foldl (s.takeSlot n) g) m) := by
  induction js generalizing g with
  | nil => rfl
  | cons j js ih =>
    rw [List.map_cons, List.foldl_cons, ← ih ((State.takeSlot_bus g (m, j)).trans hg)]
    cases hu : s.slotUsed n (m, j) with
    | false => rw [List.filter_cons_of_neg (by simp [hu]), State.takeSlot, hu]; rfl
    | true => rw [List.filter_cons_of_pos (by simp [hu]), List.map_cons, State.buildSlots_takeSlot hq hg hw hu]

end

end Sys2Proof.Machine
end

section
/-! PROOF. The modules of a line mapped, on a bus that completes every access (R76 to R78, R92 step 3): stale cells, counts, and what is
found of each module. -/

namespace Sys2Proof.Machine

/-! ## The stale cell of a module (R78) -/

/-- The stale cell is made absent just where one is named and none is kept. -/
theorem checkStale_faulty (w : Width) (kept : List Slot) (stale : Option Nat) :
    (checkStale w kept stale).2 = (stale.isSome && (checkStale w kept stale).1.isNone) := by
  unfold checkStale
  cases stale with
  | none => rfl
  | some c =>
    dsimp only
    split
    · split <;> rfl
    · rfl

/-- A stale cell is kept where it is a cell of the module outside the fields kept. -/
theorem checkStale_cell (w : Width) (kept : List Slot) (stale : Option Nat) :
    (checkStale w kept stale).1.map (·.val) =
      stale.filter fun c => c < w.cells ∧ ∀ x ∈ kept, c < x.start ∨ x.start + x.width ≤ c := by
  cases stale with
  | none => rfl
  | some c =>
    have hclear : (kept.any fun x => decide (x.start ≤ c ∧ c < x.start + x.width)) = false ↔
        ∀ x ∈ kept, c < x.start ∨ x.start + x.width ≤ c := by
      rw [List.any_eq_false]
      refine forall₂_congr fun x _ => ?_
      rw [decide_eq_true_eq]
      omega
    obtain ⟨-, hcells⟩ := w.cells_le
    unfold checkStale
    simp only [hclear, Option.filter_some]
    by_cases hc : c < w.cells ∧ ∀ x ∈ kept, c < x.start ∨ x.start + x.width ≤ c
    · rw [dif_pos (show c < 32 by omega), if_pos hc, if_pos (decide_eq_true hc)]
      rfl
    · simp only [if_neg hc, decide_eq_true_eq]
      split <;> rfl

section
variable (s : State) (n : Fin 4)

/-- What REMAP finds of a module, with some slots examined. -/
def State.foundIn (g : Progress) (m : Fin 32) : Found :=
  (s.mapWidth n m).map fun w => (w, (checkStale w (s.keptOn n g m) (staleOf (s.mapWord n m 1))).1)

/-- The record is present, of an illegal width (R76). -/
def State.illegalWidth (m : Fin 32) : Bool := (s.mapWord n m 0).bit 15 && (s.mapWidth n m).isNone

/-- The stale cell that the record names is made absent (R78). -/
def State.staleFault (g : Progress) (m : Fin 32) : Bool :=
  (s.mapWidth n m).isSome && (s.mapWord n m 1).bit 15 && ((s.foundIn n g m).bind (·.2)).isNone

/-- The slots of some modules examined in order. -/
def State.takeModules (g : Progress) (ms : List (Fin 32)) : Progress :=
  (ms.flatMap fun m => (List.finRange 8).map fun j => (m, j)).foldl (s.takeSlot n) g

variable {s n}

theorem State.takeModules_cons (g : Progress) (m : Fin 32) (ms : List (Fin 32)) :
    s.takeModules n g (m :: ms) = s.takeModules n (((List.finRange 8).map fun j => (m, j)).foldl (s.takeSlot n) g) ms := by
  unfold State.takeModules
  rw [List.flatMap_cons, List.foldl_append]

/-- A slot of another module leaves the slots kept of a module. -/
theorem State.keptOn_takeSlot {g : Progress} {e : Fin 32 × Fin 8} {m : Fin 32} (h : e.1 ≠ m) :
    s.keptOn n (s.takeSlot n g e) m = s.keptOn n g m := by
  unfold State.takeSlot State.settleSlot
  split
  · split
    · rfl
    · split
      · rw [State.keptOn_cons, if_neg h]
      · rfl
  · rfl

theorem State.keptOn_foldl {es : List (Fin 32 × Fin 8)} {m : Fin 32} (h : ∀ e ∈ es, e.1 ≠ m) (g : Progress) :
    s.keptOn n (es.foldl (s.takeSlot n) g) m = s.keptOn n g m :=
  List.foldlRecOn es _ (motive := fun g' => s.keptOn n g' m = s.keptOn n g m) rfl fun _ hg e he =>
    (State.keptOn_takeSlot (h e he)).trans hg

theorem State.foldl_takeSlot_bus (es : List (Fin 32 × Fin 8)) (g : Progress) :
    (es.foldl (s.takeSlot n) g).state.bus = g.state.bus :=
  List.foldlRecOn es _ (motive := fun g' : Progress => g'.state.bus = g.state.bus) rfl fun _ hg e _ =>
    (State.takeSlot_bus _ e).trans hg

/-- Slots not used leave everything. -/
theorem State.foldl_takeSlot_unused {es : List (Fin 32 × Fin 8)} (h : ∀ e ∈ es, s.slotUsed n e = false) (g : Progress) :
    es.foldl (s.takeSlot n) g = g :=
  List.foldlRecOn es _ (motive := fun g' => g' = g) rfl fun g' hg e he => by
    unfold State.takeSlot
    rw [h e he]
    exact hg

theorem isSome_staleOf (w : Word) : (staleOf w).isSome = w.bit 15 := by
  unfold staleOf
  cases w.bit 15 <;> rfl

/-- One module is mapped: its slots are examined, and its faults counted (R76 to R78). -/
theorem State.buildModule_eq (hq : s.bus.script = []) {g : Progress} (hg : g.state.bus = s.bus) {m : Fin 32}
    (hm : s.keptOn n g m = []) (t : Tally) {g' : Progress} (hg' : g' = ((List.finRange 8).map fun j => (m, j)).foldl (s.takeSlot n) g) :
    g.state.buildModule n m (t.plus g.tally) (s.mapRead n m) =
      (g'.state, Tally.plus ⟨t.faults + ((s.illegalWidth n m).toNat + (s.staleFault n g' m).toNat), t.noRoom⟩ g'.tally,
        s.foundIn n g' m) := by
  unfold State.mapRead State.illegalWidth State.staleFault State.foundIn
  cases hw : s.mapWidth n m with
  | none =>
    have hsame : g' = g := by
      rw [hg']
      refine State.foldl_takeSlot_unused (fun e he => ?_) g
      obtain ⟨j, -, rfl⟩ := List.mem_map.1 he
      unfold State.slotUsed
      rw [hw]
      rfl
    rw [hsame]
    cases (s.mapWord n m 0).bit 15 with
    | false => rfl
    | true =>
      show (_, (t.plus g.tally).fault, none) = _
      unfold Tally.plus Tally.fault
      simp only [Option.isNone_none, Bool.and_true, Bool.toNat_true, Option.isSome_none, Bool.false_and, Bool.toNat_false]
      rw [Nat.add_right_comm]
      rfl
  | some w =>
    have hslots := State.buildSlots_eq hq hw (List.finRange 8) hg t
    rw [hm, ← hg'] at hslots
    have hfault := checkStale_faulty w (s.keptOn n g' m) (staleOf (s.mapWord n m 1))
    rw [isSome_staleOf] at hfault
    unfold State.buildModule State.usedSlots
    dsimp only
    rw [hslots]
    simp only [Option.isNone_some, Bool.and_false, Bool.toNat_false, Option.isSome_some, Bool.true_and, Option.map_some,
      Option.bind_some, ← hfault, Nat.zero_add]
    obtain ⟨stale, faulty⟩ := checkStale w (s.keptOn n g' m) (staleOf (s.mapWord n m 1))
    cases faulty with
    | false => rfl
    | true =>
      unfold Tally.plus Tally.fault
      simp only [Bool.toNat_true]
      rw [Nat.add_right_comm]

/-- The modules of a line are mapped in order. -/
theorem State.buildModules_eq (hq : s.bus.script = []) (ms : List (Fin 32)) (hms : ms.Nodup) {g : Progress}
    (hg : g.state.bus = s.bus) (hm : ∀ m ∈ ms, s.keptOn n g m = []) (t : Tally) :
    State.buildModules n (ms.map fun m => (m, s.mapRead n m)) g.state (t.plus g.tally) =
      ((s.takeModules n g ms).state,
        Tally.plus ⟨t.faults + (ms.countP (s.illegalWidth n) + ms.countP (s.staleFault n (s.takeModules n g ms))), t.noRoom⟩
          (s.takeModules n g ms).tally,
        ms.map fun m => (m, s.foundIn n (s.takeModules n g ms) m)) := by
  induction ms generalizing g t with
  | nil => rfl
  | cons m ms ih =>
    obtain ⟨hnot, hms⟩ := List.nodup_cons.1 hms
    have hmine : ∀ m', m' ≠ m → ∀ e ∈ (List.finRange 8).map fun j => (m, j), e.1 ≠ m' := fun m' hne e he => by
      obtain ⟨j, -, rfl⟩ := List.mem_map.1 he
      exact Ne.symm hne
    have hmodule := State.buildModule_eq hq hg (hm m List.mem_cons_self) t rfl
    rw [List.map_cons, State.buildModules, hmodule, State.takeModules_cons]
    dsimp only
    rw [ih hms ((State.foldl_takeSlot_bus _ g).trans hg) fun m' hm' => by
      rw [State.keptOn_foldl (hmine m' fun e => hnot (e ▸ hm')), hm m' (List.mem_cons_of_mem _ hm')]]
    generalize hg' : ((List.finRange 8).map fun j => (m, j)).foldl (s.takeSlot n) g = g'
    have hlater : s.keptOn n (s.takeModules n g' ms) m = s.keptOn n g' m := by
      refine State.keptOn_foldl (fun e he => ?_) g'
      obtain ⟨m', hm', he⟩ := List.mem_flatMap.1 he
      obtain ⟨j, -, rfl⟩ := List.mem_map.1 he
      exact fun e => hnot (e ▸ hm')
    have hfound : s.foundIn n (s.takeModules n g' ms) m = s.foundIn n g' m := by
      unfold State.foundIn
      rw [hlater]
    have hstale : s.staleFault n (s.takeModules n g' ms) m = s.staleFault n g' m := by
      unfold State.staleFault
      rw [hfound]
    rw [List.map_cons, hfound, List.countP_cons, List.countP_cons, hstale]
    refine Prod.ext rfl (Prod.ext ?_ rfl)
    dsimp only
    congr 2
    cases s.illegalWidth n m <;> cases s.staleFault n g' m <;> simp <;> omega

/-! ## The whole line -/

theorem State.takeModules_all (s : State) (n : Fin 4) : s.takeModules n ⟨s, [], ⟨0, 0⟩⟩ (List.finRange 32) = s.progress n 256 := by
  unfold State.takeModules State.progress
  rw [← slotOrder_take (Nat.le_refl _), List.take_of_length_le]
  · rfl
  · rw [slotOrder_eq, List.length_map, List.length_range]

/-- The faults of a line's REMAP (R78). -/
def State.faultCount (s : State) (n : Fin 4) : Nat :=
  slotOrder.countP (fun e => s.slotUsed n e && decide (s.fate n e = .fault)) + (List.finRange 32).countP (s.illegalWidth n)
    + (List.finRange 32).countP (s.staleFault n (s.progress n 256))

/-- The slots of a line without room (R79). -/
def State.noRoomCount (s : State) (n : Fin 4) : Nat := slotOrder.countP fun e => s.slotUsed n e && decide (s.fate n e = .noRoom)

/-- Steps 2 and 3 of R92 on a bus that completes every access. -/
theorem State.mapModules_eq (hq : s.bus.script = []) (n : Fin 4) :
    s.mapModules n = ((s.progress n 256).state, ⟨s.faultCount n, s.noRoomCount n⟩,
      (List.finRange 32).map fun m => (m, s.foundIn n (s.progress n 256) m)) := by
  have hmaps : s.bus.readMaps s.params n (List.finRange 32) =
      (s.bus, (List.finRange 32).map fun m => (m, s.mapRead n m)) := by
    rw [Bus.readMaps_quiet hq]
    exact congrArg (Prod.mk s.bus) (List.map_congr_left fun m _ => by rw [State.readMap_quiet n hq m])
  have hall := State.buildModules_eq hq (List.finRange 32) (List.nodup_finRange 32) (g := ⟨s, [], ⟨0, 0⟩⟩) (n := n) rfl
    (fun _ _ => rfl) ⟨0, 0⟩
  rw [State.takeModules_all, s.progress_tally n (Nat.le_refl _), ← slotOrder_take (Nat.le_refl _)] at hall
  unfold State.mapModules
  rw [hmaps]
  dsimp only
  rw [State.withBus_self]
  refine Eq.trans hall ?_
  have htake : slotOrder.take 256 = slotOrder := List.take_of_length_le (by rw [slotOrder_eq, List.length_map, List.length_range])
  rw [htake]
  unfold Tally.plus State.faultCount State.noRoomCount
  refine Prod.ext rfl (Prod.ext ?_ rfl)
  dsimp only
  congr 1 <;> omega

end

end Sys2Proof.Machine
end

section
/-! PROOF. Renderings of several entries onto one module (R86, R92 step 4): which cell each leaves, and the dirty range. -/

namespace Sys2Proof.Machine

/-! ## One field (R86) -/

theorem get_paintCells (image : Vector BoardCell 32) (start : Nat) (cells : List BoardCell) (c : Fin 32) :
    Bank.get (paintCells image start cells) c =
      if start ≤ c.val then (cells[c.val - start]?).getD (Bank.get image c) else Bank.get image c :=
  Bank.get_mapAll _ _ c

/-- A cell within the field. -/
theorem get_paintCells_in {image : Vector BoardCell 32} {start : Nat} {cells : List BoardCell} {c : Fin 32} (h : start ≤ c.val)
    (hc : c.val < start + cells.length) : some (Bank.get (paintCells image start cells) c) = cells[c.val - start]? := by
  rw [get_paintCells, if_pos h, List.getElem?_eq_getElem (by omega)]
  rfl

/-- A cell outside the field. -/
theorem get_paintCells_out {image : Vector BoardCell 32} {start : Nat} {cells : List BoardCell} {c : Fin 32}
    (h : c.val < start ∨ start + cells.length ≤ c.val) : Bank.get (paintCells image start cells) c = Bank.get image c := by
  rw [get_paintCells]
  split
  · rw [List.getElem?_eq_none (by omega)]
    rfl
  · rfl

/-- The cells that a field changes lie within it. -/
theorem differing_paintCells {image : Vector BoardCell 32} {start : Nat} {cells : List BoardCell} {k : Nat}
    (h : k ∈ differing image (paintCells image start cells)) : k < start + cells.length := by
  obtain ⟨c, hc, rfl⟩ := List.mem_map.1 h
  by_contra hout
  have hsame := get_paintCells_out (image := image) (start := start) (cells := cells) (c := c) (.inr (by omega))
  rw [List.mem_filter, hsame] at hc
  simp at hc

namespace Module

variable (x : Module) (start : Nat) (cells : List BoardCell)

theorem showCells_rest : x.showCells start cells =
    { x with image := paintCells x.image start cells, dirty := (x.showCells start cells).dirty } := by
  unfold Module.showCells Module.takeRange
  dsimp only
  split
  · rfl
  · split <;> rfl

variable {x}

/-- The range handed to a module that is not LIVE is discarded (R100). -/
theorem showCells_dirty_of_not_live (h : ¬ (x.present = true ∧ x.state = .live)) : (x.showCells start cells).dirty = x.dirty := by
  unfold Module.showCells Module.takeRange
  dsimp only
  split
  · rfl
  · rw [if_neg h]

variable {start cells}

/-- A range from the first cell on joins what a field changes, and covers it where the field ends within it (R100). -/
theorem showCells_dirty_from_zero (h : x.present = true ∧ x.state = .live) {last : Nat} (hd : x.dirty = some ⟨0, last⟩) :
    ∃ r, (x.showCells start cells).dirty = some r ∧ r.first = 0 ∧ last ≤ r.last ∧
      (start + cells.length ≤ last + 1 → r.last = last) := by
  unfold Module.showCells Module.takeRange
  dsimp only
  cases hr : rangeOver (differing x.image (paintCells x.image start cells)) with
  | none => exact ⟨_, hd, rfl, Nat.le_refl _, fun _ => rfl⟩
  | some r =>
    dsimp only
    rw [if_pos h, hd]
    refine ⟨_, rfl, Nat.zero_min _, Nat.le_max_left _ _, fun hle => ?_⟩
    have hlast : r.last < start + cells.length := by
      cases hl : differing x.image (paintCells x.image start cells) with
      | nil => rw [hl] at hr; cases hr
      | cons a l =>
        rw [hl] at hr
        obtain rfl : (⟨a, l.getLastD a⟩ : Range) = r := Option.some.inj hr
        refine differing_paintCells (image := x.image) ?_
        rw [hl]
        exact List.getLastD_mem_cons ..
    show max last r.last = last
    omega

end Module

/-! ## The entries of a table (R87, R92) -/

/-- The cells of a placement, with the format as it stands in the common area (R81, R83, R84). -/
def State.cellsOf (t : State) (p : Placement) : List BoardCell :=
  placementCells (t.record p.instr) t.session.state
    (formatOf [t.bus.peek (t.params.formatEntry p.format.val), t.bus.peek (t.params.formatEntry p.format.val + 1),
      t.bus.peek (t.params.formatEntry p.format.val + 2), t.bus.peek (t.params.formatEntry p.format.val + 3)]) p

theorem State.cellsOf_length (t : State) {p : Placement} (h : 1 ≤ p.width) : (t.cellsOf p).length = p.width := by
  unfold State.cellsOf placementCells
  rw [List.length_map, placementGlyphs_length _ _ _ h]

/-- The entry places a field on the module. -/
def State.Places (t : State) (n : Fin 4) (m : Fin 32) (k : Nat) (p : Placement) : Prop :=
  t.fmt.placement k = some p ∧ p.line = n ∧ p.module = m

section
variable {t : State} {n : Fin 4} {m : Fin 32}

theorem State.shownOn_of_places {k : Nat} {p : Placement} (h : t.Places n m k p) (x : Module) :
    t.shownOn n m [k] x = x.showCells p.start (t.cellsOf p) := by
  obtain ⟨hp, hline, hmodule⟩ := h
  simp only [State.shownOn, List.foldl_cons, List.foldl_nil, hp, hline, hmodule, and_self, if_true, State.cellsOf]

theorem State.shownOn_of_not_places {k : Nat} (h : ∀ p, ¬ t.Places n m k p) (x : Module) : t.shownOn n m [k] x = x := by
  unfold State.shownOn
  rw [List.foldl_cons]
  split
  · next p hp => rw [if_neg fun e => h p ⟨hp, e⟩]; rfl
  · rfl

/-- An entry changes a module by showing cells, or not at all. -/
theorem State.shownOn_cases (k : Nat) (x : Module) :
    (∃ p, t.Places n m k p ∧ t.shownOn n m [k] x = x.showCells p.start (t.cellsOf p)) ∨ t.shownOn n m [k] x = x := by
  by_cases h : ∃ p, t.Places n m k p
  · obtain ⟨p, hp⟩ := h
    exact .inl ⟨p, hp, State.shownOn_of_places hp x⟩
  · exact .inr (State.shownOn_of_not_places (not_exists.1 h) x)

theorem State.shownOn_cons (k : Nat) (ks : List Nat) (x : Module) :
    t.shownOn n m (k :: ks) x = t.shownOn n m ks (t.shownOn n m [k] x) := t.shownOn_append n m [k] ks x

/-- Entries of other modules leave a module. -/
theorem State.shownOn_elsewhere {ks : List Nat} (h : ∀ k ∈ ks, ∀ p, ¬ t.Places n m k p) (x : Module) : t.shownOn n m ks x = x := by
  induction ks with
  | nil => rfl
  | cons k ks ih =>
    obtain ⟨hk, hks⟩ := List.forall_mem_cons.1 h
    rw [State.shownOn_cons, State.shownOn_of_not_places hk, ih hks]

/-- Image and dirty range change, and nothing else. -/
theorem State.shownOn_rest (ks : List Nat) (x : Module) :
    t.shownOn n m ks x = { x with image := (t.shownOn n m ks x).image, dirty := (t.shownOn n m ks x).dirty } := by
  induction ks generalizing x with
  | nil => rfl
  | cons k ks ih =>
    rw [State.shownOn_cons, ih]
    rcases State.shownOn_cases (t := t) (n := n) (m := m) k x with ⟨p, -, h⟩ | h <;> rw [h]
    rw [Module.showCells_rest]

theorem State.shownOn_dirty_of_not_live (ks : List Nat) {x : Module} (h : ¬ (x.present = true ∧ x.state = .live)) :
    (t.shownOn n m ks x).dirty = x.dirty := by
  induction ks generalizing x with
  | nil => rfl
  | cons k ks ih =>
    rw [State.shownOn_cons]
    rcases State.shownOn_cases (t := t) (n := n) (m := m) k x with ⟨p, -, hk⟩ | hk <;> rw [hk]
    · refine (ih ?_).trans (Module.showCells_dirty_of_not_live _ _ h)
      rw [Module.showCells_rest]
      exact h
    · exact ih h

/-- A dirty range from the first cell on grows, and stays where every field ends within it. -/
theorem State.shownOn_dirty_from_zero (ks : List Nat) {x : Module} (h : x.present = true ∧ x.state = .live) {last : Nat}
    (hd : x.dirty = some ⟨0, last⟩) :
    ∃ r, (t.shownOn n m ks x).dirty = some r ∧ r.first = 0 ∧ last ≤ r.last ∧
      ((∀ k p, t.Places n m k p → p.start + (t.cellsOf p).length ≤ last + 1) → r.last = last) := by
  induction ks generalizing x last with
  | nil => exact ⟨_, hd, rfl, Nat.le_refl _, fun _ => rfl⟩
  | cons k ks ih =>
    rw [State.shownOn_cons]
    rcases State.shownOn_cases (t := t) (n := n) (m := m) k x with ⟨p, hp, hk⟩ | hk <;> rw [hk]
    · obtain ⟨⟨first, last'⟩, hr, rfl, hle, hwithin⟩ := Module.showCells_dirty_from_zero (start := p.start) (cells := t.cellsOf p) h hd
      have hlive : (x.showCells p.start (t.cellsOf p)).present = true ∧ (x.showCells p.start (t.cellsOf p)).state = .live := by
        rw [Module.showCells_rest]
        exact h
      obtain ⟨r, hr', hfirst, hle', hwithin'⟩ := ih hlive hr
      refine ⟨r, hr', hfirst, Nat.le_trans hle hle', fun hall => ?_⟩
      have hlast : last' = last := hwithin (hall k p hp)
      subst hlast
      exact hwithin' hall
    · exact ih h hd

/-- A cell that no entry places a field on is as it was. -/
theorem State.shownOn_image_out (ks : List Nat) (x : Module) {c : Fin 32}
    (h : ∀ k ∈ ks, ∀ p, t.Places n m k p → c.val < p.start ∨ p.start + (t.cellsOf p).length ≤ c.val) :
    Bank.get (t.shownOn n m ks x).image c = Bank.get x.image c := by
  induction ks generalizing x with
  | nil => rfl
  | cons k ks ih =>
    obtain ⟨hk, hks⟩ := List.forall_mem_cons.1 h
    rw [State.shownOn_cons, ih _ hks]
    rcases State.shownOn_cases (t := t) (n := n) (m := m) k x with ⟨p, hp, e⟩ | e <;> rw [e]
    rw [Module.showCells_rest]
    exact get_paintCells_out (hk p hp)

/-- A cell that one entry alone places a field on shows that field. -/
theorem State.shownOn_image_in {ks : List Nat} (x : Module) {k : Nat} (hk : k ∈ ks) {p : Placement} (hp : t.Places n m k p)
    {c : Fin 32} (hc : p.start ≤ c.val) (hend : c.val < p.start + (t.cellsOf p).length)
    (h : ∀ j ∈ ks, j ≠ k → ∀ q, t.Places n m j q → c.val < q.start ∨ q.start + (t.cellsOf q).length ≤ c.val) :
    some (Bank.get (t.shownOn n m ks x).image c) = (t.cellsOf p)[c.val - p.start]? := by
  induction ks using List.reverseRecOn generalizing x with
  | nil => exact absurd hk List.not_mem_nil
  | append_singleton ks j ih =>
    rw [State.shownOn_append]
    by_cases hj : j = k
    · rw [hj, State.shownOn_of_places hp, Module.showCells_rest]
      exact get_paintCells_in hc hend
    · have hk' : k ∈ ks := (List.mem_append.1 hk).resolve_right fun e => hj (List.mem_singleton.1 e).symm
      rw [State.shownOn_image_out [j] _ fun j' hj' q hq => ?_]
      · exact ih x hk' fun i hi => h i (List.mem_append_left _ hi)
      · rw [List.mem_singleton] at hj'
        exact h j' (List.mem_append_right _ (List.mem_singleton.2 hj')) (hj' ▸ hj) q hq

end

end Sys2Proof.Machine
end

section
/-! PROOF. Steps 4 and 5 of R92 on a line (R99, R108, R111): what becomes of the line, and of each of its modules. -/

namespace Sys2Proof.Machine

/-! ## The modules (R99) -/

theorem BoardLine.module_modifyModule (l : BoardLine) (m k : Fin 32) (f : Module → Module) :
    (l.modifyModule m f).module k = if m = k then f (l.module k) else l.module k := by
  rw [BoardLine.modifyModule_eq, BoardLine.module_having]
  by_cases h : m = k
  · subst h; rfl
  · rw [if_neg h, if_neg h]

/-- Each of some distinct modules is changed, and nothing else. -/
theorem BoardLine.foldl_modifyModule (f : Fin 32 → Module → Module) (ms : List (Fin 32)) (hms : ms.Nodup) (l : BoardLine) :
    ms.foldl (fun l m => l.modifyModule m (f m)) l =
        { l with modules := (ms.foldl (fun l m => l.modifyModule m (f m)) l).modules } ∧
      ∀ k, (ms.foldl (fun l m => l.modifyModule m (f m)) l).module k = if k ∈ ms then f k (l.module k) else l.module k := by
  induction ms generalizing l with
  | nil => exact ⟨rfl, fun k => by simp⟩
  | cons m ms ih =>
    obtain ⟨hnot, hms⟩ := List.nodup_cons.1 hms
    obtain ⟨hrest, hmodule⟩ := ih hms (l.modifyModule m (f m))
    refine ⟨by rw [List.foldl_cons, hrest]; rfl, fun k => ?_⟩
    rw [List.foldl_cons, hmodule k, BoardLine.module_modifyModule]
    by_cases hk : m = k
    · subst hk
      simp [hnot]
    · simp [hk, Ne.symm hk]

/-- A module after steps 4 and 5, in a line that has broadcast the BLANK of module 31 in its place (R99, R108). -/
def Module.settled (x : Module) (stage : FeedStage) (m : Fin 32) (found : Found) : Module :=
  { x.remapped stage found with blankDue := (x.remapped stage found).blankDue && m != 31 }

theorem Module.withBlankDue_self {x : Module} {b : Bool} (h : b = x.blankDue) : { x with blankDue := b } = x := by
  subst h
  rfl

/-- Module 31 with blank due is blanked by the broadcast (R108). -/
theorem BoardLine.broadcastFor31_eq (l : BoardLine) :
    l.broadcastFor31 = { l with blankDue := l.blankDue || (l.module 31).blankDue, modules := l.broadcastFor31.modules } ∧
      ∀ m, l.broadcastFor31.module m = { l.module m with blankDue := (l.module m).blankDue && m != 31 } := by
  unfold BoardLine.broadcastFor31
  cases h31 : (l.module 31).blankDue with
  | false =>
    refine ⟨by simp, fun m => (Module.withBlankDue_self ?_).symm⟩
    by_cases hm : m = 31
    · subst hm; simp [h31]
    · simp [hm]
  | true =>
    refine ⟨by simp [BoardLine.modifyModule], fun m => ?_⟩
    show (l.modifyModule 31 fun x => { x with blankDue := false }).module m = _
    rw [BoardLine.module_modifyModule]
    by_cases hm : m = 31
    · subst hm; simp
    · rw [if_neg (Ne.symm hm)]
      exact (Module.withBlankDue_self (by simp [hm])).symm

/-- A line after steps 4 and 5, but for its placements' cells (R99, R111). -/
theorem BoardLine.remapped_eq (l : BoardLine) (stage : FeedStage) (cause : RemapCause) (f : Fin 32 → Found) {l' : BoardLine}
    (hl' : l' = l.remapped stage cause ((List.finRange 32).map fun m => (m, f m))) :
    l' = { l with
        underRemap := false
        modules := l'.modules
        blankDue := l.blankDue || decide (cause = .start) || ((l.module 31).remapped stage (f 31)).blankDue
        intensityDue := if cause = .start then some .full else l.intensityDue
        working := l.working || decide (cause = .start) } ∧
      ∀ m, l'.module m = (l.module m).settled stage m (f m) := by
  have hfold := l.foldl_modifyModule (fun m x => x.remapped stage (f m)) (List.finRange 32) (List.nodup_finRange 32)
  have hmap : ((List.finRange 32).map fun m => (m, f m)).foldl (fun l e => l.modifyModule e.1 fun x => x.remapped stage e.2) l =
      (List.finRange 32).foldl (fun l m => l.modifyModule m fun x => x.remapped stage (f m)) l := List.foldl_map
  unfold BoardLine.remapped at hl'
  dsimp only at hl'
  rw [hmap] at hl'
  generalize (List.finRange 32).foldl (fun l m => l.modifyModule m fun x => x.remapped stage (f m)) l = a at hfold hl'
  obtain ⟨hrest, hmodule⟩ := hfold
  obtain ⟨hblank, hmodules⟩ := a.broadcastFor31_eq
  have h31 : (a.module 31).blankDue = ((l.module 31).remapped stage (f 31)).blankDue := by
    rw [hmodule, if_pos (List.mem_finRange _)]
  have hsettled : ∀ m, a.broadcastFor31.module m = (l.module m).settled stage m (f m) := fun m => by
    rw [hmodules, hmodule, if_pos (List.mem_finRange m)]
    rfl
  generalize a.broadcastFor31 = b at hblank hsettled hl'
  rw [h31, hrest] at hblank
  cases cause with
  | start => exact ⟨by rw [hl', hblank]; simp, fun m => hl' ▸ hsettled m⟩
  | posting => exact ⟨by rw [hl', hblank]; simp, fun m => hl' ▸ hsettled m⟩

/-- The module's blank becomes due where it goes, and nowhere else (R99). -/
theorem Module.blankDue_remapped (x : Module) (stage : FeedStage) (found : Found) :
    (x.remapped stage found).blankDue = (x.blankDue || (x.present && found.isNone)) := by
  unfold Module.remapped Module.adopt
  rcases found with _ | ⟨w, c⟩ <;> cases x.present <;> simp

/-! The four rows of R99. -/

section
variable {x : Module} (stage : FeedStage) (m : Fin 32)

theorem Module.settled_absent (h : x.present = false) : x.settled stage m none =
    { x with blankDue := x.blankDue && m != 31, image := freshImage stage none, stale := none } := by
  simp [Module.settled, Module.remapped, Module.adopt, h]

theorem Module.settled_comes (h : x.present = false) (w : Width) (c : Option (Fin 32)) : x.settled stage m (some (w, c)) =
    { x with present := true, width := some w, state := .unknown, dirty := none, inFlight := none, attempts := 0, poll := .due
             blankDue := x.blankDue && m != 31, image := freshImage stage c, stale := c } := by
  simp [Module.settled, Module.remapped, Module.adopt, h]

theorem Module.settled_goes (h : x.present = true) : x.settled stage m none =
    { x with present := false, width := none, state := .unknown, dirty := none, inFlight := none, attempts := 0, poll := .stopped
             blankDue := true && m != 31, image := freshImage stage none, stale := none } := by
  simp [Module.settled, Module.remapped, Module.adopt, h]

theorem Module.settled_stays (h : x.present = true) (w : Width) (c : Option (Fin 32)) : x.settled stage m (some (w, c)) =
    { x with width := some w, dirty := if x.state = .live then some ⟨0, w.cells - 1⟩ else x.dirty
             blankDue := x.blankDue && m != 31, image := freshImage stage c, stale := c } := by
  simp [Module.settled, Module.remapped, Module.adopt, h]

end

theorem Module.settled_image (x : Module) (stage : FeedStage) (m : Fin 32) (found : Found) (c : Fin 32) :
    Bank.get (x.settled stage m found).image c = if (x.settled stage m found).stale = some c then staleCell stage else .blank :=
  Bank.get_tabulate _ c

end Sys2Proof.Machine
end

section
/-! PROOF. Steps 2 to 5 of R92 for a line, on a bus that completes every access: the line and its modules, the reports, and the cells
that its placements show (R82, R85, R86, R92, R94, R99). -/

namespace Sys2Proof.Machine

/-! ## The reports (R78, R79, R94) -/

/-- Notices of a line's REMAP are handed on, or held until START completes (R94). -/
structure Reports (cause : RemapCause) (ns : List NoticeBody) (s t : State) : Prop where
  rest : t = { s with
    bus := t.bus, fmt := { s.fmt with held := t.fmt.held }, notices := { s.notices with inbox := t.notices.inbox } }
  held : t.fmt.held = s.fmt.held ++ (if decide (cause = .start) then ns else [])
  inbox : t.notices.inbox = s.notices.inbox ++ s.items (if decide (cause = .start) then [] else ns)

namespace Reports

variable {cause : RemapCause} {ns ms : List NoticeBody} {s t u : State}

theorem line (h : Reports cause ns s t) (k : Fin 4) : t.line k = s.line k := by rw [h.rest]; rfl

theorem placement (h : Reports cause ns s t) (k : Nat) : t.fmt.placement k = s.fmt.placement k := by rw [h.rest]; rfl

theorem record (h : Reports cause ns s t) (i : Ix) : t.record i = s.record i := by rw [h.rest]; rfl

theorem nil (cause : RemapCause) (s : State) : Reports cause [] s s := ⟨rfl, by simp, by simp [State.items]⟩

theorem trans (h : Reports cause ns s t) (g : Reports cause ms t u) : Reports cause (ns ++ ms) s u := by
  have hitems : ∀ l, t.items l = s.items l := fun l => by rw [h.rest]; rfl
  refine ⟨by rw [g.rest, h.rest], ?_, ?_⟩
  · rw [g.held, h.held]
    cases cause <;> simp
  · rw [g.inbox, h.inbox, hitems]
    cases cause <;> simp [State.items]

theorem withBus (cause : RemapCause) (s : State) (b : Bus) : Reports cause [] s (s.withBus b) :=
  ⟨rfl, by simp, by simp [State.items]⟩

theorem reportRemap (cause : RemapCause) (s : State) (n : NoticeBody) : Reports cause [n] s (s.reportRemap cause n) := by
  cases cause with
  | start => exact ⟨rfl, rfl, by simp [State.reportRemap, State.items]⟩
  | posting => exact ⟨rfl, by simp [State.reportRemap, State.hand, State.handParts], rfl⟩

end Reports

theorem State.reportRemap_bus (s : State) (cause : RemapCause) (n : NoticeBody) : (s.reportRemap cause n).bus = s.bus := by
  cases cause <;> rfl

/-- The reports of a line's REMAP, the table faults first (R78, R79, log 45). -/
def State.remapReports (n : Fin 4) (faults noRoom : Nat) : List NoticeBody :=
  (if faults = 0 then [] else [.tableFaultRemap n faults]) ++ (if noRoom = 0 then [] else [.boardMapFull n noRoom])

theorem State.reportTally_reports (s : State) (job : RemapJob) (faults noRoom : Nat) :
    Reports job.cause (State.remapReports job.line faults noRoom) s (s.reportTally job ⟨faults, noRoom⟩) ∧
      (s.reportTally job ⟨faults, noRoom⟩).bus = if faults = 0 then s.bus else s.bus.setError .tableFault := by
  have hroom : ∀ u : State, Reports job.cause (if noRoom = 0 then [] else [.boardMapFull job.line noRoom]) u
      (if noRoom = 0 then u else u.reportRemap job.cause (.boardMapFull job.line noRoom)) ∧
      (if noRoom = 0 then u else u.reportRemap job.cause (.boardMapFull job.line noRoom)).bus = u.bus := fun u => by
    split
    · exact ⟨.nil _ u, rfl⟩
    · exact ⟨.reportRemap _ u _, u.reportRemap_bus _ _⟩
  have hfault : Reports job.cause (if faults = 0 then [] else [.tableFaultRemap job.line faults]) s
      (if faults = 0 then s
        else (s.withBus (s.bus.setError .tableFault)).reportRemap job.cause (.tableFaultRemap job.line faults)) ∧
      (if faults = 0 then s
        else (s.withBus (s.bus.setError .tableFault)).reportRemap job.cause (.tableFaultRemap job.line faults)).bus =
        if faults = 0 then s.bus else s.bus.setError .tableFault := by
    split
    · exact ⟨.nil _ s, rfl⟩
    · exact ⟨(Reports.withBus _ s _).trans (.reportRemap _ _ _), State.reportRemap_bus _ _ _⟩
  obtain ⟨hfirst, hbus⟩ := hfault
  obtain ⟨hsecond, hsame⟩ := hroom (if faults = 0 then s
    else (s.withBus (s.bus.setError .tableFault)).reportRemap job.cause (.tableFaultRemap job.line faults))
  exact ⟨hfirst.trans hsecond, hsame.trans hbus⟩

theorem Bus.setError_rest (b : Bus) (f : ErrorFlag) :
    b.setError f = { b with error := (b.setError f).error, groups := (b.setError f).groups } := by
  unfold Bus.setError
  dsimp only
  split <;> rfl

/-! ## The line mapped and painted (R92 steps 3 to 5) -/

section
variable (s : State) (job : RemapJob)

/-- The placements of the line have been built. -/
def State.mapped (n : Fin 4) : State := (s.progress n 256).state

/-- What has been found of a module. -/
def State.foundOf (n : Fin 4) (m : Fin 32) : Found := s.foundIn n (s.progress n 256) m

/-- The line has been brought into line with what was found, and no placement rendered. -/
def State.blanked : State :=
  (s.mapped job.line).modifyLine job.line fun l =>
    l.remapped s.session.stage job.cause ((List.finRange 32).map fun m => (m, s.foundOf job.line m))

/-- The placements of the line, as step 4 of R92 renders them. -/
def State.lineEntries : List Nat := (s.blanked job).fmt.entries fun p => p.line = job.line

/-- The line with its placements rendered. -/
def State.painted : State := (s.blanked job).renderEntries (s.lineEntries job)

theorem State.mapped_lays (n : Fin 4) : Lays s (s.mapped n) := s.progress_lays n (Nat.le_refl _)

theorem State.mapped_line (n k : Fin 4) : (s.mapped n).line k = s.line k := by rw [(s.mapped_lays n).rest]; rfl

/-- The line is what steps 4 and 5 make of it, and nothing else has changed since the placements were built. -/
theorem State.blanked_changes : ChangesLine (s.mapped job.line) (s.blanked job) job.line
    ((s.line job.line).remapped s.session.stage job.cause ((List.finRange 32).map fun m => (m, s.foundOf job.line m))) := by
  have h := changesLine_modify (s.mapped job.line) job.line fun l =>
    l.remapped s.session.stage job.cause ((List.finRange 32).map fun m => (m, s.foundOf job.line m))
  rw [State.mapped_line] at h
  exact h

theorem State.blanked_rest : s.blanked job = { s with
    store := (s.mapped job.line).store, fmt := { s.fmt with table := (s.mapped job.line).fmt.table }
    lines := (s.blanked job).lines } := by
  rw [(s.blanked_changes job).1, (s.mapped_lays job.line).rest]

variable {s}

theorem State.painted_renders (hq : s.bus.script = []) : Renders (s.blanked job) (s.painted job) (s.lineEntries job) :=
  Renders.entries (by rw [State.blanked_rest]; exact hq) _

theorem State.finishLine_eq (hq : s.bus.script = []) :
    s.finishLine job = (s.painted job).reportTally job ⟨s.faultCount job.line, s.noRoomCount job.line⟩ := by
  have hstage : (s.mapped job.line).session.stage = s.session.stage := by rw [(s.mapped_lays job.line).rest]
  unfold State.finishLine
  rw [State.mapModules_eq hq]
  show State.reportTally ((s.mapped job.line).repaintLine job _) job _ = _
  unfold State.repaintLine
  rw [hstage]
  rfl

theorem State.painted_rest (hq : s.bus.script = []) : s.painted job = { s with
    store := (s.mapped job.line).store, fmt := { s.fmt with table := (s.mapped job.line).fmt.table }
    lines := (s.painted job).lines } := by
  obtain ⟨hrest, -⟩ := State.painted_renders job hq
  rw [hrest, State.blanked_rest]

theorem State.painted_placement (hq : s.bus.script = []) (k : Nat) :
    (s.painted job).fmt.placement k = (s.mapped job.line).fmt.placement k := by
  have h := State.painted_rest job hq
  unfold Formatter.placement
  generalize s.painted job = p at h ⊢
  rw [h]

theorem State.painted_record (hq : s.bus.script = []) (i : Ix) : (s.painted job).record i = (s.mapped job.line).record i := by
  have h := State.painted_rest job hq
  unfold State.record
  generalize s.painted job = p at h ⊢
  rw [h]

theorem State.painted_line_ne (hq : s.bus.script = []) {k : Fin 4} (hk : k ≠ job.line) : (s.painted job).line k = s.line k := by
  obtain ⟨-, hlines, hmodules⟩ := State.painted_renders job hq
  obtain ⟨-, hblank⟩ := s.blanked_changes job
  have hline := hblank k
  rw [if_neg hk, State.mapped_line] at hline
  have hsame : ((s.painted job).line k).modules = (s.line k).modules := Bank.ext fun m => by
    refine (hmodules k m).trans ((State.shownOn_elsewhere (fun j hj p hp => ?_) _).trans (by rw [hline]; rfl))
    have hany := Formatter.mem_entries.1 hj
    rw [hp.1] at hany
    exact hk (hp.2.1.symm.trans (by simpa using hany))
  rw [hlines, hline, hsame]

/-- The line after steps 4 and 5 (R99, R111). -/
theorem State.painted_line (hq : s.bus.script = []) : (s.painted job).line job.line = { s.line job.line with
    underRemap := false
    modules := ((s.painted job).line job.line).modules
    blankDue := (s.line job.line).blankDue || decide (job.cause = .start) ||
      (((s.line job.line).module 31).remapped s.session.stage (s.foundOf job.line 31)).blankDue
    intensityDue := if job.cause = .start then some .full else (s.line job.line).intensityDue
    working := (s.line job.line).working || decide (job.cause = .start) } := by
  obtain ⟨-, hlines, -⟩ := State.painted_renders job hq
  obtain ⟨-, hblank⟩ := s.blanked_changes job
  have hline := hblank job.line
  rw [if_pos rfl] at hline
  obtain ⟨heq, -⟩ := BoardLine.remapped_eq _ _ _ (s.foundOf job.line) hline
  rw [hlines, heq]

/-- A module after steps 4 and 5: settled, and with the line's placements rendered (R86, R99). -/
theorem State.painted_module (hq : s.bus.script = []) (m : Fin 32) : ((s.painted job).line job.line).module m =
    (s.blanked job).shownOn job.line m (s.lineEntries job)
      (((s.line job.line).module m).settled s.session.stage m (s.foundOf job.line m)) := by
  obtain ⟨-, -, hmodules⟩ := State.painted_renders job hq
  obtain ⟨-, hblank⟩ := s.blanked_changes job
  have hline := hblank job.line
  rw [if_pos rfl] at hline
  obtain ⟨-, hsettled⟩ := BoardLine.remapped_eq _ _ _ (s.foundOf job.line) hline
  rw [hmodules, hsettled]

end

end Sys2Proof.Machine
end

section
/-! PROOF. REMAP_LINE_FINISHED on a bus that completes every access (R76 to R80, R82, R85, R86, R92, R94, R99): what the line's REMAP
leaves in table, images and ranges, and the step as a whole. -/

namespace Sys2Proof.Machine

theorem slotsBefore_all : slotsBefore 256 = slotOrder := by
  rw [← slotOrder_take (Nat.le_refl _), List.take_of_length_le]
  rw [slotOrder_eq, List.length_map, List.length_range]

theorem Module.shown_stale {x y : Module} (h : y = { x with image := y.image, dirty := y.dirty }) :
    y = { x with image := y.image, dirty := y.dirty, stale := y.stale } := by
  have hs : y.stale = x.stale := by rw [h]
  rw [hs]
  exact h

/-- A module with its image and its dirty range changed, the range back to what it was. -/
theorem Module.shown_eq {x y : Module} (h : y = { x with image := y.image, dirty := y.dirty }) (hd : y.dirty = x.dirty) :
    y = { x with image := y.image, stale := y.stale } := by
  have hs : y.stale = x.stale := by rw [h]
  rw [hd] at h
  rw [hs]
  exact h

section
variable {s : State} {job : RemapJob} (hq : s.bus.script = [])
include hq

/-! ## The table of R99 -/

/-- A module of the line follows the table of R99 (R99, R108). -/
theorem State.painted_module_follows (m : Fin 32) :
    match s.mapWidth job.line m, ((s.line job.line).module m).present with
    | none, false => ((s.painted job).line job.line).module m = { (s.line job.line).module m with
        blankDue := ((s.line job.line).module m).blankDue && m != 31
        image := (((s.painted job).line job.line).module m).image, stale := (((s.painted job).line job.line).module m).stale }
    | some w, false => ((s.painted job).line job.line).module m = { (s.line job.line).module m with
        present := true, width := some w, state := .unknown, dirty := none, inFlight := none, attempts := 0, poll := .due
        blankDue := ((s.line job.line).module m).blankDue && m != 31
        image := (((s.painted job).line job.line).module m).image, stale := (((s.painted job).line job.line).module m).stale }
    | none, true => ((s.painted job).line job.line).module m = { (s.line job.line).module m with
        present := false, width := none, state := .unknown, dirty := none, inFlight := none, attempts := 0, poll := .stopped
        blankDue := true && m != 31
        image := (((s.painted job).line job.line).module m).image, stale := (((s.painted job).line job.line).module m).stale }
    | some w, true => ((s.painted job).line job.line).module m = { (s.line job.line).module m with
        width := some w, dirty := (((s.painted job).line job.line).module m).dirty
        blankDue := ((s.line job.line).module m).blankDue && m != 31
        image := (((s.painted job).line job.line).module m).image, stale := (((s.painted job).line job.line).module m).stale } ∧
      (((s.line job.line).module m).state ≠ .live →
        (((s.painted job).line job.line).module m).dirty = ((s.line job.line).module m).dirty) ∧
      (((s.line job.line).module m).state = .live →
        ∃ r, (((s.painted job).line job.line).module m).dirty = some r ∧ r.first = 0 ∧ w.cells - 1 ≤ r.last) := by
  have hy := State.painted_module job hq m
  have hrest := State.shownOn_rest (t := s.blanked job) (n := job.line) (m := m) (s.lineEntries job)
    (((s.line job.line).module m).settled s.session.stage m (s.foundOf job.line m))
  have hidle := State.shownOn_dirty_of_not_live (t := s.blanked job) (n := job.line) (m := m) (s.lineEntries job)
    (x := ((s.line job.line).module m).settled s.session.stage m (s.foundOf job.line m))
  have hlive := fun h last => State.shownOn_dirty_from_zero (t := s.blanked job) (n := job.line) (m := m) (s.lineEntries job)
    (x := ((s.line job.line).module m).settled s.session.stage m (s.foundOf job.line m)) h (last := last)
  rw [← hy] at hrest hidle
  simp only [← hy] at hlive
  generalize ((s.painted job).line job.line).module m = y at hrest hidle hlive ⊢
  generalize (s.line job.line).module m = x at hrest hidle hlive ⊢
  have hfound : s.foundOf job.line m = (s.mapWidth job.line m).map fun w => (w, (s.foundOf job.line m).bind (·.2)) := by
    unfold State.foundOf State.foundIn
    cases s.mapWidth job.line m <;> rfl
  generalize (s.foundOf job.line m).bind (·.2) = c at hfound
  cases hw : s.mapWidth job.line m with
  | none =>
    rw [hw, Option.map_none] at hfound
    rw [hfound] at hrest hidle
    cases hp : x.present with
    | false =>
      rw [Module.settled_absent _ _ hp] at hrest hidle
      exact Module.shown_eq hrest (hidle fun h => Bool.noConfusion (hp.symm.trans h.1))
    | true =>
      rw [Module.settled_goes _ _ hp] at hrest hidle
      exact Module.shown_eq hrest (hidle fun h => Bool.noConfusion h.1)
  | some w =>
    rw [hw, Option.map_some] at hfound
    rw [hfound] at hrest hidle hlive
    cases hp : x.present with
    | false =>
      rw [Module.settled_comes _ _ hp] at hrest hidle
      exact Module.shown_eq hrest (hidle fun h => ModState.noConfusion h.2)
    | true =>
      rw [Module.settled_stays _ _ hp] at hrest hidle hlive
      refine ⟨?_, fun hn => ?_, fun hl => ?_⟩
      · exact Module.shown_stale hrest
      · rw [hidle fun h => hn h.2]
        exact if_neg hn
      · obtain ⟨r, hr, hfirst, hle, -⟩ := hlive ⟨hp, hl⟩ (w.cells - 1) (if_pos hl)
        exact ⟨r, hr, hfirst, hle⟩

theorem State.painted_stale (m : Fin 32) :
    (((s.painted job).line job.line).module m).stale = (s.foundOf job.line m).bind (·.2) := by
  rw [State.painted_module job hq, State.shownOn_rest]
  rfl

/-! ## The state as steps 2 to 5 leave it -/

theorem State.finishLine_reports :
    Reports job.cause (State.remapReports job.line (s.faultCount job.line) (s.noRoomCount job.line)) (s.painted job) (s.finishLine job) ∧
      (s.finishLine job).bus = if s.faultCount job.line = 0 then s.bus else s.bus.setError .tableFault := by
  rw [State.finishLine_eq job hq]
  have h := (s.painted job).reportTally_reports job (s.faultCount job.line) (s.noRoomCount job.line)
  have hbus : (s.painted job).bus = s.bus := by rw [State.painted_rest job hq]
  rw [hbus] at h
  exact h

theorem State.finishLine_bus : (s.finishLine job).bus =
    { s.bus with error := (s.finishLine job).bus.error, groups := (s.finishLine job).bus.groups } := by
  rw [(State.finishLine_reports hq).2]
  split
  · rfl
  · exact s.bus.setError_rest _

theorem State.finishLine_rest : s.finishLine job = { s with
    bus := { s.bus with error := (s.finishLine job).bus.error, groups := (s.finishLine job).bus.groups }
    store := (s.finishLine job).store
    fmt := { s.fmt with table := (s.finishLine job).fmt.table, held := (s.finishLine job).fmt.held }
    lines := (s.finishLine job).lines
    notices := { s.notices with inbox := (s.finishLine job).notices.inbox } } := by
  have h := (State.finishLine_reports (job := job) hq).1.rest
  have hbus := State.finishLine_bus (job := job) hq
  rw [State.painted_rest job hq] at h
  generalize s.finishLine job = v at h hbus ⊢
  generalize (s.mapped job.line).store = store at h
  generalize (s.mapped job.line).fmt.table = table at h
  generalize (s.painted job).lines = lines at h
  rw [← hbus]
  generalize v.bus = bus at h ⊢
  generalize v.fmt.held = held at h ⊢
  generalize v.notices.inbox = inbox at h ⊢
  subst h
  rfl

theorem State.finishLine_line (k : Fin 4) : (s.finishLine job).line k = (s.painted job).line k :=
  (State.finishLine_reports hq).1.line k

theorem State.finishLine_placement (k : Nat) : (s.finishLine job).fmt.placement k = (s.mapped job.line).fmt.placement k :=
  ((State.finishLine_reports hq).1.placement k).trans (State.painted_placement job hq k)

theorem State.finishLine_record (i : Ix) : (s.finishLine job).record i = (s.mapped job.line).record i :=
  ((State.finishLine_reports hq).1.record i).trans (State.painted_record job hq i)

end

end Sys2Proof.Machine
end

section
/-! PROOF. What a line's images show once its placements are built and rendered (R82, R85, R86, R92 steps 4 and 5). -/

namespace Sys2Proof.Machine

section
variable {s : State} {n : Fin 4}

/-! ## The placements of the line (R77, R92) -/

/-- Every placement that the line's REMAP leaves on it fills a slot that passed R77. -/
theorem State.mapped_placement (hwf : Sparse.wf none s.fmt.table = true) (hgone : ∀ k p, s.fmt.placement k = some p → p.line ≠ n)
    {k : Nat} {p : Placement} (hp : (s.mapped n).fmt.placement k = some p) (hn : p.line = n) :
    ∃ e, s.slotEntry n e = some k ∧ s.Fills n e p := by
  have hlaid := State.laid (n := n) hwf (Nat.le_refl 256)
  by_cases hk : k ∈ s.entriesBefore n 256
  · obtain ⟨e, he, hke⟩ := (State.mem_entriesBefore (Nat.le_refl _)).1 hk
    obtain ⟨-, -, q, hq, hfills⟩ := hlaid.built e he k hke
    obtain rfl : q = p := Option.some.inj (hq.symm.trans hp)
    exact ⟨e, hke, hfills⟩
  · exact absurd hn (hgone k p ((hlaid.others k hk).symm.trans hp))

/-- Two slots of a module that were built lie apart (R77 condition 5). -/
theorem State.entries_apart {m : Fin 32} {i j : Fin 8} {k l : Nat} (hi : s.slotEntry n (m, i) = some k)
    (hj : s.slotEntry n (m, j) = some l) (hne : i ≠ j) :
    (s.slotAt n (m, i)).start + (s.slotAt n (m, i)).width ≤ (s.slotAt n (m, j)).start ∨
      (s.slotAt n (m, j)).start + (s.slotAt n (m, j)).width ≤ (s.slotAt n (m, i)).start := by
  obtain ⟨-, -, -, -, -, -, -, hiapart⟩ := State.fits_of_entry hi
  obtain ⟨-, -, -, -, -, -, -, hjapart⟩ := State.fits_of_entry hj
  rcases lt_or_gt_of_ne hne with h | h
  · exact hjapart i h (by rw [hi]; rfl)
  · exact (hiapart j h (by rw [hj]; rfl)).symm

end

section
variable {s : State} {job : RemapJob} (hq : s.bus.script = []) (hwf : Sparse.wf none s.fmt.table = true)
  (hgone : ∀ k p, s.fmt.placement k = some p → p.line ≠ job.line)

theorem State.blanked_placement (k : Nat) : (s.blanked job).fmt.placement k = (s.mapped job.line).fmt.placement k := by
  rw [(s.blanked_changes job).1]

/-- The cells of a placement, as the statements read records and formats (R81). -/
theorem State.blanked_cellsOf (p : Placement) : (s.blanked job).cellsOf p =
    placementCells ((s.mapped job.line).record p.instr) s.session.state
      (formatOf [s.bus.peek (s.params.formatEntry p.format.val), s.bus.peek (s.params.formatEntry p.format.val + 1),
        s.bus.peek (s.params.formatEntry p.format.val + 2), s.bus.peek (s.params.formatEntry p.format.val + 3)]) p := by
  have h := s.blanked_rest job
  unfold State.cellsOf State.record
  generalize s.blanked job = t at h ⊢
  rw [h]

theorem State.mem_lineEntries {k : Nat} : k ∈ s.lineEntries job ↔
    ∃ p, (s.mapped job.line).fmt.placement k = some p ∧ p.line = job.line := by
  unfold State.lineEntries
  rw [Formatter.mem_entries, State.blanked_placement]
  cases (s.mapped job.line).fmt.placement k <;> simp

include hwf hgone

/-- A placement of the line on a module: its cells are those of a slot that passed R77. -/
theorem State.places_within {m : Fin 32} {k : Nat} {p : Placement} (h : (s.blanked job).Places job.line m k p) :
    ((s.blanked job).cellsOf p).length = p.width ∧ (∀ w, s.mapWidth job.line m = some w → p.start + p.width ≤ w.cells) ∧
      ∃ j, s.slotEntry job.line (m, j) = some k ∧ p.start = (s.slotAt job.line (m, j)).start ∧
        p.width = (s.slotAt job.line (m, j)).width := by
  obtain ⟨hp, hn, hm⟩ := h
  rw [State.blanked_placement] at hp
  obtain ⟨⟨m', j⟩, he, hfills⟩ := State.mapped_placement hwf hgone hp hn
  obtain rfl : m' = m := hfills.module.symm.trans hm
  obtain ⟨-, -, -, hpos, -, hend, -⟩ := State.fits_of_entry he
  have hwidth := hfills.width
  have hstart := hfills.start
  refine ⟨(s.blanked job).cellsOf_length (hwidth ▸ hpos), fun w hw => ?_, j, he, hstart, hwidth⟩
  rw [hstart, hwidth]
  exact hend w hw

/-- Two placements of the line on one module lie apart. -/
theorem State.places_apart {m : Fin 32} {k l : Nat} {p q : Placement} (hp : (s.blanked job).Places job.line m k p)
    (hl : (s.blanked job).Places job.line m l q) (hne : l ≠ k) : p.start + p.width ≤ q.start ∨ q.start + q.width ≤ p.start := by
  obtain ⟨-, -, i, hi, hstart, hwidth⟩ := State.places_within hwf hgone hp
  obtain ⟨-, -, j, hj, hstart', hwidth'⟩ := State.places_within hwf hgone hl
  rw [hstart, hwidth, hstart', hwidth']
  exact State.entries_apart hi hj fun e => hne (Option.some.inj (hj.symm.trans (e ▸ hi)))

include hq

/-! ## Images and ranges -/

/-- Each cell of a placement of the line shows it (R86, R92 step 4). -/
theorem State.painted_image_in {k : Nat} {p : Placement} (hp : (s.mapped job.line).fmt.placement k = some p)
    (hn : p.line = job.line) {c : Fin 32} (hc : p.start ≤ c.val) (hend : c.val < p.start + p.width) :
    some (Bank.get (((s.painted job).line job.line).module p.module).image c) =
      ((s.blanked job).cellsOf p)[c.val - p.start]? := by
  have hplace : (s.blanked job).Places job.line p.module k p := ⟨(State.blanked_placement k).trans hp, hn, rfl⟩
  obtain ⟨hlength, -⟩ := State.places_within hwf hgone hplace
  rw [State.painted_module job hq]
  refine State.shownOn_image_in _ (State.mem_lineEntries.2 ⟨p, hp, hn⟩) hplace hc (by rw [hlength]; exact hend)
    fun l _ hl q hlq => ?_
  obtain ⟨hlength', -⟩ := State.places_within hwf hgone hlq
  have hapart := State.places_apart hwf hgone hplace hlq hl
  omega

/-- Every other cell is blank, but for the stale cell (R82, R85). -/
theorem State.painted_image_out {m c : Fin 32}
    (h : ∀ k p, (s.mapped job.line).fmt.placement k = some p → p.line = job.line → p.module = m →
      c.val < p.start ∨ p.start + p.width ≤ c.val) :
    Bank.get (((s.painted job).line job.line).module m).image c =
      if (((s.painted job).line job.line).module m).stale = some c then staleCell s.session.stage else .blank := by
  rw [State.painted_stale hq, State.painted_module job hq, State.shownOn_image_out _ _ fun k _ p hp => ?_]
  · exact Module.settled_image _ _ _ _ _
  · rw [(State.places_within hwf hgone hp).1]
    obtain ⟨hk, hn, hm⟩ := hp
    exact h k p ((State.blanked_placement k).symm.trans hk) hn hm

/-- A LIVE module has its whole width dirty, and no more (R99, R100). -/
theorem State.painted_dirty {m : Fin 32} {w : Width} (hw : s.mapWidth job.line m = some w)
    (hlive : ((s.line job.line).module m).live = true) :
    (((s.painted job).line job.line).module m).dirty = some ⟨0, w.cells - 1⟩ := by
  obtain ⟨hp, hl⟩ := (Module.live_iff _).1 hlive
  obtain ⟨hpos, -⟩ := w.cells_le
  have hfound : s.foundOf job.line m = some (w, (s.foundOf job.line m).bind (·.2)) := by
    unfold State.foundOf State.foundIn
    rw [hw]
    rfl
  generalize (s.foundOf job.line m).bind (·.2) = c at hfound
  rw [State.painted_module job hq, hfound, Module.settled_stays _ _ hp]
  obtain ⟨⟨first, last⟩, hr, rfl, -, hwithin⟩ := State.shownOn_dirty_from_zero (t := s.blanked job) (n := job.line) (m := m)
    (s.lineEntries job) (x := { (s.line job.line).module m with
      width := some w, dirty := if ((s.line job.line).module m).state = .live then some ⟨0, w.cells - 1⟩ else
        ((s.line job.line).module m).dirty
      blankDue := ((s.line job.line).module m).blankDue && m != 31, image := freshImage s.session.stage c, stale := c })
    ⟨hp, hl⟩ (if_pos hl)
  have hlast : last = w.cells - 1 := hwithin fun k p hk => by
    obtain ⟨hlength, hend, -⟩ := State.places_within hwf hgone hk
    have := hend w hw
    omega
  rw [hr, hlast]

end

end Sys2Proof.Machine
end

section
/-! PROOF. REMAP_LINE_FINISHED as a whole (R92, R94): the counts and the stale cells as the records say them, the line that follows, and
the TAKEN write of a REMAP posting. -/

namespace Sys2Proof.Machine

section
variable {s : State} {job : RemapJob} (hq : s.bus.script = [])

/-! ## Stale cells and counts (R78, R79) -/

/-- The stale cell that the record names is kept where it is a cell of the module outside the fields built. -/
theorem State.foundOf_stale (n : Fin 4) (m : Fin 32) :
    ((s.foundOf n m).bind (·.2)).map (·.val) =
      match s.mapWidth n m with
      | some w =>
        if (s.mapWord n m 1).bit 15 = true ∧ (s.mapWord n m 1).bits 0 5 < w.cells ∧
            ∀ j, (s.slotEntry n (m, j)).isSome = true → (s.mapWord n m 1).bits 0 5 < (s.slotAt n (m, j)).start ∨
              (s.slotAt n (m, j)).start + (s.slotAt n (m, j)).width ≤ (s.mapWord n m 1).bits 0 5
        then some ((s.mapWord n m 1).bits 0 5) else none
      | none => none := by
  unfold State.foundOf State.foundIn
  cases s.mapWidth n m with
  | none => rfl
  | some w =>
    have hkept : ∀ c, (∀ x ∈ s.keptOn n (s.progress n 256) m, c < x.start ∨ x.start + x.width ≤ c) ↔
        ∀ j, (s.slotEntry n (m, j)).isSome = true →
          c < (s.slotAt n (m, j)).start ∨ (s.slotAt n (m, j)).start + (s.slotAt n (m, j)).width ≤ c := fun c => by
      constructor
      · exact fun h j hj => h _ ((State.mem_keptOn (Nat.le_refl _)).2 ⟨j, slotNumber_lt _, hj, rfl⟩)
      · intro h x hx
        obtain ⟨j, -, hj, rfl⟩ := (State.mem_keptOn (Nat.le_refl _)).1 hx
        exact h j hj
    dsimp only [Option.map_some, Option.bind_some]
    rw [checkStale_cell, staleOf]
    cases (s.mapWord n m 1).bit 15 with
    | false => simp
    | true => simp [Option.filter_some, hkept]

include hq

theorem State.finishLine_stale (m : Fin 32) :
    (((s.finishLine job).line job.line).module m).stale = (s.foundOf job.line m).bind (·.2) := by
  rw [State.finishLine_line hq, State.painted_stale hq]

/-- The faults of a line's REMAP, with the stale cells as the modules show them (R78). -/
theorem State.faultCount_eq : s.faultCount job.line =
    slotOrder.countP (fun e => s.slotUsed job.line e && decide (s.fate job.line e = .fault))
      + (List.finRange 32).countP (fun m => (s.mapWord job.line m 0).bit 15 && (s.mapWidth job.line m).isNone)
      + (List.finRange 32).countP fun m => (s.mapWidth job.line m).isSome && (s.mapWord job.line m 1).bit 15 &&
          (((s.finishLine job).line job.line).module m).stale.isNone := by
  have hstale : (s.staleFault job.line (s.progress job.line 256)) = fun m =>
      (s.mapWidth job.line m).isSome && (s.mapWord job.line m 1).bit 15 &&
        (((s.finishLine job).line job.line).module m).stale.isNone := funext fun m => by
    rw [State.finishLine_stale hq, State.foundOf, State.staleFault]
  have hwidth : s.illegalWidth job.line = fun m => (s.mapWord job.line m 0).bit 15 && (s.mapWidth job.line m).isNone :=
    funext fun m => by rw [State.illegalWidth]
  rw [State.faultCount, hstale, hwidth]

theorem State.finishLine_hasError (f : ErrorFlag) : (s.finishLine job).bus.hasError f =
    (s.bus.hasError f || (decide (f = .tableFault) && decide (s.faultCount job.line ≠ 0))) := by
  rw [(State.finishLine_reports hq).2]
  by_cases h : s.faultCount job.line = 0
  · simp [h]
  · simp [h, Bus.hasError_setError, eq_comm]

theorem State.finishLine_held : (s.finishLine job).fmt.held = s.fmt.held ++
    (if decide (job.cause = .start) then State.remapReports job.line (s.faultCount job.line) (s.noRoomCount job.line) else []) := by
  rw [(State.finishLine_reports hq).1.held, State.painted_rest job hq]

theorem State.finishLine_inbox : (s.finishLine job).notices.inbox = s.notices.inbox ++ s.items
    (if decide (job.cause = .start) then [] else State.remapReports job.line (s.faultCount job.line) (s.noRoomCount job.line)) := by
  have hp := State.painted_rest job hq
  rw [(State.finishLine_reports hq).1.inbox]
  generalize s.painted job = p at hp ⊢
  rw [hp]
  rfl

theorem State.finishLine_heads : ChainHeadsOnly s (s.finishLine job) := fun j => by
  rw [State.finishLine_record hq]
  exact (s.mapped_lays job.line).heads j

theorem State.finishLine_chainIs {i : Ix} {ks : List Nat} (h : (s.mapped job.line).ChainIs i ks) : (s.finishLine job).ChainIs i ks :=
  h.congr (State.finishLine_record hq i) (State.finishLine_placement hq)

/-- The line's own part of what follows (R99, R111). -/
theorem State.finishLine_line_self : (s.finishLine job).line job.line = { s.line job.line with
    underRemap := false
    modules := ((s.finishLine job).line job.line).modules
    blankDue := (s.line job.line).blankDue || decide (job.cause = .start) || ((s.line job.line).module 31).blankDue ||
      (((s.line job.line).module 31).present && (s.mapWidth job.line 31).isNone)
    intensityDue := if decide (job.cause = .start) then some .full else (s.line job.line).intensityDue
    working := (s.line job.line).working || decide (job.cause = .start) } := by
  have hnone : (s.foundOf job.line 31).isNone = (s.mapWidth job.line 31).isNone := by
    unfold State.foundOf State.foundIn
    cases s.mapWidth job.line 31 <;> rfl
  have h := State.painted_line job hq
  rw [Module.blankDue_remapped, hnone, ← Bool.or_assoc] at h
  rw [State.finishLine_line hq]
  simpa only [decide_eq_true_eq] using h

end

/-! ## The line that follows (R94) and the posting (R60) -/

/-- The next line's REMAP begins, or none is in hand. -/
theorem State.nextLine_outcome (v : State) (job : RemapJob) :
    match job.after with
    | k :: r => Begins v (v.nextLine job) ⟨k, r, job.cause⟩
    | [] => v.nextLine job = { v with fmt := { v.fmt with remap := none } } := by
  unfold State.nextLine
  cases job.after with
  | nil => rfl
  | cons k r => exact Begins.beginLine v _

/-- The line that follows leaves bus, intake and parameters. -/
theorem State.nextLine_same (v : State) (job : RemapJob) : (v.nextLine job).bus = v.bus ∧ (v.nextLine job).intake = v.intake ∧
    (v.nextLine job).params = v.params := by
  unfold State.nextLine
  split
  · rw [(Begins.beginLine v _).rest]
    exact ⟨rfl, rfl, rfl⟩
  · exact ⟨rfl, rfl, rfl⟩

end Sys2Proof.Machine
end

section
/-! PROOF. The statement of REMAP_LINE_FINISHED (R76 to R80, R82, R85, R86, R92, R94, R99, R111), put together. -/

namespace Sys2Proof.Machine

theorem exec_remapLineFinished {h : List HostWrite} {before s : State} (hs : s = before.hostWrites h) :
    exec (.remapLineFinished h) before = .next (if s.linesWork then s.remapFinished else s) := by
  subst hs
  rfl

/-- The step is steps 2 to 5 of R92, the line that follows, and the TAKEN write of a REMAP posting in hand that is complete. -/
theorem State.remapFinished_eq {s : State} {job : RemapJob} (hq : s.bus.script = []) (hr : s.fmt.remap = some job) :
    s.remapFinished = if job.after = [] ∧ job.cause = .posting ∧ s.intake.state = .applying then
      ((s.finishLine job).nextLine job).writeTaken else (s.finishLine job).nextLine job := by
  have hintake : ((s.finishLine job).nextLine job).intake = s.intake := by
    obtain ⟨-, hi, -⟩ := State.nextLine_same (s.finishLine job) job
    have h := State.finishLine_rest (job := job) hq
    generalize s.finishLine job = v at h hi ⊢
    rw [hi, h]
  unfold State.remapFinished
  rw [hr]
  dsimp only
  rw [hintake]

/-- The TAKEN write of a REMAP posting, where one is in hand (R60). -/
theorem State.remapFinished_taken {s : State} {job : RemapJob} (hq : s.bus.script = []) (hr : s.fmt.remap = some job) :
    match (if decide (job.after = []) && decide (job.cause = .posting) && decide (s.intake.state = .applying) then
      s.intake.current else none) with
    | some c => c < s.params.cellCount → Taken c ((s.finishLine job).nextLine job) s.remapFinished
    | none => s.remapFinished = (s.finishLine job).nextLine job := by
  obtain ⟨hbus, hintake, hparams⟩ := State.nextLine_same (s.finishLine job) job
  have h := State.finishLine_rest (job := job) hq
  rw [State.remapFinished_eq hq hr]
  generalize s.finishLine job = v at h hbus hintake hparams ⊢
  have hscript : (v.nextLine job).bus.script = [] := by rw [hbus, h]; exact hq
  have hcurrent : (v.nextLine job).intake.current = s.intake.current := by rw [hintake, h]
  have hcount : (v.nextLine job).params.cellCount = s.params.cellCount := by rw [hparams, h]
  by_cases ht : job.after = [] ∧ job.cause = .posting ∧ s.intake.state = .applying
  · rw [if_pos ht, if_pos (by simpa [and_assoc] using ht)]
    cases hc : s.intake.current with
    | none =>
      show (v.nextLine job).writeTaken = _
      unfold State.writeTaken
      rw [hcurrent, hc]
    | some c => exact fun hlt => Taken.writeTaken hscript (hcurrent.trans hc) (hcount ▸ hlt)
  · rw [if_neg ht, if_neg (by simpa [and_assoc] using ht)]

/-- What becomes of a used slot (R77 to R79). -/
theorem State.slot_outcome {s : State} {job : RemapJob} (hq : s.bus.script = []) (hwf : Sparse.wf none s.fmt.table = true)
    {e : Fin 32 × Fin 8} (hu : s.slotUsed job.line e = true) :
    (¬ s.SlotFits job.line e → s.fate job.line e = .fault) ∧
      (s.SlotFits job.line e → s.fmt.freeEntries ≤ ((slotOrder.take (8 * e.1.val + e.2.val)).filterMap (s.slotEntry job.line)).length →
        s.fate job.line e = .noRoom) ∧
      (s.SlotFits job.line e → ((slotOrder.take (8 * e.1.val + e.2.val)).filterMap (s.slotEntry job.line)).length < s.fmt.freeEntries →
        ∃ k p, s.fate job.line e = .kept k ∧ k < 1024 ∧ s.fmt.placement k = none ∧ (s.finishLine job).fmt.placement k = some p ∧
          p.line = job.line ∧ p.module = e.1 ∧ p.start = (s.slotAt job.line e).start ∧ p.width = (s.slotAt job.line e).width ∧
          fieldKindOf (s.slotAt job.line e).kind = some p.kind ∧ p.format.val = (s.slotAt job.line e).format ∧
          p.instr.val = (s.slotAt job.line e).instr ∧ p.highlight = none) := by
  rw [show 8 * e.1.val + e.2.val = slotNumber e from rfl, slotOrder_take (Nat.le_of_lt (slotNumber_lt e))]
  refine ⟨State.fate_of_not_fits hu, fun hf => (State.fate_of_fits hwf hu hf).1, fun hf hroom => ?_⟩
  obtain ⟨k, hk, hfate⟩ := (State.fate_of_fits hwf hu hf).2 hroom
  obtain ⟨hlt, hfree, p, hp, hfills⟩ := (State.laid (n := job.line) hwf (Nat.le_refl 256)).built e (slotNumber_lt e) k hk
  exact ⟨k, p, hfate, hlt, hfree, (State.finishLine_placement hq k).trans hp, hfills.line, hfills.module, hfills.start,
    hfills.width, hfills.kind, hfills.format, hfills.instr, hfills.highlight⟩

/-- Settles O38: the slots are examined one by one, each against the placements of those before it; the images and ranges follow from
what the slots kept have left in the table. -/
theorem remapLineFinishes : Obligations.RemapLineFinishes := by
  intro h before s hs hq
  have hx := exec_remapLineFinished hs
  refine ⟨fun hidle => ?_, fun job hwork hremap => ?_⟩
  · rw [hx]
    rcases hidle with hoff | hnone
    · rw [hoff]
      rfl
    · unfold State.remapFinished
      rw [hnone, ite_self]
  · rw [if_pos hwork] at hx
    refine ⟨s.finishLine job, (s.finishLine job).nextLine job, s.remapFinished, hx, State.remapFinished_taken hq hremap,
      State.nextLine_outcome _ job, State.finishLine_rest hq, State.finishLine_heads hq,
      fun k hk => (State.finishLine_line hq k).trans (State.painted_line_ne job hq hk), State.finishLine_line_self hq,
      fun m => ?_, fun hgone hwf => ⟨s.fate job.line, ?_⟩⟩
    · have hfollows := State.painted_module_follows (job := job) hq m
      rw [← State.finishLine_line hq] at hfollows
      exact hfollows
    · have hlaid := State.laid (n := job.line) hwf (Nat.le_refl 256)
      have hentries : s.entriesBefore job.line 256 = slotOrder.filterMap (s.slotEntry job.line) :=
        congrArg (List.filterMap (s.slotEntry job.line)) slotsBefore_all
      have hplace := State.finishLine_placement (job := job) hq
      have hfaults := State.faultCount_eq (job := job) hq
      refine ⟨fun e hu => State.slot_outcome hq hwf hu, hentries ▸ hlaid.nodup,
        fun k hk => (hplace k).trans (hlaid.others k (hentries ▸ hk)), fun i ks hc => ?_, fun m => ?_, fun f => ?_, ?_, ?_,
        fun k p hp hn c hc hend => ?_, fun m c hout => ?_, fun m w hw hlive => ?_⟩
      · have hchain := State.finishLine_chainIs hq (hlaid.chains i ks hc)
        rw [slotsBefore_all] at hchain
        exact hchain
      · rw [State.finishLine_stale hq]
        exact State.foundOf_stale job.line m
      · have herror := State.finishLine_hasError (job := job) hq f
        rw [hfaults] at herror
        exact herror
      · have hheld := State.finishLine_held (job := job) hq
        rw [hfaults] at hheld
        exact hheld
      · have hinbox := State.finishLine_inbox (job := job) hq
        rw [hfaults] at hinbox
        exact hinbox
      · have hshown := State.painted_image_in hq hwf hgone ((hplace k).symm.trans hp) hn hc hend
        rw [State.blanked_cellsOf, ← State.finishLine_line hq, ← State.finishLine_record hq] at hshown
        exact hshown
      · rw [State.finishLine_line hq]
        exact State.painted_image_out hq hwf hgone fun k p hp => hout k p ((hplace k).trans hp)
      · rw [State.finishLine_line hq]
        exact State.painted_dirty hq hwf hgone hw hlive

end Sys2Proof.Machine
end

section
/-! PROOF. Cells shown on a module join its dirty range (R86, R100). -/

namespace Sys2Proof.Machine

/-! ## The cells that differ, and the range over them (R86) -/

theorem mem_differing_iff {a b : Vector BoardCell 32} {k : Nat} :
    k ∈ differing a b ↔ ∃ i : Fin 32, i.val = k ∧ Bank.get b i ≠ Bank.get a i := by
  simp only [differing, List.mem_map, List.mem_filter, List.mem_finRange, true_and, decide_eq_true_eq]
  exact exists_congr fun i => by rw [and_comm, ne_comm]

/-- The range over some rising cells begins and ends at one of them, and holds them all. -/
theorem rangeOver_of_sorted {l : List Nat} (hs : l.Pairwise (· < ·)) (hl : l ≠ []) :
    ∃ r, rangeOver l = some r ∧ r.first ∈ l ∧ r.last ∈ l ∧ ∀ k ∈ l, r.first ≤ k ∧ k ≤ r.last := by
  obtain ⟨a, l, rfl⟩ := List.exists_cons_of_ne_nil hl
  refine ⟨_, rfl, List.mem_cons_self, List.getLastD_mem_cons .., fun k hk => ⟨?_, ?_⟩⟩
  · exact (hs.imp Nat.le_of_lt).rel_head hk
  · have hlast := (hs.imp Nat.le_of_lt).rel_getLast hk
    rwa [List.getLast_eq_getLastD] at hlast

/-! ## Ranges joined (R100) -/

theorem joinRange_first (old : Option Range) (r : Range) :
    (joinRange old r).first = r.first ∨ ∃ o, old = some o ∧ o.first = (joinRange old r).first := by
  cases old with
  | none => exact .inl rfl
  | some o =>
    rcases Nat.le_total o.first r.first with h | h
    · exact .inr ⟨o, rfl, (Nat.min_eq_left h).symm⟩
    · exact .inl (Nat.min_eq_right h)

theorem joinRange_last (old : Option Range) (r : Range) :
    (joinRange old r).last = r.last ∨ ∃ o, old = some o ∧ o.last = (joinRange old r).last := by
  cases old with
  | none => exact .inl rfl
  | some o =>
    rcases Nat.le_total o.last r.last with h | h
    · exact .inl (Nat.max_eq_right h)
    · exact .inr ⟨o, rfl, (Nat.max_eq_left h).symm⟩

theorem joinRange_covers_new (old : Option Range) (r : Range) :
    (joinRange old r).first ≤ r.first ∧ r.last ≤ (joinRange old r).last := by
  cases old with
  | none => exact ⟨Nat.le_refl _, Nat.le_refl _⟩
  | some o => exact ⟨Nat.min_le_right _ _, Nat.le_max_right _ _⟩

theorem joinRange_covers_old {old : Option Range} (r : Range) {o : Range} (h : old = some o) :
    (joinRange old r).first ≤ o.first ∧ o.last ≤ (joinRange old r).last := by
  subst h
  exact ⟨Nat.min_le_left _ _, Nat.le_max_left _ _⟩

/-! ## What showing cells does to a module -/

namespace Module

variable (x : Module) (start : Nat) (cells : List BoardCell)

theorem showCells_image : (x.showCells start cells).image = paintCells x.image start cells := by rw [showCells_rest]

theorem mem_differing_showCells {k : Nat} : k ∈ differing x.image (paintCells x.image start cells) ↔
    ∃ i : Fin 32, i.val = k ∧ Bank.get (x.showCells start cells).image i ≠ Bank.get x.image i := by
  rw [showCells_image, mem_differing_iff]

variable {x start cells}

/-- With no cell changed no range is handed on. -/
theorem showCells_dirty_of_same (h : differing x.image (paintCells x.image start cells) = []) :
    (x.showCells start cells).dirty = x.dirty := by
  unfold showCells takeRange
  dsimp only
  rw [h]
  dsimp only [rangeOver]

/-- The range over the changed cells joins that of a LIVE module. -/
theorem showCells_dirty_of_live (h : x.live = true) {r : Range}
    (hr : rangeOver (differing x.image (paintCells x.image start cells)) = some r) :
    (x.showCells start cells).dirty = some (joinRange x.dirty r) := by
  unfold showCells takeRange
  dsimp only
  rw [hr]
  dsimp only
  rw [if_pos (x.live_iff.1 h)]

end Module

/-- Settles O35: the cells that differ rise, so the range from the first to the last of them is the smallest over them, and
`joinRange` takes each end from it or from the old range. -/
theorem shownCellsJoinTheDirtyRange : Obligations.ShownCellsJoinTheDirtyRange := by
  intro x start cells y changed
  have hchanged {k : Nat} : k ∈ differing x.image (paintCells x.image start cells) ↔ changed k :=
    x.mem_differing_showCells start cells
  refine ⟨?_, fun i => ?_, fun hlive => ?_, fun hsame => ?_, fun hlive ⟨k, hk⟩ => ?_⟩
  · have hrest := x.showCells_rest start cells
    rwa [← x.showCells_image start cells] at hrest
  · show Bank.get (x.showCells start cells).image i = _
    rw [Module.showCells_image, get_paintCells]
  · exact Module.showCells_dirty_of_not_live _ _ fun h => by simp [x.live_iff.2 h] at hlive
  · exact Module.showCells_dirty_of_same (List.eq_nil_iff_forall_not_mem.2 fun k hk => hsame k (hchanged.1 hk))
  · obtain ⟨r, hr, hfirst, hlast, hall⟩ := rangeOver_of_sorted (differing_sorted _ _) (List.ne_nil_of_mem (hchanged.2 hk))
    have hnew := joinRange_covers_new x.dirty r
    refine ⟨joinRange x.dirty r, Module.showCells_dirty_of_live hlive hr, fun k hk => ?_, fun o ho => joinRange_covers_old r ho, ?_, ?_⟩
    · have hin := hall k (hchanged.2 hk)
      omega
    · exact (joinRange_first x.dirty r).imp_left fun e => by rw [e]; exact hchanged.1 hfirst
    · exact (joinRange_last x.dirty r).imp_left fun e => by rw [e]; exact hchanged.1 hlast

end Sys2Proof.Machine
end

section
/-! PROOF. The rules of a board line: what each command comes to, and what it leaves (chapter 06). -/

namespace Sys2Proof.Machine

/-! ## The meaning of each command, once -/

section

variable (n : Fin 4) (s : State)

theorem exec_nightSet : exec (.nightSet n) s = .next (s.modifyLine n BoardLine.takeNightSet) := rfl

theorem exec_nightClear : exec (.nightClear n) s = .next (s.modifyLine n BoardLine.takeNightClear) := rfl

theorem exec_boardFrameSent : exec (.boardFrameSent n) s = .next (s.modifyLine n fun l => l.endSending s.now) := rfl

variable {n s}

/-- A free line that finds a frame begins to send it. -/
theorem exec_chooseNextFrame_of_some {k : BoardFrameKind} (h : s.nextFrame n = some k) :
    exec (.chooseNextFrame n) s = .next (s.modifyLine n fun l => l.begin k) := by
  show execChooseNextFrame n s = _
  unfold execChooseNextFrame
  rw [h]

theorem exec_chooseNextFrame_of_none (h : s.nextFrame n = none) : exec (.chooseNextFrame n) s = .next s := by
  show execChooseNextFrame n s = _
  unfold execChooseNextFrame
  rw [h]

/-- A poll timer that has reached its time is due (R106). -/
theorem exec_pollTimer_of_reached {m : Fin 32} (h : s.linesWork = true ∧ ((s.line n).module m).poll.reached s.now = true) :
    exec (.pollTimer n m) s = .next (s.modifyLine n fun l => l.modifyModule m fun x => { x with poll := .due }) :=
  congrArg Host.Outcome.next (if_pos (Bool.and_eq_true_iff.2 h))

theorem exec_pollTimer_of_not_reached {m : Fin 32}
    (h : ¬ (s.linesWork = true ∧ ((s.line n).module m).poll.reached s.now = true)) : exec (.pollTimer n m) s = .next s :=
  congrArg Host.Outcome.next (if_neg fun e => h (Bool.and_eq_true_iff.1 e))

end

/-! ## One line changed -/

/-- A line that a change leaves as it was leaves the whole state so. -/
theorem State.modifyLine_of_fixed {s : State} {n : Fin 4} {f : BoardLine → BoardLine} (h : f (s.line n) = s.line n) :
    s.modifyLine n f = s := by
  have hlines : Bank.modify s.lines n f = s.lines := Bank.ext fun k => by
    rw [Bank.get_modify]
    split
    · next e => exact e ▸ h
    · rfl
  rw [State.modifyLine_eq, hlines, State.withLines_self]

theorem State.line_modifyLine (s : State) (n : Fin 4) (f : BoardLine → BoardLine) :
    (s.modifyLine n f).line n = f (s.line n) := by
  rw [(changesLine_modify s n f).2 n, if_pos rfl]

/-- A command that changes one line by `f` leaves what `f` makes of it. -/
theorem becomes_of_exec {s : State} {n : Fin 4} {c : Instr} {f : BoardLine → BoardLine}
    (h : exec c s = .next (s.modifyLine n f)) : ∃ t, exec c s = .next t ∧ ChangesLine s t n (f (s.line n)) :=
  ⟨_, h, changesLine_modify s n f⟩

/-- The line is free, and one of its modules has had an outcome (R98). -/
theorem BoardLine.free_modifyModule (l : BoardLine) (m : Fin 32) (f : Module → Module) :
    l.free.modifyModule m f = { l.having m (f (l.module m)) with frame := none } := rfl

/-- Every LIVE module has its whole width dirty, and no other module is changed (R108, R110). -/
theorem BoardLine.module_dirtyLive (l : BoardLine) (m : Fin 32) : l.dirtyLive.module m = (l.module m).repainted :=
  Bank.get_mapAll l.modules _ m

/-- A BOARD notice after a change of one line: held by that line's controller, or handed on (R111). -/
theorem reportsModule_modifyLine (s : State) (n : Fin 4) (f : BoardLine → BoardLine) (body : NoticeBody) :
    ReportsModule s (s.modifyLine n f) ((s.modifyLine n f).reportModule n body) n body := by
  have hphase : (s.modifyLine n f).bus.phase = s.bus.phase := rfl
  unfold ReportsModule State.reportModule
  rw [hphase]
  split
  · exact changesLine_modify _ n fun l => { l with held := l.held ++ [body] }
  · rfl

/-! ## Night events (R109, R110) -/

namespace BoardLine

variable {l : BoardLine} {rest : List Bool}

theorem takeNightSet_of_set (h : l.nights = true :: rest) :
    l.takeNightSet = { l with nights := rest, night := true, blankDue := true, intensityDue := some .dim } := by
  unfold takeNightSet
  rw [h]
  rfl

theorem takeNightSet_of_other (h : l.nights.head? ≠ some true) : l.takeNightSet = l := by
  unfold takeNightSet
  split
  · next e => exact absurd (by rw [e]; rfl) h
  · rfl

theorem takeNightClear_of_clear (h : l.nights = false :: rest) :
    l.takeNightClear = ({ l with nights := rest, night := false, intensityDue := some .full } : BoardLine).dirtyLive := by
  unfold takeNightClear
  rw [h]
  rfl

theorem takeNightClear_of_other (h : l.nights.head? ≠ some false) : l.takeNightClear = l := by
  unfold takeNightClear
  split
  · next e => exact absurd (by rw [e]; rfl) h
  · rfl

end BoardLine

/-- Settles O39, by which night event waits first. -/
theorem nightReachesBoardLine : Obligations.NightReachesBoardLine := by
  intro s n l
  refine ⟨fun rest h => ?_, fun rest h => ?_, fun h => ?_, fun h => ?_⟩
  · rw [← BoardLine.takeNightSet_of_set h]
    exact becomes_of_exec (exec_nightSet n s)
  · have hline : (s.modifyLine n BoardLine.takeNightClear).line n = _ :=
      (s.line_modifyLine n _).trans (BoardLine.takeNightClear_of_clear h)
    obtain ⟨hrest, hlines⟩ := changesLine_modify s n BoardLine.takeNightClear
    refine ⟨_, exec_nightClear n s, hrest, fun k hk => (hlines k).trans (if_neg hk), ?_, fun m => ?_⟩
    · rw [hline]
      rfl
    · rw [hline]
      exact BoardLine.module_dirtyLive _ m
  · exact ⟨_, exec_nightSet n s, State.modifyLine_of_fixed (BoardLine.takeNightSet_of_other h)⟩
  · exact ⟨_, exec_nightClear n s, State.modifyLine_of_fixed (BoardLine.takeNightClear_of_other h)⟩

/-! ## The end of sending (R97, R98, R108) -/

namespace BoardLine

variable {l : BoardLine}

/-- The frame that ends its sending is the one that is being sent. -/
theorem endSending_of_sending {k : BoardFrameKind} {bytes : List Byte} (h : l.frame = some ⟨k, bytes, .sending⟩) (now : Nat) :
    l.endSending now = l.sent ⟨k, bytes, .sending⟩ now := by
  unfold endSending
  rw [h]
  rfl

theorem endSending_of_other (h : ∀ k bytes, l.frame ≠ some ⟨k, bytes, .sending⟩) (now : Nat) : l.endSending now = l := by
  unfold endSending
  split
  · next f hf =>
    obtain ⟨k, bytes, phase⟩ := f
    exact if_neg fun e : phase = .sending => h k bytes (e ▸ hf)
  · rfl

theorem blanked_eq (l : BoardLine) : l.blanked =
    if l.night = true then { l with frame := none, blankDue := false }
    else ({ l with frame := none, blankDue := false } : BoardLine).dirtyLive := rfl

/-- A broadcast BLANK has been sent: by day every LIVE module is repainted (R108). -/
theorem module_blanked (m : Fin 32) :
    l.blanked.module m = if l.night = true then l.module m else (l.module m).repainted := by
  rw [blanked_eq]
  split
  · rfl
  · exact module_dirtyLive _ m

theorem blanked_rest : l.blanked = { l with frame := none, blankDue := false, modules := l.blanked.modules } := by
  rw [blanked_eq]
  split <;> rfl

end BoardLine

/-- Settles O41, by the frame being sent. -/
theorem boardFrameSendingEnds : Obligations.BoardFrameSendingEnds := by
  intro s n l becomes
  have hexec := exec_boardFrameSent n s
  split
  · next k bytes hframe =>
    have hsent : l.endSending s.now = l.sent ⟨k, bytes, .sending⟩ s.now := BoardLine.endSending_of_sending hframe s.now
    have hbecomes : becomes (l.sent ⟨k, bytes, .sending⟩ s.now) := hsent ▸ becomes_of_exec hexec
    cases k with
    | writeCells m => exact hbecomes
    | statusPoll m => exact hbecomes
    | blank m => exact hbecomes
    | intensity v => exact hbecomes
    | broadcastBlank =>
      have hline : (s.modifyLine n fun l => l.endSending s.now).line n = l.blanked := (s.line_modifyLine n _).trans hsent
      refine ⟨_, hexec, ?_, fun m => ?_⟩
      · have hchanges : ChangesLine s _ n (l.endSending s.now) := changesLine_modify s n fun l => l.endSending s.now
        rw [hsent] at hchanges
        rw [hline, ← BoardLine.blanked_rest]
        exact hchanges
      · rw [hline]
        exact BoardLine.module_blanked m
  · next hother =>
    rw [hexec, State.modifyLine_of_fixed]
    exact BoardLine.endSending_of_other hother s.now

end Sys2Proof.Machine
end

section
/-! PROOF. The frame that a free board line chooses (R96, R97, R101, R102, R106). -/

namespace Sys2Proof.Machine

namespace BoardLine

variable {l : BoardLine} {p : Module → Bool} {m : Fin 32}

/-! ## The first of some addresses (R101) -/

/-- In an order along which a measure rises, the first address found is the one with the least measure. -/
theorem first_of_least {order : List (Fin 32)} {f : Fin 32 → Nat} (hs : order.Pairwise fun a b => f a < f b) (hm : m ∈ order)
    (hp : p (l.module m) = true) (hleast : ∀ k, k ∈ order → p (l.module k) = true → f m ≤ f k) : l.first order p = some m := by
  obtain ⟨before, after, rfl⟩ := List.append_of_mem hm
  refine List.find?_eq_some_iff_append.2 ⟨hp, before, after, rfl, fun k hk => ?_⟩
  obtain ⟨-, -, hacross⟩ := List.pairwise_append.1 hs
  have hlt : f k < f m := hacross k hk m List.mem_cons_self
  have hnot : p (l.module k) ≠ true := fun e => absurd (hleast k (List.mem_append_left _ hk) e) (by omega)
  simp [hnot]

theorem first_of_none {order : List (Fin 32)} (h : ∀ k, k ∈ order → p (l.module k) ≠ true) : l.first order p = none :=
  List.find?_eq_none.2 h

theorem finRange_sorted : (List.finRange 32).Pairwise fun a b => a.val < b.val := by decide

/-- Over all addresses the first is the lowest. -/
theorem first_of_lowest (h : l.lowest (fun _ x => p x) m) : l.first (List.finRange 32) p = some m :=
  first_of_least finRange_sorted (List.mem_finRange m) h.1 fun k _ hk => h.2 k hk

/-! ## The orders of steps 4 and 6 (R101) -/

theorem mem_priorityRows : m ∈ l.priorityRows ↔ m.val < l.priority := by simp [priorityRows]

theorem priorityRows_sorted (l : BoardLine) : l.priorityRows.Pairwise fun a b => a.val < b.val := finRange_sorted.filter _

/-- How far an address stands from the turn of the round robin: none for the address after the position, and the position itself
is the last (R101). -/
def turn (l : BoardLine) (m : Fin 32) : Nat := match l.roundRobin with | none => m.val | some p => (m.val + 31 - p.val) % 32

theorem turn_of_none (h : l.roundRobin = none) (m : Fin 32) : l.turn m = m.val := by unfold turn; rw [h]

theorem turn_of_some {q : Fin 32} (h : l.roundRobin = some q) (m : Fin 32) : l.turn m = (m.val + 31 - q.val) % 32 := by
  unfold turn; rw [h]

theorem mem_robinOrder : m ∈ l.robinOrder ↔ l.priority ≤ m.val := by
  unfold robinOrder
  cases l.roundRobin with
  | none => simp
  | some q =>
    simp only [List.mem_append, List.mem_filter, List.mem_finRange, true_and, decide_eq_true_eq]
    have := lt_or_ge q m
    tauto

/-- The order of the round robin is that of the turns. -/
theorem robinOrder_sorted (l : BoardLine) : l.robinOrder.Pairwise fun a b => l.turn a < l.turn b := by
  have hrows : ((List.finRange 32).filter fun m => l.priority ≤ m.val).Pairwise fun a b => a.val < b.val :=
    finRange_sorted.filter _
  unfold robinOrder
  cases hq : l.roundRobin with
  | none => simpa only [turn_of_none hq] using hrows
  | some q =>
    simp only [turn_of_some hq]
    refine List.pairwise_append.2 ⟨(hrows.filter _).imp_of_mem fun ha hb h => ?_, (hrows.filter _).imp_of_mem fun ha hb h => ?_,
      fun a ha b hb => ?_⟩
    all_goals
      simp only [List.mem_filter, decide_eq_true_eq, Fin.lt_def, Fin.le_def] at ha hb
      omega

/-! ## The steps of R101, one by one -/

/-- A WRITE CELLS to the first module of an order that wants one: none at night (R101 steps 4 and 6). -/
def writeIn (l : BoardLine) (order : List (Fin 32)) : Option BoardFrameKind :=
  if l.night then none else (l.first order Module.wantsWrite).map .writeCells

/-- A present module in UNKNOWN or DARK whose poll timer is due (R101 step 5). -/
def duePoll (x : Module) : Bool := x.isLost && x.poll = .due

theorem chooseModule_eq (l : BoardLine) : l.chooseModule =
    (l.writeIn l.priorityRows).or (((l.first (List.finRange 32) duePoll).map .statusPoll).or (l.writeIn l.robinOrder)) := rfl

/-- A module of a priority row that wants a WRITE CELLS (R101 step 4). -/
def rowWants (l : BoardLine) (m : Fin 32) (x : Module) : Bool := decide (m.val < l.priority) && x.wantsWrite

/-- A module outside the priority rows that wants a WRITE CELLS (R101 step 6). -/
def otherWants (l : BoardLine) (m : Fin 32) (x : Module) : Bool := decide (l.priority ≤ m.val) && x.wantsWrite

theorem rowWants_iff {x : Module} : l.rowWants m x = true ↔ m ∈ l.priorityRows ∧ x.wantsWrite = true := by
  rw [mem_priorityRows, rowWants, Bool.and_eq_true, decide_eq_true_iff]

theorem otherWants_iff {x : Module} : l.otherWants m x = true ↔ m ∈ l.robinOrder ∧ x.wantsWrite = true := by
  rw [mem_robinOrder, otherWants, Bool.and_eq_true, decide_eq_true_iff]

/-- By day an order serves the module with the least measure of those that want it. -/
theorem writeIn_of_least {order : List (Fin 32)} {f : Fin 32 → Nat} (hn : l.night = false)
    (hs : order.Pairwise fun a b => f a < f b) (hm : m ∈ order ∧ (l.module m).wantsWrite = true)
    (hleast : ∀ k, k ∈ order → (l.module k).wantsWrite = true → f m ≤ f k) : l.writeIn order = some (.writeCells m) := by
  unfold writeIn
  rw [hn, first_of_least hs hm.1 hm.2 hleast]
  rfl

theorem writeIn_of_none {order : List (Fin 32)} (h : l.night = false → ∀ k, k ∈ order → (l.module k).wantsWrite ≠ true) :
    l.writeIn order = none := by
  unfold writeIn
  cases hn : l.night with
  | true => rfl
  | false => rw [first_of_none (h hn)]; rfl

/-- Step 4 finds the lowest priority row that wants a WRITE CELLS. -/
theorem chooseModule_of_row (hn : l.night = false) (h : l.lowest l.rowWants m) : l.chooseModule = some (.writeCells m) := by
  obtain ⟨hwants, hlowest⟩ := h
  rw [chooseModule_eq, writeIn_of_least hn l.priorityRows_sorted (rowWants_iff.1 hwants) fun k hk hw =>
    hlowest k (rowWants_iff.2 ⟨hk, hw⟩)]
  rfl

theorem writeIn_priorityRows_of_none (h : ¬ (l.night = false ∧ ∃ m, l.rowWants m (l.module m) = true)) :
    l.writeIn l.priorityRows = none :=
  writeIn_of_none fun hn k hk hw => h ⟨hn, k, rowWants_iff.2 ⟨hk, hw⟩⟩

/-- Step 5 finds the lowest module due to be polled, when step 4 finds none. -/
theorem chooseModule_of_poll (h : ¬ (l.night = false ∧ ∃ m, l.rowWants m (l.module m) = true))
    (hm : l.lowest (fun _ x => duePoll x) m) : l.chooseModule = some (.statusPoll m) := by
  rw [chooseModule_eq, writeIn_priorityRows_of_none h, first_of_lowest hm]
  rfl

/-- Step 6 is left, when steps 4 and 5 find none. -/
theorem chooseModule_of_no_poll (h : ¬ (l.night = false ∧ ∃ m, l.rowWants m (l.module m) = true))
    (hpoll : ¬ ∃ m, duePoll (l.module m) = true) : l.chooseModule = l.writeIn l.robinOrder := by
  rw [chooseModule_eq, writeIn_priorityRows_of_none h, first_of_none fun k _ hk => hpoll ⟨k, hk⟩]
  rfl

theorem writeIn_robinOrder_of_turn (hn : l.night = false) (hm : l.otherWants m (l.module m) = true)
    (hturn : ∀ k, l.otherWants k (l.module k) = true → l.turn m ≤ l.turn k) : l.writeIn l.robinOrder = some (.writeCells m) :=
  writeIn_of_least hn l.robinOrder_sorted (otherWants_iff.1 hm) fun k hk hw => hturn k (otherWants_iff.2 ⟨hk, hw⟩)

theorem writeIn_robinOrder_of_none (h : ¬ (l.night = false ∧ ∃ m, l.otherWants m (l.module m) = true)) :
    l.writeIn l.robinOrder = none :=
  writeIn_of_none fun hn k hk hw => h ⟨hn, k, otherWants_iff.2 ⟨hk, hw⟩⟩

/-- Steps 1 and 2 of R101 find nothing. -/
theorem choose_of_idle (hb : l.blankDue = false) (hi : l.intensityDue = none) :
    l.choose = ((l.first (List.finRange 32) Module.blankDue).map .blank).or l.chooseModule := by
  unfold choose
  rw [hb, hi]
  rfl

/-- Step 3 finds the lowest module whose BLANK is due, when steps 1 and 2 find nothing. -/
theorem choose_of_blank (hb : l.blankDue = false) (hi : l.intensityDue = none) (h : l.lowest (fun _ x => x.blankDue) m) :
    l.choose = some (.blank m) := by
  rw [choose_of_idle hb hi, first_of_lowest h]
  rfl

theorem choose_of_no_blank (hb : l.blankDue = false) (hi : l.intensityDue = none) (h : ¬ ∃ m, (l.module m).blankDue = true) :
    l.choose = l.chooseModule := by
  rw [choose_of_idle hb hi, first_of_none fun k _ hk => h ⟨k, hk⟩]
  rfl

theorem choose_of_intensity (hb : l.blankDue = false) {v : Intensity} (hi : l.intensityDue = some v) :
    l.choose = some (.intensity v) := by
  unfold choose
  rw [hb, hi]
  rfl

theorem choose_of_blankDue (hb : l.blankDue = true) : l.choose = some .broadcastBlank := by
  unfold choose
  rw [hb]
  rfl

/-! ## What the choice of a WRITE CELLS leaves (R101, R102) -/

theorem begin_writeCells {r : Range} (h : (l.module m).dirty = some r) : l.begin (.writeCells m) =
    { l.having m { l.module m with inFlight := some r, dirty := none } with
      roundRobin := if l.priority ≤ m.val then some m else l.roundRobin
      frame := some ⟨.writeCells m, writeCellsFrame m r (cellsOf (l.module m).image r), .sending⟩ } := by
  unfold BoardLine.begin chosen frameBytes
  dsimp only
  rw [modifyModule_eq, h]

end BoardLine

/-! ## The line that may choose (R96, R101) -/

theorem State.nextFrame_of_idle {s : State} {n : Fin 4} (h : s.linesWork = false ∨ (s.line n).working = false ∨
    (s.line n).underRemap = true ∨ (s.line n).frame ≠ none) : s.nextFrame n = none := by
  refine if_neg fun ⟨hwork, hworking, hremap, hframe⟩ => ?_
  simp [hwork, hworking, hremap, hframe] at h

theorem State.nextFrame_of_free {s : State} {n : Fin 4} (h : ¬ (s.linesWork = false ∨ (s.line n).working = false ∨
    (s.line n).underRemap = true ∨ (s.line n).frame ≠ none)) : s.nextFrame n = (s.line n).choose := by
  refine if_pos ?_
  simpa using h

/-- Settles O40, by the first step of R101 that finds a frame. -/
theorem freeLineChoosesNextFrame : Obligations.FreeLineChoosesNextFrame := by
  intro s n l sends wants row other lost turn write
  split
  · next hidle => exact exec_chooseNextFrame_of_none (State.nextFrame_of_idle hidle)
  next hfree =>
  have hchoose : s.nextFrame n = l.choose := State.nextFrame_of_free hfree
  have hbegin {k : BoardFrameKind} (h : l.choose = some k) :
      ∃ t, exec (.chooseNextFrame n) s = .next t ∧ ChangesLine s t n (l.begin k) :=
    becomes_of_exec (exec_chooseNextFrame_of_some (hchoose.trans h))
  split
  · next hblank => exact hbegin (BoardLine.choose_of_blankDue hblank)
  next hblank =>
  have hblank : l.blankDue = false := by simpa using hblank
  refine ⟨fun v hv => ?_, fun hintensity => ?_⟩
  · have hsends := hbegin (BoardLine.choose_of_intensity hblank hv)
    cases v <;> exact hsends
  split
  · exact fun m hm => hbegin (BoardLine.choose_of_blank hblank hintensity hm)
  next hnoblank =>
  have hmodule : l.choose = l.chooseModule := BoardLine.choose_of_no_blank hblank hintensity hnoblank
  have hwrite {m : Fin 32} {position : Option (Fin 32)} (hc : l.chooseModule = some (.writeCells m))
      (hp : (if l.priority ≤ m.val then some m else l.roundRobin) = position) : write m position := fun r hr => by
    have hsends := hbegin (hmodule.trans hc)
    rw [BoardLine.begin_writeCells hr, hp] at hsends
    exact hsends
  split
  · next hrow =>
    intro m hm
    have hlow := BoardLine.mem_priorityRows.1 (BoardLine.rowWants_iff.1 hm.1).1
    exact hwrite (BoardLine.chooseModule_of_row hrow.1 hm) (if_neg (Nat.not_le.2 hlow))
  next hnorow =>
  split
  · exact fun m hm => hbegin (hmodule.trans (BoardLine.chooseModule_of_poll hnorow hm))
  next hnopoll =>
  have hrobin : l.chooseModule = l.writeIn l.robinOrder := BoardLine.chooseModule_of_no_poll hnorow hnopoll
  split
  · next hother =>
    intro m hm hturn
    have hhigh := BoardLine.mem_robinOrder.1 (BoardLine.otherWants_iff.1 hm).1
    exact hwrite (hrobin.trans (BoardLine.writeIn_robinOrder_of_turn hother.1 hm hturn)) (if_pos hhigh)
  · next hnoother =>
    have hnone : l.choose = none := hmodule.trans (hrobin.trans (BoardLine.writeIn_robinOrder_of_none hnoother))
    exact exec_chooseNextFrame_of_none (hchoose.trans hnone)

end Sys2Proof.Machine
end

section
/-! PROOF. The outcomes of WRITE CELLS and STATUS POLL (R98, R103 to R107, R111). -/

namespace Sys2Proof.Machine

/-! ## The commands of a reply window (R98) -/

theorem checkByte_pair (a b : Byte) : checkByte [a, b] = a + b := by simp [checkByte]

theorem checkByte_triple (a b c : Byte) : checkByte [a, b, c] = a + b + c := by simp [checkByte]

section

variable {s : State} {n : Fin 4} {m : Fin 32} {ends : Nat} {address width check : Byte}

/-- The module that an answer to a WRITE CELLS is of: in the window, with its address and the right check byte (R98). -/
theorem writeAnswered_of_waiting (h : (s.line n).waiting = some (.writeCells m, ends)) (code : Byte) :
    s.writeAnswered n code address check =
      if s.now ≤ ends ∧ address = byte m.val ∧ check = code + address then some m else none := by
  unfold State.writeAnswered
  rw [h, checkByte_pair]

theorem writeAnswered_of_other (h : ∀ m ends, (s.line n).waiting ≠ some (.writeCells m, ends)) (code : Byte) :
    s.writeAnswered n code address check = none := by
  unfold State.writeAnswered
  split
  · next m ends e => exact absurd e (h m ends)
  · rfl

theorem pollAnswered_of_waiting (h : (s.line n).waiting = some (.statusPoll m, ends)) : s.pollAnswered n address width check =
    if s.now ≤ ends ∧ address = byte m.val ∧ check = 0xB3 + address + width then some m else none := by
  unfold State.pollAnswered
  rw [h, checkByte_triple]

theorem pollAnswered_of_other (h : ∀ m ends, (s.line n).waiting ≠ some (.statusPoll m, ends)) :
    s.pollAnswered n address width check = none := by
  unfold State.pollAnswered
  split
  · next m ends e => exact absurd e (h m ends)
  · rfl

theorem windowOver_of_waiting {k : BoardFrameKind} (h : (s.line n).waiting = some (k, ends)) :
    s.windowOver n = if ends ≤ s.now then some (k, ends) else none := by
  unfold State.windowOver
  rw [h]
  simp [Option.filter]

theorem windowOver_of_none (h : (s.line n).waiting = none) : s.windowOver n = none := by
  unfold State.windowOver
  rw [h]
  rfl

theorem exec_accept_of_answered (h : s.writeAnswered n 0xB1 address check = some m) :
    exec (.accept n address check) s = .next (s.modifyLine n fun l => l.free.modifyModule m Module.accepted) := by
  show execAccept n address check s = _
  unfold execAccept
  rw [h]

theorem exec_accept_of_discarded (h : s.writeAnswered n 0xB1 address check = none) :
    exec (.accept n address check) s = .next s := by
  show execAccept n address check s = _
  unfold execAccept
  rw [h]

theorem exec_reject_of_answered (h : s.writeAnswered n 0xB2 address check = some m) :
    exec (.reject n address check) s = .next (s.writeFailed n m s.now) := by
  show execReject n address check s = _
  unfold execReject
  rw [h]

theorem exec_reject_of_discarded (h : s.writeAnswered n 0xB2 address check = none) :
    exec (.reject n address check) s = .next s := by
  show execReject n address check s = _
  unfold execReject
  rw [h]

theorem exec_replyWindow_writeCells (h : s.windowOver n = some (.writeCells m, ends)) :
    exec (.replyWindow n) s = .next (s.writeFailed n m ends) := by
  show execReplyWindow n s = _
  unfold execReplyWindow
  rw [h]

theorem exec_replyWindow_statusPoll (h : s.windowOver n = some (.statusPoll m, ends)) :
    exec (.replyWindow n) s = .next (s.modifyLine n fun l => l.free.modifyModule m fun x => x.unanswered ends) := by
  show execReplyWindow n s = _
  unfold execReplyWindow
  rw [h]

theorem exec_replyWindow_of_none (h : s.windowOver n = none) : exec (.replyWindow n) s = .next s := by
  show execReplyWindow n s = _
  unfold execReplyWindow
  rw [h]

theorem exec_statusReply_of_answered (h : s.pollAnswered n address width check = some m) :
    exec (.statusReply n address width check) s =
      .next (if ((s.line n).module m).present = true ∧ ((s.line n).module m).state = .dark then
          (s.modifyLine n fun l => l.answered m).reportModule n (.moduleBack n m width)
        else s.modifyLine n fun l => l.answered m) := by
  show execStatusReply n address width check s = _
  unfold execStatusReply
  rw [h]

theorem exec_statusReply_of_discarded (h : s.pollAnswered n address width check = none) :
    exec (.statusReply n address width check) s = .next s := by
  show execStatusReply n address width check s = _
  unfold execStatusReply
  rw [h]

end

/-! ## The range of a failed frame (R104) -/

theorem inRange_some {r : Range} {k : Nat} : inRange (some r) k ↔ r.first ≤ k ∧ k ≤ r.last := by simp [inRange]

theorem not_inRange_none (k : Nat) : ¬ inRange none k := by simp [inRange]

/-- The cells of a range within a width. -/
theorem inRange_within {r : Range} {w k : Nat} : inRange (r.within w) k ↔ inRange (some r) k ∧ k < w := by
  unfold Range.within
  split
  · rw [inRange_some, inRange_some]
    dsimp only
    omega
  · rw [inRange_some]
    exact iff_of_false (not_inRange_none k) (by omega)

theorem inRange_joinRange {old : Option Range} {r : Range} {k : Nat} (h : inRange old k ∨ inRange (some r) k) :
    inRange (some (joinRange old r)) k := by
  have hnew := joinRange_covers_new old r
  rw [inRange_some] at h ⊢
  rcases h with ⟨o, ho, hk⟩ | hk
  · have hold := joinRange_covers_old r ho
    omega
  · omega

namespace Module

variable {x : Module} {w : Width}

/-- The range merged back, before it is cut to the width (R104). -/
def merged (x : Module) : Option Range :=
  match x.inFlight with
  | some f => some (joinRange x.dirty f)
  | none => x.dirty

theorem mergedBack_eq (hw : x.width = some w) : x.mergedBack = x.merged.bind fun r => r.within w.cells := by
  unfold mergedBack
  rw [hw]
  rfl

theorem inRange_mergedBack (hw : x.width = some w) {k : Nat} : inRange x.mergedBack k ↔ inRange x.merged k ∧ k < w.cells := by
  rw [mergedBack_eq hw]
  cases x.merged with
  | none => exact iff_of_false (not_inRange_none k) fun h => not_inRange_none k h.1
  | some r => exact inRange_within

theorem inRange_merged {k : Nat} (h : inRange x.dirty k ∨ inRange x.inFlight k) : inRange x.merged k := by
  unfold merged
  cases hf : x.inFlight with
  | none => exact h.resolve_right fun hk => not_inRange_none k (hf ▸ hk)
  | some f => exact inRange_joinRange (hf ▸ h)

theorem not_isLive_eq_false (h : x.live = true) : ¬ x.isLive = false := by
  rw [isLive_eq, h]
  exact Bool.noConfusion

theorem failed_of_not_live (h : x.live = false) (at_ : Nat) : x.failed at_ = x := if_pos h

theorem failed_of_few (h : x.live = true) (ha : x.attempts < 2) (at_ : Nat) :
    x.failed at_ = { x with dirty := x.mergedBack, inFlight := none, attempts := x.attempts + 1 } :=
  (if_neg (not_isLive_eq_false h)).trans (if_pos ha)

theorem failed_of_many (h : x.live = true) (ha : ¬ x.attempts < 2) (at_ : Nat) : x.failed at_ = x.goDark at_ :=
  (if_neg (not_isLive_eq_false h)).trans (if_neg ha)

end Module

/-! ## A failed WRITE CELLS (R104, R105, R111) -/

section

variable (s : State) (n : Fin 4) (m : Fin 32) (at_ : Nat)

/-- The line is free and the module has counted the failure; the notice of a module lost is not out yet. -/
def State.writeCounted : State := s.modifyLine n fun l => l.free.modifyModule m fun x => x.failed at_

theorem State.writeCounted_changes : ChangesLine s (s.writeCounted n m at_) n
    { (s.line n).having m (((s.line n).module m).failed at_) with frame := none } := changesLine_modify s n _

theorem State.writeCounted_module :
    ((s.writeCounted n m at_).line n).module m = ((s.line n).module m).failed at_ := by
  rw [(s.writeCounted_changes n m at_).2 n, if_pos rfl]
  exact (BoardLine.module_having _ m m _).trans (if_pos rfl)

/-- The module is lost when it was LIVE and is DARK now. -/
theorem State.writeFailed_eq : s.writeFailed n m at_ =
    if ((s.line n).module m).live = true ∧ (((s.line n).module m).failed at_).state = .dark then
      (s.writeCounted n m at_).reportModule n (.moduleLost n m)
    else s.writeCounted n m at_ := by
  rw [← s.writeCounted_module n m at_]
  rfl

end

/-- Settles O42, by what is waited for, and a failure by the module's state and count. -/
theorem writeCellsReachesItsOutcome : Obligations.WriteCellsReachesItsOutcome := by
  intro s n address check l fails answered
  have hfails {c : Instr} {m : Fin 32} {at_ : Nat} (h : exec c s = .next (s.writeFailed n m at_)) : fails c m at_ := by
    have hchanges := s.writeCounted_changes n m at_
    rw [s.writeFailed_eq n m at_] at h
    dsimp only [fails]
    split
    · next hlive =>
      rw [if_neg (by simp [l, hlive])] at h
      rw [Module.failed_of_not_live hlive] at hchanges
      exact ⟨_, h, hchanges⟩
    next hlive =>
    have hlive : (l.module m).live = true := by simpa using hlive
    split
    · next hcount =>
      rw [Module.failed_of_few hlive hcount] at h hchanges
      have hstate : (l.module m).state ≠ .dark := fun e => ModState.noConfusion (((Module.live_iff _).1 hlive).2.symm.trans e)
      rw [if_neg fun e => hstate e.2] at h
      refine ⟨_, _, h, hchanges, fun w hw => ⟨?_, fun k hk hin => ?_, fun k hin => ?_⟩⟩
      · rw [Module.mergedBack_eq hw]
        unfold Module.merged
        cases (l.module m).dirty <;> cases (l.module m).inFlight <;> rfl
      · exact (Module.inRange_mergedBack hw).2 ⟨Module.inRange_merged hin, hk⟩
      · exact ((Module.inRange_mergedBack hw).1 hin).2
    · next hcount =>
      rw [Module.failed_of_many hlive hcount] at h hchanges
      rw [if_pos ⟨hlive, rfl⟩] at h
      exact ⟨_, _, h, reportsModule_modifyLine s n _ _, hchanges⟩
  split
  · next m ends hwaiting =>
    have hanswered := writeAnswered_of_waiting (address := address) (check := check) hwaiting
    have hover := windowOver_of_waiting hwaiting
    refine ⟨?_, ?_, ?_⟩
    · split
      · next h => exact becomes_of_exec (exec_accept_of_answered ((hanswered _).trans (if_pos h)))
      · next h => exact exec_accept_of_discarded ((hanswered _).trans (if_neg h))
    · split
      · next h => exact hfails (exec_reject_of_answered ((hanswered _).trans (if_pos h)))
      · next h => exact exec_reject_of_discarded ((hanswered _).trans (if_neg h))
    · split
      · next h => exact hfails (exec_replyWindow_writeCells (hover.trans (if_pos h)))
      · next h => exact exec_replyWindow_of_none (hover.trans (if_neg h))
  · next hother =>
    have hnone := writeAnswered_of_other (address := address) (check := check) hother
    exact ⟨exec_accept_of_discarded (hnone _), exec_reject_of_discarded (hnone _)⟩

/-! ## A STATUS POLL (R106, R107) -/

/-- A module that does not answer is polled, and a present one has its poll timer set (R106). -/
theorem Module.unanswered_eq (x : Module) (ends : Nat) : x.unanswered ends =
    { x with poll := if x.present then .running (ends + 5000) else x.poll, polled := true } := by
  unfold Module.unanswered
  split <;> rfl

/-- Settles O43, by what is waited for. -/
theorem statusPollReachesItsOutcome : Obligations.StatusPollReachesItsOutcome := by
  intro s n address width check m l
  refine ⟨?_, fun h => exec_replyWindow_of_none (windowOver_of_none h), ?_⟩
  · split
    · next h => exact becomes_of_exec (exec_pollTimer_of_reached h)
    · next h => exact exec_pollTimer_of_not_reached h
  · split
    · next k ends hwaiting =>
      have hanswered := pollAnswered_of_waiting (address := address) (width := width) (check := check) hwaiting
      have hover := windowOver_of_waiting hwaiting
      refine ⟨?_, ?_⟩
      · split
        · next h =>
          have hexec := exec_statusReply_of_answered (hanswered.trans (if_pos h))
          refine ⟨_, _, hexec, changesLine_modify s n fun l => l.answered k, ?_⟩
          split
          · exact reportsModule_modifyLine s n _ _
          · rfl
        · next h => exact exec_statusReply_of_discarded (hanswered.trans (if_neg h))
      · split
        · next h =>
          rw [← Module.unanswered_eq]
          exact becomes_of_exec (exec_replyWindow_statusPoll (hover.trans (if_pos h)))
        · next h => exact exec_replyWindow_of_none (hover.trans (if_neg h))
    · next hother => exact exec_statusReply_of_discarded (pollAnswered_of_other hother)

end Sys2Proof.Machine
end

section
/-! PROOF. What reaches a tape unit: prints, cancels, notes and texts in the queue, or discarded (R114 to R120, R193). -/

namespace Sys2Proof.Machine

/-! ## The meaning of each command, once -/

section

variable (d : TapeId) (s : State)

theorem exec_printArrival : exec (.printArrival d) s = .next (s.takePrint d) := rfl

theorem exec_cancelArrival : exec (.cancelArrival d) s = .next (s.takeCancel d) := rfl

theorem exec_noteArrival : exec (.noteArrival d) s = .next (s.takeNote d) := rfl

theorem exec_textArrival (supplier : Supplier) : exec (.textArrival d supplier) s = .next (s.takeText d supplier) := rfl

end

/-! ## One tape unit replaced -/

/-- A command leaves one tape unit as `y`, with notices handed on, and nothing else changed. -/
def TapeBecomes (s : State) (d : TapeId) (command : Instr) (y : Tape) (notices : List NoticeBody) : Prop :=
  ∃ t, exec command s = .next t ∧
    t = { s with tapes := t.tapes, notices := { s.notices with inbox := s.notices.inbox ++ s.items notices } } ∧
    ∀ k, t.tape k = if k = d then y else s.tape k

theorem State.setTape_rest (s : State) (d : TapeId) (r : Tape × List NoticeBody) :
    s.setTape d r = { s with
      tapes := (s.setTape d r).tapes, notices := { s.notices with inbox := s.notices.inbox ++ s.items r.2 } } := by
  unfold State.setTape
  rw [State.handAll_eq]
  rfl

theorem State.tape_setTape (s : State) (d k : TapeId) (r : Tape × List NoticeBody) :
    (s.setTape d r).tape k = if k = d then r.1 else s.tape k := by
  unfold State.setTape
  rw [State.handAll_eq, State.withNotices_tape]
  exact tape_modify s d k _

theorem tapeBecomes_of_exec {s : State} {d : TapeId} {c : Instr} {r : Tape × List NoticeBody}
    (h : exec c s = .next (s.setTape d r)) : TapeBecomes s d c r.1 r.2 :=
  ⟨_, h, s.setTape_rest d r, fun k => s.tape_setTape d k r⟩

/-! ## The first arrival of a supplier -/

section

variable {s : State} {d : TapeId} {rest : List Arrival}

theorem becomes_printArrival {i : Ix} {m : Mode} {tr : Triple} {op late : Bool} {time : Option Tod}
    (h : (s.tape d).inbox = .print i m tr op late time :: rest) {r : Tape × List NoticeBody}
    (hr : Tape.placePrint d { s.tape d with inbox := rest } i m tr op late time = r) :
    TapeBecomes s d (.printArrival d) r.1 r.2 :=
  tapeBecomes_of_exec (by rw [exec_printArrival, State.takePrint, h, ← hr])

theorem exec_printArrival_of_other (h : ∀ i m tr op late time rest, (s.tape d).inbox ≠ .print i m tr op late time :: rest) :
    exec (.printArrival d) s = .next s := by
  rw [exec_printArrival, State.takePrint]
  split
  · next hi => exact absurd hi (h _ _ _ _ _ _ _)
  · rfl

theorem becomes_cancelArrival {i : Ix} {id : Word} {m : Mode} {price : Option Price} {time : Option Tod}
    (h : (s.tape d).inbox = .cancel i id m price time :: rest) {r : Tape × List NoticeBody}
    (hr : Tape.placeCancel d { s.tape d with inbox := rest } i id m price time = r) :
    TapeBecomes s d (.cancelArrival d) r.1 r.2 :=
  tapeBecomes_of_exec (by rw [exec_cancelArrival, State.takeCancel, h, ← hr])

theorem exec_cancelArrival_of_other (h : ∀ i id m price time rest, (s.tape d).inbox ≠ .cancel i id m price time :: rest) :
    exec (.cancelArrival d) s = .next s := by
  rw [exec_cancelArrival, State.takeCancel]
  split
  · next hi => exact absurd hi (h _ _ _ _ _ _)
  · rfl

theorem becomes_noteArrival {resumed : Bool} {i : Ix} {m : Mode} {time : Option Tod}
    (h : (s.tape d).inbox = .note resumed i m time :: rest) {r : Tape × List NoticeBody}
    (hr : Tape.placeNote d { s.tape d with inbox := rest } resumed i time = r) :
    TapeBecomes s d (.noteArrival d) r.1 r.2 :=
  tapeBecomes_of_exec (by rw [exec_noteArrival, State.takeNote, h, ← hr])

theorem exec_noteArrival_of_other (h : ∀ resumed i m time rest, (s.tape d).inbox ≠ .note resumed i m time :: rest) :
    exec (.noteArrival d) s = .next s := by
  rw [exec_noteArrival, State.takeNote]
  split
  · next hi => exact absurd hi (h _ _ _ _ _)
  · rfl

theorem becomes_textArrival_intake {text : List Byte} {urgent : Bool} {time : Option Tod}
    (h : (s.tape d).inbox = .text text urgent time :: rest) {r : Tape × List NoticeBody}
    (hr : Tape.placeText d { s.tape d with inbox := rest } text urgent time = r) :
    TapeBecomes s d (.textArrival d .intake) r.1 r.2 :=
  tapeBecomes_of_exec (by rw [exec_textArrival, State.takeText, h, ← hr])

theorem exec_textArrival_intake_of_other (h : ∀ text urgent time rest, (s.tape d).inbox ≠ .text text urgent time :: rest) :
    exec (.textArrival d .intake) s = .next s := by
  rw [exec_textArrival, State.takeText]
  split
  · next hi => exact absurd hi (h _ _ _ _)
  · rfl

theorem becomes_textArrival_feedWatch {text : List Byte} {urgent : Bool} {time : Option Tod}
    (h : (s.tape d).watchInbox = .text text urgent time :: rest) {r : Tape × List NoticeBody}
    (hr : Tape.placeText d { s.tape d with watchInbox := rest } text urgent time = r) :
    TapeBecomes s d (.textArrival d .feedWatch) r.1 r.2 :=
  tapeBecomes_of_exec (by rw [exec_textArrival, State.takeText, h, ← hr])

theorem exec_textArrival_feedWatch_of_other
    (h : ∀ text urgent time rest, (s.tape d).watchInbox ≠ .text text urgent time :: rest) :
    exec (.textArrival d .feedWatch) s = .next s := by
  rw [exec_textArrival, State.takeText]
  split
  · next hi => exact absurd hi (h _ _ _ _)
  · rfl

end

/-! ## A print folded into a full queue (R119) -/

section

variable {i : Ix} {tr : Triple} {e e' : Entry} {q older newer : List Entry}

theorem foldPrint_of_absent (h : ∀ z ∈ q, z.instr ≠ some i) : foldPrint i tr q = .noEntry := by
  induction q with
  | nil => rfl
  | cons e q ih =>
    obtain ⟨he, hq⟩ := List.forall_mem_cons.1 h
    simp [foldPrint, ih hq, he]

/-- The newest entry of the instrument takes the print. -/
theorem foldPrint_of_folds (hi : e.instr = some i) (hn : ∀ z ∈ newer, z.instr ≠ some i) (he : foldEntry tr e = some e') :
    foldPrint i tr (older ++ e :: newer) = .folded (older ++ e' :: newer) := by
  induction older with
  | nil => simp [foldPrint, foldPrint_of_absent hn, hi, he]
  | cons a older ih => simp [foldPrint, ih]

/-- The newest entry of the instrument does not take the print, and no older one is looked at. -/
theorem foldPrint_of_blocks (hi : e.instr = some i) (hn : ∀ z ∈ newer, z.instr ≠ some i) (he : foldEntry tr e = none) :
    foldPrint i tr (older ++ e :: newer) = .blocked := by
  induction older with
  | nil => simp [foldPrint, foldPrint_of_absent hn, hi, he]
  | cons a older ih => simp [foldPrint, ih]

theorem foldEntry_of_room {m : Mode} {t : Option Tod} {merged : List Triple} (h : merged.length < 8) :
    foldEntry tr (.trade i m t false false merged) = some (.trade i m t false false (merged ++ [tr])) := if_pos h

theorem foldEntry_eq_none (hi : e.instr = some i)
    (h : ∀ m t merged, e = .trade i m t false false merged → 8 ≤ merged.length) : foldEntry tr e = none := by
  unfold foldEntry
  split
  · next j m t merged =>
    obtain rfl := Option.some.inj hi
    exact if_neg (Nat.not_lt.2 (h m t merged rfl))
  · rfl

end

/-! ## A waiting print taken out (R117) -/

/-- The entry is a TRADE of the instrument with the print in its merged list. -/
def Entry.holdsPrint (i : Ix) (id : Word) (e : Entry) : Bool :=
  match e with
  | .trade j _ _ _ _ merged => j = i && merged.any (fun z => z.id = id)
  | _ => false

section

variable {i : Ix} {id : Word} {older newer : List Entry}

theorem dropTriple_of_absent {m : List Triple} (h : ∀ v ∈ m, v.id ≠ id) : dropTriple id m = none := by
  induction m with
  | nil => rfl
  | cons v m ih =>
    obtain ⟨hv, hm⟩ := List.forall_mem_cons.1 h
    simp [dropTriple, ih hm, hv]

/-- The newest triple with the id is the one removed. -/
theorem dropTriple_newest {a b : List Triple} {z : Triple} (hz : z.id = id) (hb : ∀ v ∈ b, v.id ≠ id) :
    dropTriple id (a ++ z :: b) = some (a ++ b) := by
  induction a with
  | nil => simp [dropTriple, dropTriple_of_absent hb, hz]
  | cons v a ih => simp [dropTriple, ih]

theorem cancelInEntry_of_not_holds {e : Entry} (h : e.holdsPrint i id = false) : cancelInEntry i id e = none := by
  cases e with
  | trade j m t op late merged =>
    by_cases hj : j = i
    · have hids : ∀ v ∈ merged, v.id ≠ id := by simpa [Entry.holdsPrint, hj] using h
      simp [cancelInEntry, dropTriple_of_absent hids]
    · simp [cancelInEntry, hj]
  | _ => rfl

theorem cancelInEntry_newest {m : Mode} {t : Option Tod} {op late : Bool} {a b : List Triple} {z : Triple} (hz : z.id = id)
    (hb : ∀ v ∈ b, v.id ≠ id) : cancelInEntry i id (.trade i m t op late (a ++ z :: b)) =
      some (if a ++ b = [] then [] else [.trade i m t op late (a ++ b)]) := by
  simp only [cancelInEntry, if_true, dropTriple_newest hz hb]
  cases a ++ b <;> rfl

theorem cancelWaiting_of_absent {q : List Entry} (h : q.any (Entry.holdsPrint i id) = false) :
    cancelWaiting i id q = none := by
  induction q with
  | nil => rfl
  | cons e q ih =>
    obtain ⟨he, hq⟩ := Bool.or_eq_false_iff.1 (List.any_cons ▸ h)
    simp [cancelWaiting, ih hq, cancelInEntry_of_not_holds he]

/-- The newest entry that holds the print is the one it is taken out of. -/
theorem cancelWaiting_newest {e : Entry} {es : List Entry} (hn : newer.any (Entry.holdsPrint i id) = false)
    (he : cancelInEntry i id e = some es) : cancelWaiting i id (older ++ e :: newer) = some (older ++ es ++ newer) := by
  induction older with
  | nil => simp [cancelWaiting, cancelWaiting_of_absent hn, he]
  | cons a older ih => simp [cancelWaiting, ih]

end

/-! ## What is placed, joined or discarded -/

section

variable {x : Tape} {d : TapeId} {i : Ix} {m : Mode} {time : Option Tod}

theorem Tape.hasRoom_of_lt (h : x.queue.length < 256) : x.hasRoom = true := decide_eq_true h

theorem Tape.hasRoom_of_full (h : 256 ≤ x.queue.length) : x.hasRoom = false := decide_eq_false (Nat.not_lt.2 h)

variable {tr : Triple} {op late : Bool}

theorem Tape.placePrint_of_room (h : x.queue.length < 256) :
    x.placePrint d i m tr op late time = (x.join (.trade i m time op late [tr]), []) := if_pos (Tape.hasRoom_of_lt h)

theorem Tape.placePrint_of_folded (h : 256 ≤ x.queue.length) {q : List Entry} (hf : foldPrint i tr x.queue = .folded q) :
    x.placePrint d i m tr false false time = ({ x with queue := q }, []) := by
  simp [Tape.placePrint, Tape.hasRoom_of_full h, hf]

/-- An opening or OUT-OF-SEQUENCE print, and one that no entry takes, is discarded with its notice (R119, R120). -/
theorem Tape.placePrint_of_omitted (h : 256 ≤ x.queue.length)
    (hf : op = true ∨ late = true ∨ ∀ q, foldPrint i tr x.queue ≠ .folded q) :
    x.placePrint d i m tr op late time = (x, [.tapeOmission d .trade (some i) (some tr.price) (some tr.id) time]) := by
  simp only [Tape.placePrint, Tape.hasRoom_of_full h, Bool.false_eq_true, if_false]
  split
  · next q hfold =>
    split at hfold
    · cases hfold
    · next hplain =>
      obtain ⟨hop, hlate⟩ : op = false ∧ late = false := by simpa using hplain
      rcases hf with h | h | h
      · simp [hop] at h
      · simp [hlate] at h
      · exact absurd hfold (h q)
  · rfl

variable {id : Word} {price : Option Price}

theorem Tape.placeCancel_of_waiting {q : List Entry} (h : cancelWaiting i id x.queue = some q) :
    x.placeCancel d i id m price time = ({ x with queue := q }, []) := by
  simp [Tape.placeCancel, h]

theorem Tape.placeCancel_of_room (h : cancelWaiting i id x.queue = none) (hr : x.queue.length < 256) :
    x.placeCancel d i id m price time = (x.join (.cancel i m price), []) := by
  simp [Tape.placeCancel, h, Tape.hasRoom_of_lt hr]

theorem Tape.placeCancel_of_full (h : cancelWaiting i id x.queue = none) (hf : 256 ≤ x.queue.length) :
    x.placeCancel d i id m price time = (x, [.tapeOmission d .cancel (some i) price (some id) time]) := by
  simp [Tape.placeCancel, h, Tape.hasRoom_of_full hf]

variable {resumed : Bool}

theorem Tape.placeNote_of_room (h : x.queue.length < 256) :
    x.placeNote d resumed i time = (x.join (if resumed then .resumeNote i else .haltNote i), []) :=
  if_pos (Tape.hasRoom_of_lt h)

theorem Tape.placeNote_of_full (h : 256 ≤ x.queue.length) : x.placeNote d resumed i time =
    (x, [.tapeOmission d (if resumed then .resumeNote else .haltNote) (some i) none none time]) := by
  simp [Tape.placeNote, Tape.hasRoom_of_full h]

variable {text : List Byte}

theorem Tape.placeText_normal (h : x.queue.length < 256) :
    x.placeText d text false time = (x.join (.text text false), []) := by
  simp [Tape.placeText, Tape.hasRoom_of_lt h]

theorem Tape.placeText_urgent (h : x.queue.length < 256) :
    x.placeText d text true time = ({ x with queue := insertUrgent (.text text true) x.queue }, []) := by
  simp [Tape.placeText, Tape.hasRoom_of_lt h]

theorem Tape.placeText_of_full {urgent : Bool} (h : 256 ≤ x.queue.length) :
    x.placeText d text urgent time = (x, [.tapeOmission d .text none none none time]) := by
  simp [Tape.placeText, Tape.hasRoom_of_full h]

end

/-- Settles O44: a print by what the full queue can do with it, a cancel by whether its print still waits. -/
theorem printsAndCancelsArrive : Obligations.PrintsAndCancelsArrive := by
  intro s d x becomes
  refine ⟨fun i mode tr op late time rest h => ?prints, fun i id mode price time rest h => ?cancels,
    exec_printArrival_of_other, exec_cancelArrival_of_other⟩
  case prints =>
    have omits (hfull : 256 ≤ x.queue.length)
        (hf : op = true ∨ late = true ∨ ∀ q, foldPrint i tr x.queue ≠ .folded q) :
        TapeBecomes s d (.printArrival d) { x with inbox := rest }
          [.tapeOmission d .trade (some i) (some tr.price) (some tr.id) time] :=
      becomes_printArrival h (Tape.placePrint_of_omitted hfull hf)
    refine ⟨fun hroom => becomes_printArrival h (Tape.placePrint_of_room hroom), fun hfull =>
      ⟨fun hmark => omits hfull (or_assoc.1 (.inl hmark)), fun habsent => ?_,
        fun hop hlate older e newer hq hi hn => ⟨?_, ?_⟩⟩⟩
    · exact omits hfull (.inr (.inr fun q => by rw [foldPrint_of_absent habsent]; nofun))
    · rintro m t merged rfl hlt
      subst hop hlate
      have hfold : foldPrint i tr x.queue = .folded (older ++ .trade i m t false false (merged ++ [tr]) :: newer) := by
        rw [hq, foldPrint_of_folds hi hn (foldEntry_of_room hlt)]
      exact becomes_printArrival h (Tape.placePrint_of_folded (x := { x with inbox := rest }) hfull hfold)
    · intro hnone
      exact omits hfull (.inr (.inr fun q => by rw [hq, foldPrint_of_blocks hi hn (foldEntry_eq_none hi hnone)]; nofun))
  case cancels =>
    refine ⟨fun older m t op late a z b newer hq hz hb hn => ?_, fun habsent => ?_⟩
    · have hwaits := (congrArg (cancelWaiting i id) hq).trans (cancelWaiting_newest hn (cancelInEntry_newest hz hb))
      exact becomes_cancelArrival h (Tape.placeCancel_of_waiting (x := { x with inbox := rest }) hwaits)
    · have hnone : cancelWaiting i id x.queue = none := cancelWaiting_of_absent habsent
      exact ⟨fun hroom => becomes_cancelArrival h (Tape.placeCancel_of_room hnone hroom),
        fun hfull => becomes_cancelArrival h (Tape.placeCancel_of_full hnone hfull)⟩

/-! ## Texts (R115, R116) -/

/-- An URGENT text stands behind the last waiting URGENT text, or at the head where none waits. -/
theorem insertUrgent_behind (e : Entry) {before behind : List Entry} (hbehind : ∀ a ∈ behind, a.isUrgent = false)
    (hlast : ∀ a, before.getLast? = some a → a.isUrgent = true) :
    insertUrgent e (before ++ behind) = before ++ e :: behind := by
  induction before with
  | nil =>
    cases behind with
    | nil => rfl
    | cons a behind => exact if_neg (by simpa using hbehind)
  | cons a before ih =>
    have hurgent : (a :: (before ++ behind)).any Entry.isUrgent = true := by
      have hz := List.getLast?_eq_some_getLast (List.cons_ne_nil a before)
      exact List.any_eq_true.2 ⟨_, List.mem_append_left behind (List.mem_of_getLast? hz), hlast _ hz⟩
    have hrest : ∀ z, before.getLast? = some z → z.isUrgent = true := fun z hz =>
      hlast z (by rw [List.getLast?_cons, hz]; rfl)
    show insertUrgent e (a :: (before ++ behind)) = _
    rw [insertUrgent, if_pos hurgent, ih hrest]
    rfl

/-- Settles O45: a note and a text by the room in the queue, a text alike from either supplier. -/
theorem notesAndTextsArrive : Obligations.NotesAndTextsArrive := by
  intro s d x becomes places
  have texts {command : Instr} {y : Tape} {text : List Byte} {urgent : Bool} {time : Option Tod} (hy : y.queue = x.queue)
      (h : TapeBecomes s d command (y.placeText d text urgent time).1 (y.placeText d text urgent time).2) :
      places command y text urgent time := by
    refine ⟨fun hfull => ?_, fun hroom => ⟨?_, ?_⟩⟩
    · rwa [Tape.placeText_of_full (hy ▸ hfull)] at h
    · rintro rfl
      rw [Tape.placeText_normal (hy ▸ hroom), Tape.join, hy] at h
      exact h
    · rintro rfl before behind hq hbehind hlast
      rw [Tape.placeText_urgent (hy ▸ hroom), hy, hq, insertUrgent_behind _ hbehind hlast] at h
      exact h
  exact ⟨fun resumed i mode time rest h => ⟨fun hroom => becomes_noteArrival h (Tape.placeNote_of_room hroom),
      fun hfull => becomes_noteArrival h (Tape.placeNote_of_full hfull)⟩,
    fun text urgent time rest h => texts rfl (becomes_textArrival_intake h rfl),
    fun text urgent time rest h => texts rfl (becomes_textArrival_feedWatch h rfl),
    exec_noteArrival_of_other, exec_textArrival_intake_of_other, exec_textArrival_feedWatch_of_other⟩

end Sys2Proof.Machine
end

section
/-! PROOF. The ribbon of a tape (R132). -/

namespace Sys2Proof.Machine

theorem exec_ribbonCharacter_of_due {s : State} {d : TapeId} (h : s.ribbonDue d = true) :
    exec (.ribbonCharacter d) s = .next (s.modifyTape d Tape.sendCharacter) := congrArg Host.Outcome.next (if_pos h)

theorem exec_ribbonCharacter_of_not_due {s : State} {d : TapeId} (h : ¬ s.ribbonDue d = true) :
    exec (.ribbonCharacter d) s = .next s := congrArg Host.Outcome.next (if_neg h)

theorem State.ribbonDue_iff (s : State) (d : TapeId) : s.ribbonDue d = true ↔ s.inService = true ∧
    (s.tape d).ribbonStart.any (fun start => start + 1000 * (s.tape d).ribbonNext / (s.tape d).rate ≤ s.now) = true := by
  unfold State.ribbonDue
  rw [Bool.and_eq_true]
  cases (s.tape d).ribbonStart <;> rfl

/-- Settles O48, by whether the character's time has come. -/
theorem ribbonSendsHeadOrSpace : Obligations.RibbonSendsHeadOrSpace := by
  intro s d x
  split
  · next h =>
    refine ⟨_, exec_ribbonCharacter_of_due ((s.ribbonDue_iff d).2 h), rfl, fun k => ?_⟩
    rw [tape_modify]
    show (if k = d then x.sendCharacter else s.tape k) = _
    unfold Tape.sendCharacter
    cases x.fifo <;> rfl
  · next h => exact exec_ribbonCharacter_of_not_due (mt (s.ribbonDue_iff d).1 h)

end Sys2Proof.Machine
end

section
/-! PROOF. Lateness and levels of a tape, as the renderer reads them (R121, R123, R124). -/

namespace Sys2Proof.Machine

/-! ## Lateness (R123, R124) -/

/-- The time of an entry, if it is a TRADE. -/
def Entry.tradeTime (e : Entry) : Option (Option Tod) :=
  match e with
  | .trade _ _ t _ _ _ => some t
  | _ => none

theorem oldestTime_eq (q : List Entry) : oldestTime q = (q.findSome? Entry.tradeTime).join := by
  induction q with
  | nil => rfl
  | cons e q ih =>
    cases e with
    | trade => rfl
    | _ => exact ih

/-- The time from one time of day to another, in deciseconds; 0 where either is absent (R123). -/
def ageOf (now time : Option Tod) : Nat :=
  match now, time with
  | some now, some t => (now.val + 864000 - t.val) % 864000
  | _, _ => 0

theorem lateMinutes_eq (now : Option Tod) (q : List Entry) :
    lateMinutes now q = if 432000 < ageOf now (oldestTime q) then 0 else ageOf now (oldestTime q) / 600 := by
  unfold lateMinutes lateness
  cases now with
  | none => rfl
  | some n =>
    cases oldestTime q with
    | none => rfl
    | some t => exact apply_ite (· / 600) _ _ _

theorem lateText_of_ne {n a : Nat} (h : n ≠ a) : lateText n a =
    some (if n = 0 then chars ['T', 'A', 'P', 'E', ' ', 'C', 'U', 'R', 'R', 'E', 'N', 'T']
      else chars ['T', 'A', 'P', 'E', ' '] ++ decimal n ++ chars [' ', 'M', 'I', 'N', ' ', 'L', 'A', 'T', 'E']) := by
  rw [lateText, if_neg h, apply_ite some]

theorem lateText_self (n : Nat) : lateText n n = none := if_pos rfl

/-! ## Levels (R121) -/

theorem Tape.leave_eq (x : Tape) (l : Fin 4) :
    x.leave l = if l = 1 then x.x1 else if l = 2 then x.x2 else if l = 3 then x.x3 else 0 := by
  fin_cases l <;> rfl

/-- A level above another is lowered by one within the four levels. -/
theorem level_lowered {l k : Fin 4} (h : k < l) : (⟨l.val - 1, by omega⟩ : Fin 4) = l - 1 := by
  fin_cases l
  · exact absurd h (Fin.not_lt_zero k)
  all_goals rfl

theorem Tape.nextLevel_eq (x : Tape) (b : Nat) : x.nextLevel b = if x.level < x.target b then x.target b else
    if x.target b < x.level ∧ b ≤ x.leave x.level then x.level - 1 else x.level := by
  unfold Tape.nextLevel
  refine ite_congr rfl (fun _ => rfl) fun _ => ite_congr rfl (fun h => level_lowered h.1) fun _ => rfl

end Sys2Proof.Machine
end

section
/-! PROOF. The renderer of a tape: the LATE text, and the entry taken and shown (R125 to R131, R133). -/

namespace Sys2Proof.Machine

/-! ## When the renderer acts (R124, R125) -/

theorem exec_renderEntry (d : TapeId) (s : State) : exec (.renderEntry d) s = .next (s.render d) := rfl

section

variable {s : State} {d : TapeId} {e : Entry} {rest : List Entry}

theorem State.render_of_not_ready (h : s.inService = false ∨ (s.tape d).queue = [] ∨ 15 < (s.tape d).fifo.length) :
    s.render d = s := by
  refine if_neg fun hready => ?_
  simp only [State.rendererReady, Bool.and_eq_true, Bool.not_eq_true', List.isEmpty_eq_false_iff] at hready
  obtain ⟨⟨hservice, hqueue⟩, hfifo⟩ := hready
  rcases h with h | h | h
  · simp [hservice] at h
  · exact hqueue h
  · exact Nat.not_le.2 h (of_decide_eq_true hfifo)

theorem State.render_of_ready (hservice : s.inService = true) (hfifo : (s.tape d).fifo.length ≤ 15)
    (hqueue : (s.tape d).queue = e :: rest) : s.render d = s.renderHead d e rest := by
  have hready : s.rendererReady d = true := by
    simp [State.rendererReady, hservice, hqueue, Config.fifoRoom, hfifo]
  unfold State.render
  rw [if_pos hready, hqueue]

/-- A TRADE whose lateness is not the one last announced brings the LATE text alone (R124). -/
theorem State.renderHead_of_late {i : Ix} {m : Mode} {time : Option Tod} {op late : Bool} {merged : List Triple}
    {text : List Byte} (h : lateText (lateMinutes s.session.tod (s.tape d).queue) (s.tape d).announced = some text) :
    s.renderHead d (.trade i m time op late merged) rest = s.modifyTape d fun x =>
      { x.emit text with announced := lateMinutes s.session.tod (s.tape d).queue } := by
  simp only [State.renderHead, h]

/-- Every other entry is taken, and a TRADE whose lateness has been announced. -/
theorem State.renderHead_of_current (h : ∀ i m time op late merged, e = .trade i m time op late merged →
    lateMinutes s.session.tod (s.tape d).queue = (s.tape d).announced) : s.renderHead d e rest = s.takeEntry d e rest := by
  cases e with
  | trade i m time op late merged => simp only [State.renderHead, h _ _ _ _ _ _ rfl, lateText_self]
  | _ => rfl

end

/-! ## The tape reference (R34, R130) -/

/-- The price an entry shows, with the instrument whose reference it becomes. -/
def Entry.shownPrice (e : Entry) : Option (Ix × Mode × Price) :=
  match e with
  | .trade i m _ _ _ merged => some (i, m, mergedPrice merged)
  | .cancel i m price => price.map fun p => (i, m, p)
  | _ => none

/-- The reference written for the price an entry shows, if it shows one. -/
def State.writeRefOf (s : State) (d : TapeId) (e : Entry) : State :=
  match e.shownPrice with
  | some (i, m, p) => s.writeRef d i m p
  | none => s

/-- A record once a price shown has become its tape reference, where it is that instrument's and of this tape. -/
def Record.referred (r : Record) (d : TapeId) (epoch : Word) (j : Ix) (ref : Option (Ix × Nat)) : Record :=
  match ref with
  | some (i, tens) => if j = i ∧ r.tape = some d then { r with tapeRef := some ⟨tens, epoch⟩ } else r
  | none => r

theorem State.writeRef_rest (s : State) (d : TapeId) (i : Ix) (m : Mode) (p : Price) :
    s.writeRef d i m p = { s with store := (s.writeRef d i m p).store } := by
  unfold State.writeRef
  dsimp only
  split <;> rfl

theorem State.record_writeRef (s : State) (d : TapeId) (i j : Ix) (m : Mode) (p : Price) : (s.writeRef d i m p).record j =
    (s.record j).referred d (s.tape d).epoch j (some (i, tensPart m p)) := by
  unfold State.writeRef Record.referred ownsRef
  dsimp only
  by_cases hd : (s.record i).tape = some d
  · by_cases hj : j = i
    · subst hj
      simp [hd]
    · simp [hd, hj]
  · have hnot : ¬ (j = i ∧ (s.record j).tape = some d) := fun ⟨hj, hr⟩ => hd (hj ▸ hr)
    simp [hd, hnot]

theorem State.writeRefOf_rest (s : State) (d : TapeId) (e : Entry) :
    s.writeRefOf d e = { s with store := (s.writeRefOf d e).store } := by
  unfold State.writeRefOf
  split
  · exact s.writeRef_rest d _ _ _
  · rfl

theorem State.record_writeRefOf (s : State) (d : TapeId) (e : Entry) (j : Ix) : (s.writeRefOf d e).record j =
    (s.record j).referred d (s.tape d).epoch j (e.shownPrice.map fun q => (q.1, tensPart q.2.1 q.2.2)) := by
  unfold State.writeRefOf
  cases e.shownPrice with
  | none => rfl
  | some q => exact s.record_writeRef d _ j _ _

/-! ## The entry taken (R126) -/

/-- An entry shown is its text written into the FIFO, and the reference of its price. -/
theorem State.showEntry_eq (s : State) (d : TapeId) (e : Entry) :
    s.showEntry d e = (s.modifyTape d fun x => x.emit (s.entryText d x e)).writeRefOf d e := by
  cases e with
  | cancel i m price => cases price <;> rfl
  | _ => rfl

/-- A tape with the entry taken out of its queue and its text in the FIFO. -/
def State.shownTape (s : State) (d : TapeId) (y : Tape) (taken : Entry × List Entry) : Tape :=
  { y with queue := taken.2 }.emit (s.entryText d y taken.1)

theorem State.takeEntry_eq (s : State) (d : TapeId) (e : Entry) (rest : List Entry) :
    s.takeEntry d e rest =
      (s.setTape d (s.shownTape d (s.tape d).evaluate (takeHead (s.tape d).evaluate.level e rest),
        levelNotice d (s.tape d) (s.tape d).evaluate s.session.tod)).writeRefOf d
          (takeHead (s.tape d).evaluate.level e rest).1 := by
  unfold State.takeEntry
  dsimp only
  generalize (s.tape d).evaluate = y
  generalize takeHead y.level e rest = taken
  generalize levelNotice d (s.tape d) y s.session.tod = ns
  rw [State.showEntry_eq, State.modifyTape_handAll]
  have htext : ((s.modifyTape d fun _ => { y with queue := taken.2 }).handAll ns).entryText d { y with queue := taken.2 }
      taken.1 = s.entryText d y taken.1 := by
    rw [State.handAll_eq]
    cases taken.1 <;> rfl
  rw [htext]
  rfl

/-- The head entry is taken: its tape becomes `y`, its price the reference `ref`, and nothing else changes but for the notices. -/
def TapeTakes (s : State) (d : TapeId) (y : Tape) (notices : List NoticeBody) (ref : Option (Ix × Nat)) : Prop :=
  ∃ t, exec (.renderEntry d) s = .next t ∧
    t = { s with
      store := t.store
      tapes := t.tapes
      notices := { s.notices with inbox := s.notices.inbox ++ s.items notices } } ∧
    (∀ k, t.tape k = if k = d then y else s.tape k) ∧
    ∀ j, t.record j = (s.record j).referred d y.epoch j ref

theorem State.record_setTape (s : State) (d : TapeId) (r : Tape × List NoticeBody) (j : Ix) :
    (s.setTape d r).record j = s.record j := by
  unfold State.setTape
  rw [State.handAll_eq]
  rfl

theorem tapeTakes_of_setTape {s : State} {d : TapeId} {r : Tape × List NoticeBody} {e : Entry}
    (h : exec (.renderEntry d) s = .next ((s.setTape d r).writeRefOf d e)) :
    TapeTakes s d r.1 r.2 (e.shownPrice.map fun q => (q.1, tensPart q.2.1 q.2.2)) := by
  refine ⟨_, h, ?_, fun k => ?_, fun j => ?_⟩
  · have htapes : ((s.setTape d r).writeRefOf d e).tapes = (s.setTape d r).tapes := by rw [State.writeRefOf_rest]
    rw [htapes]
    exact (State.writeRefOf_rest _ d e).trans
      (congrArg (fun v : State => { v with store := ((s.setTape d r).writeRefOf d e).store }) (s.setTape_rest d r))
  · rw [State.writeRefOf_rest]
    exact s.tape_setTape d k r
  · rw [State.record_writeRefOf, State.tape_setTape, if_pos rfl, State.record_setTape]

/-- What `State.takeEntry` comes to, for the level and epoch evaluated (R121, R122, R126). -/
theorem tapeTakes_of_exec {s : State} {d : TapeId} {e : Entry} {rest : List Entry}
    (h : exec (.renderEntry d) s = .next (s.takeEntry d e rest)) {y : Tape} (hy : (s.tape d).evaluate = y) :
    TapeTakes s d (s.shownTape d y (takeHead y.level e rest)) (levelNotice d (s.tape d) y s.session.tod)
      ((takeHead y.level e rest).1.shownPrice.map fun q => (q.1, tensPart q.2.1 q.2.2)) := by
  subst hy
  exact tapeTakes_of_setTape (h.trans (congrArg Host.Outcome.next (s.takeEntry_eq d e rest)))

theorem takeHead_trade (level : Fin 4) (i : Ix) (m : Mode) (t : Option Tod) (op late : Bool) (merged : List Triple)
    (rest : List Entry) : takeHead level (.trade i m t op late merged) rest =
      (.trade i m t op late (if level = 3 ∧ op = false ∧ late = false then mergeLater i merged rest else (merged, rest)).1,
        (if level = 3 ∧ op = false ∧ late = false then mergeLater i merged rest else (merged, rest)).2) := by
  cases op <;> cases late <;> by_cases h : level = 3 <;> simp [takeHead, h]

/-! ## The texts (R128, R129, R131) -/

/-- The volume part shows the lots where there are enough of them for the level. -/
theorem lotsText_eq (level : Fin 4) (block : Nat) (v : Volume) : lotsText level block v =
    if (if level = 0 then decide (2 ≤ v.val / 100) else decide (block ≤ v.val / 100)) = true
      then decimal (min (v.val / 100) 9999) ++ [0x04] else [] := by
  unfold lotsText
  by_cases h : level = 0 <;> simp [h, Glyph.lot]

/-- The parts of a TRADE on the ribbon, one by one. -/
theorem tradeText_eq (d : TapeId) (x : Tape) (r : Record) (m : Mode) (op late : Bool) (merged : List Triple) :
    tradeText d x r m op late merged =
      symbolText r ++ [0x20] ++ lotsText x.level x.block (mergedVolume merged) ++ (if op then chars ['O', 'P', 'G'] else []) ++
        (if cutsPrice d x r m (mergedPrice merged) then
          (tapePrice m (mergedPrice merged)).whole.drop ((tapePrice m (mergedPrice merged)).whole.length - 1)
        else (tapePrice m (mergedPrice merged)).whole) ++ (tapePrice m (mergedPrice merged)).frac ++
        (if late then chars [' ', 'S', 'L', 'D'] else []) := by
  unfold tradeText printPrice
  simp only [List.append_assoc]
  rfl

/-- A tape price has no sign cell (R20). -/
theorem tapePrice_text (m : Mode) (p : Price) : (tapePrice m p).text = (tapePrice m p).whole ++ (tapePrice m p).frac := by
  have hsign : (tapePrice m p).sign = [] := by
    unfold tapePrice priceParts
    split
    · unfold digitsParts
      dsimp only
      split <;> rfl
    all_goals rfl
  rw [Parts.text, hsign, List.nil_append]

/-- Settles O46: the head is a TRADE whose lateness is announced, or an entry taken and shown. -/
theorem rendererActsOnHead : Obligations.RendererActsOnHead := by
  intro s d x say time age minutes backlog target leave level epoch changed onlyTape takes symbol tens
  have hminutes : lateMinutes s.session.tod x.queue = minutes := by
    rw [lateMinutes_eq, oldestTime_eq]
    rfl
  have hlevel : x.nextLevel backlog = level := by
    rw [Tape.nextLevel_eq, Tape.leave_eq]
    rfl
  have hy : x.evaluate = { x with level := level, epoch := epoch } := by
    unfold Tape.evaluate
    rw [show x.nextLevel x.queue.length = level from hlevel]
    rfl
  have hnotice : levelNotice d x { x with level := level, epoch := epoch } s.session.tod = changed := by
    unfold levelNotice
    rw [hminutes]
    exact if_congr eq_comm rfl rfl
  refine ⟨fun h => congrArg Host.Outcome.next (State.render_of_not_ready h), fun head rest hservice hfifo hqueue => ?_⟩
  have hhead : exec (.renderEntry d) s = .next (s.renderHead d head rest) :=
    congrArg Host.Outcome.next (State.render_of_ready hservice hfifo hqueue)
  have taken (hcurrent : s.renderHead d head rest = s.takeEntry d head rest) :
      takes (takeHead level head rest).2 (s.entryText d { x with level := level, epoch := epoch } (takeHead level head rest).1)
        ((takeHead level head rest).1.shownPrice.map fun q => (q.1, tensPart q.2.1 q.2.2)) := by
    have h := tapeTakes_of_exec (hhead.trans (congrArg _ hcurrent)) hy
    rw [hnotice] at h
    exact h
  cases head with
  | trade i m t op late merged =>
    dsimp only
    split
    · next hne =>
      rw [hhead, State.renderHead_of_late ((congrArg (lateText · _) hminutes).trans (lateText_of_ne hne))]
      refine ⟨_, rfl, rfl, fun k => (tape_modify s d k _).trans ?_⟩
      rw [hminutes]
      rfl
    · next hsame =>
      have h := taken (State.renderHead_of_current fun _ _ _ _ _ _ _ => hminutes.trans (not_not.1 hsame))
      rw [takeHead_trade, State.entryText, tradeText_eq, lotsText_eq] at h
      exact h
  | cancel i m price =>
    have h := taken (State.renderHead_of_current nofun)
    cases price with
    | none => exact h
    | some p =>
      simp only [takeHead, State.entryText, cancelText, tapePrice_text] at h
      rw [← List.append_assoc [Glyph.space]] at h
      exact h
  | haltNote i => exact taken (State.renderHead_of_current nofun)
  | resumeNote i => exact taken (State.renderHead_of_current nofun)
  | text cs urgent => exact taken (State.renderHead_of_current nofun)

end Sys2Proof.Machine
end

section
/-! PROOF. The LEVEL 3 merge keeps every trade (R113, R127). -/

namespace Sys2Proof.Machine

/-! ## What the merge reads of an entry -/

/-- The triples an entry holds for an instrument. -/
def Entry.triplesOf (i : Ix) (e : Entry) : List Triple :=
  match e with
  | .trade j _ _ _ _ more => if j = i then more else []
  | _ => []

/-- A TRADE that is neither an opening one nor OUT-OF-SEQUENCE. -/
def Entry.plain (e : Entry) : Bool :=
  match e with
  | .trade _ _ _ op late _ => !op && !late
  | _ => false

/-- The entry is the instrument's. -/
def Entry.belongsTo (i : Ix) (e : Entry) : Bool := e.instr == some i

theorem Entry.triplesOf_of_not_belongs {i : Ix} {e : Entry} (h : e.belongsTo i = false) : e.triplesOf i = [] := by
  cases e with
  | trade j => exact if_neg (by simpa [Entry.belongsTo, Entry.instr] using h)
  | _ => rfl

theorem flatMap_triplesOf_filter (i : Ix) (q : List Entry) :
    (q.filter (Entry.belongsTo i)).flatMap (Entry.triplesOf i) = q.flatMap (Entry.triplesOf i) := by
  induction q with
  | nil => rfl
  | cons e q ih =>
    by_cases h : e.belongsTo i
    · simp [h, ih]
    · simp [h, ih, Entry.triplesOf_of_not_belongs]

/-! ## The merge splits the queue (R127) -/

/-- The queue `q` is split where the merge into `m` ends: the instrument's entries before that point are folded, and the entry at
that point, if there is one, is an entry of the instrument that cannot be. -/
structure MergeEnds (i : Ix) (m : List Triple) (passed behind : List Entry) : Prop where
  plain : ((passed.filter (Entry.belongsTo i)).all Entry.plain) = true
  fits : passed.filter (Entry.belongsTo i) = [] ∨ (m ++ passed.flatMap (Entry.triplesOf i)).length ≤ 8
  merged : mergeLater i m (passed ++ behind) =
    (m ++ passed.flatMap (Entry.triplesOf i), passed.filter (fun e => !e.belongsTo i) ++ behind)
  stops : ∀ e rest, behind = e :: rest → e.belongsTo i = true ∧
    (e.plain = true → 8 < (m ++ passed.flatMap (Entry.triplesOf i) ++ e.triplesOf i).length)

theorem mergeLater_nil (i : Ix) (m : List Triple) : mergeLater i m [] = (m, []) := by unfold mergeLater; rfl

theorem mergeLater_of_folds {i : Ix} {m : List Triple} {e : Entry} {q : List Entry} (hi : e.belongsTo i = true)
    (hp : e.plain = true) (h : (m ++ e.triplesOf i).length ≤ 8) :
    mergeLater i m (e :: q) = mergeLater i (m ++ e.triplesOf i) q := by
  cases e with
  | trade j mode t op late more =>
    obtain rfl : j = i := by simpa [Entry.belongsTo, Entry.instr] using hi
    obtain ⟨rfl, rfl⟩ : op = false ∧ late = false := by simpa [Entry.plain] using hp
    have hmore : (Entry.trade j mode t false false more).triplesOf j = more := if_pos rfl
    rw [hmore, List.length_append] at h
    rw [hmore]
    conv_lhs => unfold mergeLater
    rw [if_pos rfl]
    exact if_pos ⟨rfl, rfl, h⟩
  | _ => cases hp

theorem mergeLater_of_stops {i : Ix} {m : List Triple} {e : Entry} {q : List Entry} (hi : e.belongsTo i = true)
    (h : e.plain = true → 8 < (m ++ e.triplesOf i).length) : mergeLater i m (e :: q) = (m, e :: q) := by
  have hinstr : e.instr = some i := by simpa [Entry.belongsTo] using hi
  cases e with
  | trade j mode t op late more =>
    obtain rfl : j = i := Option.some.inj hinstr
    unfold mergeLater
    rw [if_pos rfl]
    refine if_neg fun ⟨hop, hlate, hlength⟩ => ?_
    subst hop hlate
    have hlong := h rfl
    rw [Entry.triplesOf, if_pos rfl, List.length_append] at hlong
    exact Nat.not_le.2 hlong hlength
  | _ => simp [mergeLater, hinstr]

theorem mergeLater_of_passes {i : Ix} {m : List Triple} {e : Entry} {q : List Entry} (hi : e.belongsTo i = false) :
    mergeLater i m (e :: q) = ((mergeLater i m q).1, e :: (mergeLater i m q).2) := by
  have hinstr : e.instr ≠ some i := by simpa [Entry.belongsTo] using hi
  cases e with
  | trade j => simp [mergeLater, show j ≠ i from fun h => hinstr (congrArg some h)]
  | _ => simp [mergeLater, hinstr]

theorem mergeEnds_exists (i : Ix) (m : List Triple) (q : List Entry) :
    ∃ passed behind, q = passed ++ behind ∧ MergeEnds i m passed behind := by
  induction q generalizing m with
  | nil => exact ⟨[], [], rfl, rfl, .inl rfl, by simp [mergeLater_nil], nofun⟩
  | cons e q ih =>
    cases hi : e.belongsTo i with
    | false =>
      obtain ⟨passed, behind, rfl, hplain, hfits, hmerged, hstops⟩ := ih m
      have hnone := Entry.triplesOf_of_not_belongs hi
      refine ⟨e :: passed, behind, rfl, ?_, ?_, ?_, ?_⟩
      · simpa [hi] using hplain
      · simpa [hi, hnone] using hfits
      · simp [mergeLater_of_passes hi, hmerged, hi, hnone]
      · simpa [hnone] using hstops
    | true =>
      by_cases hfolds : e.plain = true ∧ (m ++ e.triplesOf i).length ≤ 8
      · obtain ⟨hp, hlength⟩ := hfolds
        obtain ⟨passed, behind, rfl, hplain, hfits, hmerged, hstops⟩ := ih (m ++ e.triplesOf i)
        refine ⟨e :: passed, behind, rfl, ?_, .inr ?_, ?_, ?_⟩
        · simpa [hi, hp] using hplain
        · rcases hfits with hnone | hfits
          · rw [List.flatMap_cons, ← flatMap_triplesOf_filter, hnone]
            simpa using hlength
          · simpa using hfits
        · simp [mergeLater_of_folds hi hp hlength, hmerged, hi]
        · simpa using hstops
      · have hstop : e.plain = true → 8 < (m ++ e.triplesOf i).length := fun hp =>
          Nat.lt_of_not_le fun hl => hfolds ⟨hp, hl⟩
        refine ⟨[], e :: q, rfl, rfl, .inl rfl, ?_, ?_⟩
        · simp [mergeLater_of_stops hi hstop]
        · rintro _ _ ⟨rfl, rfl⟩
          exact ⟨hi, by simpa using hstop⟩

/-! ## How many entries are folded -/

/-- The first `n` of the instrument's entries can be folded into `m` (R127). -/
def Folds (i : Ix) (m : List Triple) (own : List Entry) (n : Nat) : Prop :=
  n ≤ own.length ∧ (own.take n).all Entry.plain = true ∧
    (n = 0 ∨ m.length + ((own.take n).flatMap (Entry.triplesOf i)).length ≤ 8)

namespace MergeEnds

variable {i : Ix} {m : List Triple} {passed behind : List Entry}

theorem folds_of_le (h : MergeEnds i m passed behind) {n : Nat} (hn : n ≤ (passed.filter (Entry.belongsTo i)).length) :
    Folds i m ((passed ++ behind).filter (Entry.belongsTo i)) n := by
  obtain ⟨hplain, hfits, -, -⟩ := h
  rw [← flatMap_triplesOf_filter] at hfits
  rw [List.filter_append]
  generalize passed.filter (Entry.belongsTo i) = own at hn hplain hfits ⊢
  have htake : (own ++ behind.filter (Entry.belongsTo i)).take n = own.take n := List.take_append_of_le_length hn
  refine ⟨hn.trans (by simp), ?_, ?_⟩
  · rw [htake]
    exact List.all_eq_true.2 fun e he => List.all_eq_true.1 hplain e (List.mem_of_mem_take he)
  · rw [htake]
    rcases hfits with rfl | hfits
    · exact .inl (Nat.le_zero.1 hn)
    · have hshort : ((own.take n).flatMap (Entry.triplesOf i)).length ≤ (own.flatMap (Entry.triplesOf i)).length :=
        ((List.take_sublist n own).flatMap _).length_le
      rw [List.length_append] at hfits
      exact .inr (by omega)

theorem le_of_folds (h : MergeEnds i m passed behind) {n : Nat}
    (hn : Folds i m ((passed ++ behind).filter (Entry.belongsTo i)) n) :
    n ≤ (passed.filter (Entry.belongsTo i)).length := by
  obtain ⟨-, -, -, hstops⟩ := h
  rw [List.filter_append] at hn
  by_contra hlt
  obtain ⟨k, rfl⟩ := Nat.exists_eq_add_of_lt (Nat.lt_of_not_le hlt)
  obtain ⟨hlength, hplain, hfits⟩ := hn
  rw [List.length_append] at hlength
  cases behind with
  | nil => simp at hlength
  | cons e rest =>
    obtain ⟨hi, hlong⟩ := hstops e rest rfl
    rw [List.filter_cons_of_pos hi, Nat.add_assoc, List.take_length_add_append, List.take_succ_cons] at hplain hfits
    have hlate := hlong (List.all_eq_true.1 hplain e (by simp))
    rw [← flatMap_triplesOf_filter] at hlate
    simp only [List.flatMap_append, List.flatMap_cons, List.length_append] at hlate hfits
    omega

/-- The greatest number that can be folded is the number folded. -/
theorem eq_of_folds (h : MergeEnds i m passed behind) {n : Nat}
    (hn : Folds i m ((passed ++ behind).filter (Entry.belongsTo i)) n)
    (hmax : ¬ Folds i m ((passed ++ behind).filter (Entry.belongsTo i)) (n + 1)) :
    n = (passed.filter (Entry.belongsTo i)).length :=
  Nat.le_antisymm (h.le_of_folds hn) (Nat.le_of_not_lt fun hlt => hmax (h.folds_of_le hlt))

/-- The entries passed over hold no triple of the instrument. -/
theorem flatMap_passed (i : Ix) (passed : List Entry) :
    (passed.filter fun e => !e.belongsTo i).flatMap (Entry.triplesOf i) = [] :=
  List.flatMap_eq_nil_iff.2 fun e he => Entry.triplesOf_of_not_belongs (by simpa using (List.mem_filter.1 he).2)

end MergeEnds

/-! ## The volume of an entry (R113) -/

theorem foldl_satAdd (m : List Triple) (v : Volume) : (m.foldl (fun v x => v.satAdd x.volume) v).val =
    min (v.val + (m.map (·.volume.val)).sum) 4294967295 := by
  induction m generalizing v with
  | nil =>
    have := v.isLt
    simp only [List.foldl_nil, List.map_nil, List.sum_nil]
    omega
  | cons x m ih =>
    rw [List.foldl_cons, ih, List.map_cons, List.sum_cons]
    show min (min (v.val + x.volume.val) 4294967295 + _) 4294967295 = _
    omega

/-- Settles O47: every clause is read off the point where the merge splits the queue. -/
theorem levelThreeMergeKeepsTrades : Obligations.LevelThreeMergeKeepsTrades := by
  intro i m q triples mine plain own folds merged left
  obtain ⟨passed, behind, hq, hends⟩ := mergeEnds_exists i m q
  have hmerge : mergeLater i m q =
      (m ++ passed.flatMap (Entry.triplesOf i), passed.filter (fun e => !e.belongsTo i) ++ behind) := hq ▸ hends.merged
  have hmerged : merged = m ++ passed.flatMap (Entry.triplesOf i) := congrArg Prod.fst hmerge
  have hleft : left = passed.filter (fun e => !e.belongsTo i) ++ behind := congrArg Prod.snd hmerge
  refine ⟨fun n hn hmax => ?_, ?_, ?_, ?_, fun hm => ?_, ?_⟩
  · have hcount : n = (passed.filter (Entry.belongsTo i)).length := by
      subst hq
      exact hends.eq_of_folds hn hmax
    have htake : own.take n = passed.filter (Entry.belongsTo i) := by
      show (q.filter (Entry.belongsTo i)).take n = _
      rw [hq, List.filter_append, hcount, List.take_left]
    refine ⟨?_, passed, behind, hq, htake.symm, hleft⟩
    rw [hmerged, htake]
    exact congrArg (m ++ ·) (flatMap_triplesOf_filter i passed).symm
  · show merged ++ left.flatMap (Entry.triplesOf i) = m ++ q.flatMap (Entry.triplesOf i)
    rw [hmerged, hleft, hq, List.flatMap_append, MergeEnds.flatMap_passed, List.flatMap_append, List.nil_append,
      List.append_assoc]
  · rw [hleft, hq]
    exact List.filter_sublist.append_right behind
  · show left.filter (fun e => !e.belongsTo i) = q.filter fun e => !e.belongsTo i
    rw [hleft, hq, List.filter_append, List.filter_append, List.filter_filter]
    simp only [Bool.and_self]
  · rw [hmerged]
    rcases hends.fits with hnone | hfits
    · rw [← flatMap_triplesOf_filter, hnone]
      simpa using hm
    · exact hfits
  · simpa [mergedVolume] using foldl_satAdd m 0

end Sys2Proof.Machine
end

section
/-! PROOF. Terminal contexts (chapter 08): rows marked dirty, beeps and ended work as the statements say them, and the events
of the other blocks (R141, R142, R153). -/

namespace Sys2Proof.Machine

/-! ## Operations on a context (R152 to R155) -/

theorem Terminal.markRows_eq (x : Terminal) (p : Fin 18 → Bool) : x.markRows p = x.dirtied p := rfl

theorem Terminal.giveBeep_eq (x : Terminal) : x.giveBeep = x.beeped := by
  unfold Terminal.giveBeep Terminal.beeped
  rw [Terminal.markMessageRow_eq]

theorem Terminal.endWork_eq (x : Terminal) : x.endWork = x.workEnded := by
  unfold Terminal.endWork Terminal.workEnded
  cases x.waiting <;> rfl

theorem Terminal.endWithBeep_eq (x : Terminal) : x.endWithBeep = x.beeped.workEnded := by
  rw [Terminal.endWithBeep, Terminal.endWork_eq, Terminal.giveBeep_eq]

theorem Terminal.busy_eq_true_iff (x : Terminal) : x.busy = true ↔ x.work ≠ .none := decide_eq_true_iff

theorem Terminal.wake_eq (x : Terminal) : x.wake = x.awake := rfl

/-! ## One context changed -/

/-- A command that changes one context by `f` leaves what `f` makes of it. -/
theorem termBecomes_of_exec {s : State} {k : Fin 16} {c : Instr} {f : Terminal → Terminal} {y : Terminal}
    (h : exec c s = .next (s.modifyTerm k f)) (hf : f (s.term k) = y) : ∃ t, exec c s = .next t ∧ ChangesTerm s t k y :=
  ⟨_, h, hf ▸ changesTerm_modify s k f⟩

theorem ChangesTerm.modifyTerm {s t : State} {k : Fin 16} {x : Terminal} (h : ChangesTerm s t k x) (f : Terminal → Terminal) :
    ChangesTerm s (t.modifyTerm k f) k (f x) := by
  obtain ⟨hrest, hterms⟩ := h
  obtain ⟨grest, gterms⟩ := changesTerm_modify t k f
  refine ⟨by rw [grest, hrest], fun j => ?_⟩
  rw [gterms j, hterms j, hterms k, if_pos rfl]
  split <;> rfl

theorem ChangesTerm.record {s t : State} {k : Fin 16} {x : Terminal} (h : ChangesTerm s t k x) (i : Ix) :
    t.record i = s.record i := by rw [h.1]; rfl

/-! ## Events (R141, R142, R153) -/

namespace Terminal

variable {x : Terminal}

/-- The instrument rows that a change event marks are rows 1 to 16. -/
theorem takeChange_of_change {i : Ix} {rest : List Ix} (h : x.changes = i :: rest) :
    x.takeChange = { x with changes := rest }.dirtied fun r =>
      decide (1 ≤ r.val) && decide (r.val ≤ 16) && x.pageList[r.val - 1]? == some (some i) := by
  unfold takeChange
  rw [h]
  simp only [markInstrument, markRows_eq, Bool.decide_and]

theorem takeChange_of_none (h : x.changes = []) : x.takeChange = x := by
  unfold takeChange
  rw [h]

/-- Every row but the message row is one of rows 0 to 16. -/
theorem le_sixteen_eq (r : Fin 18) : decide (r.val ≤ 16) = (r != 17) := by
  revert r
  decide

theorem takeSession_of_session {st : SessionState} {rest : List TermEvent} (h : x.events = .session st :: rest) :
    x.takeSession = { x with events := rest }.dirtied fun r => r != 17 := by
  unfold takeSession
  rw [h]
  simp only [markRows_eq, le_sixteen_eq]

theorem takeSession_of_other (h : ∀ st, x.events.head? ≠ some (.session st)) : x.takeSession = x := by
  unfold takeSession
  split
  · next e => exact absurd (congrArg List.head? e) (h _)
  · rfl

theorem takeStage_of_stage {st : FeedStage} {rest : List TermEvent} (h : x.events = .feedStage st :: rest) :
    x.takeStage = { x with events := rest }.dirtied fun r => r == 0 := by
  unfold takeStage
  rw [h]
  rfl

theorem takeStage_of_other (h : ∀ st, x.events.head? ≠ some (.feedStage st)) : x.takeStage = x := by
  unfold takeStage
  split
  · next e => exact absurd (congrArg List.head? e) (h _)
  · rfl

theorem takeTime_of_time {rest : List TermEvent} (h : x.events = .time :: rest) :
    x.takeTime = { x with events := rest }.dirtied fun r => r == 0 := by
  unfold takeTime
  rw [h]
  rfl

theorem takeTime_of_other (h : x.events.head? ≠ some .time) : x.takeTime = x := by
  unfold takeTime
  split
  · next e => exact absurd (congrArg List.head? e) h
  · rfl

theorem takeNightSet_of_set {rest : List TermEvent} (h : x.events = .night true :: rest) :
    x.takeNightSet =
      if x.state = .online then { x with
        events := rest, night := true, state := .asleep, blankDue := true, beep := false, poll := .due }
      else { x with events := rest, night := true } := by
  unfold takeNightSet
  rw [h]
  rfl

theorem takeNightSet_of_other (h : x.events.head? ≠ some (.night true)) : x.takeNightSet = x := by
  unfold takeNightSet
  split
  · next e => exact absurd (congrArg List.head? e) h
  · rfl

theorem takeNightClear_of_clear {rest : List TermEvent} (h : x.events = .night false :: rest) :
    x.takeNightClear =
      if x.state = .asleep then { x with events := rest, night := false }.awake
      else { x with events := rest, night := false } := by
  unfold takeNightClear
  rw [h]
  rfl

theorem takeNightClear_of_other (h : x.events.head? ≠ some (.night false)) : x.takeNightClear = x := by
  unfold takeNightClear
  split
  · next e => exact absurd (congrArg List.head? e) h
  · rfl

end Terminal

/-- Settles O49: each command takes the first event that waits when it is of its kind. -/
theorem eventsReachTerminal : Obligations.EventsReachTerminal := by
  intro s k x becomes
  refine ⟨fun i rest h => ?_, fun st rest h => ?_, fun st rest h => ?_, fun rest h => ?_, fun rest h => ?_, fun rest h => ?_,
    fun h => ?_, fun h => ?_, fun h => ?_, fun h => ?_, fun h => ?_, fun h => ?_⟩
  · exact termBecomes_of_exec rfl (Terminal.takeChange_of_change h)
  · exact termBecomes_of_exec rfl (Terminal.takeSession_of_session h)
  · exact termBecomes_of_exec rfl (Terminal.takeStage_of_stage h)
  · exact termBecomes_of_exec rfl (Terminal.takeTime_of_time h)
  · exact termBecomes_of_exec rfl (Terminal.takeNightSet_of_set h)
  · exact termBecomes_of_exec rfl (Terminal.takeNightClear_of_clear h)
  · exact termBecomes_of_exec rfl (Terminal.takeChange_of_none h)
  · exact termBecomes_of_exec rfl (Terminal.takeSession_of_other h)
  · exact termBecomes_of_exec rfl (Terminal.takeStage_of_other h)
  · exact termBecomes_of_exec rfl (Terminal.takeTime_of_other h)
  · exact termBecomes_of_exec rfl (Terminal.takeNightSet_of_other h)
  · exact termBecomes_of_exec rfl (Terminal.takeNightClear_of_other h)

end Sys2Proof.Machine
end

section
/-! PROOF. Watch checks of a terminal context (R159, R160). -/

namespace Sys2Proof.Machine

/-! ## A check that trips a watch -/

/-- A tripped watch is marked so, and another is as it was (R159). -/
theorem Watch.marked_eq (w : Watch) (trips : Bool) :
    (if trips = true then { w with tripped := true } else w) = { w with tripped := w.tripped || trips } := by
  cases trips <;> simp

theorem Terminal.alerted_eq (x : Terminal) (i : Ix) (last : Price) (message : List Byte) :
    x.alerted i last message = Terminal.beeped (Terminal.messageDirty { x with
      watches := x.watches.map fun w => { w with tripped := w.tripped || w.trips i last }
      lamp := true
      message := some message }) := by
  unfold Terminal.alerted
  rw [Terminal.giveBeep_eq, Terminal.markMessageRow_eq]
  simp only [Watch.marked_eq]

theorem Terminal.alerted_watches (x : Terminal) (i : Ix) (last : Price) (message : List Byte) :
    (x.alerted i last message).watches = x.watches.map fun w => { w with tripped := w.tripped || w.trips i last } := by
  unfold Terminal.alerted
  rw [(Terminal.SameLists.giveBeep _).watches, Terminal.markMessageRow_watches]
  simp only [Watch.marked_eq]

/-- After the check an ARMED watch is one that was ARMED and has not tripped (R159, R160). -/
theorem Terminal.alerted_armedOn (x : Terminal) (i : Ix) (last : Price) (message : List Byte) :
    (x.alerted i last message).watches.any (·.armedOn i) =
      x.watches.any fun w => w.instr = i && !w.tripped && !w.trips i last := by
  rw [Terminal.alerted_watches, List.any_map]
  refine congrArg x.watches.any (funext fun w => ?_)
  simp [Watch.armedOn, Bool.not_or, Bool.and_assoc]

/-- The notices of the watches that trip all name the instrument checked (R159). -/
theorem map_trippedNotice (ws : List Watch) (k : Fin 16) (i : Ix) (last : Price) :
    (ws.filter (·.trips i last)).map (trippedNotice k last) =
      (ws.filter (·.trips i last)).map fun w => .watchTripped k i w.level w.dir last := by
  refine List.map_congr_left fun w hw => ?_
  have hinstr : w.instr = i := by
    have htrips := (List.mem_filter.1 hw).2
    simp only [Watch.trips, Bool.and_eq_true, decide_eq_true_eq] at htrips
    exact htrips.1.1
  rw [trippedNotice, hinstr]

/-! ## The check taken -/

/-- The first watch check that waits is taken (R159). -/
theorem State.takeCheck_of_check {s : State} {k : Fin 16} {i : Ix} {last : Price} {rest : List (Ix × Price)}
    (h : (s.term k).checks = (i, last) :: rest) :
    s.takeCheck k = (s.modifyTerm k fun x => { x with checks := rest }).checkWatches k i last := by
  unfold State.takeCheck
  rw [h]

theorem State.takeCheck_of_none {s : State} {k : Fin 16} (h : (s.term k).checks = []) : s.takeCheck k = s := by
  unfold State.takeCheck
  rw [h]

theorem State.checkWatches_of_trip {s : State} {k : Fin 16} {i : Ix} {last : Price}
    (h : (s.term k).watches.any (·.trips i last) = true) :
    s.checkWatches k i last =
      ((s.modifyTerm k fun x => x.alerted i last (alertMessage (s.record i) last)).handed
        (((s.term k).watches.filter (·.trips i last)).map fun w =>
          .watchTripped k i w.level w.dir last)).refreshWatchBit k i := by
  unfold State.checkWatches
  rw [if_pos h, map_trippedNotice, State.handAll_eq]
  rfl

theorem State.checkWatches_of_no_trip {s : State} {k : Fin 16} {i : Ix} {last : Price}
    (h : (s.term k).watches.any (·.trips i last) = false) : s.checkWatches k i last = s := by
  unfold State.checkWatches
  exact if_neg (Bool.eq_false_iff.1 h)

/-- One context changed, notices handed on, and the bit of the context in one watch mask set anew (R159, R160). -/
theorem ChangesTerm.refreshWatchBit {s v : State} {k : Fin 16} {y : Terminal} (h : ChangesTerm s v k y)
    (ns : List NoticeBody) (i : Ix) {t : State} (ht : t = (v.handed ns).refreshWatchBit k i) :
    t = { s with
      store := t.store
      terms := t.terms
      notices := { s.notices with inbox := s.notices.inbox ++ s.items ns } } ∧
    (∀ j, t.term j = if j = k then y else s.term j) ∧
    ∀ j, t.record j =
      if j = i then { s.record i with watchMask := Bank.set (s.record i).watchMask k (y.watches.any (·.armedOn i)) }
      else s.record j := by
  obtain ⟨hrest, hterms⟩ := id h
  have hhanded : ∀ j, (v.handed ns).term j = v.term j := fun _ => rfl
  have hkept : ∀ j, (v.handed ns).record j = s.record j := h.record
  subst ht
  refine ⟨by rw [hrest]; rfl, fun j => (hhanded j).trans (hterms j), fun j => ?_⟩
  rw [State.record_refreshWatchBit, hkept, hhanded, hterms, if_pos rfl]
  split
  · next e => rw [e]
  · rfl

/-- Settles O50, by whether a watch trips. -/
theorem watchChecksTripWatches : Obligations.WatchChecksTripWatches := by
  intro s k x
  refine ⟨fun h => congrArg Host.Outcome.next (State.takeCheck_of_none h), ?_⟩
  intro i last rest h trips r
  obtain ⟨u, hexec, hu⟩ : ∃ u, exec (.watchCheck k) s = .next (u.checkWatches k i last) ∧
      ChangesTerm s u k { x with checks := rest } :=
    ⟨_, congrArg Host.Outcome.next (State.takeCheck_of_check h), changesTerm_modify s k _⟩
  have hterm : u.term k = { x with checks := rest } := (hu.2 k).trans (if_pos rfl)
  have htrips : trips = fun w => w.trips i last := rfl
  rw [htrips]
  split
  · next hnone =>
    rw [State.checkWatches_of_no_trip (by rw [hterm]; exact hnone)] at hexec
    exact ⟨u, hexec, hu⟩
  · next hsome =>
    rw [State.checkWatches_of_trip (by rw [hterm]; exact Bool.eq_true_of_not_eq_false hsome), hterm, hu.record] at hexec
    intro text remain
    have hv := hu.modifyTerm fun x => x.alerted i last (alertMessage r last)
    obtain ⟨hrest, hterms, hrecords⟩ := hv.refreshWatchBit
      ((x.watches.filter (·.trips i last)).map fun w => .watchTripped k i w.level w.dir last) i rfl
    refine ⟨_, hexec, hrest, fun j => ?_, fun j => ?_⟩
    · rw [hterms j, Terminal.alerted_eq]
      rfl
    · rw [hrecords j, Terminal.alerted_armedOn]

end Sys2Proof.Machine
end

section
/-! PROOF. Visits of a terminal line (R135, R137, R138, R140, R141): the order of the search, and the frames of a visit. -/

namespace Sys2Proof.Machine

/-! ## One line and one of its contexts changed -/

theorem ChangesTline.refl (s : State) (l : Fin 2) (k : Fin 16) : ChangesTline s s l (s.tline l) k (s.term k) := by
  refine ⟨rfl, fun j => ?_, fun j => ?_⟩ <;> split <;> simp_all

theorem ChangesTline.modifyTline {s t : State} {l : Fin 2} {y : TermLine} {k : Fin 16} {x : Terminal}
    (h : ChangesTline s t l y k x) (f : TermLine → TermLine) : ChangesTline s (t.modifyTline l f) l (f y) k x := by
  obtain ⟨hrest, hlines, hterms⟩ := h
  refine ⟨by rw [hrest]; rfl, fun j => ?_, hterms⟩
  show Bank.get (Bank.modify t.tlines l f) j = _
  rw [Bank.get_modify]
  by_cases hj : j = l
  · subst hj
    rw [if_pos rfl, if_pos rfl]
    exact congrArg f ((hlines j).trans (if_pos rfl))
  · rw [if_neg (Ne.symm hj), if_neg hj]
    exact (hlines j).trans (if_neg hj)

theorem ChangesTline.modifyTerm {s t : State} {l : Fin 2} {y : TermLine} {k : Fin 16} {x : Terminal}
    (h : ChangesTline s t l y k x) (f : Terminal → Terminal) : ChangesTline s (t.modifyTerm k f) l y k (f x) := by
  obtain ⟨hrest, hlines, hterms⟩ := h
  obtain ⟨grest, gterms⟩ := changesTerm_modify t k f
  refine ⟨by rw [grest, hrest], hlines, fun j => ?_⟩
  rw [gterms j, hterms j, hterms k, if_pos rfl]
  split <;> rfl

/-! ## The order of the search (R137) -/

/-- The first element found along an order in which a measure rises is the one with the least measure. -/
theorem find?_of_least {α : Type} {order : List α} {f : α → Nat} {p : α → Bool} {a : α}
    (hs : order.Pairwise fun a b => f a < f b) (ha : a ∈ order) (hp : p a = true)
    (hleast : ∀ b, p b = true → f a ≤ f b) : order.find? p = some a := by
  obtain ⟨before, after, rfl⟩ := List.append_of_mem ha
  refine List.find?_eq_some_iff_append.2 ⟨hp, before, after, rfl, fun b hb => ?_⟩
  obtain ⟨-, -, hacross⟩ := List.pairwise_append.1 hs
  have hlt : f b < f a := hacross b hb a List.mem_cons_self
  have hnot : p b ≠ true := fun e => absurd (hleast b e) (by omega)
  simp [hnot]

/-- How far a terminal stands from the turn of its line: the one after the round-robin position is first, and the position itself
last (R137). -/
def visitTurn (position : Option (Fin 8)) (a : Fin 8) : Nat :=
  match position with
  | none => a.val
  | some p => (a.val + 7 - p.val) % 8

theorem mem_visitOrder (position : Option (Fin 8)) (a : Fin 8) : a ∈ visitOrder position := by
  revert position a
  decide

/-- The search goes by turns. -/
theorem visitOrder_sorted (position : Option (Fin 8)) :
    (visitOrder position).Pairwise fun a b => visitTurn position a < visitTurn position b := by
  revert position
  decide

theorem Terminal.eligible_eq (x : Terminal) :
    x.eligible = (decide (x.work = .none) && (decide (x.state = .online) || decide (x.poll = .due))) := by
  simp [Terminal.eligible, Terminal.busy]

namespace State

variable {s : State} {l : Fin 2} {a : Fin 8}

theorem nextVisit_of_least (hw : s.linesWork = true) (hf : (s.tline l).frame = none)
    (ha : (s.term (terminalOf l a)).eligible = true)
    (hleast : ∀ b, (s.term (terminalOf l b)).eligible = true →
      visitTurn (s.tline l).roundRobin a ≤ visitTurn (s.tline l).roundRobin b) : s.nextVisit l = some a := by
  unfold nextVisit
  rw [if_pos ⟨hw, hf⟩]
  exact find?_of_least (visitOrder_sorted _) (mem_visitOrder _ a) ha hleast

theorem nextVisit_of_none (h : s.linesWork = false ∨ (s.tline l).frame ≠ none ∨
    ∀ a, (s.term (terminalOf l a)).eligible = false) : s.nextVisit l = none := by
  unfold nextVisit
  split
  · next hfree =>
    rcases h with h | h | h
    · simp [h] at hfree
    · exact absurd hfree.2 h
    · exact List.find?_eq_none.2 fun a _ => Bool.eq_false_iff.1 (h a)
  · rfl

end State

theorem exec_visit_of_some {s : State} {l : Fin 2} {a : Fin 8} (h : s.nextVisit l = some a) :
    exec (.visit l) s = .next (s.beginVisit l a) := by
  show execVisit l s = _
  unfold execVisit
  rw [h]

theorem exec_visit_of_none {s : State} {l : Fin 2} (h : s.nextVisit l = none) : exec (.visit l) s = .next s := by
  show execVisit l s = _
  unfold execVisit
  rw [h]

/-! ## The frames of a visit (R138, R140, R141) -/

/-- The lowest dirty row is found first (R138). -/
theorem Terminal.lowestDirty_of_least {x : Terminal} {r : Fin 18} (hr : Bank.get x.dirty r = true)
    (hleast : ∀ q, Bank.get x.dirty q = true → r ≤ q) : x.lowestDirty = some r := by
  have hsorted : (List.finRange 18).Pairwise fun a b => a.val < b.val := by decide
  exact find?_of_least hsorted (List.mem_finRange r) hr hleast

theorem Terminal.lowestDirty_of_clean {x : Terminal} (h : ∀ r, Bank.get x.dirty r = false) : x.lowestDirty = none :=
  List.find?_eq_none.2 fun r _ => Bool.eq_false_iff.1 (h r)

/-- The flags of a ROW frame are bits: INVERSE on the header row, the lamp, and a beep (R138, chapter 11). -/
theorem State.rowFrame_eq (s : State) (x : Terminal) (a : Fin 8) (r : Fin 18) :
    s.rowFrame x a r = withCheck ([0xC1, byte a.val, byte r.val,
      (if r = 0 ∧ x.mask.inverse = true then 1 else 0) + (if x.lamp then 2 else 0) + (if x.beep then 4 else 0)]
      ++ s.rowChars x r) := by
  unfold State.rowFrame
  simp only [Fin.val_eq_zero_iff, BitVec.ofNat_add, apply_ite byte]
  rfl

section

/-- A line that has begun a visit: the terminal is its position, and a frame is sent (R135, R137). -/
def TermLine.visiting (y : TermLine) (a : Fin 8) (f : TermFrame) : TermLine := { y with roundRobin := some a, frame := some f }

variable {s : State} {l : Fin 2} {a : Fin 8}

theorem ChangesTline.visiting (f : TermFrame) :
    ChangesTline s ((s.modifyTline l fun x => { x with roundRobin := some a }).sendFrame l f) l ((s.tline l).visiting a f)
      (terminalOf l a) (s.term (terminalOf l a)) :=
  ((ChangesTline.refl s l _).modifyTline _).modifyTline _

theorem State.term_modifyTline (s : State) (l : Fin 2) (f : TermLine → TermLine) (k : Fin 16) :
    (s.modifyTline l f).term k = s.term k := rfl

/-- The frame that a visit sends: with it stand the state found and whether a poll timer was stopped (R135, R137). -/
def State.visitFrame (s : State) (l : Fin 2) (a : Fin 8) (kind : TermFrameKind) (bytes : List Byte) (stopped : Bool) :
    TermFrame :=
  ⟨kind, a, bytes, .sending, (s.term (terminalOf l a)).state, stopped⟩

theorem State.visitFrame_of_state {v : TermState} (h : (s.term (terminalOf l a)).state = v) (kind : TermFrameKind)
    (bytes : List Byte) (stopped : Bool) : s.visitFrame l a kind bytes stopped = ⟨kind, a, bytes, .sending, v, stopped⟩ := by
  rw [State.visitFrame, h]

theorem beginVisit_of_online (ho : (s.term (terminalOf l a)).state = .online) :
    s.beginVisit l a = (s.modifyTline l fun x => { x with roundRobin := some a }).visitOnline l a := by
  unfold State.beginVisit
  dsimp only
  rw [State.term_modifyTline, ho]

theorem beginVisit_of_asleep (ho : (s.term (terminalOf l a)).state = .asleep) :
    s.beginVisit l a = (s.modifyTline l fun x => { x with roundRobin := some a }).visitAsleep l a := by
  unfold State.beginVisit
  dsimp only
  rw [State.term_modifyTline, ho]

theorem beginVisit_of_offline (ho : (s.term (terminalOf l a)).state = .offline) :
    s.beginVisit l a = (s.modifyTline l fun x => { x with roundRobin := some a }).visitOffline l a := by
  unfold State.beginVisit
  dsimp only
  rw [State.term_modifyTline, ho]

/-- A visit to an ONLINE terminal with a dirty row sends the row (R138). -/
theorem beginVisit_row {r : Fin 18} (ho : (s.term (terminalOf l a)).state = .online)
    (hr : (s.term (terminalOf l a)).lowestDirty = some r) :
    ChangesTline s (s.beginVisit l a) l
      ((s.tline l).visiting a (s.visitFrame l a (.row r) (s.rowFrame (s.term (terminalOf l a)) a r) false)) (terminalOf l a)
      ((s.term (terminalOf l a)).rowBuilt r) := by
  rw [beginVisit_of_online ho, State.visitFrame_of_state ho]
  unfold State.visitOnline
  dsimp only
  rw [State.term_modifyTline, hr]
  exact (ChangesTline.visiting _).modifyTerm _

/-- A visit to an ONLINE terminal with no dirty row polls it at once (R138). -/
theorem beginVisit_clean (ho : (s.term (terminalOf l a)).state = .online)
    (hr : (s.term (terminalOf l a)).lowestDirty = none) :
    ChangesTline s (s.beginVisit l a) l ((s.tline l).visiting a (s.visitFrame l a .poll (pollFrame a) false)) (terminalOf l a)
      (s.term (terminalOf l a)) := by
  rw [beginVisit_of_online ho, State.visitFrame_of_state ho]
  unfold State.visitOnline
  dsimp only
  rw [State.term_modifyTline, hr]
  exact ChangesTline.visiting _

/-- A visit to an ASLEEP terminal with BLANK SCREEN due blanks its screen (R141). -/
theorem beginVisit_blank (ho : (s.term (terminalOf l a)).state = .asleep) (hb : (s.term (terminalOf l a)).blankDue = true) :
    ChangesTline s (s.beginVisit l a) l
      ((s.tline l).visiting a (s.visitFrame l a .blankScreen (blankScreenFrame a) true)) (terminalOf l a)
      { s.term (terminalOf l a) with poll := .stopped, blankDue := false } := by
  rw [beginVisit_of_asleep ho, State.visitFrame_of_state ho]
  unfold State.visitAsleep
  dsimp only
  rw [State.term_modifyTline, if_pos hb]
  exact (ChangesTline.visiting _).modifyTerm _

/-- A visit to an ASLEEP terminal polls it when no BLANK SCREEN is due (R141). -/
theorem beginVisit_dozing (ho : (s.term (terminalOf l a)).state = .asleep) (hb : ¬ (s.term (terminalOf l a)).blankDue = true) :
    ChangesTline s (s.beginVisit l a) l ((s.tline l).visiting a (s.visitFrame l a .poll (pollFrame a) true)) (terminalOf l a)
      { s.term (terminalOf l a) with poll := .stopped } := by
  rw [beginVisit_of_asleep ho, State.visitFrame_of_state ho]
  unfold State.visitAsleep
  dsimp only
  rw [State.term_modifyTline, if_neg hb]
  exact (ChangesTline.visiting _).modifyTerm _

/-- A visit to an OFFLINE terminal polls it (R140). -/
theorem beginVisit_lost (ho : (s.term (terminalOf l a)).state = .offline) :
    ChangesTline s (s.beginVisit l a) l ((s.tline l).visiting a (s.visitFrame l a .poll (pollFrame a) true)) (terminalOf l a)
      { s.term (terminalOf l a) with poll := .stopped } := by
  rw [beginVisit_of_offline ho, State.visitFrame_of_state ho]
  exact (ChangesTline.visiting _).modifyTerm _

end

/-! ## The end of sending (R137) -/

section

variable {s : State} {l : Fin 2} {kind : TermFrameKind} {a : Fin 8} {bytes : List Byte} {visited : TermState} {stopped : Bool}

/-- A POLL that has been sent waits in its window of 30 milliseconds (R136). -/
theorem termFrameSent_of_poll (hf : (s.tline l).frame = some ⟨.poll, a, bytes, .sending, visited, stopped⟩) :
    ChangesTline s (s.termFrameSent l) l
      { s.tline l with frame := some ⟨.poll, a, bytes, .window (s.now + 30), visited, stopped⟩ } (terminalOf l a)
      (s.term (terminalOf l a)) := by
  unfold State.termFrameSent
  rw [hf]
  exact (ChangesTline.refl s l _).modifyTline _

/-- A ROW or BLANK SCREEN has been sent (R137). -/
theorem termFrameSent_of_screen (hk : kind ≠ .poll)
    (hf : (s.tline l).frame = some ⟨kind, a, bytes, .sending, visited, stopped⟩) :
    s.termFrameSent l = s.afterScreen l ⟨kind, a, bytes, .sending, visited, stopped⟩ := by
  unfold State.termFrameSent
  rw [hf]
  cases kind with
  | poll => exact absurd rfl hk
  | row => rfl
  | blankScreen => rfl

theorem termFrameSent_of_other (hf : ∀ kind a bytes visited stopped,
    (s.tline l).frame ≠ some ⟨kind, a, bytes, .sending, visited, stopped⟩) : s.termFrameSent l = s := by
  unfold State.termFrameSent
  split
  · next f e =>
    obtain ⟨kind, a, bytes, phase, visited, stopped⟩ := f
    exact if_neg fun hp : phase = .sending => hf kind a bytes visited stopped (hp ▸ e)
  · rfl

/-- After a ROW or BLANK SCREEN the POLL follows where the context is not busy (R137). -/
theorem afterScreen_of_idle (hw : (s.term (terminalOf l a)).work = .none) (phase : FramePhase) :
    ChangesTline s (s.afterScreen l ⟨kind, a, bytes, phase, visited, stopped⟩) l
      { s.tline l with frame := some ⟨.poll, a, pollFrame a, .sending, visited, stopped⟩ } (terminalOf l a)
      (s.term (terminalOf l a)) := by
  have hbusy : ¬ (s.term (terminalOf l a)).busy = true := fun e => (Terminal.busy_eq_true_iff _).1 e hw
  unfold State.afterScreen
  dsimp only
  rw [if_neg hbusy]
  exact (ChangesTline.refl s l _).modifyTline _

/-- With the context busy the line is free, and a timer that the visit stopped is due (R137). -/
theorem afterScreen_of_busy (hw : (s.term (terminalOf l a)).work ≠ .none) (phase : FramePhase) :
    ChangesTline s (s.afterScreen l ⟨kind, a, bytes, phase, visited, stopped⟩) l { s.tline l with frame := none }
      (terminalOf l a) ((s.term (terminalOf l a)).pollAgain stopped) := by
  unfold State.afterScreen
  dsimp only
  rw [if_pos ((Terminal.busy_eq_true_iff _).2 hw)]
  exact ((ChangesTline.refl s l _).modifyTline _).modifyTerm _

end

/-- Settles O51: the search goes by turns, a visit by the state of its terminal, and the end of sending by the frame. -/
theorem lineVisitsTerminals : Obligations.LineVisitsTerminals := by
  intro s l line eligible turn sends
  have helig : ∀ a, eligible a = (s.term (terminalOf l a)).eligible := fun a => (Terminal.eligible_eq _).symm
  refine ⟨?_, ?_⟩
  · split
    · next hnone =>
      simp only [helig] at hnone
      exact exec_visit_of_none (State.nextVisit_of_none hnone)
    · next hsome =>
      obtain ⟨hw, hfree, -⟩ : s.linesWork = true ∧ line.frame = none ∧ _ := by
        simpa only [not_or, Bool.not_eq_false, not_not] using hsome
      intro a ha hleast x
      simp only [helig] at ha hleast
      have hexec := exec_visit_of_some (State.nextVisit_of_least hw hfree ha hleast)
      split
      · next ho =>
        refine ⟨fun hclean => ⟨_, hexec, beginVisit_clean ho (Terminal.lowestDirty_of_clean hclean)⟩, ?_⟩
        intro r hr hlow flags
        have hrow := beginVisit_row ho (Terminal.lowestDirty_of_least hr hlow)
        rw [State.rowFrame_eq] at hrow
        exact ⟨_, hexec, hrow⟩
      · next ho =>
        split
        · next hb => exact ⟨_, hexec, beginVisit_blank ho hb⟩
        · next hb => exact ⟨_, hexec, beginVisit_dozing ho hb⟩
      · next ho => exact ⟨_, hexec, beginVisit_lost ho⟩
  · split
    · next kind a bytes visited stopped hf =>
      intro k x
      split
      · next hk =>
        subst hk
        exact ⟨_, rfl, termFrameSent_of_poll hf⟩
      · next hk =>
        have hexec : exec (.terminalFrameSent l) s = .next (s.afterScreen l ⟨kind, a, bytes, .sending, visited, stopped⟩) :=
          congrArg Host.Outcome.next (termFrameSent_of_screen hk hf)
        split
        · next hw => exact ⟨_, hexec, afterScreen_of_idle hw _⟩
        · next hw => exact ⟨_, hexec, afterScreen_of_busy hw _⟩
    · next hf => exact congrArg Host.Outcome.next (termFrameSent_of_other hf)

end Sys2Proof.Machine
end

section
/-! PROOF. The outcome of a POLL and the poll timers of the terminals (R136, R139 to R144). -/

namespace Sys2Proof.Machine

/-! ## Which POLL waits in its window, and whether a reply is its (R136) -/

section

variable {s : State} {l : Fin 2} {a : Fin 8} {bytes : List Byte} {ends : Nat} {visited : TermState} {stopped : Bool}

theorem State.pollWaiting_of_window (h : (s.tline l).frame = some ⟨.poll, a, bytes, .window ends, visited, stopped⟩) :
    s.pollWaiting l = some (⟨.poll, a, bytes, .window ends, visited, stopped⟩, ends) := by
  unfold State.pollWaiting
  rw [h]

theorem State.pollWaiting_of_other (h : ∀ a bytes ends visited stopped,
    (s.tline l).frame ≠ some ⟨.poll, a, bytes, .window ends, visited, stopped⟩) : s.pollWaiting l = none := by
  unfold State.pollWaiting
  split
  · next f e =>
    obtain ⟨kind, a, bytes, phase, visited, stopped⟩ := f
    split
    · next ends hkind hphase => exact absurd (hkind ▸ hphase ▸ e) (h a bytes ends visited stopped)
    · rfl
  · rfl

/-- A reply of the polled terminal with the right check byte, in the window, is taken (R136). -/
theorem State.replyTaken_of_window (h : (s.tline l).frame = some ⟨.poll, a, bytes, .window ends, visited, stopped⟩)
    (address : Byte) (reply : List Byte) (check : Byte) :
    s.replyTaken l address reply check =
      if s.now ≤ ends ∧ address = byte a.val ∧ check = checkByte reply then
        some ⟨.poll, a, bytes, .window ends, visited, stopped⟩
      else none := by
  unfold State.replyTaken
  rw [State.pollWaiting_of_window h]

theorem State.replyTaken_of_none (h : s.pollWaiting l = none) (address : Byte) (reply : List Byte) (check : Byte) :
    s.replyTaken l address reply check = none := by
  unfold State.replyTaken
  rw [h]

theorem State.pollWindowOver_of_window (h : (s.tline l).frame = some ⟨.poll, a, bytes, .window ends, visited, stopped⟩) :
    s.pollWindowOver l = if ends ≤ s.now then some (⟨.poll, a, bytes, .window ends, visited, stopped⟩, ends) else none := by
  unfold State.pollWindowOver
  rw [State.pollWaiting_of_window h]

theorem State.pollWindowOver_of_none (h : s.pollWaiting l = none) : s.pollWindowOver l = none := by
  unfold State.pollWindowOver
  rw [h]

end

/-- The check byte of a KEY (chapter 11). -/
theorem checkByte_key (kind address keyByte : Byte) : checkByte [kind, address, keyByte] = kind + (address + keyByte) := by
  simp [checkByte, BitVec.add_assoc]

/-- The check byte of an IDLE (chapter 11). -/
theorem checkByte_idle (kind address : Byte) : checkByte [kind, address] = kind + address := by simp [checkByte]

/-! ## The meaning of each command, once -/

/-- The key index of a key byte: its low six bits (R144). -/
def keyOf (keyByte : Byte) : Fin 64 := ⟨keyByte.toNat % 64, Nat.mod_lt _ (by decide)⟩

section

variable {s : State} {l : Fin 2}

theorem exec_key_of_some {f : TermFrame} {address keyByte check : Byte}
    (h : s.replyTaken l address [0xD1, address, keyByte] check = some f) :
    exec (.key l address keyByte check) s =
      .next ((s.pollOutcome l (terminalOf l f.terminal) (·.keyTaken (keyOf keyByte))).reportReturn l (terminalOf l f.terminal)
        (s.term (terminalOf l f.terminal)).state) := by
  show execKey l address keyByte check s = _
  unfold execKey
  rw [h]
  rfl

theorem exec_key_of_none {address keyByte check : Byte} (h : s.replyTaken l address [0xD1, address, keyByte] check = none) :
    exec (.key l address keyByte check) s = .next s := by
  show execKey l address keyByte check s = _
  unfold execKey
  rw [h]

theorem exec_idle_of_some {f : TermFrame} {address check : Byte} (h : s.replyTaken l address [0xD2, address] check = some f) :
    exec (.idle l address check) s =
      .next ((s.pollOutcome l (terminalOf l f.terminal) (·.idleTaken f.visited s.now)).reportReturn l (terminalOf l f.terminal)
        (s.term (terminalOf l f.terminal)).state) := by
  show execIdle l address check s = _
  unfold execIdle
  rw [h]

theorem exec_idle_of_none {address check : Byte} (h : s.replyTaken l address [0xD2, address] check = none) :
    exec (.idle l address check) s = .next s := by
  show execIdle l address check s = _
  unfold execIdle
  rw [h]

theorem exec_pollReplyWindow_of_some {f : TermFrame} {ends : Nat} (h : s.pollWindowOver l = some (f, ends)) :
    exec (.pollReplyWindow l) s =
      .next ((s.pollOutcome l (terminalOf l f.terminal) (·.noReply f.visited ends)).reportOffline (terminalOf l f.terminal)
        (s.term (terminalOf l f.terminal)).state) := by
  show execPollReplyWindow l s = _
  unfold execPollReplyWindow
  rw [h]

theorem exec_pollReplyWindow_of_none (h : s.pollWindowOver l = none) : exec (.pollReplyWindow l) s = .next s := by
  show execPollReplyWindow l s = _
  unfold execPollReplyWindow
  rw [h]

/-- A poll timer that has reached its time is due (R140). -/
theorem exec_terminalPollTimer_of_reached {k : Fin 16} (h : s.linesWork = true ∧ (s.term k).poll.reached s.now = true) :
    exec (.terminalPollTimer k) s = .next (s.modifyTerm k fun x => { x with poll := .due }) :=
  congrArg Host.Outcome.next (if_pos (Bool.and_eq_true_iff.2 h))

theorem exec_terminalPollTimer_of_not_reached {k : Fin 16}
    (h : ¬ (s.linesWork = true ∧ (s.term k).poll.reached s.now = true)) : exec (.terminalPollTimer k) s = .next s :=
  congrArg Host.Outcome.next (if_neg fun e => h (Bool.and_eq_true_iff.1 e))

end

/-! ## A context after an outcome (R139 to R144) -/

namespace Terminal

variable {x : Terminal}

theorem dirtied_night (x : Terminal) (rows : Fin 18 → Bool) : (x.dirtied rows).night = x.night := by simp only [dirtied]

theorem comeBack_eq (x : Terminal) : x.comeBack = x.back := by
  unfold comeBack back
  simp only [markAllRows, markRows_eq, dirtied_night]

theorem keyTaken_of_offline (h : x.state = .offline) (key : Fin 64) : x.keyTaken key = x.back := by
  rw [keyTaken, h]
  exact x.comeBack_eq

theorem keyTaken_of_asleep (h : x.state = .asleep) (key : Fin 64) : x.keyTaken key = x.awake := by
  rw [keyTaken, h]
  exact x.wake_eq

/-- A key of an ONLINE terminal is dispatched, or discarded where the context is busy (R144). -/
theorem keyTaken_of_online (h : x.state = .online) (key : Fin 64) :
    x.keyTaken key = { x with miss := 0, work := if x.work = .none then .keyDispatch key else x.work } := by
  unfold keyTaken
  rw [h]
  by_cases hw : x.work = .none <;> simp [busy, hw]

theorem idleTaken_of_offline (h : x.state = .offline) (visited : TermState) (now : Nat) : x.idleTaken visited now = x.back := by
  unfold idleTaken
  rw [h]
  exact x.comeBack_eq

/-- An IDLE of a terminal put to sleep in flight leaves the poll timer of the night set (log 14). -/
theorem idleTaken_of_asleep (h : x.state = .asleep) (visited : TermState) (now : Nat) :
    x.idleTaken visited now =
      { x with miss := 0, poll := if visited = .asleep then .running (now + 2000) else x.poll } := by
  unfold idleTaken
  rw [h]
  cases visited <;> rfl

theorem idleTaken_of_online (h : x.state = .online) (visited : TermState) (now : Nat) :
    x.idleTaken visited now = { x with miss := 0 } := by
  unfold idleTaken
  rw [h]

theorem noReply_of_offline (h : x.state = .offline) (visited : TermState) (ends : Nat) :
    x.noReply visited ends = { x with poll := .running (ends + 4000) } := by
  rw [noReply, h]
  rfl

/-- A POLL missed for the first or second time (R139, R141; log 14). -/
theorem noReply_of_missed (h : x.state ≠ .offline) (hm : x.miss < 2) (visited : TermState) (ends : Nat) :
    x.noReply visited ends = { x with
      miss := x.miss + 1
      poll := if x.state = .asleep ∧ visited = .asleep then .running (ends + 2000) else x.poll } := by
  unfold noReply
  cases hs : x.state with
  | offline => exact absurd hs h
  | online => simp [hm]
  | asleep => cases visited <;> simp [hm, Config.asleepPollDelay]

/-- The third missed POLL makes the terminal OFFLINE (R139). -/
theorem noReply_of_third (h : x.state ≠ .offline) (hm : ¬ x.miss < 2) (visited : TermState) (ends : Nat) :
    x.noReply visited ends = x.gone ends := by
  unfold noReply
  cases hs : x.state with
  | offline => exact absurd hs h
  | online => exact if_neg hm
  | asleep => exact if_neg hm

end Terminal

/-! ## Outcomes and their notices -/

section

variable {s : State} {l : Fin 2} {k : Fin 16}

/-- The outcome of a POLL frees the line and marks its terminal polled (R137, R143). -/
theorem pollOutcome_changes {f : Terminal → Terminal} {y : Terminal} (hf : f (s.term k) = y) :
    ChangesTline s (s.pollOutcome l k f) l { s.tline l with frame := none } k { y with polled := true } :=
  hf ▸ ((ChangesTline.refl s l k).modifyTline _).modifyTerm _

/-- With no notice of a return, an outcome changes its line and its context alone. -/
theorem outcome_of_exec {command : Instr} {g : Terminal → Terminal} {y : Terminal}
    (hexec : exec command s = .next ((s.pollOutcome l k g).reportReturn l k (s.term k).state))
    (hs : (s.term k).state ≠ .offline) (hg : g (s.term k) = y) :
    ∃ t, exec command s = .next t ∧ ChangesTline s t l { s.tline l with frame := none } k { y with polled := true } := by
  rw [State.reportReturn, if_neg hs] at hexec
  exact ⟨_, hexec, pollOutcome_changes hg⟩

/-- An answer from OFFLINE: its notice is held by the line controller before START completes, and handed on after that (R140,
R143). -/
theorem return_of_exec {command : Instr} {g : Terminal → Terminal}
    (hexec : exec command s = .next ((s.pollOutcome l k g).reportReturn l k (s.term k).state))
    (hs : (s.term k).state = .offline) (hg : g (s.term k) = (s.term k).back) :
    if s.bus.phase = .checking then
      ∃ t, exec command s = .next t ∧
        ChangesTline s t l { s.tline l with frame := none, held := (s.tline l).held ++ [k] } k
          { (s.term k).back with polled := true }
    else
      ∃ t, exec command s = .next (t.handed [.terminalOnline k]) ∧
        ChangesTline s t l { s.tline l with frame := none } k { (s.term k).back with polled := true } := by
  have hphase : (s.pollOutcome l k g).bus.phase = s.bus.phase := rfl
  rw [State.reportReturn, if_pos hs, State.reportOnline, hphase] at hexec
  split
  · next hchecking =>
    rw [if_pos hchecking] at hexec
    exact ⟨_, hexec, (pollOutcome_changes hg).modifyTline _⟩
  · next hrunning =>
    rw [if_neg hrunning] at hexec
    exact ⟨_, hexec, pollOutcome_changes hg⟩

/-- A window that ends and leaves the terminal in its place gives no notice. -/
theorem window_of_exec {command : Instr} {g : Terminal → Terminal} {y : Terminal}
    (hexec : exec command s = .next ((s.pollOutcome l k g).reportOffline k (s.term k).state)) (hg : g (s.term k) = y)
    (hs : (s.term k).state = .offline ∨ y.state ≠ .offline) :
    ∃ t, exec command s = .next t ∧ ChangesTline s t l { s.tline l with frame := none } k { y with polled := true } := by
  have hchanges := pollOutcome_changes (l := l) hg
  have hterm : (s.pollOutcome l k g).term k = { y with polled := true } := (hchanges.2.2 k).trans (if_pos rfl)
  rw [State.reportOffline, hterm, if_neg (by tauto)] at hexec
  exact ⟨_, hexec, hchanges⟩

/-- A window that ends with the terminal newly OFFLINE hands on a notice (R139). -/
theorem loss_of_exec {command : Instr} {g : Terminal → Terminal} {y : Terminal}
    (hexec : exec command s = .next ((s.pollOutcome l k g).reportOffline k (s.term k).state)) (hg : g (s.term k) = y)
    (hs : (s.term k).state ≠ .offline) (hy : y.state = .offline) :
    ∃ t, exec command s = .next (t.handed [.terminalOffline k]) ∧
      ChangesTline s t l { s.tline l with frame := none } k { y with polled := true } := by
  have hchanges := pollOutcome_changes (l := l) hg
  have hterm : (s.pollOutcome l k g).term k = { y with polled := true } := (hchanges.2.2 k).trans (if_pos rfl)
  rw [State.reportOffline, hterm, if_pos ⟨hs, hy⟩] at hexec
  exact ⟨_, hexec, hchanges⟩

end

/-- Settles O52: a reply is taken in the window, and the state of its terminal decides on what follows. -/
theorem pollReachesItsOutcome : Obligations.PollReachesItsOutcome := by
  intro s l address keyByte check k line
  refine ⟨?_, ?_⟩
  · split
    · next h => exact termBecomes_of_exec (exec_terminalPollTimer_of_reached h) rfl
    · next h => exact exec_terminalPollTimer_of_not_reached h
  · split
    · next a bytes ends visited stopped hframe =>
      intro n x becomes returned replies
      refine ⟨?_, ?_, ?_⟩
      · have htaken := State.replyTaken_of_window hframe address [0xD1, address, keyByte] check
        rw [checkByte_key] at htaken
        split
        · next hreply =>
          have hexec := exec_key_of_some (htaken.trans (if_pos hreply))
          split
          · next hs => exact return_of_exec hexec hs (Terminal.keyTaken_of_offline hs _)
          · next hs => exact outcome_of_exec hexec (by rw [hs]; decide) (Terminal.keyTaken_of_asleep hs _)
          · next hs =>
            obtain ⟨t, ht, hchanges⟩ := outcome_of_exec hexec (by rw [hs]; decide) (Terminal.keyTaken_of_online hs _)
            exact ⟨t, keyOf keyByte, ht, rfl, hchanges⟩
        · next hreply => exact exec_key_of_none (htaken.trans (if_neg hreply))
      · have htaken := State.replyTaken_of_window hframe address [0xD2, address] check
        rw [checkByte_idle] at htaken
        split
        · next hreply =>
          have hexec := exec_idle_of_some (htaken.trans (if_pos hreply))
          split
          · next hs => exact return_of_exec hexec hs (Terminal.idleTaken_of_offline hs _ _)
          · next hs => exact outcome_of_exec hexec (by rw [hs]; decide) (Terminal.idleTaken_of_asleep hs _ _)
          · next hs => exact outcome_of_exec hexec (by rw [hs]; decide) (Terminal.idleTaken_of_online hs _ _)
        · next hreply => exact exec_idle_of_none (htaken.trans (if_neg hreply))
      · have hover := State.pollWindowOver_of_window hframe
        split
        · next hends =>
          have hexec := exec_pollReplyWindow_of_some (hover.trans (if_pos hends))
          split
          · next hs => exact window_of_exec hexec (Terminal.noReply_of_offline hs _ _) (.inl hs)
          · next hs =>
            split
            · next hm => exact window_of_exec hexec (Terminal.noReply_of_missed hs hm _ _) (.inr hs)
            · next hm => exact loss_of_exec hexec (Terminal.noReply_of_third hs hm _ _) hs rfl
        · next hends => exact exec_pollReplyWindow_of_none (hover.trans (if_neg hends))
    · next hother =>
      have hnone : s.pollWaiting l = none := State.pollWaiting_of_other hother
      exact ⟨exec_key_of_none (State.replyTaken_of_none hnone _ _ _), exec_idle_of_none (State.replyTaken_of_none hnone _ _ _),
        exec_pollReplyWindow_of_none (State.pollWindowOver_of_none hnone)⟩

end Sys2Proof.Machine
end

section
/-! PROOF. Reads of the common area with attempts told to come, and the runtime table check (R164, R176). -/

namespace Sys2Proof.Machine

/-! ## Reads that complete, and reads that fail (R164) -/

/-- The attempts told to come begin with `n` that complete, and `rest` follows; where none is told, every one completes
(log 5). -/
def Spends (n : Nat) (attempts rest : List Attempt) : Prop :=
  attempts = List.replicate n .completes ++ rest ∨ (attempts = [] ∧ rest = [])

theorem Spends.untold (n : Nat) : Spends n [] [] := .inr ⟨rfl, rfl⟩

theorem Spends.told (n : Nat) (rest : List Attempt) : Spends n (List.replicate n .completes ++ rest) rest := .inl rfl

theorem Spends.one (rest : List Attempt) : Spends 1 (.completes :: rest) rest := .inl rfl

theorem Spends.split {m n : Nat} {attempts rest : List Attempt} (h : Spends (m + n) attempts rest) :
    ∃ mid, Spends m attempts mid ∧ Spends n mid rest := by
  rcases h with h | ⟨ha, hr⟩
  · refine ⟨List.replicate n .completes ++ rest, .inl ?_, .inl rfl⟩
    rw [h, List.replicate_add, List.append_assoc]
  · exact ⟨[], .inr ⟨ha, rfl⟩, .inr ⟨rfl, hr⟩⟩

namespace State

variable {s : State} {attempts rest : List Attempt} {a b : Attempt} {f : ErrorFlag}

theorem meeting_of_hostWrites {h : List HostWrite} {before : State} (hs : s = before.hostWrites h) (attempts : List Attempt) :
    s.meeting attempts = (before.meeting attempts).hostWrites h := by rw [hostWrites_meeting, hs]

/-- Reads that complete leave the attempts that are told after them. -/
theorem readAll_meeting {ks : List Word} (h : Spends ks.length attempts rest) :
    (s.meeting attempts).bus.readAll ks = ((s.meeting rest).bus, .words (ks.map s.bus.peek)) := by
  rcases h with rfl | ⟨rfl, rfl⟩
  · exact Bus.readAll_completes ks s.bus rest
  · exact Bus.readAll_quiet rfl ks

theorem read_meeting (h : Spends 1 attempts rest) (o : Word) :
    (s.meeting attempts).bus.read o = ((s.meeting rest).bus, .word (s.bus.peek o)) := by
  rcases h with rfl | ⟨rfl, rfl⟩
  · exact Bus.read_completes s.bus o rest
  · exact Bus.read_quiet rfl o

/-- A read that fails leaves the flag of its second attempt. -/
theorem read_meeting_fails (hq : s.bus.script = []) (hf : FailsWith a b f) (o : Word) :
    ∃ out, (s.meeting [a, b]).bus.read o = ((s.flagged f).bus, out) ∧ ∀ w, out ≠ .word w := by
  obtain ⟨hbus, hword⟩ := Bus.read_fails hf s.bus o []
  have hself : ({ s.bus with script := [] } : Bus) = s.bus := congrArg State.bus (meeting_quiet hq)
  rw [hself] at hbus
  exact ⟨_, Prod.ext hbus rfl, hword⟩

/-- The first read that fails ends the reads of several words. -/
theorem readAll_meeting_fails (hq : s.bus.script = []) (hf : FailsWith a b f) {ks : List Word} {j : Nat} (hj : j < ks.length) :
    ∃ out, (s.meeting (List.replicate j .completes ++ [a, b])).bus.readAll ks = ((s.flagged f).bus, out) ∧
      ∀ ws, out ≠ .words ws := by
  induction ks generalizing j with
  | nil => exact absurd hj (Nat.not_lt_zero j)
  | cons o ks ih =>
    unfold Bus.readAll
    cases j with
    | zero =>
      obtain ⟨out, hread, hword⟩ := read_meeting_fails hq hf o
      rw [List.replicate_zero, List.nil_append, hread]
      cases out with
      | word w => exact absurd rfl (hword w)
      | timedOut => exact ⟨_, rfl, nofun⟩
      | faulted seen => exact ⟨_, rfl, nofun⟩
    | succ j =>
      obtain ⟨out, hread, hwords⟩ := ih (Nat.lt_of_succ_lt_succ hj)
      rw [List.replicate_succ, List.cons_append, read_meeting (.one _) o]
      dsimp only
      rw [hread]
      cases out with
      | words ws => exact absurd rfl (hwords ws)
      | timedOut => exact ⟨_, rfl, nofun⟩
      | faulted => exact ⟨_, rfl, nofun⟩

end State

/-! ## The runtime table check (R176) -/

theorem Params.inChainRegion_iff (p : Params) (o : Word) :
    p.inChainRegion o = true ↔ ∃ i : Fin 7, i ≤ 2 ∧ inRegion p.anchorWord i o.toNat := by
  have hregions : (∃ i : Fin 7, i ≤ 2 ∧ inRegion p.anchorWord i o.toNat) ↔
      inRegion p.anchorWord 0 o.toNat ∨ inRegion p.anchorWord 1 o.toNat ∨ inRegion p.anchorWord 2 o.toNat := by
    simp [Fin.exists_fin_succ]
  rw [hregions]
  simp [Params.inChainRegion, inRegion, regionAt, Params.anchorWord, or_assoc]

/-- The check refuses a record exactly when one of its words lies in the anchor, bitmap or pool region (R176). -/
theorem Params.refusesRecord_iff (p : Params) (first : Word) (n : Nat) :
    p.refusesRecord first n = true ↔ p.TouchesChain first n := by
  unfold Params.refusesRecord Params.TouchesChain
  simp only [List.any_eq_true, List.mem_range, Params.inChainRegion_iff, BitVec.toNat_add, BitVec.toNat_ofNat, Nat.add_mod_mod]

end Sys2Proof.Machine
end

section
/-! PROOF. Key dispatch (R144 to R150, R152): each stage with the attempts told to come, and the command as a whole. -/

namespace Sys2Proof.Machine

section

variable {s : State} {k : Fin 16} {key : Fin 64} {first : Word} {attempts rest : List Attempt} {a b : Attempt} {f : ErrorFlag}

/-! ## The page count (R145, R147, R176) -/

theorem loadIfCounted_counted (h : Spends 1 attempts rest) (page : Word) (origin : LoadOrigin) :
    (s.meeting attempts).loadIfCounted k page origin =
      if (s.bus.peek 9).toNat ≤ page.toNat then (s.meeting rest).endDispatch k true
      else (s.meeting rest).beginLoad k page origin := by
  unfold State.loadIfCounted
  rw [State.read_meeting h]
  rfl

theorem loadIfCounted_fails (hq : s.bus.script = []) (hf : FailsWith a b f) (page : Word) (origin : LoadOrigin) :
    (s.meeting [a, b]).loadIfCounted k page origin = (s.flagged f).endDispatch k true := by
  obtain ⟨out, hread, hword⟩ := State.read_meeting_fails hq hf pageCountWord
  unfold State.loadIfCounted
  rw [hread]
  cases out with
  | word w => exact absurd rfl (hword w)
  | timedOut => rfl
  | faulted seen => rfl

/-! ## Actions (R146 to R149) -/

/-- The state after the TERMINAL KEY notice of an action record with NOTIFY set, or of a FORWARD (R146). -/
def State.keyNotified (s : State) (k : Fin 16) (key : Fin 64) (action flags : Word) : State :=
  if flags.bit 1 = true ∨ action.toNat = 3 then s.handed [.terminalKey k key (s.term k).page] else s

theorem actionOf_eq (action : Word) : actionOf action =
    if action.toNat = 1 then .showPage else if action.toNat = 2 then .back else if action.toNat = 3 then .forward
    else if action.toNat = 4 then .clearAlert else .none := by
  unfold actionOf
  split <;> simp_all

theorem actionOf_eq_forward (action : Word) : actionOf action = .forward ↔ action.toNat = 3 := by
  rw [actionOf_eq]
  split_ifs <;> simp_all

theorem notifyKey_eq (s : State) (k : Fin 16) (key : Fin 64) (action flags : Word) :
    s.notifyKey k key (actionOf action) flags = s.keyNotified k key action flags := by
  unfold State.notifyKey State.keyNotified
  simp only [actionOf_eq_forward]
  rfl

/-- What an action record does, once its notice is handed on (R146 to R149). -/
theorem actOn_eq (s : State) (k : Fin 16) (key : Fin 64) (action flags page attrs : Word) :
    s.actOn k key action flags page attrs =
      let t := s.keyNotified k key action flags
      if action.toNat = 1 then t.showPage k page (flags.bit 0) ⟨attrs.bit 0, attrs.bit 1⟩
      else if action.toNat = 2 then t.backPage k
      else if action.toNat = 4 then (t.modifyTerm k Terminal.clearAlert).endDispatch k false
      else t.endDispatch k false := by
  unfold State.actOn
  dsimp only
  rw [notifyKey_eq, actionOf_eq]
  split_ifs with h1 h2 h3 h4 h4
  · rfl
  · rfl
  · omega
  · rfl
  · rfl
  · rfl

theorem keyNotified_meeting (s : State) (k : Fin 16) (key : Fin 64) (action flags : Word) (attempts : List Attempt) :
    (s.meeting attempts).keyNotified k key action flags = (s.keyNotified k key action flags).meeting attempts := by
  unfold State.keyNotified
  split <;> rfl

/-- With no page to go back to, or the terminal locked, a BACK is refused (R148, R150). -/
theorem backPage_of_empty (h : (if (s.term k).locked = true then [] else (s.term k).stack) = []) :
    s.backPage k = s.endDispatch k true := by
  unfold State.backPage
  split
  · rfl
  · next hl =>
    rw [if_neg hl] at h
    rw [h]

/-- A BACK loads the page on top of the stack, with its mask (R148). -/
theorem backPage_of_top {top : Word} {mask : PageMask} {below : List (Word × PageMask)}
    (h : (if (s.term k).locked = true then [] else (s.term k).stack) = (top, mask) :: below) :
    s.backPage k = s.beginLoad k top (.back mask) := by
  unfold State.backPage
  split
  · next hl => exact absurd ((if_pos hl).symm.trans h) (List.cons_ne_nil _ _).symm
  · next hl =>
    rw [if_neg hl] at h
    rw [h]

/-! ## The action record and the entry (R144, R146, R176) -/

theorem actionKey_of_refused (h : s.params.refusesRecord first 4 = true) :
    s.actionKey k key first = (s.runtimeFault k first).endDispatch k true := if_pos h

theorem actionKey_read (h : ¬ s.params.refusesRecord first 4 = true) (hs : Spends 4 attempts rest) :
    (s.meeting attempts).actionKey k key first =
      (s.meeting rest).actOn k key (s.bus.peek first) (s.bus.peek (first + 1)) (s.bus.peek (first + 2))
        (s.bus.peek (first + 3)) := by
  have hread := State.readAll_meeting (s := s) (ks := [first, first + 1, first + 2, first + 3]) hs
  refine (if_neg h).trans ?_
  rw [hread]
  rfl

theorem actionKey_fails (h : ¬ s.params.refusesRecord first 4 = true) (hq : s.bus.script = []) (hf : FailsWith a b f) {j : Nat}
    (hj : j < 4) :
    (s.meeting (List.replicate j .completes ++ [a, b])).actionKey k key first = (s.flagged f).endDispatch k true := by
  obtain ⟨out, hread, hwords⟩ := State.readAll_meeting_fails (ks := [first, first + 1, first + 2, first + 3]) hq hf hj
  refine (if_neg h).trans ?_
  rw [hread]
  cases out with
  | words ws => exact absurd rfl (hwords ws)
  | timedOut => rfl
  | faulted => rfl

/-- The entry of a key decides: a DIRECT page, an unassigned key, or an action record (R144 to R146). -/
theorem dispatchKey_entry (h : Spends 1 attempts rest) {entry : Word}
    (he : s.bus.peek (s.params.keyTable + word key.val) = entry) :
    (s.meeting attempts).dispatchKey k key =
      if entry.bit 15 = true then (s.meeting rest).directKey k (word (entry.toNat % 32768))
      else if entry.toNat % 32768 = 0 then (s.meeting rest).endDispatch k true
      else (s.meeting rest).actionKey k key (word (entry.toNat % 32768)) := by
  have hbits : entry.bits 0 15 = entry.toNat % 32768 := by simp [Word.bits]
  rw [← hbits, ← he]
  unfold State.dispatchKey
  rw [State.read_meeting h]
  rfl

theorem dispatchKey_fails (hq : s.bus.script = []) (hf : FailsWith a b f) :
    (s.meeting [a, b]).dispatchKey k key = (s.flagged f).endDispatch k true := by
  obtain ⟨out, hread, hword⟩ := State.read_meeting_fails hq hf (s.params.keyTable + word key.val)
  have hparams : (s.meeting [a, b]).params = s.params := rfl
  unfold State.dispatchKey
  rw [hparams, hread]
  cases out with
  | word w => exact absurd rfl (hword w)
  | timedOut => rfl
  | faulted seen => rfl

section

variable {entry : Word} (he : s.bus.peek (s.params.keyTable + word key.val) = entry)

include he

theorem dispatchKey_direct (h15 : entry.bit 15 = true) (h : Spends 1 attempts rest) :
    (s.meeting attempts).dispatchKey k key = (s.meeting rest).directKey k (word (entry.toNat % 32768)) :=
  (dispatchKey_entry h he).trans (if_pos h15)

theorem dispatchKey_unassigned (h15 : ¬ entry.bit 15 = true) (hlow : entry.toNat % 32768 = 0) (h : Spends 1 attempts rest) :
    (s.meeting attempts).dispatchKey k key = (s.meeting rest).endDispatch k true :=
  (dispatchKey_entry h he).trans ((if_neg h15).trans (if_pos hlow))

theorem dispatchKey_action (h15 : ¬ entry.bit 15 = true) (hlow : ¬ entry.toNat % 32768 = 0) (h : Spends 1 attempts rest) :
    (s.meeting attempts).dispatchKey k key = (s.meeting rest).actionKey k key (word (entry.toNat % 32768)) :=
  (dispatchKey_entry h he).trans ((if_neg h15).trans (if_neg hlow))

end

/-! ## What a dispatch leaves of its context (R144) -/

section

variable {u : State} {x : Terminal}

theorem changesTerm_endDispatch (hx : u.term k = x) : ChangesTerm u (u.endDispatch k true) k x.beeped.workEnded := by
  rw [← hx, ← Terminal.endWithBeep_eq]
  exact changesTerm_modify u k _

theorem changesTerm_endQuietly (hx : u.term k = x) : ChangesTerm u (u.endDispatch k false) k x.workEnded := by
  rw [← hx, ← Terminal.endWork_eq]
  exact changesTerm_modify u k _

theorem changesTerm_beginLoad (hx : u.term k = x) (page : Word) (origin : LoadOrigin) :
    ChangesTerm u (u.beginLoad k page origin) k { x with work := .pageLoad page origin } := by
  rw [← hx]
  exact changesTerm_modify u k _

theorem Terminal.clearAlert_eq (x : Terminal) : x.clearAlert =
    let y := { x with lamp := false, watches := x.watches.filter fun w => !w.tripped }
    if x.lamp then y.messageDirty else y := by
  simp only [Terminal.clearAlert, Terminal.markMessageRow_eq]

/-- CLEAR ALERT ends without a page load (R149). -/
theorem changesTerm_clearAlert (hx : u.term k = x) :
    ChangesTerm u ((u.modifyTerm k Terminal.clearAlert).endDispatch k false) k
      (let y := { x with lamp := false, watches := x.watches.filter fun w => !w.tripped }
      (if x.lamp then y.messageDirty else y).workEnded) := by
  have hu := (changesTerm_modify u k Terminal.clearAlert).modifyTerm Terminal.endWork
  rw [hx, Terminal.endWork_eq, Terminal.clearAlert_eq] at hu
  exact hu

end

theorem State.term_keyNotified (s : State) (k : Fin 16) (key : Fin 64) (action flags : Word) (j : Fin 16) :
    (s.keyNotified k key action flags).term j = s.term j := by
  unfold State.keyNotified
  split <;> rfl

theorem State.bus_keyNotified (s : State) (k : Fin 16) (key : Fin 64) (action flags : Word) :
    (s.keyNotified k key action flags).bus = s.bus := by
  unfold State.keyNotified
  split <;> rfl

end

/-! ## The command (R144) -/

section

variable {h : List HostWrite} {before s : State} {k : Fin 16} {key : Fin 64}

theorem exec_keyEntryRead_of_key (hs : s = before.hostWrites h) (hwork : (s.term k).work = .keyDispatch key) :
    exec (.keyEntryRead k h) before = .next (s.dispatchKey k key) := by
  show execKeyEntryRead k h before = _
  unfold execKeyEntryRead
  rw [← hs]
  dsimp only
  rw [hwork]

theorem exec_keyEntryRead_of_other (hs : s = before.hostWrites h) (hwork : ∀ key, (s.term k).work ≠ .keyDispatch key) :
    exec (.keyEntryRead k h) before = .next s := by
  show execKeyEntryRead k h before = _
  unfold execKeyEntryRead
  rw [← hs]
  dsimp only
  split
  · next key e => exact absurd e (hwork key)
  · rfl

end

/-- KEY_ENTRY_READ, with attempts told to come, leaves what `u` holds with one context changed. -/
def KeyMet (h : List HostWrite) (before : State) (k : Fin 16) (attempts : List Attempt) (u : State) (y : Terminal) : Prop :=
  ∃ t, exec (.keyEntryRead k h) (before.meeting attempts) = .next t ∧ ChangesTerm u t k y

/-- A key is in dispatch at a context, over a bus that completes every access, once the host's stores are made. -/
structure KeyInHand (h : List HostWrite) (before s : State) (k : Fin 16) (key : Fin 64) : Prop where
  stores : s = before.hostWrites h
  quiet : s.bus.script = []
  work : (s.term k).work = .keyDispatch key

namespace KeyInHand

variable {h : List HostWrite} {before s u v : State} {k : Fin 16} {key : Fin 64} {attempts : List Attempt} {x y : Terminal}

theorem met (hk : KeyInHand h before s k key) (hd : (s.meeting attempts).dispatchKey k key = v) (hu : ChangesTerm u v k y) :
    KeyMet h before k attempts u y :=
  ⟨_, (exec_keyEntryRead_of_key (State.meeting_of_hostWrites hk.stores attempts) hk.work).trans (congrArg _ hd), hu⟩

/-- The key is refused with a beep (R144, R145, R176). -/
theorem refused (hk : KeyInHand h before s k key) (hx : u.term k = x)
    (hd : (s.meeting attempts).dispatchKey k key = u.endDispatch k true) :
    KeyMet h before k attempts u x.beeped.workEnded := hk.met hd (changesTerm_endDispatch hx)

/-- A page is loaded unless the terminal is locked or the page lies at or beyond the page count (R145, R147, R150). -/
theorem shows {page : Word} {origin : LoadOrigin} (hk : KeyInHand h before s k key) (hx : u.term k = x) (hb : u.bus = s.bus)
    (hd : (s.meeting []).dispatchKey k key =
      if (u.term k).locked = true then u.endDispatch k true else u.loadIfCounted k page origin) :
    if x.locked = true ∨ (s.bus.peek 9).toNat ≤ page.toNat then KeyMet h before k [] u x.beeped.workEnded
    else KeyMet h before k [] u { x with work := .pageLoad page origin } := by
  have hcounted := loadIfCounted_counted (s := u) (k := k) (.untold 1) page origin
  rw [State.meeting_quiet (hb ▸ hk.quiet), hb] at hcounted
  rw [hx, hcounted] at hd
  split
  · next hor =>
    by_cases hl : x.locked = true
    · exact hk.refused hx (hd.trans (if_pos hl))
    · exact hk.refused hx (hd.trans ((if_neg hl).trans (if_pos (hor.resolve_left hl))))
  · next hor =>
    obtain ⟨hl, hc⟩ := not_or.1 hor
    exact hk.met (hd.trans ((if_neg hl).trans (if_neg hc))) (changesTerm_beginLoad hx page origin)

end KeyInHand

/-- Settles O53: the entry decides on the stage that follows, and at each stage a read may fail. -/
theorem keysAreDispatched : Obligations.KeysAreDispatched := by
  intro h before s k hs hq x
  refine ⟨exec_keyEntryRead_of_other hs, ?_⟩
  intro key hwork met becomes refused entry low show_ missed
  have hk : KeyInHand h before s k key := ⟨hs, hq, hwork⟩
  have hself : s.meeting [] = s := State.meeting_quiet hq
  refine ⟨fun a b f hf => hk.refused rfl (dispatchKey_fails hq hf), ?_⟩
  split
  · next hdirect =>
    refine ⟨hk.shows rfl rfl ?_, fun hl a b f hf => hk.refused rfl ?_⟩
    · rw [dispatchKey_direct rfl hdirect (.untold 1), hself]
      rfl
    · rw [dispatchKey_direct rfl hdirect (.told 1 _)]
      exact (if_neg (Bool.eq_false_iff.1 hl)).trans (loadIfCounted_fails hq hf _ _)
  · next hdirect =>
    split
    · next hlow =>
      refine hk.refused rfl ?_
      rw [dispatchKey_unassigned rfl hdirect hlow (.untold 1), hself]
    · next hlow =>
      intro first
      have haction : ∀ attempts rest, Spends 1 attempts rest →
          (s.meeting attempts).dispatchKey k key = (s.meeting rest).actionKey k key first :=
        fun _ _ hr => dispatchKey_action rfl hdirect hlow hr
      refine ⟨s.params.refusesRecord_iff first 4, ?_⟩
      split
      · next hfault =>
        refine hk.refused rfl ?_
        rw [haction _ _ (.untold 1), hself]
        exact actionKey_of_refused hfault
      · next hfault =>
        intro action flags page attrs notified
        have hterm : notified.term k = x := s.term_keyNotified k key (s.bus.peek first) flags k
        have hbus : notified.bus = s.bus := s.bus_keyNotified k key (s.bus.peek first) flags
        have hacts : ∀ attempts rest, Spends 5 attempts rest → (s.meeting attempts).dispatchKey k key =
            if action = 1 then (notified.meeting rest).showPage k page (flags.bit 0) ⟨attrs.bit 0, attrs.bit 1⟩
            else if action = 2 then (notified.meeting rest).backPage k
            else if action = 4 then ((notified.meeting rest).modifyTerm k Terminal.clearAlert).endDispatch k false
            else (notified.meeting rest).endDispatch k false := by
          intro attempts rest hr
          obtain ⟨mid, hmid, hrest⟩ := Spends.split (m := 1) (n := 4) hr
          rw [haction _ _ hmid, actionKey_read hfault hrest, actOn_eq, keyNotified_meeting]
          rfl
        have hact := hacts [] [] (.untold 5)
        rw [show notified.meeting [] = notified from State.meeting_quiet (hbus ▸ hq)] at hact
        refine ⟨fun j hj1 hj4 a b f hf => hk.refused rfl ?_, fun h1 hl a b f hf => hk.refused hterm ?_, ?_⟩
        · obtain ⟨j, rfl⟩ := Nat.exists_eq_add_of_le' hj1
          rw [List.replicate_succ, List.cons_append, haction _ _ (.one _)]
          exact actionKey_fails hfault hq hf (by omega)
        · rw [hacts _ [a, b] (.told 5 _), if_pos h1]
          refine (if_neg ?_).trans (loadIfCounted_fails (hbus ▸ hq) hf _ _)
          exact Bool.eq_false_iff.1 ((congrArg Terminal.locked hterm).trans hl)
        · split
          · next h1 => exact hk.shows hterm hbus (hact.trans (if_pos h1))
          · next h1 =>
            rw [if_neg h1] at hact
            split
            · next h2 =>
              rw [if_pos h2] at hact
              split
              · next hstack => exact hk.refused hterm (hact.trans (backPage_of_empty (by rw [hterm]; exact hstack)))
              · next hstack =>
                exact hk.met (hact.trans (backPage_of_top (by rw [hterm]; exact hstack))) (changesTerm_beginLoad hterm _ _)
            · next h2 =>
              rw [if_neg h2] at hact
              split
              · next h4 => exact hk.met (hact.trans (if_pos h4)) (changesTerm_clearAlert hterm)
              · next h4 => exact hk.met (hact.trans (if_neg h4)) (changesTerm_endQuietly hterm)

end Sys2Proof.Machine
end

section
/-! PROOF. Page loads (R147, R148, R150, R151, R154, R155): the reads of a page record, a load that fails, and one that
completes. -/

namespace Sys2Proof.Machine

/-! ## The page record (R151, R192, logs 23 and 38) -/

/-- The length of the title of a page record. -/
def State.titleLength (s : State) (first : Word) : Nat := min (s.bus.peek first).toNat 24

/-- The number of instrument entries of a page record. -/
def State.entryCount (s : State) (first : Word) : Nat := min (s.bus.peek (first + 13)).toNat 16

/-- The page record that stands at an offset. -/
def State.pageRecord (s : State) (first : Word) : PageRecord where
  title := charsOf ((List.range 12).map fun j => s.bus.peek (first + word (1 + j))) (s.titleLength first)
  entries := (List.range (s.entryCount first)).map fun j => Ix.ofNat? (s.bus.peek (first + word (14 + j))).toNat

section

variable {s : State} {k : Fin 16} {first page : Word} {origin : LoadOrigin} {attempts rest : List Attempt} {a b : Attempt}
  {f : ErrorFlag}

/-- The lengths of a page record are read first (log 38). -/
theorem readAll_pageLengths (h : Spends 2 attempts rest) :
    (s.meeting attempts).bus.readAll [first, first + 13] =
      ((s.meeting rest).bus, .words [s.bus.peek first, s.bus.peek (first + 13)]) :=
  State.readAll_meeting (ks := [first, first + 13]) h

/-- The words of its title that hold characters are read next (logs 23 and 38). -/
theorem readAll_pageTitle (h : Spends (wordsFor (s.titleLength first)) attempts rest) :
    (s.meeting attempts).bus.readAll
        ((List.range (wordsFor (s.titleLength first))).map fun j => first + word (1 + j)) =
      ((s.meeting rest).bus,
        .words ((List.range (wordsFor (s.titleLength first))).map fun j => s.bus.peek (first + word (1 + j)))) := by
  rw [State.readAll_meeting (by simpa using h), List.map_map]
  rfl

/-- A page record is read in three parts: its lengths, the words of its title, and its entries. -/
theorem readPage_read (h : Spends (2 + (wordsFor (s.titleLength first) + s.entryCount first)) attempts rest) :
    (s.meeting attempts).bus.readPage first = ((s.meeting rest).bus, some (s.pageRecord first)) := by
  obtain ⟨mid, hlengths, hbody⟩ := h.split
  obtain ⟨mid2, htitle, hentries⟩ := hbody.split
  have hread := State.readAll_meeting (s := s) (attempts := mid2) (rest := rest)
    (ks := (List.range (s.entryCount first)).map fun j => first + word (14 + j)) (by simpa using hentries)
  have hlength : s.titleLength first ≤ 2 * 12 := Nat.min_le_right _ _
  unfold Bus.readPage
  rw [readAll_pageLengths hlengths]
  dsimp only
  rw [← State.titleLength, ← State.entryCount, readAll_pageTitle htitle]
  dsimp only
  rw [hread]
  dsimp only
  rw [List.map_map, List.map_map, State.pageRecord, ← charsOf_wordsFor hlength]
  rfl

/-- The first read of a page record that fails ends its reading. -/
theorem readPage_fails (hq : s.bus.script = []) (hf : FailsWith a b f) {j : Nat}
    (hj : j < 2 + (wordsFor (s.titleLength first) + s.entryCount first)) :
    (s.meeting (List.replicate j .completes ++ [a, b])).bus.readPage first = ((s.flagged f).bus, none) := by
  unfold Bus.readPage
  by_cases h1 : j < 2
  · obtain ⟨out, hread, hwords⟩ := State.readAll_meeting_fails (ks := [first, first + 13]) hq hf h1
    rw [hread]
    cases out with
    | words ws => exact absurd rfl (hwords ws)
    | timedOut => rfl
    | faulted => rfl
  · obtain ⟨j, rfl⟩ := Nat.exists_eq_add_of_le (Nat.not_lt.1 h1)
    rw [List.replicate_add, List.append_assoc, readAll_pageLengths (.told 2 _)]
    dsimp only
    rw [← State.titleLength, ← State.entryCount]
    by_cases h2 : j < wordsFor (s.titleLength first)
    · obtain ⟨out, hread, hwords⟩ := State.readAll_meeting_fails
        (ks := (List.range (wordsFor (s.titleLength first))).map fun j => first + word (1 + j)) hq hf (by simpa using h2)
      rw [hread]
      cases out with
      | words ws => exact absurd rfl (hwords ws)
      | timedOut => rfl
      | faulted => rfl
    · obtain ⟨j, rfl⟩ := Nat.exists_eq_add_of_le (Nat.not_lt.1 h2)
      rw [List.replicate_add, List.append_assoc, readAll_pageTitle (.told _ _)]
      obtain ⟨out, hread, hwords⟩ := State.readAll_meeting_fails (j := j)
        (ks := (List.range (s.entryCount first)).map fun j => first + word (14 + j)) hq hf
        (by rw [List.length_map, List.length_range]; omega)
      dsimp only
      rw [hread]
      cases out with
      | words ws => exact absurd rfl (hwords ws)
      | timedOut => rfl
      | faulted => rfl

/-! ## A load that fails (R151) -/

theorem LoadOrigin.byKey_iff (origin : LoadOrigin) : origin.byKey = true ↔ origin ≠ .posting := by
  cases origin <;> simp [LoadOrigin.byKey]

theorem changesTerm_failLoad {u : State} {x : Terminal} (hx : u.term k = x) :
    ChangesTerm u (u.failLoad k origin) k (if origin ≠ .posting then x.beeped else x).workEnded := by
  have hended : (if origin.byKey then x.endWithBeep else x.endWork) =
      (if origin ≠ .posting then x.beeped else x).workEnded := by
    simp only [LoadOrigin.byKey_iff, Terminal.endWithBeep_eq, Terminal.endWork_eq, apply_ite Terminal.workEnded]
  have hu : ChangesTerm u (u.failLoad k origin) k
      (if origin.byKey then (u.term k).endWithBeep else (u.term k).endWork) := changesTerm_modify u k _
  rw [hx, hended] at hu
  exact hu

/-- A record that touches the anchor, bitmap or pool region is refused with its flag and notice (R176). -/
theorem loadRecord_of_refused (h : s.params.refusesRecord first 32 = true) :
    s.loadRecord k page origin first = (s.runtimeFault k first).failLoad k origin := if_pos h

theorem loadRecord_read (h : ¬ s.params.refusesRecord first 32 = true)
    (hs : Spends (2 + (wordsFor (s.titleLength first) + s.entryCount first)) attempts rest) :
    (s.meeting attempts).loadRecord k page origin first = (s.meeting rest).finishLoad k page origin (s.pageRecord first) := by
  refine (if_neg h).trans ?_
  rw [readPage_read hs]
  rfl

theorem loadRecord_fails (h : ¬ s.params.refusesRecord first 32 = true) (hq : s.bus.script = []) (hf : FailsWith a b f) {j : Nat}
    (hj : j < 2 + (wordsFor (s.titleLength first) + s.entryCount first)) :
    (s.meeting (List.replicate j .completes ++ [a, b])).loadRecord k page origin first = (s.flagged f).failLoad k origin := by
  refine (if_neg h).trans ?_
  rw [readPage_fails hq hf hj]
  rfl

/-- The page table offset and the page count are read before the record (log 38). -/
theorem loadPage_read (h : Spends 2 attempts rest) :
    (s.meeting attempts).loadPage k page origin =
      if min (s.bus.peek 9).toNat 256 ≤ page.toNat then (s.meeting rest).failLoad k origin
      else (s.meeting rest).loadRecord k page origin (s.bus.peek 8 + word (32 * page.toNat)) := by
  have hread := State.readAll_meeting (s := s) (ks := [pageTableWord, pageCountWord]) h
  unfold State.loadPage
  rw [hread]
  rfl

theorem loadPage_fails (hq : s.bus.script = []) (hf : FailsWith a b f) {j : Nat} (hj : j < 2) :
    (s.meeting (List.replicate j .completes ++ [a, b])).loadPage k page origin = (s.flagged f).failLoad k origin := by
  obtain ⟨out, hread, hwords⟩ := State.readAll_meeting_fails (ks := [pageTableWord, pageCountWord]) hq hf hj
  unfold State.loadPage
  rw [hread]
  cases out with
  | words ws => exact absurd rfl (hwords ws)
  | timedOut => rfl
  | faulted => rfl

/-! ## A load that completes (R155) -/

theorem finishLoad_of_locked (hl : origin ≠ .posting ∧ (s.term k).locked = true) (r : PageRecord) :
    s.finishLoad k page origin r = s.failLoad k origin :=
  if_pos (Bool.and_eq_true_iff.2 ⟨origin.byKey_iff.2 hl.1, hl.2⟩)

theorem finishLoad_of_open (hl : ¬ (origin ≠ .posting ∧ (s.term k).locked = true)) (r : PageRecord) :
    s.finishLoad k page origin r = s.completeLoad k page origin r :=
  if_neg fun e => hl ⟨origin.byKey_iff.1 (Bool.and_eq_true_iff.1 e).1, (Bool.and_eq_true_iff.1 e).2⟩

/-- The interest bits move in the store alone (R155 steps 2 and 3). -/
theorem moveInterest_rest (s : State) (t : Fin 16) (old new : List (Option Ix)) :
    ∃ store, s.moveInterest t old new = { s with store := store } := by
  have hfold : ∀ (flag : Bool) (l : List Ix) (u : State), (∃ store, u = { s with store := store }) →
      ∃ store, l.foldl (fun s i => s.setInterest t flag i) u = { s with store := store } := fun flag l u hu =>
    List.foldlRecOn l _ (motive := fun u => ∃ store, u = { s with store := store }) hu fun u hu i _ => by
      obtain ⟨store, rfl⟩ := hu
      exact ⟨_, rfl⟩
  exact hfold true _ _ (hfold false _ _ ⟨_, rfl⟩)

/-- The interest mask of a record after a load in one context (R155 steps 2 and 3). -/
def State.movedInterest (s : State) (k : Fin 16) (old new : List (Option Ix)) (j : Ix) : Vector Bool 16 :=
  Bank.tabulate fun q =>
    if q ≠ k then Bank.get (s.record j).interest q
    else if new.contains (some j) then true
    else if old.contains (some j) then false
    else Bank.get (s.record j).interest q

theorem record_moveInterest_eq (s : State) (k : Fin 16) (old new : List (Option Ix)) (j : Ix) :
    (s.moveInterest k old new).record j = { s.record j with interest := s.movedInterest k old new j } := by
  obtain ⟨v, hrecord, hothers, hown⟩ := s.record_moveInterest k old new j
  have hmask : v = s.movedInterest k old new j := Bank.ext fun q => by
    rw [State.movedInterest, Bank.get_tabulate]
    by_cases hq : q = k
    · subst hq
      rw [hown]
      by_cases hn : some j ∈ new <;> by_cases ho : some j ∈ old <;> simp [hn, ho]
    · rw [if_pos hq, hothers q hq]
  rw [hrecord, hmask]

theorem Terminal.showLoaded_eq (x : Terminal) (page : Word) (origin : LoadOrigin) (r : PageRecord) :
    x.showLoaded page origin r = Terminal.workEnded ({ x with
      stack := stackAfter x origin, mask := maskAfter x origin, page := some page, pageList := r.entries,
      title := r.title }.dirtied fun _ => true) := by
  rw [Terminal.showLoaded, Terminal.endWork_eq, Terminal.markAllRows, Terminal.markRows_eq]

/-- A load that completes changes its context and the interest masks (R155). -/
theorem completeLoad_changes {x : Terminal} (hx : s.term k = x) (r : PageRecord) {t : State}
    (ht : t = s.completeLoad k page origin r) :
    t = { s with store := t.store, terms := t.terms } ∧
    (∀ j, t.term j = if j = k then x.showLoaded page origin r else s.term j) ∧
    ∀ j, t.record j = { s.record j with interest := s.movedInterest k x.pageList r.entries j } := by
  obtain ⟨store, hmoved⟩ := moveInterest_rest s k x.pageList r.entries
  have hrecord := record_moveInterest_eq s k x.pageList r.entries
  rw [State.completeLoad, hx] at ht
  rw [hmoved] at ht hrecord
  obtain ⟨hrest, hterms⟩ := changesTerm_modify ({ s with store := store } : State) k fun x => x.showLoaded page origin r
  rw [← ht] at hrest hterms
  refine ⟨by rw [hrest], fun j => (hterms j).trans ?_, fun j => Eq.trans ?_ (hrecord j)⟩
  · rw [← hx]
    rfl
  · rw [hrest]
    rfl

end

/-! ## The command (R155) -/

section

variable {h : List HostWrite} {before s : State} {k : Fin 16} {page : Word} {origin : LoadOrigin}

theorem exec_pageLoadComplete_of_load (hs : s = before.hostWrites h) (hwork : (s.term k).work = .pageLoad page origin) :
    exec (.pageLoadComplete k h) before = .next (s.loadPage k page origin) := by
  show execPageLoadComplete k h before = _
  unfold execPageLoadComplete
  rw [← hs]
  dsimp only
  rw [hwork]

theorem exec_pageLoadComplete_of_other (hs : s = before.hostWrites h)
    (hwork : ∀ page origin, (s.term k).work ≠ .pageLoad page origin) : exec (.pageLoadComplete k h) before = .next s := by
  show execPageLoadComplete k h before = _
  unfold execPageLoadComplete
  rw [← hs]
  dsimp only
  split
  · next page origin e => exact absurd e (hwork page origin)
  · rfl

end

/-- The stack after a load completes (R147, R148). -/
theorem stackAfter_eq (x : Terminal) (origin : LoadOrigin) : stackAfter x origin =
    match origin, x.page with
    | .showPage true _, some p => ((p, x.mask) :: x.stack).take 4
    | .back _, _ => x.stack.drop 1
    | _, _ => x.stack := by
  unfold stackAfter
  cases origin with
  | directKey => rfl
  | showPage push bits => cases push <;> cases x.page <;> rfl
  | back mask => exact List.drop_one.symm
  | posting => rfl

/-- Settles O54: the load fails at the first check or read that fails, and otherwise completes in one step. -/
theorem pageLoadsComplete : Obligations.PageLoadsComplete := by
  intro h before s k hs hq x
  refine ⟨exec_pageLoadComplete_of_other hs, ?_⟩
  intro page origin hwork first byKey failed met fails missed
  have hself : s.meeting [] = s := State.meeting_quiet hq
  have hmet : ∀ {attempts} from_, from_.term k = x →
      (s.meeting attempts).loadPage k page origin = from_.failLoad k origin → met attempts from_ := fun {attempts} _ hx hd =>
    ⟨_, (exec_pageLoadComplete_of_load (State.meeting_of_hostWrites hs attempts) hwork).trans (congrArg _ hd),
      changesTerm_failLoad hx⟩
  have hunread : ∀ j, j < 2 → missed j := fun j hj a b f hf => hmet _ rfl (loadPage_fails hq hf hj)
  have hread : ∀ attempts rest, Spends 2 attempts rest → (s.meeting attempts).loadPage k page origin =
      if min (s.bus.peek 9).toNat 256 ≤ page.toNat then (s.meeting rest).failLoad k origin
      else (s.meeting rest).loadRecord k page origin first := fun _ _ => loadPage_read
  refine ⟨s.params.refusesRecord_iff first 32, hunread 0 (by omega), hunread 1 (by omega), ?_⟩
  split
  · next hcount => exact hmet s rfl (by rw [hread _ _ (.untold 2), if_pos hcount, hself])
  · next hcount =>
    simp only [if_neg hcount] at hread
    split
    · next hfault =>
      refine hmet _ rfl ?_
      rw [hread _ _ (.untold 2), hself]
      exact loadRecord_of_refused hfault
    · next hfault =>
      refine ⟨fun j hj a b f hf => ?_, ?_⟩
      · rcases Nat.lt_or_ge j 2 with hj2 | hj2
        · exact hunread j hj2 a b f hf
        · obtain ⟨j, rfl⟩ := Nat.exists_eq_add_of_le hj2
          refine hmet _ rfl ?_
          rw [List.replicate_add, List.append_assoc, hread _ _ (.told 2 _)]
          refine loadRecord_fails hfault hq hf ?_
          unfold wordsFor State.titleLength State.entryCount
          omega
      · have hloaded : s.loadPage k page origin = s.finishLoad k page origin (s.pageRecord first) := by
          have hfinish := (hread _ _ (.untold 2)).trans (loadRecord_read hfault (.untold _))
          rwa [hself] at hfinish
        split
        · next hlocked => exact hmet s rfl (by rw [hself, hloaded, finishLoad_of_locked hlocked])
        · next hopen =>
          rw [finishLoad_of_open hopen] at hloaded
          intro title entries stack mask
          obtain ⟨hrest, hterms, hrecords⟩ := completeLoad_changes (k := k) (page := page) (origin := origin) rfl
            (s.pageRecord first) rfl
          refine ⟨_, (exec_pageLoadComplete_of_load hs hwork).trans (congrArg _ hloaded), hrest, fun j => ?_, hrecords⟩
          rw [hterms j, Terminal.showLoaded_eq, stackAfter_eq]
          rfl

end Sys2Proof.Machine
end
